-- ==== Sys2Proof/Word.lean ====
section
/-! DEFINITION. The word types of the PK460 model: bytes, 16-bit and 32-bit words. -/

namespace Sys2Proof

/-- One byte of a window, a frame, a link word or a card response. -/
abbrev Byte := BitVec 8

/-- A 16-bit word: counters, checks, CRCs. -/
abbrev Half := BitVec 16

/-- A 32-bit word: a word of a window (R1), a CLOCK value (R3). -/
abbrev Word := BitVec 32

end Sys2Proof
end

