-- ==== Sys2Proof/Syntax.lean ====
section
/-! DEFINITION. The commands of the PK460: one constructor per row of spec/opcode_table.json. -/

namespace Sys2Proof

/-- A word of a host write to the staging window: the value and the four byte enables (R36). -/
abbrev StagingWord := Word × BitVec 4

/-- The steps of the part (spec/opcode_table.json). A step that takes a cell from an intake list, or an entry
from the receive FIFO, carries no operand for it: the operand stands in the state. -/
inductive Instr where
  /-- CLOCK_TICK, R3. -/
  | clockTick
  /-- CONTROL_RESET, R4: a write of CONTROL with RESET set; the operand is the IRQ_ENABLE bit of that write. -/
  | controlReset (irqEnable : Bool)
  /-- CONTROL_IRQ_ENABLE, R4: a write of CONTROL with RESET clear. -/
  | controlIrqEnable (enable : Bool)
  /-- ATTENTION_READ, R19. -/
  | attentionRead
  /-- ATTENTION_MASK_WRITE, R20: the word written and its byte enables. -/
  | attentionMaskWrite (value : Word) (enables : BitVec 4)
  /-- POST, R7: FILLED written to the hand of a cell. -/
  | post (cell : Fin 64)
  /-- WITHDRAW, R11: FREE written to the hand of a cell. -/
  | withdraw (cell : Fin 64)
  /-- RETURN, R13: FREE written to the hand of a cell. -/
  | returnCell (cell : Fin 64)
  /-- EXCHANGE_WRITE, R1: one aligned word of the exchange window, by byte offset. -/
  | exchangeWrite (offset : Nat) (value : Word) (enables : BitVec 4)
  /-- CHANGE_MASK_CLEAR, R16: a write to the change mask of SR0 to SR8. -/
  | changeMaskClear (record : Fin 9) (value : Word) (enables : BitVec 4)
  /-- ORDER_CHANGE_MAP_CLEAR, R18: a write to SR8 bytes 16 to 19 (low) or 20 to 23 (high). -/
  | orderChangeMapClear (high : Bool) (value : Word) (enables : BitVec 4)
  /-- PART_RESET, R189: power-on, or a PCIe function reset. -/
  | partReset (powerOn : Bool)
  /-- AUTOLOAD_END, R184: the EEPROM acknowledged this many bytes from byte 0 on. -/
  | autoloadEnd (acked : Nat)
  /-- AUTOLOAD_TIMER_EXPIRY, R184: this many bytes had been read when the 100 ms passed. -/
  | autoloadTimerExpiry (acked : Nat)
  /-- STAGING_WRITE, R36: consecutive words of the staging window from a byte offset on. -/
  | stagingWrite (offset : Nat) (words : List StagingWord)
  /-- STAGING_READ, R37: consecutive words of the staging window from a byte offset on. -/
  | stagingRead (offset : Nat) (count : Nat)
  /-- PORT_GRANT, R39. -/
  | portGrant
  /-- PIXEL_RUN_RETURN, R176. -/
  | pixelRunReturn
  /-- CARD_READ, R59: slot n looks at a CARD_READ at the head of its list. -/
  | cardRead (slot : Fin 4)
  /-- CARD_RELEASE, R52. -/
  | cardRelease (slot : Fin 4)
  /-- SLOT_RESET, R55. -/
  | slotReset (slot : Fin 4)
  /-- RASTER_OPEN, R29. -/
  | rasterOpen
  /-- RASTER_SEAL, R30. -/
  | rasterSeal
  /-- PICTURE_FREE, R31. -/
  | pictureFree
  /-- PICTURE_INFO, R32. -/
  | pictureInfo
  /-- ORDER_OPEN, R81. -/
  | orderOpen
  /-- ORDER_AMEND, R83. -/
  | orderAmend
  /-- ORDER_PAY, R84. -/
  | orderPay
  /-- ORDER_CANCEL, R87. -/
  | orderCancel
  /-- ORDER_RETIRE, R94. -/
  | orderRetire
  /-- STATION_POWER, R149. -/
  | stationPower (station : Fin 3)
  /-- STATION_RELINK, R150. -/
  | stationRelink (station : Fin 3)
  /-- PROFILE_READ, R151. -/
  | profileRead (station : Fin 3)
  /-- PAYMENT_RESET, R111. -/
  | paymentReset
  /-- PAYMENT_LOOPBACK, R109. -/
  | paymentLoopback
  /-- SETTINGS_READ, R185. -/
  | settingsRead
  /-- SETTINGS_WRITE, R186. -/
  | settingsWrite
  /-- SETTINGS_STORE, R188. -/
  | settingsStore
  /-- STORE_PAGE_ACK, R188. -/
  | storePageAck
  /-- STORE_POLL_TIMEOUT, R188: how many bytes of the page in progress were acknowledged; all of them when it is
  the poll that failed. -/
  | storePollTimeout (acked : Nat)
  /-- DETECT_CLOSE, R44. -/
  | detectClose (slot : Fin 4)
  /-- DETECT_OPEN, R44. -/
  | detectOpen (slot : Fin 4)
  /-- REMOVAL, R53. -/
  | removal (slot : Fin 4)
  /-- WRITE_PROTECT_CHANGE, R44: the new level of the switch. -/
  | writeProtectChange (slot : Fin 4) (level : Bool)
  /-- SETTLE_TIMER_EXPIRY, R44. -/
  | settleTimerExpiry (slot : Fin 4)
  /-- OFF_INTERVAL_EXPIRY, R45. -/
  | offIntervalExpiry (slot : Fin 4)
  /-- RAMP_TIMER_EXPIRY, R45. -/
  | rampTimerExpiry (slot : Fin 4)
  /-- IDENTIFY_RESPONSE, R46: the 13 bytes of the response (R195). -/
  | identifyResponse (slot : Fin 4) (bytes : List Byte)
  /-- IDENTIFY_TIMEOUT, R46. -/
  | identifyTimeout (slot : Fin 4)
  /-- SET_MODE_RESPONSE, R48: the 3 bytes of the response (R195). -/
  | setModeResponse (slot : Fin 4) (bytes : List Byte)
  /-- SET_MODE_TIMEOUT, R48. -/
  | setModeTimeout (slot : Fin 4)
  /-- STATUS_RESPONSE, R48 and R67: the 3 bytes of the response (R195). -/
  | statusResponse (slot : Fin 4) (bytes : List Byte)
  /-- STATUS_TIMEOUT, R48 and R67. -/
  | statusTimeout (slot : Fin 4)
  /-- READ_BLOCKS_RESPONSE, R63: the 3 bytes of the response (R195). -/
  | readBlocksResponse (slot : Fin 4) (bytes : List Byte)
  /-- READ_BLOCKS_TIMEOUT, R63. -/
  | readBlocksTimeout (slot : Fin 4)
  /-- BLOCK_RECEIVED, R64: 512 bytes and the CRC received on each line in use, line 0 first. -/
  | blockReceived (slot : Fin 4) (data : List Byte) (crcs : List Half)
  /-- DATA_TIMEOUT, R64. -/
  | dataTimeout (slot : Fin 4)
  /-- LED_BLINK_TOGGLE, R50. -/
  | ledBlinkToggle (slot : Fin 4)
  /-- RX_CHARACTER, R100: the data bits as sampled, the parity sample and the first stop sample (true is mark). -/
  | rxCharacter (data : Byte) (parity : Bool) (stop : Bool)
  /-- BREAK_DETECTED, R102. -/
  | breakDetected
  /-- BREAK_HOLD_END, R102. -/
  | breakHoldEnd
  /-- TX_CHARACTER_DONE, R99. -/
  | txCharacterDone
  /-- TERMINAL_READY_CHANGE, R105: the level held for 5 ms. -/
  | terminalReadyChange (level : Bool)
  /-- ALERT_CHANGE, R106: the level held for 5 ms. -/
  | alertChange (level : Bool)
  /-- LOOPBACK_ENTRY_TAKE, R110. -/
  | loopbackEntryTake
  /-- LOOPBACK_TIMEOUT, R110. -/
  | loopbackTimeout
  /-- BREAK_ENTRY, R128. -/
  | breakEntry
  /-- FRAME_DROP, R114. -/
  | frameDrop
  /-- INTER_BYTE_TIMEOUT, R114. -/
  | interByteTimeout
  /-- ACCEPTED, R119. -/
  | accepted
  /-- APPROVED, R119. -/
  | approved
  /-- DECLINED, R119. -/
  | declined
  /-- UNKNOWN, R122. -/
  | unknown
  /-- COMPLETED, R121. -/
  | completed
  /-- REFUSED, R121. -/
  | refused
  /-- PONG, R125. -/
  | pong
  /-- ACTION_START, R118. -/
  | actionStart
  /-- AUTHORIZE_NO_TERMINAL, R118. -/
  | authorizeNoTerminal
  /-- ANSWER_TIMEOUT, R120. -/
  | answerTimeout
  /-- CUSTOMER_LIMIT_EXPIRY, R120. -/
  | customerLimitExpiry
  /-- DOUBT_QUERY_TIMEOUT, R124. -/
  | doubtQueryTimeout
  /-- PING_TIMER_EXPIRY, R125. -/
  | pingTimerExpiry
  /-- ABILITY_WORD, R134: the eight bytes of the word (R197). -/
  | abilityWord (station : Fin 3) (word : List Byte)
  /-- LINK_IDLE_WORD, R133. -/
  | linkIdleWord (station : Fin 3) (word : List Byte)
  /-- DAMAGED_WORD, R133. -/
  | damagedWord (station : Fin 3) (word : List Byte)
  /-- MESSAGE_DROP, R197: the ONLY or LAST word that completes the message. -/
  | messageDrop (station : Fin 3) (word : List Byte)
  /-- ENERGY_LOSS, R133. -/
  | energyLoss (station : Fin 3)
  /-- ABILITY_SEND_TIMER, R133. -/
  | abilitySendTimer (station : Fin 3)
  /-- EXCHANGE_TIMER_EXPIRY, R134. -/
  | exchangeTimerExpiry (station : Fin 3)
  /-- REST_EXPIRY, R136. -/
  | restExpiry (station : Fin 3)
  /-- WAKE_SENT, R149. -/
  | wakeSent (station : Fin 3)
  /-- PAGE, R139: the ONLY or LAST word that completes the message; so for the messages below. -/
  | page (station : Fin 3) (word : List Byte)
  /-- PAGE_TIMEOUT, R139. -/
  | pageTimeout (station : Fin 3)
  /-- ENGINE_STATUS_WORD, R142. -/
  | engineStatusWord (station : Fin 3) (word : List Byte)
  /-- LINE_REQUEST, R178. -/
  | lineRequest (station : Fin 3) (word : List Byte)
  /-- LINE_ACK, R146. -/
  | lineAck (station : Fin 3) (word : List Byte)
  /-- LINE_NAK, R146. -/
  | lineNak (station : Fin 3) (word : List Byte)
  /-- LINE_ANSWER_TIMEOUT, R146. -/
  | lineAnswerTimeout (station : Fin 3)
  /-- PANEL_DONE, R147. -/
  | panelDone (station : Fin 3) (word : List Byte)
  /-- COPY_OK, R147. -/
  | copyOk (station : Fin 3) (word : List Byte)
  /-- COPY_FAULT, R147. -/
  | copyFault (station : Fin 3) (word : List Byte)
  /-- LINE_HOLD_EXPIRY, R178. -/
  | lineHoldExpiry (station : Fin 3)
  /-- COPY_START, R160. -/
  | copyStart (station : Fin 3)
  /-- COPY_SELECTION, R158. -/
  | copySelection (station : Fin 3)
  /-- RENDER_GRANT, R177. -/
  | renderGrant
  /-- RX_START_EDGE, R100. -/
  | rxStartEdge
  /-- RX_FALSE_START, R100. -/
  | rxFalseStart
  /-- ALL_SPACE_FRAMING_ERROR, R102. -/
  | allSpaceFramingError
  /-- ASSEMBLY_ENTRY_TAKE, R114. -/
  | assemblyEntryTake
  /-- LINK_MESSAGE_WORD, R197: a whole FIRST or NEXT word. -/
  | linkMessageWord (station : Fin 3) (word : List Byte)
  /-- OVERCOAT_LINE_COMPLETION, R176. -/
  | overcoatLineCompletion
deriving DecidableEq, Repr

end Sys2Proof
end

