-- ==== Sys2Proof/Decode.lean ====
section
/-! DEFINITION. The command that a word spells by the bits of spec/opcode_table.json. -/

namespace Sys2Proof

/-- spec/opcode_table.json gives no row any bits (every row has "fields" empty and no "fixed"), so no word of any
length spells a command: commands reach the part as accesses, pin changes and events, not as words. -/
def decodeTableWord (_nbits _w : Nat) : Option Instr := none

end Sys2Proof
end

