-- ==== Sys2Proof/Config.lean ====
section
/-! DEFINITION. The values the guide leaves free. Each is a constant without a body: no proof can see what it is. -/

namespace Sys2Proof

/-- R81 step 4 answers BAD_FIELD "with the index of the crop field concerned" without saying which of the two
fields of the sum it is. The n-th such answer names the offset field (x0 or y0) where this is true and the size field
(cw or ch) where it is false. DESIGN CHOICE, log 22. -/
opaque Config.cropNamesOffset : Nat → Bool

/-- R155: the selections for different stations "may come in either order". The n-th time that more than one station has
a selection due, the one served is the station at this place, modulo their number, among them in ascending order. DESIGN
CHOICE, log 43. -/
opaque Config.nextStation : Nat → Nat

/-- R188: at a part reset the EEPROM holds the store "as far as it was written". The n-th reset that ends a store finds
this many bytes of the page in progress written, or the whole page where the number exceeds it. DESIGN CHOICE, log 44. -/
opaque Config.pageBytesAtReset : Nat → Nat

end Sys2Proof
end

