-- ==== Sys2Proof/Machine/State.lean ====
section
/-! DEFINITION. The state of the PK460: the enumerations of "Formats" (R190), the records each block keeps, the whole
state, and the state right after a part reset (R21, R41, R57, R76, R97, R112, R132, R153, R166, R181, R189). -/

namespace Sys2Proof.Machine

/-- Bytes by address, in one canonical form (`Mem.wf`): addresses strictly rising and no byte 0 listed, an unlisted
byte reads 0. Used for the DRAM (R22, log 7), the EEPROM (R184, log 8) and the bytes of a work cell (R192, which a part
reset sets to zero, R21). -/
abbrev Mem := List Host.Cell

/-! ## Exchange window -/

/-- The hand of a work cell (R5). -/
inductive Hand | free | filled | taken | answered
deriving DecidableEq, Repr

/-- Answer statuses (R14); NONE is the status of a taken cell (R10). -/
inductive Status
  | none | done | partly | badKind | badField | notFound | wrongState | noRoom | overLimit | busy | removed | aborted
  | declined | short | doubt | noTerminal
deriving DecidableEq, Repr

/-- The request kinds (R8, codes in R192). -/
inductive Kind
  | cardRead | cardRelease | slotReset
  | rasterOpen | rasterSeal | pictureFree | pictureInfo
  | orderOpen | orderAmend | orderPay | orderCancel | orderRetire
  | stationPower | stationRelink | profileRead
  | paymentReset | paymentLoopback
  | settingsRead | settingsWrite | settingsStore
deriving DecidableEq, Repr

/-- The window a stray write landed in (R2). -/
inductive Window | none | exchange | staging
deriving DecidableEq, Repr

/-- A work cell: the hand, its other 1,020 bytes by offset in the cell (R192), and whether a withdraw has been noted
against it since the take (R11). -/
structure WorkCell where
  hand : Hand
  mem : Mem
  withdrawNoted : Bool
deriving DecidableEq, Repr

/-- The change mask (bit n for group n) and the saturating change count of a status record (R15). -/
structure Marks where
  mask : Vector Bool 8
  count : Nat
deriving DecidableEq, Repr

/-- A running timer: the CLOCK value of its start and its duration in milliseconds (R3). -/
structure Timer where
  start : Word
  dur : Nat
deriving DecidableEq, Repr

/-- A picture or order handle: index and generation (R190). -/
structure Handle where
  index : Byte
  gen : Byte
deriving DecidableEq, Repr

/-! ## Staging -/

/-- Picture kinds. -/
inductive PicKind | raster | cardFile
deriving DecidableEq, Repr

/-- Picture states. -/
inductive PicState | cardFill | complete | torn | hostFill | sealed | doomed
deriving DecidableEq, Repr

/-- The fields of a picture in use (the table before R26); those of the other kind are 0. Its extent stands in the
Extent Table. -/
structure Picture where
  kind : PicKind
  state : PicState
  slot : Fin 4
  cardId : Word
  byteLen : Nat
  valid : Nat
  failed : Nat
  width : Nat
  height : Nat
  stride : Nat
  refs : Nat
deriving DecidableEq, Repr

/-- An entry of the Picture Table: its generation, and the picture while the entry is in use (R26). -/
structure PicEntry where
  gen : Byte
  pic : Option Picture
deriving DecidableEq, Repr

/-- An extent and the picture it belongs to (R23). -/
structure Extent where
  base : Nat
  pages : Nat
  pic : Fin 256
deriving DecidableEq, Repr

/-- An accepted word of a host write to the staging window (R36). -/
structure HostWord where
  offset : Nat
  value : Word
  enables : BitVec 4
deriving DecidableEq, Repr

/-- One access of the host window: the words of one host write or read within one 64-byte span (R38). -/
inductive HostAccess
  | write (words : List HostWord)
  | read (offset : Nat) (count : Nat)
deriving DecidableEq, Repr

/-- A run of consecutive pixels of one raster row (R174), with the address of its first byte. -/
structure PixelRun where
  row : Nat
  col : Nat
  len : Nat
  addr : Nat
deriving DecidableEq, Repr

/-- A pixel run that has been granted and has not come back; `live` is clear once its copy has ended (R40). -/
structure RunGrant where
  run : PixelRun
  bytes : List Byte
  live : Bool
deriving DecidableEq, Repr

/-- The staging port and its arbiter (R38, R39). -/
structure Port where
  inFlight : Option RunGrant
  hostWait : Nat
  turn : Fin 2
  hostQueue : List HostAccess
deriving DecidableEq, Repr

/-! ## Card slots, reads and channels -/

/-- The ten slot states (R44 to R55). -/
inductive SlotState
  | empty | settling | powering | identifying | tierSettle | ready | reading | releasing | removeReady | fault
deriving DecidableEq, Repr

/-- Slot fault causes (R49). -/
inductive SlotFault | none | unresponsive | noMode
deriving DecidableEq, Repr

/-- LED modes (R50). -/
inductive LedMode | off | green | greenBlink | amber | amberBlink
deriving DecidableEq, Repr

/-- Card bus tiers (R43). -/
inductive Tier | t0 | t1 | t2 | t3
deriving DecidableEq, Repr

/-- What the slot's one running timer measures (R44, R45, R46, R48, R63, R64, R67). -/
inductive SlotWait | settle | offInterval | ramp | identify | setMode | status | readBlocks | data
deriving DecidableEq, Repr

/-- The slot's running timer. -/
structure SlotTimer where
  kind : SlotWait
  timer : Timer
deriving DecidableEq, Repr

/-- The card record (R46); `wide` is set when the card gives 1-bit and 4-bit. -/
structure CardRecord where
  capacity : Nat
  wide : Bool
  t1 : Bool
  t2 : Bool
  t3 : Bool
  cardId : Word
deriving DecidableEq, Repr

/-- The phases of a read (R60). -/
inductive ReadPhase | waitChannel | issuing | receiving | checking | fallingBack | draining | failing
deriving DecidableEq, Repr

/-- Why a read is in CHECKING (R63, R64). -/
inductive CheckCause | command | timeout
deriving DecidableEq, Repr

/-- Which failed blocks still have to be put into the channel's buffer as markers: none, one block (R66), the rest of
the run (R67), or every block not yet placed (R71). -/
inductive Owed | none | block | run | rest
deriving DecidableEq, Repr

/-- A block run of a CARD_READ. -/
structure BlockRun where
  start : Nat
  count : Nat
deriving DecidableEq, Repr

/-- The read record (R60). -/
structure ReadRec where
  cell : Fin 64
  runs : List BlockRun
  curRun : Nat
  nextBlock : Nat
  nextPos : Nat
  attempts : Nat
  picture : Handle
  basePage : Nat
  placed : Nat
  failedList : List Nat
  failedTotal : Nat
  startTier : Tier
  channel : Option (Fin 2)
  phase : ReadPhase
  cause : CheckCause
  owed : Owed
  crcErrs : Nat
  timeouts : Nat
deriving DecidableEq, Repr

/-- Group 4 of a slot status record as last written (R56, R73). -/
structure ReadShown where
  active : Bool
  picture : Handle
  placed : Nat
  total : Nat
  failed : Nat
  crcErrs : Nat
  timeouts : Nat
deriving DecidableEq, Repr

/-- The other taken cell of a slot (R51). -/
inductive OtherCell
  | release (cell : Fin 64)
  | reset (cell : Fin 64)
deriving DecidableEq, Repr

/-- A Card Slot Controller. -/
structure Slot where
  detectClosed : Bool
  protectPin : Bool
  openTimer : Option Timer
  state : SlotState
  power : Bool
  timer : Option SlotTimer
  attempts : Nat
  record : Option CardRecord
  faultCause : SlotFault
  ledLit : Bool
  ledTimer : Option Timer
  settleLimit : Tier
  chosenWide : Bool
  tryTier : Tier
  busTier : Tier
  busWide : Bool
  workTier : Tier
  workWide : Bool
  threshold : Nat
  retries : Nat
  winTransfers : Nat
  winErrors : Nat
  crcErrs : Nat
  timeouts : Nat
  shown : ReadShown
  read : Option ReadRec
  otherCell : Option OtherCell
  lastCardId : Word
  removedReading : Bool
  removalCount : Nat
deriving DecidableEq, Repr

/-- Channel modes (R62). -/
inductive ChanMode | hold | share
deriving DecidableEq, Repr

/-- What a channel's block buffer holds while it is WAITING_PORT: the picture and position, and the 512 bytes of a good
block or none for a failed-block marker (R61, R65, R66). -/
structure BlockBuf where
  picture : Handle
  pos : Nat
  data : Option (List Byte)
deriving DecidableEq, Repr

/-- A Card Channel; `buffer` is none while it is EMPTY (R61). -/
structure Channel where
  owner : Option (Fin 4)
  mode : ChanMode
  buffer : Option BlockBuf
deriving DecidableEq, Repr

/-! ## Orders -/

/-- Order states; a FREE entry holds no order. -/
inductive OrderState | opened | authorizing | short | paid | printing | doubt | cancelling | settling | closed
deriving DecidableEq, Repr

/-- Order classes. -/
inductive OrderClass | normal | express
deriving DecidableEq, Repr

/-- Settle outcomes (R91). -/
inductive SettleOutcome | none | ok | voided | captureFailed
deriving DecidableEq, Repr

/-- Item states (R78). -/
inductive ItemState | waiting | active | done | failed | cancelled
deriving DecidableEq, Repr

/-- Print sizes. -/
inductive Size | s4 | s6 | s8
deriving DecidableEq, Repr

/-- Finishes. -/
inductive Finish | gloss | matte
deriving DecidableEq, Repr

/-- Rotations, degrees clockwise. -/
inductive Rotation | r0 | r90 | r180 | r270
deriving DecidableEq, Repr

/-- An order item. -/
structure Item where
  raster : Handle
  size : Size
  finish : Finish
  copies : Nat
  x0 : Nat
  y0 : Nat
  cw : Nat
  ch : Nat
  rotation : Rotation
  unitPrice : Nat
  state : ItemState
  done : Nat
  inFlight : Nat
  reserved : Nat
  failures : Nat
  refHeld : Bool
deriving DecidableEq, Repr

/-- An order; `payCell` is the TAKEN ORDER_PAY cell (R84). -/
structure Order where
  tag : Word
  cls : OrderClass
  promoted : Bool
  state : OrderState
  cancelPending : Bool
  items : List Item
  total : Nat
  authorised : Nat
  captured : Nat
  code : Option (List Byte)
  reason : Option Byte
  openTime : Word
  paidTime : Option Word
  firstStart : Option Word
  outcome : SettleOutcome
  failureLimit : Nat
  payCell : Option (Fin 64)
deriving DecidableEq, Repr

/-- An entry of the Order Table (R77). -/
structure OrderEntry where
  gen : Byte
  order : Option Order
deriving DecidableEq, Repr

/-- A HELD reservation entry: the order handle, item index, size and finish of one copy (R154). -/
structure Reservation where
  order : Handle
  item : Nat
  size : Size
  finish : Finish
deriving DecidableEq, Repr

/-! ## Payment side -/

/-- Parity settings (R98). -/
inductive Parity | none | odd | even | mark | space
deriving DecidableEq, Repr

/-- A line format: divisor, data bits, parity, stop bits (R98). -/
structure LineFormat where
  divisor : Nat
  dataBits : Nat
  parity : Parity
  stopBits : Nat
deriving DecidableEq, Repr

/-- Line states (R107). -/
inductive LineState | off | connected | loopback
deriving DecidableEq, Repr

/-- A byte on its way to the line: the byte, the serial number of the frame it belongs to, and whether it is the first
or the last byte of that frame (R113). -/
structure TxByte where
  byte : Byte
  serial : Nat
  first : Bool
  last : Bool
deriving DecidableEq, Repr

/-- An entry of the receive FIFO (R103) with the CLOCK value of its arrival (R114). -/
structure RxEntry where
  byte : Byte
  parity : Bool
  framing : Bool
  brk : Bool
  arrival : Word
deriving DecidableEq, Repr

/-- The receiver (R100 to R102): `resync` for a character taken from a space stop bit, `allSpace` once every sample up
to the first stop bit has read space. -/
inductive RxState
  | idle
  | receiving (start : Word) (resync : Bool) (allSpace : Bool)
  | breakHold
deriving DecidableEq, Repr

/-- A loopback from its take to its answer (R109, R110). -/
structure Loopback where
  cell : Fin 64
  length : Nat
  begun : Bool
  sentCount : Nat
  received : Nat
  mismatches : Nat
  flagged : Nat
  lastSent : Word
deriving DecidableEq, Repr

/-- Payment actions. -/
inductive PayAction | authorize | capture | void
deriving DecidableEq, Repr

/-- An action of the action queue (R116). -/
structure QueuedAction where
  order : Handle
  action : PayAction
  amount : Nat
  code : List Byte
deriving DecidableEq, Repr

/-- A record of the doubt list (R123). -/
structure DoubtRec where
  number : Nat
  order : Handle
  action : PayAction
  amount : Nat
  code : List Byte
deriving DecidableEq, Repr

/-- Where the current transaction came from. -/
inductive Origin | queue | doubt
deriving DecidableEq, Repr

/-- Phases of the current transaction. -/
inductive TxnPhase | sent | customer | querying
deriving DecidableEq, Repr

/-- The current transaction. `firstFrame` is the serial of the frame it was started with, whose first byte in the transmit
FIFO sets `sent` (R118); `frame` is the serial of its latest frame and `untransmitted` is set until that frame has been
transmitted, when the answer timeout starts (R113); `forAction` marks the doubt query of R118. -/
structure Txn where
  number : Nat
  order : Handle
  action : PayAction
  amount : Nat
  code : List Byte
  origin : Origin
  phase : TxnPhase
  attempts : Nat
  restartUsed : Bool
  sent : Bool
  firstFrame : Nat
  frame : Nat
  untransmitted : Bool
  answerTimer : Option Timer
  customerTimer : Option Timer
  forAction : Bool
deriving DecidableEq, Repr

/-- Assembly steps (R114). -/
inductive AsmStep | hunt | length | body | checkLow | checkHigh
deriving DecidableEq, Repr

/-- Frame assembly: the step, the length byte, the body bytes, the low check byte, the arrival of the last entry taken
and the inter-byte limit in use for this frame (R114, R130). -/
structure Assembly where
  step : AsmStep
  len : Nat
  body : List Byte
  low : Byte
  last : Word
  limit : Nat
deriving DecidableEq, Repr

/-- The engine's timer values, in milliseconds but for the retry count (R130). -/
structure PayValues where
  answerTimeout : Nat
  customerLimit : Nat
  queryRetries : Nat
  pingInterval : Nat
  interByte : Nat
deriving DecidableEq, Repr

/-- The Payment Line and the Payment Engine; `readyOut` is the READY output (R107). -/
structure Pay where
  line : LineState
  fmt : LineFormat
  pendingFmt : Option LineFormat
  present : Bool
  changeLatch : Bool
  absentSince : Option Word
  alertLevel : Bool
  alertLatch : Bool
  readyPin : Bool
  alertPin : Bool
  readyOut : Bool
  overrun : Bool
  parityErr : Bool
  framingErr : Bool
  breakErr : Bool
  txFifo : List TxByte
  txChar : Option TxByte
  txStart : Word
  outBytes : List TxByte
  frameSerial : Nat
  rxFifo : List RxEntry
  rx : RxState
  loop : Option Loopback
  queue : List QueuedAction
  current : Option Txn
  doubts : List DoubtRec
  nextNumber : Nat
  preQuery : Bool
  pingTimer : Option Timer
  asm : Assembly
  values : PayValues
  pendingValues : Option PayValues
  framesDropped : Nat
  staleAnswers : Nat
  timeoutsCount : Nat
deriving DecidableEq, Repr

/-! ## Stations and rendering -/

/-- Station states. -/
inductive StationState | absent | linking | profiling | ready | printing | paused | standby | fault
deriving DecidableEq, Repr

/-- Pause causes. -/
inductive PauseCause | none | cover | jam | noMedia | hot
deriving DecidableEq, Repr

/-- Station fault causes. -/
inductive StationFault | none | profile | linkErrors | engine
deriving DecidableEq, Repr

/-- Link down causes (R136). -/
inductive DownCause | none | energy | peer | linkErrors | profile | engine | relink | wake
deriving DecidableEq, Repr

/-- Link rates. -/
inductive LinkRate | none | lrA | lrB
deriving DecidableEq, Repr

/-- Ribbon types. -/
inductive Ribbon | none | panel4 | panel6 | panel8
deriving DecidableEq, Repr

/-- Engine conditions. -/
inductive EngineCond | idle | printing | jam | coverOpen | noMedia
deriving DecidableEq, Repr

/-- Panels, in their order. -/
inductive Panel | y | m | c | o
deriving DecidableEq, Repr

/-- Panel phases. -/
inductive PanelPhase | waitStart | inPanel | waitOk
deriving DecidableEq, Repr

/-- Copy outcomes. -/
inductive CopyOutcome | none | completed | link | underrun | engine
deriving DecidableEq, Repr

/-- The engine's abilities as recorded at link-up (R135): the flags byte with ACK clear, and the fields after it. -/
structure Abilities where
  flags : Byte
  width : Byte
  ribbon : Byte
  maxRate : Nat
deriving DecidableEq, Repr

/-- A head profile in use (R141): identifier, whether each region came from the engine, the 16 fields of region 0 in
the order of R199, and the three tone tables. -/
structure Profile where
  ident : Nat
  fromEngine : List Bool
  scalars : List Int
  toneY : List Int
  toneM : List Int
  toneC : List Int
deriving DecidableEq, Repr

/-- A profile load in progress (R138 to R140); a request is always awaiting its answer. -/
structure Load where
  page : Nat
  toggle : Bool
  mismatch : Bool
  timer : Timer
  regions : Nat
  ident : Nat
  gathered : List Byte
  passed : List (List Byte)
deriving DecidableEq, Repr

/-- The engine status word (R142). -/
structure EngineStatus where
  temp : Nat
  coverClosed : Bool
  paperPresent : Bool
  ribbon : Ribbon
  ribbonLeft : Nat
  paperLeft : Nat
  mediaCounter : Nat
  cond : EngineCond
deriving DecidableEq, Repr

/-- The media account (R143); reserved is 1 exactly when `reservation` is present. -/
structure Account where
  ribbonLeft : Nat
  paperLeft : Nat
  ribbon : Ribbon
  mediaCounter : Nat
  reservation : Option Reservation
deriving DecidableEq, Repr

/-- The copy record (the table before R144); `answer` runs while a LINE awaits its answer (R146). -/
structure Copy where
  seq : Nat
  order : Handle
  item : Nat
  size : Size
  finish : Finish
  lines : Nat
  panel : Panel
  phase : PanelPhase
  nextLine : Nat
  failedAnswers : Nat
  answer : Option Timer
deriving DecidableEq, Repr

/-- A Station Controller. -/
structure Station where
  state : StationState
  pauseCause : PauseCause
  faultCause : StationFault
  downCause : DownCause
  rest : Option Timer
  lastWord : Option Word
  sendTimer : Option Timer
  settleCount : Nat
  prevWord : Option (List Byte)
  ack : Bool
  exchangeTimer : Option Timer
  rate : LinkRate
  abilities : Option Abilities
  msg : Option (List Byte)
  winTransfers : Nat
  winErrors : Nat
  load : Option Load
  profile : Option Profile
  status : Option EngineStatus
  statusSeen : Bool
  account : Account
  copy : Option Copy
  nextSeq : Nat
  takenCell : Option (Fin 64)
  wake : Option DownCause
  outcome : CopyOutcome
  reason : Byte
  naks : Nat
  downs : Nat
  stales : Nat
  damaged : Nat
deriving DecidableEq, Repr

/-- States of a line bank (R175). -/
inductive BankState | empty | filling | ready | sending
deriving DecidableEq, Repr

/-- A line bank: its state, header and pulse values. -/
structure Bank where
  state : BankState
  seq : Nat
  panel : Panel
  line : Nat
  values : List Nat
deriving DecidableEq, Repr

/-- A held LINE_REQUEST: its line, when it arrived and its hold timer (R178). -/
structure HeldRequest where
  line : Nat
  arrival : Word
  timer : Timer
deriving DecidableEq, Repr

/-- What the Render Engine keeps for one station. -/
structure Head where
  temp : Nat
  factor : Int
  history : List Nat
  cursor : Option Nat
  banks : Vector Bank 2
  held : Option HeldRequest
deriving DecidableEq, Repr

/-- A pixel fetched for the line being rendered. -/
structure Pixel where
  x : Nat
  y : Nat
  r : Byte
  g : Byte
  b : Byte
deriving DecidableEq, Repr

/-- The line being rendered (R176): the runs still to fetch, of which the first is asked for at the port or is in
flight, and the pixels fetched so far. -/
structure RenderJob where
  station : Fin 3
  seq : Nat
  panel : Panel
  line : Nat
  bank : Fin 2
  runs : List PixelRun
  fetched : List Pixel
deriving DecidableEq, Repr

/-! ## Settings -/

/-- The settings, or a snapshot of them, in eleven parts: sections 0 to 3, then parts 0 to 6 of section 4 (R182). Each
part is the list of its fields in the order of R199. -/
abbrev Settings := Vector (List Int) 11

/-- A store in progress (R188): its cell, snapshot, the EEPROM offset of the page in progress, whether that page is the
header's, and the poll timer. -/
structure Store where
  cell : Fin 64
  image : Settings
  page : Nat
  header : Bool
  poll : Timer
deriving DecidableEq, Repr

/-! ## What the part puts out -/

/-- What the part puts out: MSIs (R20), the answers of reads of ATTENTION and of the staging window (R19, R37),
card commands (R195), link words (R197), characters on the transmit pin with their parity bit (R98, R99) and EEPROM page
writes (R188). -/
inductive Output
  | msi
  | attention (value : BitVec 12)
  | stagingData (offset : Nat) (bytes : List Byte)
  | card (slot : Fin 4) (bytes : List Byte)
  | link (station : Fin 3) (words : List (List Byte))
  | character (byte : Byte) (parity : Option Bool)
  | eeprom (offset : Nat) (bytes : List Byte)
deriving DecidableEq, Repr

/-- The faults of the model. -/
inductive Fault
  /-- A host write named a byte offset outside the 128 KiB exchange window. Raised by EXCHANGE_WRITE. Safe: the endpoint
  delivers no such access to this window. -/
  | outsideExchangeWindow
  /-- A host access named bytes outside the 256 MiB staging window. Raised by STAGING_WRITE and STAGING_READ. Safe: the
  endpoint delivers no such access to this window. -/
  | outsideStagingWindow
deriving DecidableEq, Repr

/-- The refusals of the model. -/
inductive Refusal
  /-- No meaning has been given to this command. Raised by no arm of `exec`. Safe. -/
  | notModelled (mnemonic : String)
deriving DecidableEq, Repr

/-! ## The whole state -/

/-- The state of the part. -/
structure State where
  pending : List Instr
  clock : Word
  running : Bool
  irqEnable : Bool
  attentionMask : BitVec 12
  stray : Bool
  started : Bool
  strayWindow : Window
  strayOffset : Nat
  cells : Vector WorkCell 64
  intake : Vector (List (Fin 64)) 11
  marks : Vector Marks 9
  orderMap : Vector Bool 48
  revisions : Vector Half 48
  msiAllowed : Bool
  extents : List Extent
  freePages : Nat
  pictures : Vector PicEntry 256
  dram : Mem
  port : Port
  slots : Vector Slot 4
  channels : Vector Channel 2
  chanWait : List (Fin 4)
  orders : Vector OrderEntry 48
  pay : Pay
  stations : Vector Station 3
  reservations : Vector (Option Reservation) 3
  heads : Vector Head 3
  job : Option RenderJob
  settings : Settings
  source : Option (Fin 5)
  autoload : Option Timer
  store : Option Store
  eeprom : Mem
  sent : List Output
  cropChoices : Nat
  stationChoices : Nat
  resetChoices : Nat
deriving DecidableEq, Repr

/-! ## Reset values -/

/-- Entries of a default tone table: entry i holds 4 × i (R183). -/
def defaultTone (from_ : Nat) : List Int := (List.range 128).map fun i => 4 * ((from_ + i : Nat) : Int)

/-- The built-in default sections (R183). -/
def defaultSettings : Settings :=
  #v[[3, 3, 3, 3, 1, 1, 1, 1, 4, 2, 0, 0],
    [192, 8, 0, 1, 1500, 120, 3, 10, 50],
    List.replicate 15 0,
    [120, 3, 25, 58, 8, 1024],
    [800, 64, 35, 4, 600, 600, 520, 1024, 0, 0, 0, 1024, 0, 0, 0, 1024],
    defaultTone 0, defaultTone 128, defaultTone 0, defaultTone 128, defaultTone 0, defaultTone 128]

/-- The line format after a part reset (R112). -/
def defaultFormat : LineFormat := ⟨192, 8, .none, 1⟩

/-- The engine's timer values for the default section 1 (R130). -/
def defaultPayValues : PayValues := ⟨1500, 120000, 3, 10000, 50⟩

/-- Assembly at rest (R114). -/
def asmHunt : Assembly := ⟨.hunt, 0, [], 0, 0, 0⟩

/-- The handle of nothing: index and generation 0. -/
def noHandle : Handle := ⟨0, 0⟩

/-- Group 4 of a slot record after a part reset (R57). -/
def resetShown : ReadShown := ⟨false, noHandle, 0, 0, 0, 0, 0⟩

/-- A slot after a part reset with its two switches as they are (R57, R76). -/
def resetSlot (detectClosed protectPin : Bool) : Slot where
  detectClosed := detectClosed
  protectPin := protectPin
  openTimer := none
  state := .empty
  power := false
  timer := none
  attempts := 0
  record := none
  faultCause := .none
  ledLit := false
  ledTimer := none
  settleLimit := .t0
  chosenWide := false
  tryTier := .t0
  busTier := .t0
  busWide := false
  workTier := .t0
  workWide := false
  threshold := 0
  retries := 0
  winTransfers := 0
  winErrors := 0
  crcErrs := 0
  timeouts := 0
  shown := resetShown
  read := none
  otherCell := none
  lastCardId := 0
  removedReading := false
  removalCount := 0

/-- The payment side after a part reset with its two pins as they are (R112, R132). -/
def resetPay (readyPin alertPin : Bool) : Pay where
  line := .off
  fmt := defaultFormat
  pendingFmt := none
  present := false
  changeLatch := false
  absentSince := none
  alertLevel := false
  alertLatch := false
  readyPin := readyPin
  alertPin := alertPin
  readyOut := false
  overrun := false
  parityErr := false
  framingErr := false
  breakErr := false
  txFifo := []
  txChar := none
  txStart := 0
  outBytes := []
  frameSerial := 0
  rxFifo := []
  rx := .idle
  loop := none
  queue := []
  current := none
  doubts := []
  nextNumber := 1
  preQuery := false
  pingTimer := none
  asm := asmHunt
  values := defaultPayValues
  pendingValues := none
  framesDropped := 0
  staleAnswers := 0
  timeoutsCount := 0

/-- A zero media account (R153). -/
def resetAccount : Account := ⟨0, 0, .none, 0, none⟩

/-- A station after a part reset (R153). -/
def resetStation : Station where
  state := .absent
  pauseCause := .none
  faultCause := .none
  downCause := .none
  rest := none
  lastWord := none
  sendTimer := none
  settleCount := 0
  prevWord := none
  ack := false
  exchangeTimer := none
  rate := .none
  abilities := none
  msg := none
  winTransfers := 0
  winErrors := 0
  load := none
  profile := none
  status := none
  statusSeen := false
  account := resetAccount
  copy := none
  nextSeq := 1
  takenCell := none
  wake := none
  outcome := .none
  reason := 0
  naks := 0
  downs := 0
  stales := 0
  damaged := 0

/-- An EMPTY line bank. -/
def emptyBank : Bank := ⟨.empty, 0, .y, 0, []⟩

/-- The 1,824 zeros of a cleared history line (R167). -/
def clearHistory : List Nat := List.replicate 1824 0

/-- A station's share of the Render Engine after a part reset and after every copy end (R180, R181). -/
def resetHead : Head := ⟨0, 0, clearHistory, none, #v[emptyBank, emptyBank], none⟩

/-- A channel after a part reset (R76). -/
def freeChannel : Channel := ⟨none, .hold, none⟩

/-- The port arbiter after a part reset (R41). A pixel run whose grant is in progress is dropped with those that wait, which
no rule says: DESIGN CHOICE, log 45. -/
def resetPort : Port := ⟨none, 0, 0, []⟩

/-- A zeroed work cell (R21). -/
def clearCell : WorkCell := ⟨.free, [], false⟩

/-- A status record without marks (R21). -/
def clearMarks : Marks := ⟨Vector.replicate 8 false, 0⟩

/-- The machine right after a part reset: the first event of start-up (R189), with the switches open, the input pins
deasserted, MSIs allowed by the host, DRAM and EEPROM without listed bytes, and the settings source DEFAULTS before the first
autoload end (DESIGN CHOICE, logs 7, 8, 10, 12). -/
def State.reset : State where
  pending := []
  clock := 0
  running := false
  irqEnable := false
  attentionMask := 0
  stray := false
  started := false
  strayWindow := .none
  strayOffset := 0
  cells := Vector.replicate 64 clearCell
  intake := Vector.replicate 11 []
  marks := Vector.replicate 9 clearMarks
  orderMap := Vector.replicate 48 false
  revisions := Vector.replicate 48 0
  msiAllowed := true
  extents := []
  freePages := 4096
  pictures := Vector.replicate 256 ⟨0, none⟩
  dram := []
  port := resetPort
  slots := Vector.replicate 4 (resetSlot false false)
  channels := Vector.replicate 2 freeChannel
  chanWait := []
  orders := Vector.replicate 48 ⟨0, none⟩
  pay := resetPay false false
  stations := Vector.replicate 3 resetStation
  reservations := Vector.replicate 3 none
  heads := Vector.replicate 3 resetHead
  job := none
  settings := defaultSettings
  source := none
  autoload := some ⟨0, 100⟩
  store := none
  eeprom := []
  sent := []
  cropChoices := 0
  stationChoices := 0
  resetChoices := 0

end Sys2Proof.Machine
end

