-- ==== Sys2Proof/Machine/Ops.lean ====
section
/-! DEFINITION. Shared operations: byte memories, byte order, sums and CRCs, timers, the codes of "Formats" (R190), and
the updates of one slot, station, channel, cell or order. -/

namespace Sys2Proof.Machine

/-! ## Tables -/

/-- The table whose entry i is `f i`. -/
def tab {α : Type} {n : Nat} (f : Fin n → α) : Vector α n := ⟨⟨List.ofFn f⟩, by simp⟩

/-! ## Byte memories -/

/-- The byte at an address; an unlisted byte reads 0. -/
def Mem.read : Mem → Nat → Byte
  | [], _ => 0
  | (k, v) :: t, a => if k = a then v else Mem.read t a

/-- Writes one byte and keeps the canonical form: a byte 0 is not listed. -/
def Mem.write : Mem → Nat → Byte → Mem
  | [], a, b => if b = 0 then [] else [(a, b)]
  | (k, v) :: t, a, b =>
    if a < k then (if b = 0 then (k, v) :: t else (a, b) :: (k, v) :: t)
    else if a = k then (if b = 0 then t else (a, b) :: t)
    else (k, v) :: Mem.write t a b

/-- Every listed address is above `lo`, addresses rise strictly, and no byte 0 is listed. -/
def Mem.wfAbove : Nat → Mem → Bool
  | _, [] => true
  | lo, (k, v) :: t => decide (lo ≤ k) && decide (v ≠ 0) && Mem.wfAbove (k + 1) t

/-- The canonical form. -/
def Mem.wf (m : Mem) : Bool := Mem.wfAbove 0 m

/-- Writes consecutive bytes from an address on, lowest first. -/
def Mem.writeBytes : Mem → Nat → List Byte → Mem
  | m, _, [] => m
  | m, a, b :: bs => Mem.writeBytes (Mem.write m a b) (a + 1) bs

/-- `n` consecutive bytes from an address on. -/
def Mem.readBytes (m : Mem) (a n : Nat) : List Byte := (List.range n).map fun i => m.read (a + i)

/-! ## Byte order (R190) -/

/-- The `n` bytes of a number, least significant first. -/
def le : Nat → Nat → List Byte
  | 0, _ => []
  | n + 1, v => BitVec.ofNat 8 v :: le n (v / 256)

/-- The number that bytes spell, least significant first. -/
def unle : List Byte → Nat
  | [] => 0
  | b :: bs => b.toNat + 256 * unle bs

/-- A field of `n` bytes at an address. -/
def Mem.readLe (m : Mem) (a n : Nat) : Nat := unle (m.readBytes a n)

/-- A number in two's complement of `n` bytes. -/
def signed (n v : Nat) : Int := if 2 * v < 256 ^ n then v else (v : Int) - 256 ^ n

/-- The `n` bytes of a signed number in two's complement. -/
def leInt (n : Nat) (v : Int) : List Byte := le n (v % 256 ^ n).toNat

/-- The byte `i` of a list, 0 beyond its end. -/
def byteAt (bs : List Byte) (i : Nat) : Byte := bs.getD i 0

/-- A field of `n` bytes at offset `i` of a list. -/
def fieldLe (bs : List Byte) (i n : Nat) : Nat := unle ((bs.drop i).take n)

/-- A handle is two bytes, index first (R190). -/
def Handle.bytes (h : Handle) : List Byte := [h.index, h.gen]

/-- The number of a handle as a two-byte field. -/
def Handle.code (h : Handle) : Nat := h.index.toNat + 256 * h.gen.toNat

/-- A flag is one byte, 0 or 1 (R190). -/
def flag (b : Bool) : Nat := if b then 1 else 0

/-! ## Sums and CRCs -/

/-- The sum of bytes, exact. -/
def sumBytes : List Byte → Nat
  | [] => 0
  | b :: bs => b.toNat + sumBytes bs

/-- The bytes add to 0 modulo 256 (R195, R199). -/
def sumsToZero (bs : List Byte) : Bool := sumBytes bs % 256 == 0

/-- The byte that makes the sum 0 modulo 256. -/
def checkByte (bs : List Byte) : Byte := BitVec.ofNat 8 (256 - sumBytes bs % 256)

/-- The bits of a byte, most significant first. -/
def bitsMsb (b : Byte) : List Bool := (List.range 8).map fun i => b.getLsbD (7 - i)

/-- One bit of the CRC-16 with polynomial x^16 + x^12 + x^5 + 1 (R195). -/
def crc16Bit (c : Half) (bit : Bool) : Half :=
  if c.getLsbD 15 != bit then (c <<< 1) ^^^ 0x1021#16 else c <<< 1

/-- The CRC-16 of the bits a data line carried: initial value 0, no reflection, no final XOR (R195). -/
def crc16 (bits : List Bool) : Half := bits.foldl crc16Bit 0

/-- The bits one data line carries of a block: all of them at 1-bit width; at 4-bit width bit j of each half byte on
line j, high half first (R195). -/
def lineBits (wide : Bool) (line : Nat) (data : List Byte) : List Bool :=
  if wide then data.flatMap fun b => [b.getLsbD (4 + line), b.getLsbD line] else data.flatMap bitsMsb

/-- One bit of the CRC-8 with polynomial x^8 + x^2 + x + 1 (R197). -/
def crc8Bit (c : Byte) (bit : Bool) : Byte := if c.getLsbD 7 != bit then (c <<< 1) ^^^ 0x07#8 else c <<< 1

/-- The CRC-8 of bytes: initial value 0xFF, each byte most significant bit first (R197). -/
def crc8 (bs : List Byte) : Byte := (bs.flatMap bitsMsb).foldl crc8Bit 0xFF

/-! ## Times (R3) -/

/-- Milliseconds from an earlier CLOCK value to a later one, modulo 2 to the power 32. -/
def elapsed (now start : Word) : Nat := (now - start).toNat

/-- The timer has run for its duration. -/
def Timer.due (now : Word) (t : Timer) : Bool := decide (t.dur ≤ elapsed now t.start)

/-- A timer that may be stopped is running and due. -/
def timerDue (now : Word) : Option Timer → Bool
  | some t => t.due now
  | none => false

/-- `a` is the earlier of two different times, by their modular difference. -/
def earlier (a b : Word) : Bool := a != b && decide ((b - a).toNat < 2147483648)

/-- A 16-bit counter that saturates raised by one ("Counters" of spec/00_scope.md). -/
def sat16 (n : Nat) : Nat := if n < 65535 then n + 1 else n

/-! ## Codes (R190) -/

def Hand.code : Hand → Nat
  | .free => 0 | .filled => 1 | .taken => 2 | .answered => 3

def Status.code : Status → Nat
  | .none => 0 | .done => 1 | .partly => 2 | .badKind => 3 | .badField => 4 | .notFound => 5 | .wrongState => 6
  | .noRoom => 7 | .overLimit => 8 | .busy => 9 | .removed => 10 | .aborted => 11 | .declined => 12 | .short => 13
  | .doubt => 14 | .noTerminal => 15

def Window.code : Window → Nat
  | .none => 0 | .exchange => 1 | .staging => 2

def SlotState.code : SlotState → Nat
  | .empty => 0 | .settling => 1 | .powering => 2 | .identifying => 3 | .tierSettle => 4 | .ready => 5 | .reading => 6
  | .releasing => 7 | .removeReady => 8 | .fault => 9

def SlotFault.code : SlotFault → Nat
  | .none => 0 | .unresponsive => 1 | .noMode => 2

def LedMode.code : LedMode → Nat
  | .off => 0 | .green => 1 | .greenBlink => 2 | .amber => 3 | .amberBlink => 4

def Tier.code : Tier → Nat
  | .t0 => 0 | .t1 => 1 | .t2 => 2 | .t3 => 3

/-- The tier of a code; codes above 3 do not occur in settings (R183). -/
def Tier.ofCode : Nat → Tier
  | 0 => .t0 | 1 => .t1 | 2 => .t2 | _ => .t3

def PicKind.code : PicKind → Nat
  | .raster => 1 | .cardFile => 2

def PicState.code : PicState → Nat
  | .cardFill => 1 | .complete => 2 | .torn => 3 | .hostFill => 4 | .sealed => 5 | .doomed => 6

def OrderState.code : OrderState → Nat
  | .opened => 1 | .authorizing => 2 | .short => 3 | .paid => 4 | .printing => 5 | .doubt => 6 | .cancelling => 7
  | .settling => 8 | .closed => 9

def OrderClass.code : OrderClass → Nat
  | .normal => 0 | .express => 1

def SettleOutcome.code : SettleOutcome → Nat
  | .none => 0 | .ok => 1 | .voided => 2 | .captureFailed => 3

def ItemState.code : ItemState → Nat
  | .waiting => 0 | .active => 1 | .done => 2 | .failed => 3 | .cancelled => 4

def Size.code : Size → Nat
  | .s4 => 0 | .s6 => 1 | .s8 => 2

def Size.ofCode : Nat → Option Size
  | 0 => some .s4 | 1 => some .s6 | 2 => some .s8 | _ => none

def Finish.code : Finish → Nat
  | .gloss => 0 | .matte => 1

def Finish.ofCode : Nat → Option Finish
  | 0 => some .gloss | 1 => some .matte | _ => none

def Rotation.code : Rotation → Nat
  | .r0 => 0 | .r90 => 1 | .r180 => 2 | .r270 => 3

def Rotation.ofCode : Nat → Option Rotation
  | 0 => some .r0 | 1 => some .r90 | 2 => some .r180 | 3 => some .r270 | _ => none

def StationState.code : StationState → Nat
  | .absent => 0 | .linking => 1 | .profiling => 2 | .ready => 3 | .printing => 4 | .paused => 5 | .standby => 6
  | .fault => 7

def PauseCause.code : PauseCause → Nat
  | .none => 0 | .cover => 1 | .jam => 2 | .noMedia => 3 | .hot => 4

def StationFault.code : StationFault → Nat
  | .none => 0 | .profile => 1 | .linkErrors => 2 | .engine => 3

def DownCause.code : DownCause → Nat
  | .none => 0 | .energy => 1 | .peer => 2 | .linkErrors => 3 | .profile => 4 | .engine => 5 | .relink => 6 | .wake => 7

def LinkRate.code : LinkRate → Nat
  | .none => 0 | .lrA => 1 | .lrB => 2

def Ribbon.code : Ribbon → Nat
  | .none => 0 | .panel4 => 1 | .panel6 => 2 | .panel8 => 3

/-- The ribbon type of a code; a code that is not listed is no ribbon (log 28). -/
def Ribbon.ofCode : Nat → Ribbon
  | 1 => .panel4 | 2 => .panel6 | 3 => .panel8 | _ => .none

def EngineCond.code : EngineCond → Nat
  | .idle => 0 | .printing => 1 | .jam => 2 | .coverOpen => 3 | .noMedia => 4

def EngineCond.ofCode : Nat → Option EngineCond
  | 0 => some .idle | 1 => some .printing | 2 => some .jam | 3 => some .coverOpen | 4 => some .noMedia | _ => none

def Panel.code : Panel → Nat
  | .y => 0 | .m => 1 | .c => 2 | .o => 3

def Panel.ofCode : Nat → Option Panel
  | 0 => some .y | 1 => some .m | 2 => some .c | 3 => some .o | _ => none

/-- The panel after a panel, in the order Y, M, C, O. -/
def Panel.next : Panel → Option Panel
  | .y => some .m | .m => some .c | .c => some .o | .o => none

def CopyOutcome.code : CopyOutcome → Nat
  | .none => 0 | .completed => 1 | .link => 2 | .underrun => 3 | .engine => 4

def LineState.code : LineState → Nat
  | .off => 0 | .connected => 1 | .loopback => 2

def Parity.code : Parity → Nat
  | .none => 0 | .odd => 1 | .even => 2 | .mark => 3 | .space => 4

def Parity.ofCode : Nat → Parity
  | 1 => .odd | 2 => .even | 3 => .mark | 4 => .space | _ => .none

def PayAction.code : PayAction → Nat
  | .authorize => 1 | .capture => 2 | .void => 3

def Origin.code : Origin → Nat
  | .queue => 0 | .doubt => 1

def TxnPhase.code : TxnPhase → Nat
  | .sent => 0 | .customer => 1 | .querying => 2

/-! ## Updates of one part of the state -/

/-- Puts something out. -/
def State.emit (s : State) (o : Output) : State := { s with sent := s.sent ++ [o] }

def State.setSlot (s : State) (k : Fin 4) (x : Slot) : State := { s with slots := s.slots.set k x }

def State.modSlot (s : State) (k : Fin 4) (f : Slot → Slot) : State := s.setSlot k (f s.slots[k])

def State.setChannel (s : State) (c : Fin 2) (x : Channel) : State := { s with channels := s.channels.set c x }

def State.setCell (s : State) (c : Fin 64) (x : WorkCell) : State := { s with cells := s.cells.set c x }

def State.setIntake (s : State) (l : Fin 11) (x : List (Fin 64)) : State := { s with intake := s.intake.set l x }

def State.setStation (s : State) (n : Fin 3) (x : Station) : State := { s with stations := s.stations.set n x }

def State.modStation (s : State) (n : Fin 3) (f : Station → Station) : State := s.setStation n (f s.stations[n])

def State.setHead (s : State) (n : Fin 3) (x : Head) : State := { s with heads := s.heads.set n x }

def State.modHead (s : State) (n : Fin 3) (f : Head → Head) : State := s.setHead n (f s.heads[n])

def State.setOrder (s : State) (n : Fin 48) (x : OrderEntry) : State := { s with orders := s.orders.set n x }

def State.setPicture (s : State) (i : Fin 256) (x : PicEntry) : State := { s with pictures := s.pictures.set i x }

def State.modPay (s : State) (f : Pay → Pay) : State := { s with pay := f s.pay }

end Sys2Proof.Machine
end

