-- ==== Sys2Proof/Machine/Operands.lean ====
section
/-! DEFINITION. The forms operands come in: request kinds and bodies (R192), card bus commands and responses (R195),
terminal frames (R196), link words and messages (R197), settings parts (R199) and the settings read from them. -/

namespace Sys2Proof.Machine

/-! ## Work cells (R192) -/

/-- The kind a request code names, if any (R8, R192). -/
def Kind.ofCode : Nat → Option Kind
  | 0x10 => some .cardRead | 0x11 => some .cardRelease | 0x12 => some .slotReset
  | 0x20 => some .rasterOpen | 0x21 => some .rasterSeal | 0x22 => some .pictureFree | 0x23 => some .pictureInfo
  | 0x30 => some .orderOpen | 0x31 => some .orderAmend | 0x32 => some .orderPay | 0x33 => some .orderCancel
  | 0x34 => some .orderRetire
  | 0x40 => some .stationPower | 0x41 => some .stationRelink | 0x42 => some .profileRead
  | 0x50 => some .paymentReset | 0x51 => some .paymentLoopback
  | 0x60 => some .settingsRead | 0x61 => some .settingsWrite | 0x62 => some .settingsStore
  | _ => none

/-- The kind in a cell's header. -/
def WorkCell.kind (c : WorkCell) : Option Kind := Kind.ofCode (c.mem.read 4).toNat

/-- The unit number in a cell's header. -/
def WorkCell.unit (c : WorkCell) : Nat := (c.mem.read 5).toNat

/-- A field of the request body: offset and size in bytes. -/
def WorkCell.req (c : WorkCell) (offset size : Nat) : Nat := c.mem.readLe (32 + offset) size

/-- A handle in the request body. -/
def WorkCell.reqHandle (c : WorkCell) (offset : Nat) : Handle := ⟨c.mem.read (32 + offset), c.mem.read (33 + offset)⟩

/-- Bytes of the request body. -/
def WorkCell.reqBytes (c : WorkCell) (offset n : Nat) : List Byte := c.mem.readBytes (32 + offset) n

/-- The intake list of a kind and unit number; none when the unit is out of range (R7, R8). -/
def intakeOf (k : Kind) (unit : Nat) : Option (Fin 11) :=
  match k with
  | .cardRead | .cardRelease | .slotReset => if h : unit < 4 then some ⟨unit, by omega⟩ else none
  | .rasterOpen | .rasterSeal | .pictureFree | .pictureInfo => some 4
  | .orderOpen | .orderAmend | .orderPay | .orderCancel | .orderRetire => some 5
  | .stationPower | .stationRelink | .profileRead => if h : unit < 3 then some ⟨6 + unit, by omega⟩ else none
  | .paymentReset | .paymentLoopback => some 9
  | .settingsRead | .settingsWrite | .settingsStore => some 10

/-- The intake list of a slot. -/
def slotList (k : Fin 4) : Fin 11 := ⟨k.val, by omega⟩

/-- The intake list of a station. -/
def stationList (n : Fin 3) : Fin 11 := ⟨6 + n.val, by omega⟩

/-- The answer detail of BAD_FIELD, NOT_FOUND and OVER_LIMIT: field, list entry, field within the entry (R190). -/
def fieldDetail (field entry sub : Nat) : Nat := field + 256 * entry + 65536 * sub

/-- The detail of a field that is in no list. -/
def plainField (field : Nat) : Nat := fieldDetail field 0xFF 0xFF

/-! ## The card bus (R195) -/

/-- A command: its code, six argument bytes, and the check byte. -/
def cardCommand (code : Byte) (args : List Byte) : List Byte :=
  let body := code :: (args ++ List.replicate (6 - args.length) 0)
  body ++ [checkByte body]

def identifyCommand : List Byte := cardCommand 0x01 []

def setModeCommand (wide : Bool) (t : Tier) : List Byte :=
  cardCommand 0x02 [BitVec.ofNat 8 (flag wide), BitVec.ofNat 8 t.code]

def readBlocksCommand (start count : Nat) : List Byte := cardCommand 0x03 (le 4 start ++ le 2 count)

def stopCommand : List Byte := cardCommand 0x04 []

def statusCommand : List Byte := cardCommand 0x05 []

/-- The contents of a response with `n` content bytes; none when its length or its check is wrong, which is no response
(R195; log 20). Its code byte is not looked at: a response that arrives while one is awaited is taken as the response to
the last command sent (R42). -/
def responseContents (n : Nat) (bytes : List Byte) : Option (List Byte) :=
  if bytes.length = n + 2 && sumsToZero bytes then some ((bytes.drop 1).take n) else none

/-- The card record in the 11 content bytes of an IDENTIFY response; none when the record check fails or the capacity is
0 (R46, R195). -/
def cardRecordOf (c : List Byte) : Option CardRecord :=
  if sumsToZero c && fieldLe c 0 4 != 0 then
    some { capacity := fieldLe c 0 4, wide := (byteAt c 4).getLsbD 1, t1 := (byteAt c 5).getLsbD 1,
           t2 := (byteAt c 5).getLsbD 2, t3 := (byteAt c 5).getLsbD 3, cardId := BitVec.ofNat 32 (fieldLe c 6 4) }
  else none

/-- The block arrived whole: 512 bytes, and the CRC of every line in use matches (R64, R195). -/
def blockGood (wide : Bool) (data : List Byte) (crcs : List Half) : Bool :=
  data.length == 512 && crcs == (List.range (if wide then 4 else 1)).map fun j => crc16 (lineBits wide j data)

/-! ## The terminal frame (R113, R196) -/

/-- The bytes of a frame: the mark, the length, the body, and the 16-bit sum of length and body. -/
def frameBytes (body : List Byte) : List Byte :=
  let rest := BitVec.ofNat 8 body.length :: body
  0xC3 :: rest ++ le 2 (sumBytes rest)

/-- The bodies of the part's five message types (R196). -/
def authorizeBody (number amount : Nat) (order : Handle) : List Byte :=
  0x01 :: BitVec.ofNat 8 number :: le 4 amount ++ order.bytes

def queryBody (number : Nat) : List Byte := [0x02, BitVec.ofNat 8 number]

def captureBody (number : Nat) (code : List Byte) (amount : Nat) : List Byte :=
  0x03 :: BitVec.ofNat 8 number :: code ++ le 4 amount

def voidBody (number : Nat) (code : List Byte) : List Byte := 0x04 :: BitVec.ofNat 8 number :: code

def pingBody : List Byte := [0x05, 0x00]

/-- The terminal's messages with their fields (R115). -/
inductive TermMsg
  | accepted
  | approved (amount : Nat) (code : List Byte)
  | declined (reason : Byte)
  | unknown
  | completed
  | refused (reason : Byte)
  | pong
deriving DecidableEq, Repr

/-- The transaction number and message of a frame body; none when the type is not the terminal's or the length is not
the one of its type (R114, R196). -/
def termMsgOf (body : List Byte) : Option (Nat × TermMsg) :=
  let n := (byteAt body 1).toNat
  match (byteAt body 0).toNat with
  | 0x81 => if body.length = 2 then some (n, .accepted) else none
  | 0x82 => if body.length = 12 then some (n, .approved (fieldLe body 2 4) ((body.drop 6).take 6)) else none
  | 0x83 => if body.length = 3 then some (n, .declined (byteAt body 2)) else none
  | 0x84 => if body.length = 2 then some (n, .unknown) else none
  | 0x85 => if body.length = 2 then some (n, .completed) else none
  | 0x86 => if body.length = 3 then some (n, .refused (byteAt body 2)) else none
  | 0x87 => if body.length = 2 then some (n, .pong) else none
  | _ => none

/-! ## The station link (R197) -/

/-- What a received link word is, by itself. -/
inductive LinkWord
  | damaged
  | idle
  | ability (payload : List Byte)
  | only (payload : List Byte)
  | first (payload : List Byte)
  | next (payload : List Byte)
  | last (payload : List Byte)
deriving DecidableEq, Repr

/-- The word eight bytes spell; a failed check or an unlisted kind is a damaged word. -/
def linkWordOf (w : List Byte) : LinkWord :=
  if w.length = 8 && crc8 (w.take 7) == byteAt w 7 then
    let payload := (w.drop 1).take 6
    match (byteAt w 0).toNat with
    | 0x00 => .idle
    | 0x5A => .ability payload
    | 0x10 => .only payload
    | 0x11 => .first payload
    | 0x12 => .next payload
    | 0x13 => .last payload
    | _ => .damaged
  else .damaged

/-- The eight bytes of a word: the kind, the payload padded to six bytes, the check. -/
def linkWord (kind : Byte) (payload : List Byte) : List Byte :=
  let body := kind :: (payload ++ List.replicate (6 - payload.length) 0)
  body ++ [crc8 body]

/-- Cuts bytes into pieces of six, given at least as much fuel as there are pieces. -/
def sixes : Nat → List Byte → List (List Byte)
  | 0, _ => []
  | f + 1, bs => if bs.length ≤ 6 then [bs] else bs.take 6 :: sixes f (bs.drop 6)

/-- The words after the first of a message that does not fit one word. -/
def tailWords : List (List Byte) → List (List Byte)
  | [] => []
  | [p] => [linkWord 0x13 p]
  | p :: ps => linkWord 0x12 p :: tailWords ps

/-- The words of a message: ONLY, or FIRST, NEXT …, LAST. -/
def messageWords (type : Byte) (body : List Byte) : List (List Byte) :=
  let bytes := type :: le 2 body.length ++ body
  match sixes bytes.length bytes with
  | [] => []
  | [p] => [linkWord 0x10 p]
  | p :: ps => linkWord 0x11 p :: tailWords ps

/-- The idle word (R133, R197). -/
def idleWord : List Byte := linkWord 0x00 []

/-- The part's own ability word: LR-A and LR-B, version 1, and ACK when it has settled the engine's word (R134, R197). -/
def partAbilityWord (ack : Bool) : List Byte := linkWord 0x5A [if ack then 0x83 else 0x03, 0, 0, 0, 0, 1]

/-- The engine's messages with their fields (R197). -/
inductive EngineMsg
  | status (st : EngineStatus)
  | page (page : Nat) (toggle : Byte) (payload : List Byte) (sum : Nat)
  | lineRequest (seq panel line : Nat)
  | lineAck (seq panel line : Nat)
  | lineNak (seq panel line : Nat)
  | panelDone (seq panel : Nat)
  | copyOk (seq : Nat)
  | copyFault (seq : Nat) (reason : Byte)
deriving DecidableEq, Repr

/-- A page that ends a region (the table before R138). -/
def lastPage (page : Nat) : Bool := page == 2 || page == 18 || page == 34 || page == 50

/-- The status word in a STATUS body of 10 bytes; none for a condition code that is not listed. A temperature above
100 is taken as 100 (R142, R197). Bits 2 to 7
of the flags are not kept: DESIGN CHOICE, log 58. -/
def statusOf (b : List Byte) : Option EngineStatus :=
  match EngineCond.ofCode (byteAt b 9).toNat with
  | some cond =>
    some { temp := min 100 (byteAt b 0).toNat, coverClosed := (byteAt b 1).getLsbD 0,
           paperPresent := (byteAt b 1).getLsbD 1, ribbon := Ribbon.ofCode (byteAt b 2).toNat,
           ribbonLeft := fieldLe b 3 2, paperLeft := fieldLe b 5 2, mediaCounter := fieldLe b 7 2, cond := cond }
  | none => none

/-- The engine message a complete message spells: type byte, 2-byte body length, body. None when the type is not one of
the engine's, the body length is not the one of its type, or fewer body bytes came than the length says. Bytes after the
end of the message, zero or not, in its last word or in words too many, are left out of account (DESIGN CHOICE, log 54). -/
def engineMsgOf (bytes : List Byte) : Option EngineMsg :=
  let len := fieldLe bytes 1 2
  let b := (bytes.drop 3).take len
  if b.length ≠ len then none
  else
    match (byteAt bytes 0).toNat with
    | 0x40 => if len = 10 then (statusOf b).map .status else none
    | 0x41 =>
      let p := (byteAt b 0).toNat
      if len = (if lastPage p then 36 else 34) then
        some (.page p (byteAt b 1) ((b.drop 2).take 32) (fieldLe b 34 2))
      else none
    | 0x42 => if len = 5 then some (.lineRequest (fieldLe b 0 2) (byteAt b 2).toNat (fieldLe b 3 2)) else none
    | 0x43 => if len = 5 then some (.lineAck (fieldLe b 0 2) (byteAt b 2).toNat (fieldLe b 3 2)) else none
    | 0x44 => if len = 5 then some (.lineNak (fieldLe b 0 2) (byteAt b 2).toNat (fieldLe b 3 2)) else none
    | 0x45 => if len = 3 then some (.panelDone (fieldLe b 0 2) (byteAt b 2).toNat) else none
    | 0x46 => if len = 2 then some (.copyOk (fieldLe b 0 2)) else none
    | 0x47 => if len = 3 then some (.copyFault (fieldLe b 0 2) (byteAt b 2)) else none
    | _ => none

/-- What a received word amounts to with the message in progress `m` (R197). -/
inductive LinkEvent
  | damaged
  | idle
  | ability (payload : List Byte)
  | part (m : List Byte)
  | message (msg : EngineMsg)
  | dropped
deriving DecidableEq, Repr

/-- A completed message. -/
def completed (bytes : List Byte) : LinkEvent :=
  match engineMsgOf bytes with
  | some m => .message m
  | none => .dropped

/-- Classifies a word: FIRST starts a message (dropping an earlier one), NEXT extends it, ONLY and LAST complete one; a
NEXT or LAST with no message in progress counts as damaged (R197). An ONLY between FIRST and LAST is taken as the complete
message it is (DESIGN CHOICE, log 53). -/
def linkEventOf (m : Option (List Byte)) (w : List Byte) : LinkEvent :=
  match linkWordOf w, m with
  | .damaged, _ => .damaged
  | .idle, _ => .idle
  | .ability p, _ => .ability p
  | .first p, _ => .part p
  | .only p, _ => completed p
  | .next p, some b => .part (b ++ p)
  | .last p, some b => completed (b ++ p)
  | .next _, none => .damaged
  | .last _, none => .damaged

/-! ## Settings parts (R183, R199) -/

/-- How a field of a settings part is checked: an enumeration with its codes, a number with its range, or an overcoat
energy with range 0 to Emax. -/
inductive FieldKind
  | enum (codes : List Int)
  | num (lo hi : Int)
  | energy
deriving DecidableEq, Repr

/-- A field of a settings part: offset, size, whether it is signed, and its check. -/
structure FieldSpec where
  off : Nat
  size : Nat
  sgn : Bool
  kind : FieldKind
deriving DecidableEq, Repr

/-- An unsigned numeric field. -/
def numField (off size : Nat) (lo hi : Int) : FieldSpec := ⟨off, size, false, .num lo hi⟩

/-- An enumerated field of one byte. -/
def enumField (off : Nat) (codes : List Int) : FieldSpec := ⟨off, 1, false, .enum codes⟩

/-- Region 0 and section 4 part 0 (R198, R199). -/
def scalarSpec : List FieldSpec :=
  [numField 0 2 1 1023, numField 2 1 0 255, numField 3 1 10 60, numField 4 1 0 15,
   ⟨6, 2, false, .energy⟩, ⟨8, 2, false, .energy⟩, ⟨10, 2, false, .energy⟩] ++
  (List.range 9).map fun i => ⟨12 + 2 * i, 2, true, .num (-2048) 2047⟩

/-- 128 entries of a tone table. -/
def toneSpec : List FieldSpec := (List.range 128).map fun i => numField (2 * i) 2 0 1023

/-- The fields of each part, in the order that numbers them (R199, R200). -/
def partSpec (p : Fin 11) : List FieldSpec :=
  match p.val with
  | 0 => ((List.range 4).map fun i => numField i 1 1 3) ++ ((List.range 4).map fun i => enumField (4 + i) [0, 1]) ++
         [numField 8 1 1 32, numField 9 1 0 3, enumField 10 [0, 1], enumField 11 [0, 1]]
  | 1 => [numField 0 2 1 65535, enumField 2 [7, 8], enumField 3 [0, 1, 2, 3, 4], enumField 4 [1, 2],
          numField 6 2 100 10000, numField 8 2 10 600, numField 10 1 0 5, numField 12 2 1 600, numField 14 2 5 1000]
  | 2 => ((List.range 12).map fun i => numField (4 * i) 4 0 9999999) ++
         (List.range 3).map fun i => numField (48 + 2 * i) 2 0 9999
  | 3 => [numField 0 2 10 3600, numField 2 1 1 5, numField 4 2 5 500, numField 6 1 30 95, numField 7 1 1 255,
          numField 8 2 16 65535]
  | 4 => scalarSpec
  | _ => toneSpec

/-- The length of each part in bytes (R199). -/
def partLength (p : Fin 11) : Nat :=
  match p.val with
  | 0 => 12 | 1 => 16 | 2 => 54 | 3 => 10 | 4 => 30 | _ => 256

/-- The part a section number and a part number name, if any (R182, R185). -/
def partOf (sec part : Nat) : Option (Fin 11) :=
  if h : sec < 4 then (if part = 0 then some ⟨sec, by omega⟩ else none)
  else if sec = 4 then (if h' : part < 7 then some ⟨4 + part, by omega⟩ else none) else none

/-- The values of the fields in a part's bytes. -/
def readFields (spec : List FieldSpec) (bytes : List Byte) : List Int :=
  spec.map fun f => let v := fieldLe bytes f.off f.size; if f.sgn then signed f.size v else (v : Int)

/-- Lays fields out from position `pos` on, zeros between them and up to `len`. -/
def layFields (len : Nat) : Nat → List (FieldSpec × Int) → List Byte
  | pos, [] => List.replicate (len - pos) 0
  | pos, (f, v) :: t => List.replicate (f.off - pos) 0 ++ leInt f.size v ++ layFields len (f.off + f.size) t

/-- The bytes of a part. -/
def partBytes (p : Fin 11) (vals : List Int) : List Byte := layFields (partLength p) 0 ((partSpec p).zip vals)

/-- A number clamped to a range ("Arithmetic" of spec/00_scope.md). -/
def clampTo (lo hi v : Int) : Int := max lo (min hi v)

/-- A field clamped; `emax` bounds the overcoat energies (R183). -/
def clampField (emax : Int) (f : FieldSpec) (v : Int) : Int :=
  match f.kind with
  | .enum _ => v
  | .num lo hi => clampTo lo hi v
  | .energy => clampTo 0 emax v

/-- The Emax a part's own clamping gives: its first field, clamped to 1 to 1,023 (R186). -/
def partEmax (vals : List Int) : Int := clampTo 1 1023 (vals.getD 0 0)

/-- A part with every numeric field clamped (R183, R186). -/
def clampFields (spec : List FieldSpec) (vals : List Int) : List Int :=
  List.zipWith (clampField (partEmax vals)) spec vals

/-- The number of the first enumerated field whose value is not listed (R186). -/
def firstBadEnum (spec : List FieldSpec) (vals : List Int) : Option Nat :=
  (spec.zip vals).findIdx? fun fv => match fv.1.kind with
    | .enum codes => !codes.contains fv.2
    | _ => false

/-- The numbers of the fields that clamping changed, ascending (R186, R200). -/
def clampedFields (before after : List Int) : List Nat :=
  (List.range before.length).filter fun i => before.getD i 0 != after.getD i 0

/-- The parts of a section in order (R182). -/
def sectionParts (sec : Fin 5) : List (Fin 11) :=
  match sec.val with
  | 0 => [0] | 1 => [1] | 2 => [2] | 3 => [3] | _ => [4, 5, 6, 7, 8, 9, 10]

/-- The length of a section's contents (R199): 1,566 for section 4. -/
def sectionLength (sec : Fin 5) : Nat := ((sectionParts sec).map partLength).foldr (· + ·) 0

/-! ## The settings image (R188, R199, R200) -/

/-- The contents of a section: its parts one after the other (R199). -/
def sectionContents (img : Settings) (sec : Fin 5) : List Byte :=
  (sectionParts sec).flatMap fun p => partBytes p img[p]

/-- A section as the image holds it: length, contents, sum byte (R199). -/
def sectionBytes (img : Settings) (sec : Fin 5) : List Byte :=
  let c := sectionContents img sec
  le 2 (sectionLength sec) ++ c ++ [checkByte c]

/-- The image from byte 4 on: the five sections (R199). -/
def sectionsImage (img : Settings) : List Byte := (List.finRange 5).flatMap (sectionBytes img)

/-- The header a store writes: the settings signature and count 5 (R199, R200). -/
def headerBytes : List Byte := le 2 0x5AC1 ++ [5, 0]

/-- The length of a full image (R199). -/
def imageLength : Nat := 1677

/-- The offset after the page in progress: the next 32-byte boundary or the end of the image. -/
def Store.pageEnd (st : Store) : Nat := if st.header then 4 else min ((st.page / 32 + 1) * 32) imageLength

/-- The bytes of the page in progress (R188). -/
def Store.pageBytes (st : Store) : List Byte :=
  if st.header then headerBytes
  else ((sectionsImage st.image).drop (st.page - 4)).take (st.pageEnd - st.page)

/-! ## Reading the settings in force -/

/-- Field `i` of part `p` as it stands. -/
def setting (s : Settings) (p : Fin 11) (i : Nat) : Int := (s[p]).getD i 0

/-- Field `i` of part `p` as a count; every setting but the matrix is 0 or above. -/
def settingNat (s : Settings) (p : Fin 11) (i : Nat) : Nat := (setting s p i).toNat

/-- Section 0: the advertised tier of a slot (R47). -/
def advertised (s : Settings) (k : Fin 4) : Tier := Tier.ofCode (settingNat s 0 k.val)

/-- Section 0: 4-bit width allowed for a slot (R47). -/
def wideAllowed (s : Settings) (k : Fin 4) : Bool := settingNat s 0 (4 + k.val) == 1

/-- Section 0: the CRC window threshold (R68). -/
def crcThreshold (s : Settings) : Nat := settingNat s 0 8

/-- Section 0: the block retries (R66). -/
def blockRetries (s : Settings) : Nat := settingNat s 0 9

/-- Section 0: the mode of a channel (R61). -/
def channelMode (s : Settings) (c : Fin 2) : ChanMode := if settingNat s 0 (10 + c.val) = 1 then .share else .hold

/-- Section 1: the line format (R98). -/
def settingsFormat (s : Settings) : LineFormat :=
  ⟨max 1 (settingNat s 1 0), settingNat s 1 1, Parity.ofCode (settingNat s 1 2), settingNat s 1 3⟩

/-- Section 1: the engine's timer values in milliseconds (R130). -/
def settingsPayValues (s : Settings) : PayValues :=
  ⟨settingNat s 1 4, 1000 * settingNat s 1 5, settingNat s 1 6, 1000 * settingNat s 1 7, settingNat s 1 8⟩

/-- Section 2: the base or bulk price of a size and finish (R79, R199). -/
def price (s : Settings) (z : Size) (f : Finish) (bulk : Bool) : Nat :=
  settingNat s 2 (4 * z.code + 2 * f.code + flag bulk)

/-- Section 2: the bulk threshold of a size (R79). -/
def bulkThreshold (s : Settings) (z : Size) : Nat := settingNat s 2 (12 + z.code)

/-- Section 3: the wait limit in milliseconds (R157). -/
def waitLimit (s : Settings) : Nat := 1000 * settingNat s 3 0

/-- Section 3: the failure limit (R162). -/
def failureLimit (s : Settings) : Nat := settingNat s 3 1

/-- Section 3: the line hold limit (R178). -/
def holdLimit (s : Settings) : Nat := settingNat s 3 2

/-- Section 3: the hot limit (R145). -/
def hotLimit (s : Settings) : Nat := settingNat s 3 3

/-- Section 3: the link error threshold (R137). -/
def linkThreshold (s : Settings) : Nat := settingNat s 3 4

/-- Section 3: the link window (R137). -/
def linkWindow (s : Settings) : Nat := settingNat s 3 5

/-- Section 4: a tone table of 256 entries, from its two parts (R182). -/
def settingsTone (s : Settings) (lo hi : Fin 11) : List Int := s[lo] ++ s[hi]

end Sys2Proof.Machine
end

