-- ==== Sys2Proof/Machine/Flags.lean ====
section
/-! DEFINITION. What the part shows of itself: the fields of the status records and the order board (R193, R194), the
change marks they set (R15, R17, R18), ATTENTION and the MSI (R19, R20), and the exchange window read byte by byte. -/

namespace Sys2Proof.Machine

/-! ## Fields of the records -/

/-- A field of a record: offset, size in bytes, value. -/
structure Field where
  off : Nat
  size : Nat
  val : Nat
deriving DecidableEq, Repr

/-- The byte of the fields at an offset; 0 where no field lies. -/
def fieldByte : List Field → Nat → Byte
  | [], _ => 0
  | f :: t, o => if f.off ≤ o ∧ o < f.off + f.size then BitVec.ofNat 8 (f.val / 256 ^ (o - f.off)) else fieldByte t o

/-- The LED mode follows the slot state (R50). -/
def SlotState.led : SlotState → LedMode
  | .empty => .off
  | .ready => .green
  | .removeReady => .amber
  | .fault => .amberBlink
  | .settling | .powering | .identifying | .tierSettle | .reading | .releasing => .greenBlink

/-- The write-protect field: the switch, 0 in EMPTY (R44, R56). -/
def Slot.protectShown (x : Slot) : Bool := x.state != .empty && x.protectPin

/-- The tiers byte of a card record: bit n for Tn. -/
def CardRecord.tiersByte (c : CardRecord) : Nat := 2 * flag c.t1 + 4 * flag c.t2 + 8 * flag c.t3

/-- The six groups of a slot status record (R56, R193; widths: log 21). -/
def slotGroups (x : Slot) : List (List Field) :=
  [[⟨8, 1, x.state.code⟩, ⟨9, 1, x.faultCause.code⟩, ⟨10, 1, x.state.led.code⟩],
   (match x.record with
    | none => [⟨12, 1, 0⟩, ⟨13, 1, 0⟩, ⟨14, 1, 0⟩, ⟨16, 4, 0⟩, ⟨20, 4, 0⟩]
    | some c => [⟨12, 1, 1⟩, ⟨13, 1, if c.wide then 3 else 1⟩, ⟨14, 1, c.tiersByte⟩, ⟨16, 4, c.capacity⟩,
                 ⟨20, 4, c.cardId.toNat⟩]),
   [⟨24, 1, x.workTier.code⟩, ⟨25, 1, flag x.workWide⟩, ⟨26, 1, x.settleLimit.code⟩],
   [⟨27, 1, flag x.protectShown⟩],
   [⟨28, 1, flag x.shown.active⟩, ⟨30, 2, x.shown.picture.code⟩, ⟨32, 4, x.shown.placed⟩, ⟨36, 4, x.shown.total⟩,
    ⟨40, 4, x.shown.failed⟩, ⟨44, 2, x.shown.crcErrs⟩, ⟨46, 2, x.shown.timeouts⟩],
   [⟨48, 4, x.lastCardId.toNat⟩, ⟨52, 1, flag x.removedReading⟩, ⟨54, 2, x.removalCount⟩]]

/-- The link is UP: a link rate is in force (R135; log 24). -/
def Station.linkUp (x : Station) : Bool := x.rate != .none

/-- The source codes of the four regions: ENGINE 0, DEFAULT 1 (R190). -/
def Profile.sourceCodes (p : Profile) : List Nat := p.fromEngine.map fun e => flag (!e)

/-- The seven groups of a station status record (R152, R193). Byte 37 shows bits 0 and 1 of the engine's status flags and 0
in the others: DESIGN CHOICE, log 58. -/
def stationGroups (x : Station) : List (List Field) :=
  [[⟨8, 1, x.state.code⟩, ⟨9, 1, x.pauseCause.code⟩, ⟨10, 1, x.faultCause.code⟩, ⟨11, 1, x.downCause.code⟩,
    ⟨12, 1, flag x.rest.isSome⟩],
   [⟨16, 1, flag x.linkUp⟩, ⟨17, 1, x.rate.code⟩] ++
   (match x.abilities with
    | none => [⟨18, 1, 0⟩, ⟨19, 1, 0⟩, ⟨20, 1, 0⟩, ⟨22, 2, 0⟩]
    | some a => [⟨18, 1, a.flags.toNat⟩, ⟨19, 1, a.width.toNat⟩, ⟨20, 1, a.ribbon.toNat⟩, ⟨22, 2, a.maxRate⟩]),
   (match x.profile with
    | none => [⟨24, 1, 0⟩, ⟨25, 4, 0⟩, ⟨32, 4, 0⟩]
    | some p => [⟨24, 1, 1⟩, ⟨25, 4, unle (p.sourceCodes.map (BitVec.ofNat 8))⟩, ⟨32, 4, p.ident⟩]),
   (match x.status with
    | none => [⟨36, 1, 0⟩, ⟨37, 1, 0⟩, ⟨38, 1, 0⟩, ⟨39, 1, 0⟩, ⟨40, 2, 0⟩, ⟨42, 2, 0⟩, ⟨44, 2, 0⟩]
    | some w => [⟨36, 1, w.temp⟩, ⟨37, 1, flag w.coverClosed + 2 * flag w.paperPresent⟩, ⟨38, 1, w.ribbon.code⟩,
                 ⟨39, 1, w.cond.code⟩, ⟨40, 2, w.ribbonLeft⟩, ⟨42, 2, w.paperLeft⟩, ⟨44, 2, w.mediaCounter⟩]),
   [⟨48, 2, x.account.ribbonLeft⟩, ⟨50, 2, x.account.paperLeft⟩, ⟨52, 1, x.account.ribbon.code⟩,
    ⟨53, 1, flag x.account.reservation.isSome⟩, ⟨56, 2, x.account.mediaCounter⟩] ++
   (match x.account.reservation with
    | none => [⟨54, 1, 0⟩, ⟨58, 2, 0⟩]
    | some r => [⟨54, 1, r.item⟩, ⟨58, 2, r.order.code⟩]),
   (match x.copy with
    | none => [⟨60, 1, 0⟩, ⟨61, 1, 0⟩, ⟨62, 2, 0⟩, ⟨64, 2, 0⟩, ⟨66, 1, 0⟩]
    | some c => [⟨60, 1, 1⟩, ⟨61, 1, c.panel.code⟩, ⟨62, 2, c.seq⟩, ⟨64, 2, c.order.code⟩, ⟨66, 1, c.item⟩]) ++
   [⟨67, 1, x.outcome.code⟩, ⟨68, 1, x.reason.toNat⟩],
   [⟨72, 2, x.naks⟩, ⟨74, 2, x.downs⟩, ⟨76, 2, x.stales⟩, ⟨78, 2, x.damaged⟩]]

/-- The four bytes of each doubt record shown (R193). -/
def doubtFields : Nat → List DoubtRec → List Field
  | _, [] => []
  | o, d :: t => ⟨o, 1, d.number⟩ :: ⟨o + 1, 1, d.action.code⟩ :: ⟨o + 2, 2, d.order.code⟩ :: doubtFields (o + 4) t

/-- The six groups of SR7 (R107, R131, R193). -/
def payGroups (p : Pay) : List (List Field) :=
  [[⟨8, 1, p.line.code⟩, ⟨9, 1, p.fmt.dataBits⟩, ⟨10, 1, p.fmt.parity.code⟩, ⟨11, 1, p.fmt.stopBits⟩,
    ⟨12, 2, p.fmt.divisor⟩, ⟨14, 1, flag p.pendingFmt.isSome⟩],
   [⟨16, 1, flag p.present⟩, ⟨17, 1, flag p.changeLatch⟩, ⟨18, 1, flag p.alertLevel⟩, ⟨19, 1, flag p.alertLatch⟩,
    ⟨20, 1, flag p.absentSince.isSome⟩, ⟨24, 4, (p.absentSince.getD 0).toNat⟩],
   [⟨28, 1, flag p.overrun + 2 * flag p.parityErr + 4 * flag p.framingErr + 8 * flag p.breakErr⟩],
   (match p.current with
    | none => [⟨32, 1, 0⟩, ⟨33, 1, 0⟩, ⟨34, 1, 0⟩, ⟨35, 1, 0⟩, ⟨36, 2, 0⟩, ⟨38, 1, 0⟩, ⟨39, 1, 0⟩, ⟨40, 4, 0⟩]
    | some t => [⟨32, 1, 1⟩, ⟨33, 1, t.number⟩, ⟨34, 1, t.action.code⟩, ⟨35, 1, t.origin.code⟩, ⟨36, 2, t.order.code⟩,
                 ⟨38, 1, t.phase.code⟩, ⟨39, 1, t.attempts⟩, ⟨40, 4, t.amount⟩]),
   [⟨44, 1, p.queue.length⟩, ⟨45, 1, p.doubts.length⟩] ++ doubtFields 48 p.doubts,
   [⟨64, 2, p.framesDropped⟩, ⟨66, 2, p.staleAnswers⟩, ⟨68, 2, p.timeoutsCount⟩]]

/-- The order change map holds a bit. -/
def State.mapAny (s : State) : Bool := s.orderMap.toList.any id

/-- The settings source byte: 0 DEFAULTS, n + 1 for section n (R193). -/
def sourceCode : Option (Fin 5) → Nat
  | none => 0
  | some n => n.val + 1

/-- The four groups of SR8 (R17, R193). -/
def partGroups (s : State) : List (List Field) :=
  [[⟨8, 1, flag s.running⟩], [⟨9, 1, sourceCode s.source⟩], [⟨10, 2, s.freePages⟩], [⟨12, 1, flag s.mapAny⟩]]

/-- The groups of a status record as the state gives them once the part is RUNNING. -/
def liveGroups (s : State) (r : Fin 9) : List (List Field) :=
  match r with
  | 0 => slotGroups s.slots[0]
  | 1 => slotGroups s.slots[1]
  | 2 => slotGroups s.slots[2]
  | 3 => slotGroups s.slots[3]
  | 4 => stationGroups s.stations[0]
  | 5 => stationGroups s.stations[1]
  | 6 => stationGroups s.stations[2]
  | 7 => payGroups s.pay
  | 8 => partGroups s

/-- The groups of a status record. While the part is STARTING every record stays as the part reset zeroed it (R21). -/
def recordGroups (s : State) (r : Fin 9) : List (List Field) :=
  if s.running then liveGroups s r else (liveGroups s r).map fun g => g.map fun f => { f with val := 0 }

/-- The fields of an order board record but for its revision (R194); only state FREE, 0, when the entry holds no order
(log 13). -/
def orderFields (i : Fin 48) (e : OrderEntry) : List Field :=
  match e.order with
  | none => []
  | some o =>
    [⟨2, 2, (Handle.mk (BitVec.ofNat 8 i.val) e.gen).code⟩, ⟨4, 1, o.state.code⟩, ⟨5, 1, o.cls.code⟩,
     ⟨6, 1, flag o.promoted + 2 * flag o.cancelPending + 4 * flag o.code.isSome + 8 * flag o.reason.isSome +
       16 * flag o.paidTime.isSome + 32 * flag o.firstStart.isSome⟩,
     ⟨7, 1, o.items.length⟩, ⟨8, 4, o.tag.toNat⟩, ⟨12, 4, o.total⟩, ⟨16, 4, o.authorised⟩, ⟨20, 4, o.captured⟩,
     ⟨24, 6, unle (o.code.getD [])⟩, ⟨30, 1, (o.reason.getD 0).toNat⟩, ⟨31, 1, o.outcome.code⟩,
     ⟨32, 4, o.openTime.toNat⟩, ⟨36, 4, (o.paidTime.getD 0).toNat⟩, ⟨40, 4, (o.firstStart.getD 0).toNat⟩,
     ⟨44, 1, o.failureLimit⟩] ++
    itemFields 64 o.items
where
  /-- The eight bytes of each item, from an offset on. -/
  itemFields : Nat → List Item → List Field
    | _, [] => []
    | p, it :: t =>
      ⟨p, 1, it.state.code + 8 * it.size.code + 32 * it.finish.code + 64 * it.rotation.code⟩ ::
      ⟨p + 1, 1, it.copies + 128 * flag it.refHeld⟩ :: ⟨p + 2, 1, it.done⟩ :: ⟨p + 3, 1, it.inFlight⟩ ::
      ⟨p + 4, 1, it.reserved + 4 * it.failures⟩ :: ⟨p + 5, 3, it.unitPrice⟩ :: itemFields (p + 8) t

/-! ## Marks (R15, R17, R18) -/

/-- Group `g` of record `r` counts as changed between two states. SR8's groups 1 and 2 take their starting values
unmarked (R189); its group 3 changes only from empty to non-empty (R17; log 14). -/
def groupChanged (s t : State) (r : Fin 9) (g : Nat) : Bool :=
  let changed := decide ((recordGroups s r)[g]? ≠ (recordGroups t r)[g]?)
  if r = 8 ∧ (g = 1 ∨ g = 2) then s.running && changed
  else if r = 8 ∧ g = 3 then t.running && !s.mapAny && t.mapAny
  else changed

/-- A record's marks after its changed groups are marked and counted. -/
def Marks.raise (m : Marks) (ch : Fin 8 → Bool) : Marks :=
  { mask := tab fun g => m.mask[g] || ch g
    count := min 255 (m.count + ((List.finRange 8).filter ch).length) }

/-- The order's board record differs between two states. -/
def orderChanged (s t : State) (i : Fin 48) : Bool :=
  decide (orderFields i s.orders[i] ≠ orderFields i t.orders[i])

/-- R18: each changed record of the order board raises its revision and its map bit. -/
def boardMarked (s t : State) : State :=
  { t with revisions := tab fun i => if orderChanged s t i then t.revisions[i] + 1 else t.revisions[i]
           orderMap := tab fun i => t.orderMap[i] || orderChanged s t i }

/-- R15: each changed group of each status record is marked and counted. -/
def recordsMarked (s t : State) : State :=
  { t with marks := tab fun r => t.marks[r].raise fun g => groupChanged s t r g.val }

/-! ## ATTENTION and the MSI (R19, R20) -/

/-- A record's change mask is non-empty. -/
def Marks.any (m : Marks) : Bool := m.mask.toList.any id

/-- Some cell's hand is ANSWERED. -/
def State.someAnswered (s : State) : Bool := s.cells.toList.any fun c => c.hand == .answered

/-- The twelve bits of ATTENTION, bit 0 first. -/
def State.attentionBits (s : State) : List Bool :=
  [s.marks[0].any, s.marks[1].any, s.marks[2].any, s.marks[3].any, s.marks[4].any, s.marks[5].any, s.marks[6].any,
   s.marks[7].any, s.marks[8].any || s.mapAny, s.someAnswered, s.stray, s.started]

/-- The number a list of bits spells, bit 0 first. -/
def bitsNat : List Bool → Nat
  | [] => 0
  | b :: t => flag b + 2 * bitsNat t

/-- ATTENTION. -/
def State.attention (s : State) : BitVec 12 := BitVec.ofNat 12 (bitsNat s.attentionBits)

/-- The interrupt condition (R20). -/
def State.interrupt (s : State) : Bool := s.irqEnable && (s.attention &&& s.attentionMask) != 0

/-- An MSI, unless the host's configuration of the endpoint does not allow it (R20; log 10). -/
def State.sendMsi (s : State) : State := if s.msiAllowed then s.emit .msi else s

/-- One MSI when the interrupt condition holds now and did not before. -/
def notified (before : Bool) (t : State) : State := if t.interrupt && !before then t.sendMsi else t

/-- What every event does at its end: the order board, the status records, the MSI. `s` is the state before the event
and `t` the state its blocks leave. A record's revision rises once an event, however many of its fields the event changes
(R18, R95); which changes are one event where a command brings selections is log 51 (DESIGN CHOICE). -/
def finish (s t : State) : State := notified s.interrupt (recordsMarked s (boardMarked s t))

/-- An event: the blocks take the state from `s` to `t`. -/
def event (s t : State) : Host.Outcome State Fault Refusal := .next (finish s t)

/-- An event that only changes what the Exchange Monitor itself keeps; the marks are as given. -/
def eventUnmarked (s t : State) : Host.Outcome State Fault Refusal := .next (notified s.interrupt t)

/-! ## The exchange window, byte by byte (R191 to R194) -/

/-- PART_ID (R191). -/
def partId : Word := 0x024606D3#32

/-- The word of a register, 0 at an unused offset of the register range. -/
def State.register (s : State) (offset : Nat) : Word :=
  match offset with
  | 0x00 => partId
  | 0x04 => BitVec.ofNat 32 (2 * flag s.irqEnable)
  | 0x08 => s.attention.setWidth 32
  | 0x0C => s.attentionMask.setWidth 32
  | 0x10 => BitVec.ofNat 32 (s.strayOffset + 1073741824 * s.strayWindow.code)
  | 0x14 => s.clock
  | _ => 0

/-- Byte `i` of a word, least significant first. -/
def wordByte (w : Word) (i : Nat) : Byte := (w >>> (8 * i)).setWidth 8

/-- A byte of a status record (R193). -/
def recordByte (s : State) (r : Fin 9) (o : Nat) : Byte :=
  let m := s.marks[r]
  if o = 0 then BitVec.ofNat 8 (bitsNat m.mask.toList)
  else if o = 4 then BitVec.ofNat 8 m.count
  else if r = 8 ∧ 16 ≤ o ∧ o < 22 then
    BitVec.ofNat 8 (bitsNat ((s.orderMap.toList.drop (8 * (o - 16))).take 8))
  else fieldByte (recordGroups s r).flatten o

/-- A byte of an order board record (R194). -/
def orderByte (s : State) (i : Fin 48) (o : Nat) : Byte :=
  if o < 2 then BitVec.ofNat 8 (s.revisions[i].toNat / 256 ^ o) else fieldByte (orderFields i s.orders[i]) o

/-- A byte of a work cell (R192). -/
def cellByte (c : WorkCell) (o : Nat) : Byte :=
  if o = 0 then BitVec.ofNat 8 c.hand.code else if o < 4 then 0 else c.mem.read o

/-- What a host read of the exchange window returns, byte by byte; unused offsets read 0 (R1, R191 to R194). -/
def exchangeByte (s : State) (a : Nat) : Byte :=
  if a < 0x100 then wordByte (s.register (a / 4 * 4)) (a % 4)
  else if h : 0x100 ≤ a ∧ a < 0xA00 then recordByte s ⟨a / 256 - 1, by omega⟩ (a % 256)
  else if h : 0x1000 ≤ a ∧ a < 0x4000 then orderByte s ⟨a / 256 - 16, by omega⟩ (a % 256)
  else if h : 0x4000 ≤ a ∧ a < 0x14000 then cellByte s.cells[a / 1024 - 16] (a % 1024)
  else 0

end Sys2Proof.Machine
end

