-- ==== Sys2Proof/Machine/Cells.lean ====
section
/-! DEFINITION. What befalls a work cell: stray writes, the take, the answer, the withdraw (R2, R5, R7, R9 to R13). -/

namespace Sys2Proof.Machine

/-- A stray write: STRAY is set and STRAY_ADDRESS names the dropped word (R2). -/
def State.strayAt (s : State) (w : Window) (offset : Nat) : State :=
  { s with stray := true, strayWindow := w, strayOffset := offset }

/-- The byte offset of a cell's hand word. -/
def handOffset (c : Fin 64) : Nat := 0x4000 + c.val * 1024

/-- The cell at the head of a list when its kind is the one asked for and the part is RUNNING (R10). -/
def State.headOf (s : State) (l : Fin 11) (k : Kind) : Option (Fin 64) :=
  match s.intake[l] with
  | c :: _ => if s.running && s.cells[c].kind == some k then some c else none
  | [] => none

/-- A cell as its take leaves it: answer status NONE, WITHDRAW_LATE clear, answer length and detail 0, hand TAKEN
(R10). -/
def WorkCell.taken (c : WorkCell) : WorkCell :=
  { hand := .taken, mem := c.mem.writeBytes 12 (List.replicate 8 0), withdrawNoted := false }

/-- The cell leaves its list (R9). -/
def State.unlist (s : State) (c : Fin 64) : State := { s with intake := tab fun l => s.intake[l].filter (· != c) }

/-- A block takes the cell at the head of its list (R10). -/
def State.take (s : State) (c : Fin 64) : State := (s.unlist c).setCell c s.cells[c].taken

/-- An answer: status, detail and body (R12). -/
structure Answer where
  status : Status
  detail : Nat := 0
  body : List Byte := []
deriving DecidableEq, Repr

/-- An answer that the request was carried out in full, with its body. -/
def doneWith (body : List Byte) : Answer := { status := .done, body := body }

/-- A refusal with its detail and no body. -/
def refuse (st : Status) (detail : Nat := 0) : Answer := { status := st, detail := detail }

/-- A cell as its answer leaves it (R12): body, length, status and detail written, WITHDRAW_LATE set when a withdraw was
noted since the take, hand ANSWERED. The tag stands as the take copied it, since host writes to a TAKEN cell are stray. -/
def WorkCell.answered (c : WorkCell) (a : Answer) : WorkCell :=
  let m := c.mem.writeBytes 512 a.body
  let m := m.writeBytes 12
    ([BitVec.ofNat 8 a.status.code, BitVec.ofNat 8 (flag c.withdrawNoted)] ++ le 2 a.body.length ++ le 4 a.detail)
  { hand := .answered, mem := m, withdrawNoted := false }

/-- A block answers a cell it holds (R12). -/
def State.answer (s : State) (c : Fin 64) (a : Answer) : State := s.setCell c (s.cells[c].answered a)

/-- The cell passes through TAKEN to ANSWERED in one event (R7, R9). -/
def State.takeAnswer (s : State) (c : Fin 64) (a : Answer) : State := (s.take c).answer c a

/-- A post: the cell joins the tail of the list its kind names, or is answered BAD_KIND at once (R7). -/
def postCell (s : State) (c : Fin 64) : State :=
  let cell := s.cells[c]
  match cell.kind.bind fun k => intakeOf k cell.unit with
  | some l => (s.setIntake l (s.intake[l] ++ [c])).setCell c { cell with hand := .filled }
  | none => s.takeAnswer c (refuse .badKind)

/-- What a host write of a value to a cell's hand does, by the hand's current value (R5, R11, R13). -/
def handWrite (s : State) (c : Fin 64) (value : Word) (enables : BitVec 4) : State :=
  let cell := s.cells[c]
  let stray := s.strayAt .exchange (handOffset c)
  if enables ≠ 0xF#4 then stray
  else
    match cell.hand, value.toNat with
    | .free, 1 => postCell s c
    | .filled, 0 => (s.unlist c).setCell c { cell with hand := .free }
    | .taken, 0 => stray.setCell c { cell with withdrawNoted := true }
    | .answered, 0 => s.setCell c { cell with hand := .free }
    | _, _ => stray

end Sys2Proof.Machine
end

