-- ==== Sys2Proof/Machine/Exchange.lean ====
section
/-! DEFINITION. The commands of the Exchange Monitor: CLOCK, CONTROL, ATTENTION, the hands of the work cells, host
writes to the exchange window, and the part reset (R1 to R21, R189). -/

namespace Sys2Proof.Machine

/-! ## The part reset -/

/-- The EEPROM as a part reset leaves it: the pages acknowledged, and, where a store is running, a free number of bytes
of the page in progress (R188; log 44). -/
def State.eepromAtReset (s : State) : Mem :=
  match s.store with
  | some st => s.eeprom.writeBytes st.page (st.pageBytes.take (Config.pageBytesAtReset s.resetChoices))
  | none => s.eeprom

/-- A part reset (R21, R41, R57, R76, R97, R112, R132, R153, R166, R181, R184, R189): the state of `State.reset`, but for
what stands outside the blocks: the DRAM (undefined at power-on, log 7), the EEPROM, the levels of the pins, the
endpoint's configuration, what has been put out already, and the settings source, which keeps its value until the next
autoload end but for a power-on, where the model puts DEFAULTS (DESIGN CHOICE, log 12). A grant in progress at the port is dropped with the rest: DESIGN CHOICE, log 45. -/
def partReset (s : State) (powerOn : Bool) : State :=
  { State.reset with
    pending := s.pending
    dram := if powerOn then [] else s.dram
    eeprom := s.eepromAtReset
    slots := tab fun k => resetSlot s.slots[k].detectClosed s.slots[k].protectPin
    pay := resetPay s.pay.readyPin s.pay.alertPin
    msiAllowed := s.msiAllowed
    sent := s.sent
    source := if powerOn then none else s.source
    cropChoices := s.cropChoices
    stationChoices := s.stationChoices
    resetChoices := if s.store.isSome then s.resetChoices + 1 else s.resetChoices }

/-- A write of CONTROL: IRQ_ENABLE takes the value written, which can itself send an MSI; then RESET starts a part reset
(R4). -/
def controlWrite (s : State) (reset irqEnable : Bool) : State :=
  let t := notified s.interrupt { s with irqEnable := irqEnable }
  if reset then partReset t false else t

/-! ## Write-1-to-clear (R16, R18) -/

/-- The bytes of a word that a write enables; bytes not enabled are 0. -/
def enabledBits (value : Word) (enables : BitVec 4) : Word :=
  value &&& ((List.range 4).foldl
    (fun m i => if enables.getLsbD i then m ||| (0xFF#32 <<< (8 * i)) else m) 0#32)

/-- A word of a store changed in its enabled bytes only (R1). -/
def mergeBytes (old value : Word) (enables : BitVec 4) : Word :=
  (old &&& ~~~(enabledBits 0xFFFFFFFF#32 enables)) ||| enabledBits value enables

/-- Bits written as 1 are cleared in a list of bits whose first is bit `first` of the written word. -/
def clearedMask (m : Marks) (bits : Word) : Marks := { m with mask := tab fun g => m.mask[g] && !bits.getLsbD g.val }

/-- One more change counted, at most 255 (R15). -/
def Marks.countOne (m : Marks) : Marks := { m with count := min 255 (m.count + 1) }

/-- The latches of SR7 group 1 are cleared with its mark (R105, R106), and counted if any was set (R16). -/
def clearInputLatches (s : State) : State :=
  if s.pay.changeLatch || s.pay.alertLatch then
    { s with pay := { s.pay with changeLatch := false, alertLatch := false },
             marks := s.marks.set 7 s.marks[7].countOne }
  else s

/-- The sticky errors are cleared (R104). -/
def Pay.clearSticky (p : Pay) : Pay :=
  { p with overrun := false, parityErr := false, framingErr := false, breakErr := false }

/-- The sticky errors of SR7 group 2 are cleared with its mark (R104), and counted if any was set (R16). -/
def clearStickyErrors (s : State) : State :=
  if s.pay.overrun || s.pay.parityErr || s.pay.framingErr || s.pay.breakErr then
    { s with pay := s.pay.clearSticky, marks := s.marks.set 7 s.marks[7].countOne }
  else s

/-- A host write to a change mask (R16). -/
def maskClear (s : State) (r : Fin 9) (value : Word) (enables : BitVec 4) : State :=
  let bits := enabledBits value enables
  let t := { s with marks := s.marks.set r (clearedMask s.marks[r] bits) }
  let t := if r = 7 ∧ bits.getLsbD 1 then clearInputLatches t else t
  if r = 7 ∧ bits.getLsbD 2 then clearStickyErrors t else t

/-- A host write to one word of the order change map (R18): orders 0 to 31 stand in the low word, 32 to 47 in the
high. -/
def mapClear (s : State) (high : Bool) (value : Word) (enables : BitVec 4) : State :=
  let bits := enabledBits value enables
  { s with orderMap := tab fun i =>
      s.orderMap[i] && !(if high then decide (32 ≤ i.val) && bits.getLsbD (i.val - 32)
                         else decide (i.val < 32) && bits.getLsbD i.val) }

/-! ## Host writes to the exchange window (R1) -/

/-- A write to ATTENTION_MASK (R20). -/
def attentionMaskWrite (s : State) (value : Word) (enables : BitVec 4) : State :=
  { s with attentionMask := (mergeBytes (s.attentionMask.setWidth 32) value enables).setWidth 12 }

/-- The enabled bytes of a word written into a byte memory. -/
def Mem.writeEnabled (m : Mem) (a : Nat) (value : Word) (enables : BitVec 4) : Mem :=
  (List.range 4).foldl (fun m i => if enables.getLsbD i then m.write (a + i) (wordByte value i) else m) m

/-- A write to a work cell: the hand, the header and the request body (landing while FREE or FILLED), the answer body
(stray) (R5, R6). -/
def cellWrite (s : State) (c : Fin 64) (o : Nat) (value : Word) (enables : BitVec 4) : State :=
  let cell := s.cells[c]
  if o = 0 then handWrite s c value enables
  else if o < 512 ∧ (cell.hand = .free ∨ cell.hand = .filled) then
    s.setCell c { cell with mem := cell.mem.writeEnabled o value enables }
  else s.strayAt .exchange (handOffset c + o)

/-- One aligned word written to the exchange window, by where it lands (R1). -/
def wordWrite (s : State) (a : Nat) (value : Word) (enables : BitVec 4) : State :=
  if a = 0x04 then
    if enables.getLsbD 0 then controlWrite s (value.getLsbD 0) (value.getLsbD 1) else s
  else if a = 0x0C then attentionMaskWrite s value enables
  else if h : 0x100 ≤ a ∧ a < 0xA00 then
    if a % 256 = 0 then maskClear s ⟨a / 256 - 1, by omega⟩ value enables
    else if a = 0x910 then mapClear s false value enables
    else if a = 0x914 then mapClear s true value enables
    else s.strayAt .exchange a
  else if h : 0x4000 ≤ a ∧ a < 0x14000 then cellWrite s ⟨a / 1024 - 16, by omega⟩ (a % 1024) value enables
  else s.strayAt .exchange a

/-! ## The commands -/

/-- CLOCK_TICK (R3): one more millisecond, modulo 2 to the power 32. -/
def execClockTick (s : State) : Host.Outcome State Fault Refusal := .next { s with clock := s.clock + 1 }

/-- CONTROL_RESET (R4): the register write in full, then the part reset. -/
def execControlReset (irqEnable : Bool) (s : State) : Host.Outcome State Fault Refusal :=
  .next (controlWrite s true irqEnable)

/-- CONTROL_IRQ_ENABLE (R4, R20). -/
def execControlIrqEnable (enable : Bool) (s : State) : Host.Outcome State Fault Refusal :=
  .next (controlWrite s false enable)

/-- ATTENTION_READ (R19, R20): returns the twelve bits, clears STRAY and STARTED in the same event, and sends a new MSI
if the interrupt condition still holds. -/
def execAttentionRead (s : State) : Host.Outcome State Fault Refusal :=
  let t := { s.emit (.attention s.attention) with stray := false, started := false }
  .next (notified false t)

/-- ATTENTION_MASK_WRITE (R20). -/
def execAttentionMaskWrite (value : Word) (enables : BitVec 4) (s : State) : Host.Outcome State Fault Refusal :=
  eventUnmarked s (attentionMaskWrite s value enables)

/-- POST (R5, R7): FILLED written to a hand. -/
def execPost (c : Fin 64) (s : State) : Host.Outcome State Fault Refusal := eventUnmarked s (handWrite s c 1 0xF)

/-- WITHDRAW (R5, R11): FREE written to the hand of a cell that waits or is TAKEN. -/
def execWithdraw (c : Fin 64) (s : State) : Host.Outcome State Fault Refusal := eventUnmarked s (handWrite s c 0 0xF)

/-- RETURN (R5, R13): FREE written to the hand of an ANSWERED cell. -/
def execReturnCell (c : Fin 64) (s : State) : Host.Outcome State Fault Refusal := eventUnmarked s (handWrite s c 0 0xF)

/-- EXCHANGE_WRITE (R1): the aligned word that holds the offset. -/
def execExchangeWrite (offset : Nat) (value : Word) (enables : BitVec 4) (s : State) :
    Host.Outcome State Fault Refusal :=
  if offset < 131072 then
    let a := offset / 4 * 4
    if a = 0x04 then .next (wordWrite s a value enables) else eventUnmarked s (wordWrite s a value enables)
  else .fault .outsideExchangeWindow

/-- CHANGE_MASK_CLEAR (R16). -/
def execChangeMaskClear (r : Fin 9) (value : Word) (enables : BitVec 4) (s : State) : Host.Outcome State Fault Refusal :=
  eventUnmarked s (maskClear s r value enables)

/-- ORDER_CHANGE_MAP_CLEAR (R18). -/
def execOrderChangeMapClear (high : Bool) (value : Word) (enables : BitVec 4) (s : State) :
    Host.Outcome State Fault Refusal :=
  eventUnmarked s (mapClear s high value enables)

/-- PART_RESET (R21, R189): power-on, or a PCIe function reset. -/
def execPartReset (powerOn : Bool) (s : State) : Host.Outcome State Fault Refusal := .next (partReset s powerOn)

end Sys2Proof.Machine
end

