-- ==== Sys2Proof/Machine/Staging.lean ====
section
/-! DEFINITION. The Staging Manager: extents, pictures, the picture requests, references, and host accesses to the
staging window (R22 to R37). The port stands in Port.lean. -/

namespace Sys2Proof.Machine

/-! ## Extents (R22 to R25) -/

/-- Whole pages that hold a number of bytes (R22). -/
def pagesFor (bytes : Nat) : Nat := (bytes + 65535) / 65536

/-- The first page of the first gap of at least `n` pages, from page `cur` on (R24). -/
def firstFit (n : Nat) : Nat → List Extent → Option Nat
  | cur, [] => if cur + n ≤ 4096 then some cur else none
  | cur, e :: t => if cur + n ≤ e.base then some cur else firstFit n (e.base + e.pages) t

/-- Inserts an extent in base-page order (R24). -/
def insertExtent (x : Extent) : List Extent → List Extent
  | [] => [x]
  | e :: t => if x.base < e.base then x :: e :: t else e :: insertExtent x t

/-- The extent of a picture. -/
def State.extentOf (s : State) (i : Fin 256) : Option Extent := s.extents.find? (·.pic == i)

/-- The base page of a picture's extent. -/
def State.baseOf (s : State) (i : Fin 256) : Nat := ((s.extentOf i).map (·.base)).getD 0

/-- The page count of a picture's extent. -/
def State.pagesOf (s : State) (i : Fin 256) : Nat := ((s.extentOf i).map (·.pages)).getD 0

/-- The extent a page lies in. -/
def State.extentAt (s : State) (page : Nat) : Option Extent :=
  s.extents.find? fun e => decide (e.base ≤ page ∧ page < e.base + e.pages)

/-! ## Pictures (R26) -/

/-- The FREE entry with the lowest index. -/
def State.freeEntry (s : State) : Option (Fin 256) := (List.finRange 256).find? fun i => s.pictures[i].pic.isNone

/-- The picture a handle names, if the handle is current (R26). -/
def State.pictureAt (s : State) (h : Handle) : Option (Fin 256 × Picture) :=
  let e := s.pictures[h.index.toFin]
  match e.pic with
  | some p => if e.gen = h.gen then some (h.index.toFin, p) else none
  | none => none

/-- Changes the picture of an entry and keeps its generation. -/
def State.putPicture (s : State) (i : Fin 256) (p : Picture) : State :=
  s.setPicture i { s.pictures[i] with pic := some p }

/-- Allocates an entry and an extent for a picture: the state, the handle and the base page; none when a table or the
memory has no room (R24, R26). -/
def State.allocate (s : State) (pages : Nat) (p : Picture) : Option (State × Handle × Nat) :=
  match s.freeEntry, firstFit pages 0 s.extents with
  | some i, some base =>
    let gen := s.pictures[i].gen + 1
    some ({ s with extents := insertExtent ⟨base, pages, i⟩ s.extents
                   freePages := s.freePages - pages
                   pictures := s.pictures.set i ⟨gen, some p⟩ },
          ⟨BitVec.ofNat 8 i.val, gen⟩, base)
  | _, _ => none

/-- Frees a picture with its extent; the entry keeps its generation (R25, R26). -/
def State.freePicture (s : State) (i : Fin 256) : State :=
  { s with extents := s.extents.filter (·.pic != i)
           freePages := s.freePages + s.pagesOf i
           pictures := s.pictures.set i ⟨s.pictures[i].gen, none⟩ }

/-! ## Card files (R27, R28) -/

/-- Creates a card file for a read: the state, the handle and the base page, or none for NO_ROOM (R27). -/
def State.createCardFile (s : State) (k : Fin 4) (cardId : Word) (blocks : Nat) : Option (State × Handle × Nat) :=
  s.allocate (pagesFor (blocks * 512))
    { kind := .cardFile, state := .cardFill, slot := k, cardId := cardId, byteLen := blocks * 512, valid := 0,
      failed := 0, width := 0, height := 0, stride := 0, refs := 0 }

/-- The fill ends or is cut: a picture in CARD_FILL becomes COMPLETE or TORN (R28). -/
def State.endFill (s : State) (h : Handle) (final : PicState) : State :=
  match s.pictureAt h with
  | some (i, p) => if p.state = .cardFill then s.putPicture i { p with state := final } else s
  | none => s

/-- A granted block write: its bytes go to its position and are counted, while the picture is CARD_FILL. The Boolean
says whether it was written (R28). -/
def State.writeBlock (s : State) (b : BlockBuf) : State × Bool :=
  match s.pictureAt b.picture with
  | some (i, p) =>
    if p.state = .cardFill then
      let bytes := b.data.getD (List.replicate 512 0)
      let t := { s with dram := s.dram.writeBytes (s.baseOf i * 65536 + b.pos * 512) bytes }
      let p' := if b.data.isSome then { p with valid := p.valid + 512 } else { p with failed := p.failed + 1 }
      (t.putPicture i p', true)
    else (s, false)
  | none => (s, false)

/-! ## References (R34, R35) -/

/-- A handle that can gain references: current, a raster, SEALED (R34). -/
def State.claimable (s : State) (h : Handle) : Bool :=
  match s.pictureAt h with
  | some (_, p) => p.kind == .raster && p.state == .sealed
  | none => false

/-- The position of the first entry of a claim that fails (R34). -/
def State.claimFailure (s : State) (hs : List Handle) : Option Nat := hs.findIdx? fun h => !s.claimable h

/-- One reference more on the picture of a handle. -/
def State.addRef (s : State) (h : Handle) : State :=
  match s.pictureAt h with
  | some (i, p) => s.putPicture i { p with refs := p.refs + 1 }
  | none => s

/-- A claim that passed: one reference for each entry (R34). -/
def State.claim (s : State) (hs : List Handle) : State := hs.foldl State.addRef s

/-- One reference given up; a DOOMED picture without references is freed (R35). -/
def State.dropRef (s : State) (h : Handle) : State :=
  match s.pictureAt h with
  | some (i, p) =>
    if p.refs ≤ 1 ∧ p.state = .doomed then s.freePicture i else s.putPicture i { p with refs := p.refs - 1 }
  | none => s

/-! ## The requests of intake list 4 (R29 to R33) -/

/-- Some accepted host write still waits for the port (R33). -/
def State.hostWritesWait (s : State) : Bool :=
  s.port.hostQueue.any fun a => match a with
    | .write _ => true
    | .read _ _ => false

/-- A request that is answered in the event of its take: the cell at the head of the list is taken when its kind is the
one asked for, carried out by `f` and answered. -/
def serve (s : State) (l : Fin 11) (k : Kind) (f : State → Fin 64 → State × Answer) :
    Host.Outcome State Fault Refusal :=
  match s.headOf l k with
  | none => .next s
  | some c => let (t, a) := f (s.take c) c; event s (t.answer c a)

/-- The stride of a raster: three bytes a pixel, rounded up to a multiple of 64 (R29). -/
def strideFor (width : Nat) : Nat := (3 * width + 63) / 64 * 64

/-- RASTER_OPEN's checks and effect (R29). -/
def rasterOpen (s : State) (c : Fin 64) : State × Answer :=
  let w := s.cells[c].req 0 2
  let h := s.cells[c].req 2 2
  if w < 16 ∨ 8192 < w then (s, refuse .badField (plainField 0))
  else if h < 16 ∨ 8192 < h then (s, refuse .badField (plainField 1))
  else
    let pages := pagesFor (strideFor w * h)
    if 1024 < pages then (s, refuse .overLimit (plainField 1))
    else
      match s.allocate pages { kind := .raster, state := .hostFill, slot := 0, cardId := 0, byteLen := 0, valid := 0,
                               failed := 0, width := w, height := h, stride := strideFor w, refs := 0 } with
      | none => (s, refuse .noRoom)
      | some (t, hd, base) =>
        (t, doneWith (hd.bytes ++ le 2 base ++ le 2 pages ++ [0, 0] ++ le 4 (strideFor w)))

/-- RASTER_SEAL's checks and effect (R30). -/
def rasterSeal (s : State) (c : Fin 64) : State × Answer :=
  match s.pictureAt (s.cells[c].reqHandle 0) with
  | none => (s, refuse .notFound (plainField 0))
  | some (i, p) =>
    if p.state = .hostFill then (s.putPicture i { p with state := .sealed }, doneWith [])
    else (s, refuse .wrongState p.state.code)

/-- PICTURE_FREE's checks and effect (R31). -/
def pictureFree (s : State) (c : Fin 64) : State × Answer :=
  match s.pictureAt (s.cells[c].reqHandle 0) with
  | none => (s, refuse .notFound (plainField 0))
  | some (i, p) =>
    if p.state = .cardFill then (s, refuse .wrongState p.state.code)
    else if p.refs = 0 then (s.freePicture i, doneWith [])
    else (s.putPicture i { p with state := .doomed }, { status := .done, detail := 1 })

/-- The answer body of PICTURE_INFO (R32, R192). -/
def pictureInfoBody (s : State) (h : Handle) (i : Fin 256) (p : Picture) : List Byte :=
  h.bytes ++ [BitVec.ofNat 8 p.kind.code, BitVec.ofNat 8 p.state.code] ++ le 2 (s.baseOf i) ++ le 2 (s.pagesOf i) ++
  le 2 p.refs ++
  match p.kind with
  | .cardFile => [BitVec.ofNat 8 p.slot.val, 0] ++ le 4 p.cardId.toNat ++ le 4 p.byteLen ++ le 4 p.valid ++ le 4 p.failed
  | .raster => [0, 0] ++ le 2 p.width ++ le 2 p.height ++ le 4 p.stride

/-- PICTURE_INFO's answer (R32). -/
def pictureInfo (s : State) (c : Fin 64) : State × Answer :=
  let h := s.cells[c].reqHandle 0
  match s.pictureAt h with
  | none => (s, refuse .notFound (plainField 0))
  | some (i, p) => (s, doneWith (pictureInfoBody s h i p))

/-- RASTER_OPEN (R29, R33). -/
def execRasterOpen (s : State) : Host.Outcome State Fault Refusal :=
  if s.hostWritesWait then .next s else serve s 4 .rasterOpen rasterOpen

/-- RASTER_SEAL (R30, R33). -/
def execRasterSeal (s : State) : Host.Outcome State Fault Refusal :=
  if s.hostWritesWait then .next s else serve s 4 .rasterSeal rasterSeal

/-- PICTURE_FREE (R31, R33). -/
def execPictureFree (s : State) : Host.Outcome State Fault Refusal :=
  if s.hostWritesWait then .next s else serve s 4 .pictureFree pictureFree

/-- PICTURE_INFO (R32, R33). -/
def execPictureInfo (s : State) : Host.Outcome State Fault Refusal :=
  if s.hostWritesWait then .next s else serve s 4 .pictureInfo pictureInfo

/-! ## The staging window (R36, R37) -/

/-- A word of the window is the host's to write: its page lies in an extent whose picture is HOST_FILL (R36). -/
def State.hostMayWrite (s : State) (offset : Nat) : Bool :=
  match s.extentAt (offset / 65536) with
  | some e => match s.pictures[e.pic].pic with
    | some p => p.state == .hostFill
    | none => false
  | none => false

/-- Words of one host write with their offsets. -/
def hostWords (offset : Nat) : List StagingWord → List HostWord
  | [] => []
  | (v, en) :: t => ⟨offset, v, en⟩ :: hostWords (offset + 4) t

/-- Cuts accepted words into accesses of one aligned 64-byte span each (R38). -/
def spans : List HostWord → List (List HostWord)
  | [] => []
  | w :: t => match spans t with
    | (v :: vs) :: rest => if w.offset / 64 = v.offset / 64 then (w :: v :: vs) :: rest else [w] :: (v :: vs) :: rest
    | rest => [w] :: rest

/-- Queues host accesses for the port. -/
def State.queueHost (s : State) (as : List HostAccess) : State :=
  { s with port := { s.port with hostQueue := s.port.hostQueue ++ as } }

/-- A host write checked word by word: accepted words wait for the port, the others are stray (R36). -/
def stagingWrite (s : State) (offset : Nat) (words : List StagingWord) : State :=
  let ws := hostWords offset words
  let t := (ws.filter fun w => !s.hostMayWrite w.offset).foldl (fun t w => t.strayAt .staging w.offset) s
  t.queueHost ((spans (ws.filter fun w => s.hostMayWrite w.offset)).map .write)

/-- A read of a span that lies in a free page (R37). -/
def State.readsFree (s : State) : HostAccess → Bool
  | .read offset _ => (s.extentAt (offset / 65536)).isNone
  | .write _ => false

/-- The answer of a read of a free page: zeros (R37). -/
def answerZeros (s : State) : HostAccess → State
  | .read offset count => s.emit (.stagingData offset (List.replicate (4 * count) 0))
  | .write _ => s

/-- The host window with its oldest accesses answered as long as they read free pages, which takes no grant; the first
other one waits for the port (R37, R38; log 37). The wait count is 0 while nothing waits (R39). -/
def drainHost (s : State) : State :=
  let free := s.port.hostQueue.takeWhile s.readsFree
  let rest := s.port.hostQueue.dropWhile s.readsFree
  free.foldl answerZeros
    { s with port := { s.port with hostQueue := rest, hostWait := if rest = [] then 0 else s.port.hostWait } }

/-- The accesses of a host read, one for each 64-byte span in ascending order; the fuel is at least their number
(R38). -/
def readSpans : Nat → Nat → Nat → List HostAccess
  | 0, _, _ => []
  | f + 1, offset, count =>
    if count = 0 then []
    else
      let n := min count ((64 - offset % 64) / 4)
      .read offset n :: readSpans f (offset + 4 * n) (count - n)

/-- A host read: its spans wait behind the accesses that came before, and are answered in that order (R37, R38). -/
def stagingRead (s : State) (offset count : Nat) : State := drainHost (s.queueHost (readSpans count offset count))

/-- STAGING_WRITE (R36). -/
def execStagingWrite (offset : Nat) (words : List StagingWord) (s : State) : Host.Outcome State Fault Refusal :=
  let o := offset / 4 * 4
  if o + 4 * words.length ≤ 268435456 then event s (stagingWrite s o words) else .fault .outsideStagingWindow

/-- STAGING_READ (R37). -/
def execStagingRead (offset count : Nat) (s : State) : Host.Outcome State Fault Refusal :=
  let o := offset / 4 * 4
  if o + 4 * count ≤ 268435456 then event s (stagingRead s o count) else .fault .outsideStagingWindow

end Sys2Proof.Machine
end

