-- ==== Sys2Proof/Machine/SlotOps.lean ====
section
/-! DEFINITION. What a Card Slot Controller and a Card Channel do inside their events: LED, power, bus, tier attempts,
the CRC error window, the channel arbiter, and the course of a read (R43 to R55, R60 to R74). -/

namespace Sys2Proof.Machine

/-! ## State, LED, power, timers -/

/-- A blinking LED mode. -/
def LedMode.blinks : LedMode → Bool
  | .greenBlink | .amberBlink => true
  | _ => false

/-- The slot takes a new state; a new LED mode starts its phase lit (R50). -/
def Slot.enter (x : Slot) (now : Word) (st : SlotState) : Slot :=
  if st.led = x.state.led then { x with state := st }
  else
    { x with state := st, ledLit := st.led != .off,
             ledTimer := if st.led.blinks then some ⟨now, 500⟩ else none }

/-- Slot power off: the bus stops, its timers are dropped, and the working tier and width are T0 and 1-bit (R43, R53). -/
def Slot.powerOff (x : Slot) : Slot :=
  { x with power := false, timer := none, busTier := .t0, busWide := false, workTier := .t0, workWide := false }

/-- The bus of a slot takes a tier and width; outside a read's FALLING_BACK they are the working ones (R43). -/
def Slot.setBus (x : Slot) (t : Tier) (wide : Bool) : Slot :=
  if x.state = .tierSettle then { x with busTier := t, busWide := wide, workTier := t, workWide := wide }
  else { x with busTier := t, busWide := wide }

/-- The slot starts its timer. -/
def State.slotWait (s : State) (k : Fin 4) (w : SlotWait) (dur : Nat) : State :=
  s.modSlot k fun x => { x with timer := some ⟨w, ⟨s.clock, dur⟩⟩ }

/-- The slot drops its timer. -/
def State.slotNoWait (s : State) (k : Fin 4) : State := s.modSlot k fun x => { x with timer := none }

/-- The slot waits for what `w` names. -/
def Slot.waits (x : Slot) (w : SlotWait) : Bool := match x.timer with
  | some t => t.kind == w
  | none => false

/-- The slot's timer measures `w` and has run out. -/
def Slot.waitOver (x : Slot) (now : Word) (w : SlotWait) : Bool := match x.timer with
  | some t => t.kind == w && t.timer.due now
  | none => false

/-- The slot sends a command on its bus. -/
def State.sendCard (s : State) (k : Fin 4) (bytes : List Byte) : State := s.emit (.card k bytes)

/-! ## Answers of a slot -/

/-- The answer body of SLOT_RESET: state, fault cause, working tier and width, card id (R55, R192). -/
def slotResetBody (x : Slot) : List Byte :=
  [BitVec.ofNat 8 x.state.code, BitVec.ofNat 8 x.faultCause.code, BitVec.ofNat 8 x.workTier.code,
   BitVec.ofNat 8 (flag x.workWide)] ++ le 4 ((x.record.map CardRecord.cardId).getD 0).toNat

/-- A taken SLOT_RESET is answered DONE in READY and FAULT (R55). -/
def answerReset (s : State) (k : Fin 4) : State :=
  let x := s.slots[k]
  match x.otherCell with
  | some (.reset c) => (s.modSlot k fun x => { x with otherCell := none }).answer c (doneWith (slotResetBody x))
  | _ => s

/-- FAULT: power off, the cause recorded, a waiting SLOT_RESET answered (R49, R55). -/
def toFault (s : State) (k : Fin 4) (cause : SlotFault) : State :=
  answerReset (s.modSlot k fun x => { x.powerOff.enter s.clock .fault with faultCause := cause }) k

/-- A release carried out: STOP, power off, REMOVE_READY, and the release cell answered DONE (R52). -/
def doRelease (s : State) (k : Fin 4) (c : Fin 64) : State :=
  ((s.sendCard k stopCommand).modSlot k fun x =>
    { x.powerOff.enter s.clock .removeReady with otherCell := none }).answer c (doneWith [])

/-! ## Tier attempts (R47, R48) -/

/-- The tier is open to the card: in its tier set, at or below the settle limit (R47). -/
def openTier (c : CardRecord) (limit t : Tier) : Bool :=
  (match t with
    | .t0 => false
    | .t1 => c.t1
    | .t2 => c.t2
    | .t3 => c.t3) && decide (t.code ≤ limit.code)

/-- The highest open tier whose code is below `n`. -/
def openBelow (c : CardRecord) (limit : Tier) (n : Nat) : Option Tier :=
  [Tier.t3, .t2, .t1].find? fun t => openTier c limit t && decide (t.code < n)

/-- The highest tier open to the slot's card below a code. -/
def Slot.openBelow (x : Slot) (n : Nat) : Option Tier := x.record.bind fun c => Machine.openBelow c x.settleLimit n

/-- The width an attempt tries: the chosen width in a settle, the working width in a fall-back (R48, R69). -/
def Slot.tryWide (x : Slot) : Bool := if x.state = .tierSettle then x.chosenWide else x.workWide

/-- An attempt begins: SET_MODE with the bus at T0 and 1-bit (R43, R48). -/
def tryTier (s : State) (k : Fin 4) (t : Tier) : State :=
  let x := s.slots[k]
  ((s.modSlot k fun x => { x.setBus .t0 false with tryTier := t }).sendCard k (setModeCommand x.tryWide t)).slotWait k
    .setMode 250

/-- TIER_SETTLE is entered: section 0 is read, and the highest open tier is tried first (R47, R68). -/
def startSettle (s : State) (k : Fin 4) : State :=
  let t := s.modSlot k fun x =>
    { x.enter s.clock .tierSettle with
      settleLimit := advertised s.settings k
      chosenWide := ((x.record.map (·.wide)).getD false) && wideAllowed s.settings k
      threshold := crcThreshold s.settings
      retries := blockRetries s.settings
      timer := none }
  match t.slots[k].openBelow 4 with
  | some tier => tryTier t k tier
  | none => toFault t k .noMode

/-! ## Channels (R61, R62) -/

/-- The slot's read changed. -/
def State.modRead (s : State) (k : Fin 4) (f : ReadRec → ReadRec) : State :=
  s.modSlot k fun x => { x with read := x.read.map f }

/-- The read goes to ISSUING: READ_BLOCKS from the next block to the end of the current run (R63). -/
def goIssuing (s : State) (k : Fin 4) : State :=
  match s.slots[k].read with
  | none => s
  | some r =>
    match r.runs[r.curRun]? with
    | none => s
    | some run =>
      ((s.modRead k fun r => { r with phase := .issuing }).sendCard k
        (readBlocksCommand r.nextBlock (run.start + run.count - r.nextBlock))).slotWait k .readBlocks 250

/-- A channel is granted to a slot, in the mode section 0 gives it at that moment (R61). -/
def grantChannel (s : State) (k : Fin 4) (c : Fin 2) : State :=
  goIssuing ((s.setChannel c ⟨some k, channelMode s.settings c, none⟩).modRead k fun r =>
    { r with channel := some c }) k

/-- A channel is released, and passes to the head of the wait list in the same event (R61). -/
def releaseChannel (s : State) (c : Fin 2) : State :=
  let t := s.setChannel c freeChannel
  match t.chanWait with
  | k :: rest => grantChannel { t with chanWait := rest } k c
  | [] => t

/-- A slot asks for a channel: Channel A if it is free, else the free one, else the tail of the wait list (R61). A read
in SHARE that has just released Channel B takes Channel A when both are free: DESIGN CHOICE, log 46. -/
def askChannel (s : State) (k : Fin 4) : State :=
  let t := s.modRead k fun r => { r with channel := none, phase := .waitChannel }
  if t.chanWait = [] ∧ t.channels[0].owner = none then grantChannel t k 0
  else if t.chanWait = [] ∧ t.channels[1].owner = none then grantChannel t k 1
  else { t with chanWait := t.chanWait ++ [k] }

/-- The buffer of the read's channel is EMPTY. -/
def State.bufferEmpty (s : State) (r : ReadRec) : Bool :=
  match r.channel with
  | some c => s.channels[c].buffer.isNone
  | none => false

/-- Puts a block or a failed-block marker for the next position into the read's channel (R65, R66). -/
def putBlock (s : State) (k : Fin 4) (data : Option (List Byte)) : State :=
  match s.slots[k].read with
  | some r => match r.channel with
    | some c => s.setChannel c { s.channels[c] with buffer := some ⟨r.picture, r.nextPos, data⟩ }
    | none => s
  | none => s

/-! ## The course of a read (R60, R65 to R73) -/

/-- Blocks of a list of runs. -/
def totalBlocks (runs : List BlockRun) : Nat := (runs.map (·.count)).foldr (· + ·) 0

/-- The next block of the current run lies beyond its end: the run's data is complete (R70). -/
def ReadRec.runDone (r : ReadRec) : Bool :=
  match r.runs[r.curRun]? with
  | some run => decide (run.start + run.count ≤ r.nextBlock)
  | none => true

/-- Next block and next position advance by one, attempts returns to 0 (R65, R66). -/
def ReadRec.advance (r : ReadRec) : ReadRec :=
  { r with nextBlock := r.nextBlock + 1, nextPos := r.nextPos + 1, attempts := 0 }

/-- The next run becomes the current one (R70). -/
def ReadRec.nextRun (r : ReadRec) : ReadRec :=
  { r with curRun := r.curRun + 1, nextBlock := ((r.runs[r.curRun + 1]?).map (·.start)).getD 0, attempts := 0 }

/-- Group 4 written with the read's current values (R73). -/
def showRead (s : State) (k : Fin 4) (active : Bool) : State :=
  s.modSlot k fun x => match x.read with
    | none => x
    | some r =>
      { x with shown := { active := active, picture := r.picture, placed := r.placed, total := totalBlocks r.runs,
                          failed := r.failedTotal, crcErrs := x.crcErrs, timeouts := x.timeouts } }

/-- The 92 bytes of a read's answer (R73, R192). -/
def readBody (s : State) (r : ReadRec) (endTier : Tier) : List Byte :=
  let valid := match s.pictureAt r.picture with
    | some (_, p) => p.valid
    | none => 0
  r.picture.bytes ++ [0, 0] ++ le 4 (totalBlocks r.runs * 512) ++ le 4 valid ++ le 4 r.placed ++ le 4 r.failedTotal ++
  [BitVec.ofNat 8 r.failedList.length, BitVec.ofNat 8 r.startTier.code, BitVec.ofNat 8 endTier.code, 0] ++
  le 2 r.crcErrs ++ le 2 r.timeouts ++ r.failedList.flatMap (le 4) ++
  List.replicate (64 - 4 * r.failedList.length) 0

/-- The end of a read, in the order of R72. -/
def readEnd (s : State) (k : Fin 4) : State :=
  match s.slots[k].read with
  | none => s
  | some r =>
    let s := s.endFill r.picture .complete
    let s := match r.channel with
      | some c => releaseChannel s c
      | none => s
    let s := s.answer r.cell { status := if r.failedTotal = 0 then .done else .partly,
                               body := readBody s r s.slots[k].workTier }
    let s := (showRead s k false).modSlot k fun x => { x with read := none, timer := none }
    match s.slots[k].otherCell with
    | some (.release c) => doRelease s k c
    | _ => if r.phase = .failing then toFault s k .noMode else s.modSlot k fun x => x.enter s.clock .ready

/-- The run's data is complete and the buffer is EMPTY: the next run, or the end of the read (R62, R70). -/
def runEnd (s : State) (k : Fin 4) : State :=
  match s.slots[k].read with
  | none => s
  | some r =>
    if r.curRun + 1 < r.runs.length then
      let t := showRead (s.modRead k ReadRec.nextRun) k true
      match r.channel with
      | some c =>
        if t.channels[c].mode = .hold then goIssuing t k else askChannel (releaseChannel t c) k
      | none => t
    else readEnd s k

/-- The read goes on after a block of the current run has been put into the buffer: DRAINING when the run's data is
complete, else `next`. -/
def afterPut (s : State) (k : Fin 4) (next : State → State) : State :=
  match s.slots[k].read with
  | some r => if r.runDone then s.modRead k fun r => { r with phase := .draining } else next s
  | none => s

/-- A failed-block marker for the next position is put into the buffer and the read advances in the same event (R66;
DESIGN CHOICE, log 17). -/
def putMarker (s : State) (k : Fin 4) : State := (putBlock s k none).modRead k ReadRec.advance

/-- STOP, then ISSUING for the next block (R66). -/
def stopAndIssue (s : State) (k : Fin 4) : State := goIssuing (s.sendCard k stopCommand) k

/-- The channel's buffer is EMPTY: the next failed-block marker that is owed goes into it, a complete run ends, or the
data wait of the next block starts (R64, R66, R67, R70, R71). With a marker put, the read advances and STOP and
READ_BLOCKS for the block after it go out at once, not at the marker's grant: DESIGN CHOICE, log 17. -/
def pump (s : State) (k : Fin 4) : State :=
  match s.slots[k].read with
  | none => s
  | some r =>
    match r.owed with
    | .none =>
      match r.phase with
      | .receiving => s.slotWait k .data 100
      | .draining => runEnd s k
      | _ => s
    | .block =>
      let t := (putMarker s k).modRead k fun r => { r with owed := .none }
      if r.phase = .fallingBack then t else afterPut t k fun u => stopAndIssue u k
    | .run =>
      afterPut (putMarker s k) k id |>.modRead k fun r => if r.phase = .draining then { r with owed := .none } else r
    | .rest =>
      if r.nextPos < totalBlocks r.runs then
        putMarker (if r.runDone then showRead (s.modRead k ReadRec.nextRun) k true else s) k
      else readEnd s k

/-- Pumps when the buffer is EMPTY. -/
def pumpIfEmpty (s : State) (k : Fin 4) : State :=
  match s.slots[k].read with
  | some r => if s.bufferEmpty r then pump s k else s
  | none => s

/-- A granted block write is counted in the read that owns the channel (R65, R66, R73). -/
def countPlaced (s : State) (k : Fin 4) (b : BlockBuf) : State :=
  let t := s.modRead k fun r =>
    let r := { r with placed := r.placed + 1 }
    if b.data.isSome then r
    else { r with failedList := if r.failedList.length < 16 then r.failedList ++ [b.pos] else r.failedList,
                  failedTotal := r.failedTotal + 1 }
  match t.slots[k].read with
  | some r => if r.placed % 256 = 0 then showRead t k true else t
  | none => t

/-- A grant of the port to a card channel: the block write, its counts, and what the EMPTY buffer lets the read do
(R28, R38, R65, R66). -/
def grantBlock (s : State) (c : Fin 2) : State :=
  match s.channels[c].buffer, s.channels[c].owner with
  | some b, some k =>
    let (t, written) := s.writeBlock b
    let t := t.setChannel c { t.channels[c] with buffer := none }
    pump (if written then countPlaced t k b else t) k
  | _, _ => s

/-- A read cut off by a removal or a slot reset, with its answer status (R54, R55, R74). -/
def cutRead (s : State) (k : Fin 4) (st : Status) : State :=
  match s.slots[k].read with
  | none => s
  | some r =>
    let endTier := s.slots[k].workTier
    let s := s.endFill r.picture .torn
    let s := match r.channel with
      | some c => releaseChannel s c
      | none => { s with chanWait := s.chanWait.filter (· != k) }
    let s := s.answer r.cell { status := st, body := readBody s r endTier }
    (showRead s k false).modSlot k fun x => { x with read := none, timer := none }

/-! ## The CRC error window and fall-back (R68, R69, R71) -/

/-- Counts a transfer, an error or both, and checks errors first and transfers second. The Boolean says that a fall-back
is due (R68). -/
def Slot.countWindow (x : Slot) (transfer error : Bool) : Slot × Bool :=
  let x := { x with winTransfers := x.winTransfers + flag transfer, winErrors := x.winErrors + flag error }
  let restart := { x with winTransfers := 0, winErrors := 0 }
  if x.threshold ≤ x.winErrors then (restart, (x.openBelow x.workTier.code).isSome)
  else if 256 ≤ x.winTransfers then (restart, false)
  else (x, false)

/-- A fall-back attempt failed and no lower tier is open: every block not yet placed fails (R71). -/
def startFailing (s : State) (k : Fin 4) : State :=
  pumpIfEmpty ((s.modSlot k fun x => { x with timer := none }).modRead k fun r =>
    { r with phase := .failing, owed := .rest }) k

/-- The tiers below a code are tried from the highest down; a fall-back that fails is shown like one that succeeds (R69,
R71, R73). -/
def fallBackFrom (s : State) (k : Fin 4) (n : Nat) : State :=
  match s.slots[k].openBelow n with
  | some t => tryTier s k t
  | none => startFailing (showRead (s.modSlot k fun x => x.setBus .t0 false) k true) k

/-- A tier fall-back begins (R69). -/
def startFallBack (s : State) (k : Fin 4) : State :=
  fallBackFrom ((s.modRead k fun r => { r with phase := .fallingBack }).sendCard k stopCommand) k
    s.slots[k].workTier.code

/-- A fall-back confirmed a tier: the read goes on at the new tier (R69). While the failed block's marker is still owed
the read waits in CHECKING for the buffer, and STOP goes out before READ_BLOCKS once the marker is put: DESIGN CHOICE,
log 18. -/
def resumeRead (s : State) (k : Fin 4) : State :=
  let s := showRead s k true
  match s.slots[k].read with
  | none => s
  | some r =>
    if r.owed = .block then s.modRead k fun r => { r with phase := .checking }
    else if r.runDone then pumpIfEmpty (s.modRead k fun r => { r with phase := .draining }) k
    else goIssuing s k

/-- A failed attempt at the next block: counted, checked against the window, and then tried again, or the block fails
(R66, R67, R68). `transfer` says whether a transfer is counted with it, `crc` of which kind it is. -/
def attemptFails (s : State) (k : Fin 4) (transfer crc : Bool) : State :=
  let (x, fallBack) := s.slots[k].countWindow transfer true
  let x := { x with crcErrs := if crc then sat16 x.crcErrs else x.crcErrs
                    timeouts := if crc then x.timeouts else sat16 x.timeouts
                    timer := none }
  let s := (s.setSlot k x).modRead k fun r =>
    { r with attempts := r.attempts + 1
             crcErrs := if crc then sat16 r.crcErrs else r.crcErrs
             timeouts := if crc then r.timeouts else sat16 r.timeouts }
  match s.slots[k].read with
  | none => s
  | some r =>
    if r.attempts ≤ s.slots[k].retries then
      if fallBack then startFallBack s k else stopAndIssue s k
    else
      let s := s.modRead k fun r => { r with owed := .block, phase := .checking }
      pumpIfEmpty (if fallBack then startFallBack s k else s) k

/-- The attempt at one tier failed: the next lower open tier, or FAULT, or FAILING (R48, R71). -/
def tierFails (s : State) (k : Fin 4) : State :=
  let x := s.slots[k]
  if x.state = .tierSettle then
    match x.openBelow x.tryTier.code with
    | some t => tryTier s k t
    | none => toFault s k .noMode
  else fallBackFrom s k x.tryTier.code

/-- The tier being tried is confirmed (R48, R69). -/
def tierConfirmed (s : State) (k : Fin 4) : State :=
  let x := s.slots[k]
  if x.state = .tierSettle then
    answerReset (s.modSlot k fun x =>
      { x.enter s.clock .ready with workTier := x.tryTier, workWide := x.chosenWide, timer := none,
                                    winTransfers := 0, winErrors := 0 }) k
  else resumeRead (s.modSlot k fun x => { x with workTier := x.tryTier, timer := none }) k

/-- The phase of the slot's read. -/
def Slot.phaseIs (x : Slot) (p : ReadPhase) : Bool :=
  match x.read with
  | some r => r.phase == p
  | none => false

/-- The slot is agreeing on a tier: in TIER_SETTLE, or in the fall-back of a read. -/
def Slot.trying (x : Slot) : Bool := x.state == .tierSettle || x.phaseIs .fallingBack

end Sys2Proof.Machine
end

