-- ==== Sys2Proof/Machine/Reads.lean ====
section
/-! DEFINITION. The commands of a card read: CARD_READ, the card's answers to READ_BLOCKS, the blocks and the data
timeout (R59, R60, R63 to R67). -/

namespace Sys2Proof.Machine

/-- The block runs of a CARD_READ request, as many as its run count says (R192). -/
def runsOf (c : WorkCell) (n : Nat) : List BlockRun :=
  (List.range n).map fun i => ⟨c.req (4 + 8 * i) 4, c.req (8 + 8 * i) 2⟩

/-- The first run that fails its checks, with the field that fails: 0 start, 1 count (R59 step 2). -/
def badRun (capacity : Nat) : Nat → List BlockRun → Option (Nat × Nat)
  | _, [] => none
  | i, r :: t =>
    if r.count = 0 then some (i, 1)
    else if capacity ≤ r.start then some (i, 0)
    else if capacity < r.start + r.count then some (i, 1)
    else badRun capacity (i + 1) t

/-- The read record at the start of a read (R60). -/
def newRead (c : Fin 64) (runs : List BlockRun) (h : Handle) (base : Nat) (tier : Tier) : ReadRec where
  cell := c
  runs := runs
  curRun := 0
  nextBlock := (runs.head?.map (·.start)).getD 0
  nextPos := 0
  attempts := 0
  picture := h
  basePage := base
  placed := 0
  failedList := []
  failedTotal := 0
  startTier := tier
  channel := none
  phase := .waitChannel
  cause := .command
  owed := .none
  crcErrs := 0
  timeouts := 0

/-- A CARD_READ looked at in READY, its cell taken: the checks in order, and the start of the read (R59, R60, R73). -/
def startRead (s : State) (k : Fin 4) (c : Fin 64) (rec : CardRecord) : State :=
  let n := s.cells[c].req 0 1
  if n < 1 ∨ 32 < n then s.answer c (refuse .badField (plainField 0))
  else
    let runs := runsOf s.cells[c] n
    match badRun rec.capacity 0 runs with
    | some (i, f) => s.answer c (refuse .badField (fieldDetail 1 i f))
    | none =>
      if 131072 < totalBlocks runs then s.answer c (refuse .overLimit (plainField 0))
      else
        match s.createCardFile k rec.cardId (totalBlocks runs) with
        | none => s.answer c (refuse .noRoom)
        | some (t, h, base) =>
          let t := t.modSlot k fun x =>
            { x.enter s.clock .reading with read := some (newRead c runs h base x.workTier) }
          askChannel (showRead t k true) k

/-- CARD_READ (R51, R59): taken in READY, refused where R51 refuses it, else left waiting. -/
def execCardRead (k : Fin 4) (s : State) : Host.Outcome State Fault Refusal :=
  match s.headOf (slotList k) .cardRead with
  | none => .next s
  | some c =>
    let x := s.slots[k]
    match x.state with
    | .empty | .releasing | .removeReady | .fault =>
      event s (s.takeAnswer c (refuse .wrongState x.state.code))
    | .ready => match x.record with
      | some rec => event s (startRead (s.take c) k c rec)
      | none => .next s
    | .settling | .powering | .identifying | .tierSettle | .reading => .next s

/-- STATUS is sent and the read goes to CHECKING (R63, R64). -/
def goChecking (s : State) (k : Fin 4) (cause : CheckCause) : State :=
  ((s.sendCard k statusCommand).modRead k fun r => { r with phase := .checking, cause := cause }).slotWait k .status 250

/-- READ_BLOCKS was accepted: RECEIVING, waiting for data while the buffer is EMPTY (R63, R64). -/
def goReceiving (s : State) (k : Fin 4) : State :=
  pumpIfEmpty ((s.slotNoWait k).modRead k fun r => { r with phase := .receiving }) k

/-- READ_BLOCKS_RESPONSE (R63). -/
def execReadBlocksResponse (k : Fin 4) (bytes : List Byte) (s : State) : Host.Outcome State Fault Refusal :=
  if s.slots[k].waits .readBlocks then
    match responseContents 1 bytes with
    | none => .next s
    | some c => event s (if byteAt c 0 = 0 then goReceiving s k else goChecking s k .command)
  else .next s

/-- READ_BLOCKS_TIMEOUT (R63). -/
def execReadBlocksTimeout (k : Fin 4) (s : State) : Host.Outcome State Fault Refusal :=
  if s.slots[k].waitOver s.clock .readBlocks then event s (goChecking s k .command) else .next s

/-- A block arrived whole: a transfer, the block into the buffer, and on (R64, R65, R68). -/
def blockArrives (s : State) (k : Fin 4) (data : List Byte) : State :=
  let s := s.setSlot k { (s.slots[k].countWindow true false).1 with timer := none }
  afterPut ((putBlock s k (some data)).modRead k ReadRec.advance) k id

/-- BLOCK_RECEIVED (R64, R65, R66): the CRCs of the lines in use are checked. -/
def execBlockReceived (k : Fin 4) (data : List Byte) (crcs : List Half) (s : State) :
    Host.Outcome State Fault Refusal :=
  let x := s.slots[k]
  if x.waits .data then
    event s (if blockGood x.workWide data crcs then blockArrives s k data else attemptFails s k true true)
  else .next s

/-- DATA_TIMEOUT (R64, R67): the transfer is counted and the window checked now; STOP and STATUS are sent. -/
def execDataTimeout (k : Fin 4) (s : State) : Host.Outcome State Fault Refusal :=
  let x := s.slots[k]
  if x.waitOver s.clock .data then
    event s (goChecking ((s.setSlot k (x.countWindow true false).1).sendCard k stopCommand) k .timeout)
  else .next s

/-- The CHECKING outcome of a read (R67): with address error set the rest of the run fails; else the failure that brought
the read here is a failed attempt, counted as a transfer too when it was a command failure. -/
def checkingOutcome (s : State) (k : Fin 4) (addressError : Bool) : State :=
  if addressError then pumpIfEmpty ((s.slotNoWait k).modRead k fun r => { r with owed := .run }) k
  else
    match s.slots[k].read with
    | none => s
    | some r => attemptFails s k (r.cause == .command) false

end Sys2Proof.Machine
end

