-- ==== Sys2Proof/Machine/Slots.lean ====
section
/-! DEFINITION. The commands of a Card Slot Controller: its switches, timers, identification, tier settle, release,
removal and reset (R44 to R55). -/

namespace Sys2Proof.Machine

/-- A cell taken by a slot beside its read. -/
def OtherCell.cell : OtherCell → Fin 64
  | .release c => c
  | .reset c => c

/-- The answer of a taken SLOT_RESET or CARD_RELEASE, where one is held: the status with length 0 and no fields, also
for a SLOT_RESET answered REMOVED (R53, R55; DESIGN CHOICE, log 47). -/
def answerOther (s : State) (k : Fin 4) (st : Status) : State :=
  match s.slots[k].otherCell with
  | some o => (s.modSlot k fun x => { x with otherCell := none }).answer o.cell (refuse st)
  | none => s

/-- CARD_RELEASE (R51, R52). -/
def execCardRelease (k : Fin 4) (s : State) : Host.Outcome State Fault Refusal :=
  match s.headOf (slotList k) .cardRelease with
  | none => .next s
  | some c =>
    let x := s.slots[k]
    match x.state with
    | .empty | .releasing | .removeReady | .fault =>
      event s (s.takeAnswer c (refuse .wrongState x.state.code))
    | .ready => event s (doRelease (s.take c) k c)
    | .reading =>
      event s ((s.take c).modSlot k fun x => { x.enter s.clock .releasing with otherCell := some (.release c) })
    | .settling | .powering | .identifying | .tierSettle => .next s

/-- A SLOT_RESET carried out: a read is cut, a release aborted, and the card starts over from power off (R55). -/
def startReset (s : State) (k : Fin 4) (c : Fin 64) : State :=
  let s := answerOther (cutRead s k .aborted) k .aborted
  (s.modSlot k fun x =>
    { x.powerOff.enter s.clock .powering with record := none, faultCause := .none, otherCell := some (.reset c) }).slotWait
    k .offInterval 50

/-- SLOT_RESET (R51, R55). -/
def execSlotReset (k : Fin 4) (s : State) : Host.Outcome State Fault Refusal :=
  match s.headOf (slotList k) .slotReset with
  | none => .next s
  | some c =>
    let x := s.slots[k]
    match x.state with
    | .empty => event s (s.takeAnswer c (doneWith (slotResetBody x)))
    | .ready | .reading | .releasing | .removeReady | .fault => event s (startReset (s.take c) k c)
    | .settling | .powering | .identifying | .tierSettle => .next s

/-- A closed switch starts the settle of 50 ms in EMPTY (R44). -/
def startSettling (s : State) (k : Fin 4) : State :=
  (s.modSlot k fun x => x.enter s.clock .settling).slotWait k .settle 50

/-- DETECT_CLOSE (R44). While the part is STARTING the slots do not act on the switch (R57). -/
def execDetectClose (k : Fin 4) (s : State) : Host.Outcome State Fault Refusal :=
  let x := s.slots[k]
  if x.detectClosed then .next s
  else
    let t := s.modSlot k fun x => { x with detectClosed := true, openTimer := none }
    event s (if s.running ∧ x.state = .empty then startSettling t k else t)

/-- DETECT_OPEN (R44): back to EMPTY from SETTLING; in a powered state the opening becomes a removal after 1 ms. -/
def execDetectOpen (k : Fin 4) (s : State) : Host.Outcome State Fault Refusal :=
  let x := s.slots[k]
  if x.detectClosed then
    event s (s.modSlot k fun x =>
      let x := { x with detectClosed := false }
      match x.state with
      | .empty => x
      | .settling => { x.enter s.clock .empty with timer := none }
      | _ => { x with openTimer := some ⟨s.clock, 1⟩ })
  else .next s

/-- The removal of a card in one event (R53, R54). -/
def removeCard (s : State) (k : Fin 4) : State :=
  let reading := s.slots[k].read.isSome
  let s := answerOther (cutRead s k .removed) k .removed
  let s := s.intake[slotList k].foldl (fun t c => t.takeAnswer c (refuse .removed)) s
  s.modSlot k fun x =>
    { x.powerOff.enter s.clock .empty with
      openTimer := none
      lastCardId := (x.record.map CardRecord.cardId).getD 0
      removedReading := reading
      removalCount := sat16 x.removalCount
      record := none
      faultCause := .none }

/-- REMOVAL (R44, R53): the switch has stayed open for 1 ms in a state other than EMPTY and SETTLING. -/
def execRemoval (k : Fin 4) (s : State) : Host.Outcome State Fault Refusal :=
  let x := s.slots[k]
  if x.state ≠ .empty ∧ x.state ≠ .settling ∧ timerDue s.clock x.openTimer then event s (removeCard s k) else .next s

/-- WRITE_PROTECT_CHANGE (R44, R56): the switch takes a level; the record shows it in every state other than EMPTY. -/
def execWriteProtectChange (k : Fin 4) (level : Bool) (s : State) : Host.Outcome State Fault Refusal :=
  event s (s.modSlot k fun x => { x with protectPin := level })

/-- Power is applied and the ramp of 20 ms starts; the working tier and width are T0 and 1-bit (R45). -/
def startRamp (s : State) (k : Fin 4) : State :=
  (s.modSlot k fun x =>
    { x.powerOff.enter s.clock .powering with power := true, faultCause := .none }).slotWait k .ramp 20

/-- SETTLE_TIMER_EXPIRY (R44). -/
def execSettleTimerExpiry (k : Fin 4) (s : State) : Host.Outcome State Fault Refusal :=
  let x := s.slots[k]
  if x.state = .settling ∧ x.detectClosed ∧ x.waitOver s.clock .settle then event s (startRamp s k) else .next s

/-- OFF_INTERVAL_EXPIRY (R45). -/
def execOffIntervalExpiry (k : Fin 4) (s : State) : Host.Outcome State Fault Refusal :=
  let x := s.slots[k]
  if x.state = .powering ∧ x.waitOver s.clock .offInterval then event s (startRamp s k) else .next s

/-- An attempt of identification: IDENTIFY at T0, 250 ms (R46). -/
def identify (s : State) (k : Fin 4) (attempt : Nat) : State :=
  ((s.modSlot k fun x => { x with attempts := attempt }).sendCard k identifyCommand).slotWait k .identify 250

/-- RAMP_TIMER_EXPIRY (R45, R46). -/
def execRampTimerExpiry (k : Fin 4) (s : State) : Host.Outcome State Fault Refusal :=
  let x := s.slots[k]
  if x.state = .powering ∧ x.waitOver s.clock .ramp then
    event s (identify (s.modSlot k fun x => x.enter s.clock .identifying) k 1)
  else .next s

/-- A failed attempt of identification: the next one, or FAULT after the third (R46). -/
def identifyFails (s : State) (k : Fin 4) : State :=
  let x := s.slots[k]
  if x.attempts < 3 then identify s k (x.attempts + 1) else toFault s k .unresponsive

/-- A good card record: the error totals restart (R56), and the slot settles its tier (R46, R47). -/
def identified (s : State) (k : Fin 4) (rec : CardRecord) : State :=
  startSettle (s.modSlot k fun x =>
    { x with record := some rec, crcErrs := 0, timeouts := 0, shown := { x.shown with crcErrs := 0, timeouts := 0 } }) k

/-- What a response to IDENTIFY amounts to: nothing, a failed attempt (none), or a card record. A record whose own check
fails is a failed attempt whatever the response check says; a failed response check alone is no response (R46, R195). -/
def identifyOutcome (bytes : List Byte) : Option (Option CardRecord) :=
  if bytes.length = 13 then
    if sumsToZero ((bytes.drop 1).take 11) then (responseContents 11 bytes).map cardRecordOf else some none
  else none

/-- IDENTIFY_RESPONSE (R46, R195). -/
def execIdentifyResponse (k : Fin 4) (bytes : List Byte) (s : State) : Host.Outcome State Fault Refusal :=
  let x := s.slots[k]
  if x.state = .identifying ∧ x.waits .identify then
    match identifyOutcome bytes with
    | none => .next s
    | some (some rec) => event s (identified s k rec)
    | some none => event s (identifyFails s k)
  else .next s

/-- IDENTIFY_TIMEOUT (R46). -/
def execIdentifyTimeout (k : Fin 4) (s : State) : Host.Outcome State Fault Refusal :=
  let x := s.slots[k]
  if x.state = .identifying ∧ x.waitOver s.clock .identify then event s (identifyFails s k) else .next s

/-- SET_MODE was accepted: the bus switches and STATUS is sent (R48). -/
def setModeAccepted (s : State) (k : Fin 4) : State :=
  ((s.modSlot k fun x => x.setBus x.tryTier x.tryWide).sendCard k statusCommand).slotWait k .status 250

/-- SET_MODE_RESPONSE (R48, R69). -/
def execSetModeResponse (k : Fin 4) (bytes : List Byte) (s : State) : Host.Outcome State Fault Refusal :=
  let x := s.slots[k]
  if x.trying ∧ x.waits .setMode then
    match responseContents 1 bytes with
    | none => .next s
    | some c => event s (if byteAt c 0 = 0 then setModeAccepted s k else tierFails s k)
  else .next s

/-- SET_MODE_TIMEOUT (R48, R69). -/
def execSetModeTimeout (k : Fin 4) (s : State) : Host.Outcome State Fault Refusal :=
  let x := s.slots[k]
  if x.trying ∧ x.waitOver s.clock .setMode then event s (tierFails s k) else .next s

/-- STATUS_RESPONSE (R48, R67, R69): confirms or fails a tier, or decides the CHECKING outcome of a read. -/
def execStatusResponse (k : Fin 4) (bytes : List Byte) (s : State) : Host.Outcome State Fault Refusal :=
  let x := s.slots[k]
  if x.waits .status then
    match responseContents 1 bytes with
    | none => .next s
    | some c =>
      if x.trying then event s (if (byteAt c 0).getLsbD 0 then tierConfirmed s k else tierFails s k)
      else if x.phaseIs .checking then event s (checkingOutcome s k ((byteAt c 0).getLsbD 1))
      else .next s
  else .next s

/-- STATUS_TIMEOUT (R48, R67, R69). -/
def execStatusTimeout (k : Fin 4) (s : State) : Host.Outcome State Fault Refusal :=
  let x := s.slots[k]
  if x.waitOver s.clock .status then
    if x.trying then event s (tierFails s k)
    else if x.phaseIs .checking then event s (checkingOutcome s k false)
    else .next s
  else .next s

/-- LED_BLINK_TOGGLE (R50): 500 ms lit and 500 ms dark in turn. -/
def execLedBlinkToggle (k : Fin 4) (s : State) : Host.Outcome State Fault Refusal :=
  let x := s.slots[k]
  if timerDue s.clock x.ledTimer then
    event s (s.setSlot k { x with ledLit := !x.ledLit, ledTimer := some ⟨s.clock, 500⟩ })
  else .next s

end Sys2Proof.Machine
end

