-- ==== Sys2Proof/Machine/OrderOps.lean ====
section
/-! DEFINITION. What befalls an order inside the events of other blocks: pricing, references, payment actions and their
outcomes, reservations, item progress and settlement (R77 to R80, R85, R86, R89 to R93, R154 to R164). -/

namespace Sys2Proof.Machine

/-! ## Lookup and update -/

/-- The order a handle names, if the handle is current (R77). -/
def State.orderAt (s : State) (h : Handle) : Option (Fin 48 × Order) :=
  if hi : h.index.toNat < 48 then
    let e := s.orders[h.index.toNat]
    match e.order with
    | some o => if e.gen = h.gen then some (⟨h.index.toNat, hi⟩, o) else none
    | none => none
  else none

/-- The handle of an entry. -/
def State.orderHandle (s : State) (n : Fin 48) : Handle := ⟨BitVec.ofNat 8 n.val, s.orders[n].gen⟩

/-- Writes the order of an entry; the entry keeps its generation. -/
def State.putOrder (s : State) (n : Fin 48) (o : Order) : State := s.setOrder n { s.orders[n] with order := some o }

/-- Changes the order a handle names. -/
def State.modOrder (s : State) (h : Handle) (f : Order → Order) : State :=
  match s.orderAt h with
  | some (n, o) => s.putOrder n (f o)
  | none => s

/-- Changes one item of an order. -/
def Order.modItem (o : Order) (i : Nat) (f : Item → Item) : Order := { o with items := o.items.modify i f }

/-! ## Pricing (R79, R80) -/

/-- The largest total. -/
def maxTotal : Nat := 99999999

/-- The copies of one size over the items that are not CANCELLED. -/
def sizeCount (items : List Item) (z : Size) : Nat :=
  ((items.filter fun it => it.state != .cancelled && it.size == z).map (·.copies)).foldr (· + ·) 0

/-- The unit price of a size and finish for a size count: bulk at or above a threshold that is not 0, else base (R79). -/
def unitPriceFor (st : Settings) (z : Size) (f : Finish) (count : Nat) : Nat :=
  price st z f (bulkThreshold st z != 0 && decide (bulkThreshold st z ≤ count))

/-- The items with their unit prices; a CANCELLED item keeps the one it had (R79). -/
def priced (st : Settings) (items : List Item) : List Item :=
  items.map fun it =>
    if it.state = .cancelled then it
    else { it with unitPrice := unitPriceFor st it.size it.finish (sizeCount items it.size) }

/-- The line amount of an item; a CANCELLED item contributes nothing (R79). -/
def lineAmount (it : Item) : Nat := if it.state = .cancelled then 0 else it.copies * it.unitPrice

/-- The total of priced items (R79). -/
def orderTotal (items : List Item) : Nat := (items.map lineAmount).foldr (· + ·) 0

/-- The first item at which the running sum of line amounts exceeds the largest total (R80). -/
def firstOver : Nat → Nat → List Item → Option Nat
  | _, _, [] => none
  | i, sum, it :: t => if maxTotal < sum + lineAmount it then some i else firstOver (i + 1) (sum + lineAmount it) t

/-! ## References, payment actions, entry into PAID -/

/-- Every reference the order still holds is released, and reference held is cleared on every item (R93). -/
def releaseReferences (s : State) (n : Fin 48) (o : Order) : State :=
  let held := (o.items.filter (·.refHeld)).map (·.raster)
  (held.foldl State.dropRef s).putOrder n { o with items := o.items.map fun it => { it with refHeld := false } }

/-- An action is queued with the Payment Engine (R116). -/
def State.queueAction (s : State) (a : QueuedAction) : State :=
  { s with pay := { s.pay with queue := s.pay.queue ++ [a] } }

/-- The order enters PAID: paid time from CLOCK, failure limit from section 3 (R82, R162). -/
def Order.enterPaid (o : Order) (s : State) : Order :=
  { o with state := .paid, paidTime := some s.clock, failureLimit := Machine.failureLimit s.settings }

/-- A VOID is queued and the order goes to SETTLING, or to CLOSED when nothing was authorised; its references are
released (R83, R87, R90, R93). -/
def voidOrClose (s : State) (n : Fin 48) (o : Order) : State :=
  if 0 < o.authorised then
    (releaseReferences s n { o with state := .settling }).queueAction
      ⟨s.orderHandle n, .void, o.authorised, o.code.getD []⟩
  else releaseReferences s n { o with state := .closed, outcome := .none }

/-! ## Reservations (R154, R164) -/

/-- A release: the entry becomes NONE, the station's account drops the reservation, and the item's reserved count falls
by one (R164). -/
def releaseReservation (s : State) (n : Fin 3) : State :=
  match s.reservations[n] with
  | none => s
  | some r =>
    let t := { s with reservations := s.reservations.set n none }
    let t := t.modStation n fun x => { x with account := { x.account with reservation := none } }
    t.modOrder r.order fun o => o.modItem r.item fun it => { it with reserved := it.reserved - 1 }

/-- Releases every reservation that satisfies a condition. -/
def releaseWhere (s : State) (p : Reservation → Bool) : State :=
  (List.finRange 3).foldl (fun t n => match t.reservations[n] with
    | some r => if p r then releaseReservation t n else t
    | none => t) s

/-! ## Settlement (R89 to R92) -/

/-- A final item state (R78). -/
def ItemState.final : ItemState → Bool
  | .done | .failed | .cancelled => true
  | .waiting | .active => false

/-- The order is ready to settle: PRINTING or CANCELLING, every item final, none in flight (R89). -/
def Order.ready (o : Order) : Bool :=
  (o.state == .printing || o.state == .cancelling) &&
  o.items.all fun it => it.state.final && it.inFlight == 0

/-- Done times unit price over every item (R90). -/
def capturedSum (items : List Item) : Nat := (items.map fun it => it.done * it.unitPrice).foldr (· + ·) 0

/-- Settlement in the event that finds the order ready (R89, R90). -/
def checkSettle (s : State) (h : Handle) : State :=
  match s.orderAt h with
  | none => s
  | some (n, o) =>
    if o.ready then
      let o := { o with captured := capturedSum o.items }
      if 0 < o.captured then
        (releaseReferences s n { o with state := .settling }).queueAction ⟨h, .capture, o.captured, o.code.getD []⟩
      else voidOrClose s n o
    else s

/-! ## Item progress (R161, R163) -/

/-- A copy completed (R161): in flight falls, done rises, and an ACTIVE item with all its copies done is DONE. -/
def Item.complete (it : Item) : Item :=
  let it := { it with inFlight := it.inFlight - 1, done := it.done + 1 }
  if it.state = .active ∧ it.done = it.copies then { it with state := .done } else it

/-- A copy failed (R163): in flight falls, failures rises up to the limit, and an ACTIVE item at the limit is FAILED. -/
def Item.fail (it : Item) (limit : Nat) : Item :=
  let it := { it with inFlight := it.inFlight - 1,
                      failures := if it.failures < limit then it.failures + 1 else it.failures }
  if it.state = .active ∧ limit ≤ it.failures then { it with state := .failed } else it

/-- A completion reaches the item and its order is checked for settlement (R161). -/
def copyCompleted (s : State) (h : Handle) (i : Nat) : State :=
  checkSettle (s.modOrder h fun o => o.modItem i Item.complete) h

/-- The item of an order is FAILED. -/
def State.itemFailed (s : State) (h : Handle) (i : Nat) : Bool :=
  match s.orderAt h with
  | some (_, o) => match o.items[i]? with
    | some it => it.state == .failed
    | none => false
  | none => false

/-- A failure reaches the item; every reservation of an item that is FAILED is released; the order is checked for
settlement (R163). -/
def copyFailed (s : State) (h : Handle) (i : Nat) : State :=
  let s := s.modOrder h fun o => o.modItem i fun it => it.fail o.failureLimit
  let s := if s.itemFailed h i then releaseWhere s fun r => r.order == h && r.item == i else s
  checkSettle s h

/-! ## Outcomes from the Payment Engine (R85, R86, R91) -/

/-- An authorisation outcome (R85). -/
inductive AuthOutcome
  | approved (amount : Nat) (code : List Byte)
  | declined (reason : Byte)
  | doubt
  | noTerminal
deriving DecidableEq, Repr

/-- The pay cell of an order is answered with the order's state and authorised amount (R85, R192). -/
def answerPay (s : State) (n : Fin 48) (o : Order) (st : Status) (detail : Nat) : State :=
  match o.payCell with
  | none => s.putOrder n o
  | some c =>
    (s.putOrder n { o with payCell := none }).answer c
      { status := st, detail := detail, body := [BitVec.ofNat 8 o.state.code, 0, 0, 0] ++ le 4 o.authorised }

/-- The order as the last step before its pay cell is answered leaves it in the table. -/
def answerPayAt (s : State) (n : Fin 48) (st : Status) (detail : Nat) : State :=
  match s.orders[n].order with
  | some o => answerPay s n o st detail
  | none => s

/-- An approval, with the amount clamped to the total (R85). -/
def applyApproval (s : State) (n : Fin 48) (o : Order) (amount : Nat) (code : List Byte) : State :=
  let st : Status := if o.total ≤ amount then .done else .short
  let o := { o with authorised := min amount o.total, code := some code }
  let t :=
    if o.cancelPending then voidOrClose s n { o with cancelPending := false }
    else if o.total ≤ amount then s.putOrder n (o.enterPaid s)
    else s.putOrder n { o with state := .short }
  answerPayAt t n st 0

/-- A decline, or no terminal: nothing is authorised (R85). -/
def applyNoApproval (s : State) (n : Fin 48) (o : Order) (reason : Option Byte) (st : Status) (detail : Nat) : State :=
  let o := { o with authorised := 0, reason := if reason.isSome then reason else o.reason }
  let t :=
    if o.cancelPending then releaseReferences s n { o with cancelPending := false, state := .closed, outcome := .none }
    else s.putOrder n { o with state := .opened }
  answerPayAt t n st detail

/-- An outcome for an order in AUTHORIZING, or the resolution of one in DOUBT (R85, R86). An approval of amount 0 is a
decline with reason 0. -/
def authOutcome (s : State) (h : Handle) (out : AuthOutcome) : State :=
  match s.orderAt h with
  | none => s
  | some (n, o) =>
    if o.state = .authorizing ∨ o.state = .doubt then
      match out with
      | .approved 0 _ => applyNoApproval s n o (some 0) .declined 0
      | .approved (a + 1) code => applyApproval s n o (a + 1) code
      | .declined reason => applyNoApproval s n o (some reason) .declined reason.toNat
      | .doubt => answerPayAt (s.putOrder n { o with state := .doubt }) n .doubt 0
      | .noTerminal => applyNoApproval s n o none .noTerminal 0
    else s

/-- A capture or void outcome for an order in SETTLING (R91); `reason` is the terminal's when it refused. -/
def settleOutcome (s : State) (h : Handle) (a : PayAction) (refused : Option Byte) : State :=
  s.modOrder h fun o =>
    if o.state = .settling then
      match a, refused with
      | .capture, none => { o with state := .closed, outcome := .ok }
      | .capture, some _ => { o with state := .closed, outcome := .captureFailed, captured := 0 }
      | .void, none => { o with state := .closed, outcome := .voided }
      | .void, some r => { o with state := .closed, outcome := .voided, reason := some r }
      | .authorize, _ => o
    else o

end Sys2Proof.Machine
end

