-- ==== Sys2Proof/Machine/RenderOps.lean ====
section
/-! DEFINITION. The Render Engine inside its events: the pulse computation, pixel runs, line banks, the render arbiter
and line requests (R167 to R180). -/

namespace Sys2Proof.Machine

/-! ## The pulse computation (R168 to R173) -/

/-- The dots of the head. -/
def headDots : Nat := 1824

/-- Lines per panel of a size. -/
def Size.lines : Size → Nat
  | .s4 => 1240 | .s6 => 1840 | .s8 => 2440

/-- The crop size as the print sees it (R168). -/
def Item.rotatedCrop (it : Item) : Nat × Nat :=
  match it.rotation with
  | .r0 | .r180 => (it.cw, it.ch)
  | .r90 | .r270 => (it.ch, it.cw)

/-- Stage 1: the raster pixel that dot `d` of line `l` of `lines` samples (R168). -/
def samplePixel (it : Item) (lines d l : Nat) : Nat × Nat :=
  let u := d * it.rotatedCrop.1 / headDots
  let v := l * it.rotatedCrop.2 / lines
  match it.rotation with
  | .r0 => (it.x0 + u, it.y0 + v)
  | .r90 => (it.x0 + v, it.y0 + it.ch - 1 - u)
  | .r180 => (it.x0 + it.cw - 1 - u, it.y0 + it.ch - 1 - v)
  | .r270 => (it.x0 + it.cw - 1 - v, it.y0 + u)

/-- A scalar of a profile by its place in region 0 (R198): 0 Emax, 1 G, 2 Tref, 3 Kt, 4 gloss and 5, 6 matte energies,
7 to 15 the matrix in rows C, M, Y. -/
def Profile.scalar (p : Profile) (i : Nat) : Int := p.scalars.getD i 0

/-- The matrix row of a panel's dye, by its first place (R167, R198). -/
def Panel.row : Panel → Nat
  | .c => 7 | .m => 10 | .y => 13 | .o => 16

/-- The tone table of a panel (R167). -/
def Profile.tone (p : Profile) : Panel → List Int
  | .y => p.toneY | .m => p.toneM | .c => p.toneC | .o => []

/-- Stage 2: the density of one dye, rounded toward minus infinity and clamped to 0 to 255 (R169). -/
def density (a1 a2 a3 : Int) (r g b : Byte) : Int :=
  clampTo 0 255 ((a1 * (255 - r.toNat : Int) + a2 * (255 - g.toNat : Int) + a3 * (255 - b.toNat : Int) + 512) / 1024)

/-- Stage 4: the allowance for heat in the head (R170). -/
def afterHistory (gain e0 h : Int) : Int := e0 - gain * h / 256

/-- The temperature factor of a panel (R171). -/
def tempFactor (kt tref th : Int) : Int := clampTo 128 384 (256 + kt * (tref - th))

/-- Stage 5: the energy scaled, rounded toward minus infinity (R171). -/
def scaled (factor e1 : Int) : Int := (e1 * factor + 128) / 256

/-- Stage 6: the pulse value (R172). -/
def pulse (emax e2 : Int) : Nat := (clampTo 0 emax e2).toNat

/-- Stage 7: the new history value (R172). -/
def nextHistory (h p : Nat) : Nat := (3 * h + p) / 4

/-- Stages 3 to 6 for one dot of a colour panel (R170 to R172). -/
def colourPulse (p : Profile) (panel : Panel) (factor : Int) (dens : Int) (h : Nat) : Nat :=
  pulse (p.scalar 0) (scaled factor (afterHistory (p.scalar 1) ((p.tone panel).getD dens.toNat 0) h))

/-- The finish energy of a dot of panel O (R173). -/
def overcoatEnergy (p : Profile) (f : Finish) (d l : Nat) : Int :=
  match f with
  | .gloss => p.scalar 4
  | .matte => if (d + l) % 2 = 0 then p.scalar 5 else p.scalar 6

/-- The pulse value of a dot of panel O (R173). -/
def overcoatPulse (p : Profile) (f : Finish) (factor : Int) (d l : Nat) : Nat :=
  pulse (p.scalar 0) (scaled factor (overcoatEnergy p f d l))

/-- The density of a pixel in a panel (R169). -/
def Pixel.density (p : Profile) (panel : Panel) (px : Pixel) : Int :=
  Machine.density (p.scalar panel.row) (p.scalar (panel.row + 1)) (p.scalar (panel.row + 2)) px.r px.g px.b

/-- The pulse values of a line of panel O (R173). -/
def overcoatLine (p : Profile) (f : Finish) (factor : Int) (l : Nat) : List Nat :=
  (List.range headDots).map fun d => overcoatPulse p f factor d l

/-- The pixel fetched at a place. -/
def pixelAt (fetched : List Pixel) (xy : Nat × Nat) : Pixel :=
  (fetched.find? fun q => q.x == xy.1 && q.y == xy.2).getD ⟨xy.1, xy.2, 0, 0, 0⟩

/-- The pulse values of a line of panel Y, M or C, from the history the line before left (R176). -/
def colourLine (p : Profile) (panel : Panel) (factor : Int) (it : Item) (lines l : Nat) (fetched : List Pixel)
    (history : List Nat) : List Nat :=
  (List.range headDots).map fun d =>
    colourPulse p panel factor ((pixelAt fetched (samplePixel it lines d l)).density p panel) (history.getD d 0)

/-! ## Pixel runs (R174) -/

/-- Cuts `n` consecutive pixels of a row into runs of up to 21, from column `col` on. -/
def cutRuns (row stride base : Nat) : Nat → Nat → Nat → List PixelRun
  | 0, _, _ => []
  | f + 1, col, n =>
    if n = 0 then []
    else
      let len := min 21 n
      ⟨row, col, len, base + row * stride + col * 3⟩ :: cutRuns row stride base f (col + len) (n - len)

/-- The least and the greatest of a list of columns. -/
def colRange (cols : List Nat) : Nat × Nat :=
  (cols.foldl min (cols.headD 0), cols.foldl max 0)

/-- The pixel runs of a line, row by row in the order of the first dot that samples each row (R174). -/
def lineRuns (it : Item) (lines l stride base : Nat) : List PixelRun :=
  let pts := (List.range headDots).map fun d => samplePixel it lines d l
  (pts.map (·.2)).eraseDups.flatMap fun row =>
    let (lo, hi) := colRange ((pts.filter fun q => q.2 == row).map (·.1))
    cutRuns row stride base (hi - lo + 1) lo (hi - lo + 1)

/-- The pixels a run's bytes spell. -/
def runPixels (run : PixelRun) (bytes : List Byte) : List Pixel :=
  (List.range run.len).map fun i =>
    ⟨run.col + i, run.row, byteAt bytes (3 * i), byteAt bytes (3 * i + 1), byteAt bytes (3 * i + 2)⟩

/-! ## Panels and copies (R167, R180) -/

/-- The panel values of a station at PANEL_START (R167, R171). -/
def panelHead (p : Option Profile) (th : Nat) (h : Head) : Head :=
  { h with
    temp := th
    factor := match p with
      | some p => tempFactor (p.scalar 3) (p.scalar 2) th
      | none => 256
    history := clearHistory
    cursor := some 0 }

/-- The Render Engine's share of a copy end: the line in progress is abandoned, its pixel run withdrawn or discarded when
it comes back, banks, held request, cursor and history cleared (R40, R180). -/
def renderEnd (s : State) (n : Fin 3) : State :=
  let t := s.setHead n resetHead
  match t.job with
  | some j =>
    if j.station = n then
      { t with job := none
               port := { t.port with inFlight := t.port.inFlight.map fun g => { g with live := false } } }
    else t
  | none => t

/-! ## Sending a line (R146) -/

/-- A message goes out on a station link. -/
def State.sendLink (s : State) (n : Fin 3) (type : Byte) (body : List Byte) : State :=
  s.emit (.link n (messageWords type body))

/-- The body of LINE (R197). -/
def lineBody (b : Bank) : List Byte :=
  le 2 b.seq ++ [BitVec.ofNat 8 b.panel.code] ++ le 2 b.line ++ b.values.flatMap (le 2)

/-- LINE is sent from a bank and the answer wait of 20 ms starts (R146). -/
def sendLine (s : State) (n : Fin 3) (b : Bank) : State :=
  (s.sendLink n 0x22 (lineBody b)).modStation n fun x =>
    { x with copy := x.copy.map fun c => { c with answer := some ⟨s.clock, 20⟩ } }

/-- Changes one bank of a station. -/
def Head.setBank (h : Head) (i : Fin 2) (b : Bank) : Head := { h with banks := h.banks.set i b }

/-- The bank of a station in a state, if any. -/
def Head.bankIn (h : Head) (p : Bank → Bool) : Option (Fin 2) :=
  if p h.banks[0] then some 0 else if p h.banks[1] then some 1 else none

/-- A bank goes from READY to SENDING and its LINE is sent (R178). -/
def sendFrom (s : State) (n : Fin 3) (i : Fin 2) : State :=
  let b := s.heads[n].banks[i]
  sendLine (s.modHead n fun h => h.setBank i { b with state := .sending }) n b

/-! ## The arbiter and the lines (R176, R177) -/

/-- The item a copy prints. -/
def State.itemOf (s : State) (c : Copy) : Option Item :=
  match s.orderAt c.order with
  | some (_, o) => o.items[c.item]?
  | none => none

/-- The station waits for the engine: its copy's panel is in progress, lines are left, a bank is EMPTY (R177). -/
def State.waitsToRender (s : State) (n : Fin 3) : Bool :=
  match s.stations[n].copy, s.heads[n].cursor with
  | some c, some l =>
    c.phase == .inPanel && decide (l < c.lines) && (s.heads[n].bankIn fun b => b.state == .empty).isSome
  | _, _ => false

/-- The READY banks of a station. -/
def Head.readyBanks (h : Head) : Nat := flag (h.banks[0].state == .ready) + flag (h.banks[1].state == .ready)

/-- Station `a` comes strictly before station `b` for the engine (R177): fewer READY banks, then an unanswered request,
then the request that arrived first. -/
def rendersBefore (a b : Head) : Bool :=
  if a.readyBanks ≠ b.readyBanks then decide (a.readyBanks < b.readyBanks)
  else
    match a.held, b.held with
    | some x, some y => earlier x.arrival y.arrival
    | some _, none => true
    | _, _ => false

/-- The station the arbiter chooses; ties go to the lowest number (R177). -/
def State.renderChoice (s : State) : Option (Fin 3) :=
  (List.finRange 3).foldl (fun best n =>
    if s.waitsToRender n then
      match best with
      | none => some n
      | some m => if rendersBefore s.heads[n] s.heads[m] then some n else some m
    else best) none

/-- The runs of a line; none for panel O (R173, R174). -/
def State.runsFor (s : State) (c : Copy) (l : Nat) : List PixelRun :=
  if c.panel = .o then []
  else
    match s.itemOf c with
    | none => []
    | some it => match s.pictureAt it.raster with
      | some (i, p) => lineRuns it c.lines l p.stride (s.baseOf i * 65536)
      | none => []

/-- A line starts for a station: an EMPTY bank becomes FILLING with its header, the cursor rises, and the reader begins
to fetch (R175, R176). -/
def startLine (s : State) (n : Fin 3) : State :=
  match s.stations[n].copy, s.heads[n].cursor, s.heads[n].bankIn fun b => b.state == .empty with
  | some c, some l, some i =>
    let t := s.modHead n fun h =>
      { h.setBank i ⟨.filling, c.seq, c.panel, l, []⟩ with cursor := some (l + 1) }
    { t with job := some { station := n, seq := c.seq, panel := c.panel, line := l, bank := i,
                           runs := s.runsFor c l, fetched := [] } }
  | _, _, _ => s

/-- The arbiter's choice when the engine is free (R177). -/
def renderGrant (s : State) : State :=
  match s.job, s.renderChoice with
  | none, some n => startLine s n
  | _, _ => s

/-- The values and the new history of the line being rendered (R173, R176). -/
def State.jobLine (s : State) (j : RenderJob) (c : Copy) (p : Profile) : List Nat × List Nat :=
  let h := s.heads[j.station]
  if j.panel = .o then (overcoatLine p c.finish h.factor j.line, h.history)
  else
    match s.itemOf c with
    | some it =>
      let vs := colourLine p j.panel h.factor it c.lines j.line j.fetched h.history
      (vs, (List.range headDots).map fun d => nextHistory (h.history.getD d 0) (vs.getD d 0))
    | none => ([], h.history)

/-- The line being rendered completes: its values and history, its bank READY, or SENDING at once when its request is
held; then the arbiter chooses again (R176 to R178). -/
def completeLine (s : State) (j : RenderJob) : State :=
  match s.stations[j.station].copy, s.stations[j.station].profile with
  | some c, some p =>
    let (vs, hist) := s.jobLine j c p
    let t := { s with job := none }
    let t := t.modHead j.station fun h =>
      { h.setBank j.bank ⟨.ready, j.seq, j.panel, j.line, vs⟩ with history := hist }
    let t := match t.heads[j.station].held with
      | some r =>
        if r.line = j.line then sendFrom (t.modHead j.station fun h => { h with held := none }) j.station j.bank else t
      | none => t
    renderGrant t
  | _, _ => { s with job := none }

end Sys2Proof.Machine
end

