-- ==== Sys2Proof/Machine/StationOps.lean ====
section
/-! DEFINITION. What a Station Controller does inside its events: bring-up, rest, profile load, media account, panels,
copy ends and flow violations (R133 to R150, R160 to R164). -/

namespace Sys2Proof.Machine

/-! ## Answers to STATION_POWER and STATION_RELINK (R149, R150) -/

/-- The answer body: state reached, link rate, profile identifier (R192). -/
def stationBody (x : Station) : List Byte :=
  [BitVec.ofNat 8 x.state.code, BitVec.ofNat 8 x.rate.code, 0, 0] ++ le 4 ((x.profile.map Profile.ident).getD 0)

/-- The taken cell of a station is answered with the state reached: DONE, also where bring-up ended in FAULT or ABSENT
(R149; DESIGN CHOICE, log 50). -/
def answerStation (s : State) (n : Fin 3) : State :=
  match s.stations[n].takenCell with
  | some c =>
    (s.modStation n fun x => { x with takenCell := none }).answer c (doneWith (stationBody s.stations[n]))
  | none => s

/-! ## Sending and bring-up (R133, R134) -/

/-- The ability word goes out, and the next one follows in 1 ms (R133). -/
def sendAbility (s : State) (n : Fin 3) : State :=
  (s.emit (.link n [partAbilityWord s.stations[n].ack])).modStation n fun x =>
    { x with sendTimer := some ⟨s.clock, 1⟩ }

/-- An idle word goes out, and the next word follows in 1 ms (R133; log 41). -/
def sendIdle (s : State) (n : Fin 3) : State :=
  (s.emit (.link n [idleWord])).modStation n fun x => { x with sendTimer := some ⟨s.clock, 1⟩ }

/-- LINKING with the exchange started: settle count 0, ACK clear, 500 ms (R134). -/
def Station.startExchange (x : Station) (now : Word) : Station :=
  { x with state := .linking, settleCount := 0, prevWord := none, ack := false, exchangeTimer := some ⟨now, 500⟩ }

/-- The rest of a cause, in milliseconds (R136). -/
def DownCause.rest : DownCause → Nat
  | .profile | .engine => 1000
  | _ => 500

/-- The state during the rest of a cause (R136). -/
def DownCause.state : DownCause → StationState
  | .energy | .none => .absent
  | .peer | .relink | .wake => .linking
  | .linkErrors | .profile | .engine => .fault

/-- The fault cause of a down cause that leads to FAULT (R136). -/
def DownCause.fault : DownCause → Option StationFault
  | .linkErrors => some .linkErrors
  | .profile => some .profile
  | .engine => some .engine
  | _ => Option.none

/-- The link-down counter rises if the link was UP (R136). -/
def Station.countDown (x : Station) : Station := if x.linkUp then { x with downs := sat16 x.downs } else x

/-- The station as a link down leaves it: state, causes, rest, and everything of the bring-up dropped (R136). A message in
assembly is dropped too and counted nowhere, which neither R136 nor R197 says: DESIGN CHOICE, log 56. The pause cause shown
is NONE from here on: DESIGN CHOICE, log 59. -/
def Station.down (x : Station) (now : Word) (cause : DownCause) : Station :=
  { x.countDown with
    state := cause.state
    pauseCause := .none
    faultCause := cause.fault.getD x.faultCause
    downCause := cause
    rest := some ⟨now, cause.rest⟩
    sendTimer := none
    settleCount := 0
    prevWord := none
    ack := false
    exchangeTimer := none
    rate := .none
    msg := none
    load := none
    wake := none }

/-! ## The end of a copy (R147, R163, R180) -/

/-- A failed copy leaves the station: banks and history cleared, the copy record cleared, the outcome shown, and the
failure handed to the Dispatcher. -/
def failCopy (s : State) (n : Fin 3) (outcome : CopyOutcome) (reason : Byte) : State :=
  match s.stations[n].copy with
  | none => s
  | some c =>
    let t := (renderEnd s n).modStation n fun x => { x with copy := none, outcome := outcome, reason := reason }
    copyFailed t c.order c.item

/-- A completed copy leaves the station (R147, R161). -/
def completeCopy (s : State) (n : Fin 3) : State :=
  match s.stations[n].copy with
  | none => s
  | some c =>
    let t := (renderEnd s n).modStation n fun x => { x with copy := none, outcome := .completed, reason := 0 }
    copyCompleted t c.order c.item

/-- The link goes down, or a bring-up stops (R136): a copy in flight fails with `copyCause`, a reservation is released,
and in FAULT a taken cell is answered. -/
def linkDown (s : State) (n : Fin 3) (cause : DownCause) (copyCause : CopyOutcome) : State :=
  let s := releaseReservation (failCopy s n copyCause 0) n
  let t := s.modStation n fun x => x.down s.clock cause
  if cause.fault.isSome then answerStation t n else t

/-! ## Status words and pauses (R142, R145) -/

/-- The word shows a pause condition (R142). -/
def EngineStatus.pauses (w : EngineStatus) : Bool :=
  w.cond == .coverOpen || w.cond == .jam || w.cond == .noMedia || !w.coverClosed || !w.paperPresent

/-- The pause cause of a word that shows a pause condition (R142). -/
def EngineStatus.cause (w : EngineStatus) : PauseCause :=
  if w.cond == .coverOpen || !w.coverClosed then .cover else if w.cond == .jam then .jam else .noMedia

/-- PAUSED with the cause of the latest status word if it shows a pause condition, READY otherwise, where the pause cause
shown is NONE (R141, R147; DESIGN CHOICE, log 59). -/
def Station.pausedOrReady (x : Station) : Station :=
  match x.status with
  | some w => if w.pauses then { x with state := .paused, pauseCause := w.cause }
              else { x with state := .ready, pauseCause := .none }
  | none => { x with state := .ready, pauseCause := .none }

/-- The station enters READY or PAUSED while the link stays up, and a taken cell is answered (R147, R149). -/
def settleState (s : State) (n : Fin 3) : State := answerStation (s.modStation n Station.pausedOrReady) n

/-- The part fails a copy while the link stays up: COPY_ABORT, and READY or PAUSED (R147). -/
def abortCopy (s : State) (n : Fin 3) (outcome : CopyOutcome) : State :=
  match s.stations[n].copy with
  | none => s
  | some c => settleState (failCopy (s.sendLink n 0x23 (le 2 c.seq)) n outcome 0) n

/-- A flow violation: the copy fails with cause ENGINE and the link goes down with cause ENGINE (R148). -/
def flowViolation (s : State) (n : Fin 3) : State := linkDown s n .engine .engine

/-! ## The profile load (R138 to R141) -/

/-- The scalars of region 0 clamped: an Emax of 0 is taken as section 4's (R141). -/
def clampScalars (defaults raw : List Int) : List Int :=
  let e := raw.getD 0 0
  let emax := if e = 0 then defaults.getD 0 1 else min e 1023
  List.zipWith (clampField emax) scalarSpec (emax :: raw.drop 1)

/-- The entries of a tone region's bytes, clamped (R141, R198). -/
def toneOf (bytes : List Byte) : List Int :=
  (List.range 256).map fun i => clampTo 0 1023 (fieldLe bytes (2 * i) 2 : Nat)

/-- A tone table of the loaded profile: from the engine's region, or from section 4 as it stands, clamped (R141). -/
def toneRegion (s : State) (region : Option (List Byte)) (lo hi : Fin 11) : List Int :=
  match region with
  | some bytes => toneOf bytes
  | none => (settingsTone s.settings lo hi).map (clampTo 0 1023)

/-- The completed profile of a load whose regions `passed` came from the engine (R141). -/
def loadedProfile (s : State) (ident : Nat) (passed : List (List Byte)) : Profile where
  ident := ident
  fromEngine := (List.range 4).map fun i => decide (i < passed.length)
  scalars := clampScalars s.settings[(4 : Fin 11)] (match passed[0]? with
    | some bytes => readFields scalarSpec bytes
    | none => s.settings[(4 : Fin 11)])
  toneY := toneRegion s passed[1]? 5 6
  toneM := toneRegion s passed[2]? 7 8
  toneC := toneRegion s passed[3]? 9 10

/-- The load ends: the profile is in use, and the station leaves PROFILING once a status word has come (R141). -/
def loadEnd (s : State) (n : Fin 3) (ident : Nat) (passed : List (List Byte)) : State :=
  let t := s.modStation n fun x => { x with load := none, profile := some (loadedProfile s ident passed) }
  if t.stations[n].statusSeen then settleState t n else t

/-- PAGE_REQUEST is sent and the wait of 50 ms starts (R139). -/
def requestPage (s : State) (n : Fin 3) (l : Load) : State :=
  (s.sendLink n 0x24 [BitVec.ofNat 8 l.page, BitVec.ofNat 8 (flag l.toggle)]).modStation n fun x =>
    { x with load := some { l with timer := ⟨s.clock, 50⟩ } }

/-- PROFILING is entered: the load ends at once without has-profile, else page 0 is requested with toggle 0 (R138,
R139). -/
def startLoad (s : State) (n : Fin 3) (hasProfile : Bool) : State :=
  if hasProfile then requestPage s n ⟨0, false, false, ⟨s.clock, 50⟩, 0, 0, [], []⟩ else loadEnd s n 0 []

/-- A mismatch: the same request again, or, at the second, the link down with cause PROFILE (R139). -/
def pageMismatch (s : State) (n : Fin 3) (l : Load) : State :=
  if l.mismatch then linkDown s n .profile .link else requestPage s n { l with mismatch := true }

/-- The request after an accepted page, with the inverted toggle (R139). -/
def nextPage (s : State) (n : Fin 3) (l : Load) : State :=
  requestPage s n { l with page := l.page + 1, toggle := !l.toggle, mismatch := false }

/-- An accepted page joins the working profile (R138 to R140). -/
def pageAccepted (s : State) (n : Fin 3) (l : Load) (payload : List Byte) (sum : Nat) : State :=
  if l.page = 0 then
    let r := (byteAt payload 2).toNat
    if fieldLe payload 0 2 = 0x9E21 ∧ 1 ≤ r ∧ r ≤ 4 then
      nextPage s n { l with regions := r, ident := fieldLe payload 4 4 }
    else loadEnd s n 0 []
  else
    let gathered := l.gathered ++ payload
    if lastPage l.page then
      if sumBytes gathered % 65536 = sum then
        let passed := l.passed ++ [gathered]
        if passed.length < l.regions then nextPage s n { l with gathered := [], passed := passed }
        else loadEnd s n l.ident passed
      else loadEnd s n l.ident l.passed
    else nextPage s n { l with gathered := gathered }

/-- A PAGE message: accepted, a mismatch, or stale (R139, R148). -/
def pageArrives (s : State) (n : Fin 3) (page : Nat) (toggle : Byte) (payload : List Byte) (sum : Nat) : State :=
  match s.stations[n].load with
  | none => s.modStation n fun x => { x with stales := sat16 x.stales }
  | some l =>
    if page = l.page ∧ toggle.toNat = flag l.toggle then pageAccepted s n l payload sum else pageMismatch s n l

/-! ## The ability exchange (R134, R135) -/

/-- The settled word passes its check: LR-A or LR-B, and the media width of the 1,824-dot head (R135). -/
def abilityPasses (w : List Byte) : Bool :=
  ((byteAt w 0).getLsbD 0 || (byteAt w 0).getLsbD 1) && byteAt w 1 == 0x07

/-- The abilities recorded from a settled word: the ribbon type as a listed code (R190; log 28), the maximum line rate
kept to 300 to 1,200 (R135). -/
def abilitiesOf (w : List Byte) : Abilities :=
  ⟨byteAt w 0, byteAt w 1, BitVec.ofNat 8 (Ribbon.ofCode (byteAt w 2).toNat).code, max 300 (min 1200 (fieldLe w 3 2))⟩

/-- The link comes UP (R135): rate, abilities, a new error window, PROFILING and the load; a word each 1 ms goes on
(R133). -/
def linkUp (s : State) (n : Fin 3) (w : List Byte) : State :=
  let t := s.modStation n fun x =>
    { x with
      state := .profiling
      exchangeTimer := none
      sendTimer := some ⟨s.clock, 1⟩
      rate := if (byteAt w 0).getLsbD 1 then .lrB else .lrA
      abilities := some (abilitiesOf w)
      winTransfers := 0
      winErrors := 0
      statusSeen := false
      msg := none
      load := none }
  startLoad t n ((byteAt w 0).getLsbD 4)

/-- A whole ability word in LINKING outside a rest (R134, R135); the first byte's bit 7 is ACK. All other bits are compared
with the word before, bits 5 and 6 of the flags too, which R197 gives to no field: DESIGN CHOICE, log 57. -/
def abilityInExchange (s : State) (n : Fin 3) (payload : List Byte) : State :=
  let w := (byteAt payload 0 &&& 0x7F#8) :: payload.drop 1
  let x := s.stations[n]
  let same := x.prevWord == some w
  let count := if same then min 3 (x.settleCount + 1) else 1
  if count = 3 ∧ abilityPasses w = false then linkDown s n .engine .link
  else
    let t := s.modStation n fun x => { x with prevWord := some w, settleCount := count, ack := decide (count = 3) }
    if count = 3 ∧ (byteAt payload 0).getLsbD 7 then linkUp t n w else t

/-- A damaged word, or a whole word that is no ability word, in LINKING outside a rest (R134). -/
def Station.unsettle (x : Station) : Station := { x with settleCount := 0, prevWord := none, ack := false }

/-! ## The link error window (R137) -/

/-- Counts a transfer or an error in the window and checks it; the Boolean says whether the link stayed up. -/
def countLink (s : State) (n : Fin 3) (transfer error : Bool) : State × Bool :=
  let x := s.stations[n]
  let x := { x with winTransfers := x.winTransfers + flag transfer, winErrors := x.winErrors + flag error }
  let t := s.setStation n x
  if linkThreshold s.settings ≤ x.winErrors then (linkDown t n .linkErrors .link, false)
  else if linkWindow s.settings ≤ x.winTransfers then
    (t.modStation n fun x => { x with winTransfers := 0, winErrors := 0 }, true)
  else (t, true)

/-- A damaged word while the link is UP: the message in progress is dropped, and the word is counted (R137, R197). -/
def damagedUp (s : State) (n : Fin 3) : State :=
  (countLink (s.modStation n fun x => { x with msg := none, damaged := sat16 x.damaged }) n false true).1

/-! ## The media account (R143) -/

/-- A ribbon takes a size. -/
def Ribbon.takes : Ribbon → Size → Bool
  | .none, _ => false
  | .panel4, .s4 => true
  | .panel4, _ => false
  | .panel6, .s8 => false
  | .panel6, _ => true
  | .panel8, _ => true

/-- The account takes the counts of a status word. -/
def Account.takeWord (a : Account) (w : EngineStatus) : Account :=
  { a with ribbonLeft := w.ribbonLeft, paperLeft := w.paperLeft, ribbon := w.ribbon, mediaCounter := w.mediaCounter }

/-- The reserved copy no longer fits the account. -/
def Account.misfit (a : Account) : Bool :=
  match a.reservation with
  | some r => a.ribbonLeft == 0 || a.paperLeft == 0 || !a.ribbon.takes r.size
  | none => false

/-- The account follows a status word; `first` for the first after a link-up (R143). -/
def accountFollows (s : State) (n : Fin 3) (w : EngineStatus) (first : Bool) : State :=
  let a := s.stations[n].account
  if first then (releaseReservation s n).modStation n fun x => { x with account := x.account.takeWord w }
  else if w.mediaCounter = a.mediaCounter then s
  else
    let t := s.modStation n fun x => { x with account := x.account.takeWord w }
    if t.stations[n].account.misfit then releaseReservation t n else t

/-! ## Panels (R145, R167) -/

/-- PANEL_START: IN_PANEL from line 0, and the Render Engine's panel values (R145, R167). The pause cause shown is NONE:
DESIGN CHOICE, log 59. -/
def enterPanel (s : State) (n : Fin 3) (c : Copy) (th : Nat) : State :=
  let t := s.sendLink n 0x21 (le 2 c.seq ++ [BitVec.ofNat 8 c.panel.code])
  let t := t.modStation n fun x =>
    { x with state := .printing, pauseCause := .none,
             copy := some { c with phase := .inPanel, nextLine := 0, failedAnswers := 0, answer := none } }
  t.modHead n (panelHead s.stations[n].profile th)

/-- A panel is started, or the station pauses with cause HOT (R145). -/
def startPanel (s : State) (n : Fin 3) (c : Copy) : State :=
  let th := (s.stations[n].status.map EngineStatus.temp).getD 0
  if th ≤ hotLimit s.settings then enterPanel s n c th
  else s.modStation n fun x =>
    { x with state := .paused, pauseCause := .hot, copy := some { c with phase := .waitStart } }

/-- What the latest status word does by the station's state (R142, R145). -/
def statusActs (s : State) (n : Fin 3) (w : EngineStatus) : State :=
  let x := s.stations[n]
  match x.state, x.copy with
  | .ready, _ => if w.pauses then s.modStation n Station.pausedOrReady else s
  | .paused, none =>
    if w.pauses then s.modStation n Station.pausedOrReady
    else if w.cond = .idle then s.modStation n Station.pausedOrReady
    else s
  | .paused, some c =>
    if w.pauses then abortCopy s n .engine
    else if w.temp ≤ hotLimit s.settings - 3 then startPanel s n c
    else s
  | .printing, _ => if w.pauses then abortCopy s n .engine else s
  | .profiling, _ => if x.load.isNone then settleState s n else s
  | _, _ => s

/-- A whole status word while the link is UP (R142, R143). -/
def statusArrives (s : State) (n : Fin 3) (w : EngineStatus) : State :=
  let first := !s.stations[n].statusSeen
  let t := s.modStation n fun x => { x with status := some w, statusSeen := true }
  statusActs (accountFollows t n w first) n w

/-! ## The copy flow (R146 to R148) -/

/-- The copy in flight a message names by its sequence, else the message is stale (R148). -/
def withCopy (s : State) (n : Fin 3) (seq : Nat) (f : Copy → State) : State :=
  match s.stations[n].copy with
  | some c => if c.seq = seq then f c else s.modStation n fun x => { x with stales := sat16 x.stales }
  | none => s.modStation n fun x => { x with stales := sat16 x.stales }

/-- LINE_REQUEST (R146, R148, R178): a READY bank is sent, else the request is held. -/
def lineRequested (s : State) (n : Fin 3) (c : Copy) (panel line : Nat) : State :=
  let h := s.heads[n]
  if c.phase ≠ .inPanel ∨ panel ≠ c.panel.code ∨ line ≠ c.nextLine ∨ c.lines ≤ line ∨ c.answer.isSome ∨
      h.held.isSome then flowViolation s n
  else
    match h.bankIn fun b => b.state == .ready && b.line == line with
    | some i => sendFrom s n i
    | none => s.modHead n fun h => { h with held := some ⟨line, s.clock, ⟨s.clock, holdLimit s.settings⟩⟩ }

/-- The LINE awaiting an answer is answered by this message (R146, R148). -/
def Copy.answeredBy (c : Copy) (panel line : Nat) : Bool :=
  c.answer.isSome && panel == c.panel.code && line == c.nextLine

/-- Changes the copy in flight. -/
def State.modCopy (s : State) (n : Fin 3) (f : Copy → Copy) : State :=
  s.modStation n fun x => { x with copy := x.copy.map f }

/-- The line is done: next line rises, and its bank is EMPTY (R146, R179). -/
def lineDone (s : State) (n : Fin 3) : State :=
  let t := s.modCopy n fun c => { c with nextLine := c.nextLine + 1, failedAnswers := 0, answer := none }
  match t.heads[n].bankIn fun b => b.state == .sending with
  | some i => t.modHead n fun h => h.setBank i emptyBank
  | none => t

/-- LINE_ACK (R146): counted in the window before anything else. -/
def lineAcked (s : State) (n : Fin 3) (c : Copy) (panel line : Nat) : State :=
  if c.answeredBy panel line then
    let (t, up) := countLink s n true false
    if up then lineDone t n else t
  else flowViolation s n

/-- A failed answer of the line: the same LINE again, or at the third the copy fails with cause LINK (R146, R179). -/
def failedAnswer (s : State) (n : Fin 3) (c : Copy) : State :=
  let s := s.modStation n fun x => { x with naks := sat16 x.naks }
  let (t, up) := countLink s n true true
  if up then
    let t := t.modCopy n fun c => { c with failedAnswers := c.failedAnswers + 1, answer := none }
    if 3 ≤ c.failedAnswers + 1 then abortCopy t n .link
    else
      match t.heads[n].bankIn fun b => b.state == .sending with
      | some i => sendLine t n t.heads[n].banks[i]
      | none => t
  else t

/-- LINE_NAK (R146). -/
def lineNaked (s : State) (n : Fin 3) (c : Copy) (panel line : Nat) : State :=
  if c.answeredBy panel line then failedAnswer s n c else flowViolation s n

/-- PANEL_DONE (R147): the next panel, or WAIT_OK after O. One that names another panel is a flow violation, as is a
LINE_ACK or LINE_NAK that does (`Copy.answeredBy`), which R148's list does not name: DESIGN CHOICE, log 42. The copy record
and group 5 show the next panel from here on, also while a HOT pause holds its start: DESIGN CHOICE, log 52. -/
def panelEnds (s : State) (n : Fin 3) (c : Copy) (panel : Nat) : State :=
  if c.phase ≠ .inPanel ∨ panel ≠ c.panel.code ∨ c.nextLine ≠ c.lines then flowViolation s n
  else
    match c.panel.next with
    | some p => startPanel s n { c with panel := p, phase := .waitStart }
    | none => s.modCopy n fun c => { c with phase := .waitOk }

/-- COPY_OK (R147). -/
def copyOk (s : State) (n : Fin 3) (c : Copy) : State :=
  if c.phase = .waitOk then settleState (completeCopy s n) n else flowViolation s n

/-- COPY_FAULT (R147): in any phase, with the engine's reason. -/
def copyFault (s : State) (n : Fin 3) (reason : Byte) : State := settleState (failCopy s n .engine reason) n

/-- The hold of a line request runs out: UNDERRUN (R178). -/
def holdExpires (s : State) (n : Fin 3) : State := abortCopy s n .underrun

end Sys2Proof.Machine
end

