-- ==== Sys2Proof/Machine/DispatchOps.lean ====
section
/-! DEFINITION. The Copy Dispatcher: eligibility, promotion, selection, reservation and the copy start (R144, R155 to
R160), and what the Dispatcher and the render arbiter do in the event of another block (R155, R160, R177, R180). -/

namespace Sys2Proof.Machine

/-! ## Selection (R155 to R159) -/

/-- The pending copies of an item (R78). -/
def Item.pending (it : Item) : Nat := it.copies - it.done - it.inFlight - it.reserved

/-- The station's engine is MATTE-capable, as recorded at the last link-up (R135, R156). -/
def Station.matteCapable (x : Station) : Bool :=
  match x.abilities with
  | some a => a.flags.getLsbD 2
  | none => false

/-- An item is eligible for a station (R156). -/
def eligible (x : Station) (o : Order) (it : Item) : Bool :=
  (o.state == .paid || o.state == .printing) && (it.state == .waiting || it.state == .active) &&
  decide (1 ≤ it.pending) && x.account.ribbon.takes it.size && (it.finish == .gloss || x.matteCapable)

/-- The station is open (R155). -/
def State.stationOpen (s : State) (n : Fin 3) : Bool :=
  let x := s.stations[n]
  s.running && (x.state == .ready || x.state == .printing) && s.reservations[n].isNone &&
  decide (1 ≤ x.account.ribbonLeft) && decide (1 ≤ x.account.paperLeft)

/-- The first eligible item of an order (R158). -/
def State.firstEligible (s : State) (n : Fin 3) (m : Fin 48) : Option Nat :=
  match s.orders[m].order with
  | some o => o.items.findIdx? (eligible s.stations[n] o)
  | none => none

/-- The order is due for promotion: PAID, not promoted, paid for longer than the wait limit (R157). -/
def Order.duePromotion (o : Order) (now : Word) (limit : Nat) : Bool :=
  o.state == .paid && !o.promoted &&
  (match o.paidTime with
    | some t => decide (limit < elapsed now t)
    | none => false)

/-- Promotion evaluated for every order (R157). -/
def promoteAll (s : State) : State :=
  { s with orders := tab fun m =>
      let e := s.orders[m]
      { e with order := e.order.map fun o =>
          if o.duePromotion s.clock (waitLimit s.settings) then { o with promoted := true } else o } }

/-- A priority order (R158). -/
def Order.priority (o : Order) : Bool := o.cls == .express || o.promoted

/-- Order `a` ranks strictly before order `b` (R158). -/
def Order.ranksBefore (a b : Order) : Bool :=
  if a.priority != b.priority then a.priority else earlier a.openTime b.openTime

/-- The first order of the ranking for a station, with its first eligible item; equal open times go to the lower table
index (R158). -/
def State.selection (s : State) (n : Fin 3) : Option (Fin 48 × Order × Nat) :=
  (List.finRange 48).foldl (fun best m =>
    match s.orders[m].order, s.firstEligible n m with
    | some o, some i => match best with
      | none => some (m, o, i)
      | some b => if o.ranksBefore b.2.1 then some (m, o, i) else some b
    | _, _ => best) none

/-- A reservation: the entry, the station's account and the item's counters together (R159). -/
def reserve (s : State) (n : Fin 3) (m : Fin 48) (i : Nat) (it : Item) : State :=
  let r : Reservation := ⟨s.orderHandle m, i, it.size, it.finish⟩
  let t := { s with reservations := s.reservations.set n (some r) }
  let t := t.modStation n fun x => { x with account := { x.account with reservation := some r } }
  t.modOrder (s.orderHandle m) fun o => o.modItem i fun it =>
    { it with reserved := it.reserved + 1, state := if it.state = .waiting then .active else it.state }

/-- A selection is due for the station: it is open, and an item is eligible for it (R155). -/
def State.selectionDue (s : State) (n : Fin 3) : Bool := s.stationOpen n && (s.selection n).isSome

/-- A selection: promotion, ranking and the reservation of the item chosen (R157 to R159). -/
def selectCopy (s : State) (n : Fin 3) : State :=
  let t := promoteAll s
  match t.selection n with
  | some (m, o, i) => match o.items[i]? with
    | some it => reserve t n m i it
    | none => t
  | none => t

/-! ## The copy start (R144, R160) -/

/-- The order of a started copy: one reserved copy in flight, and PRINTING from the first start on (R89, R160). -/
def Order.started (o : Order) (i : Nat) (now : Word) : Order :=
  let o := o.modItem i fun it => { it with reserved := it.reserved - 1, inFlight := it.inFlight + 1 }
  if o.state = .paid then { o with state := .printing, firstStart := some now } else o

/-- The sequence after a sequence: 65,535 is followed by 1 (R144). -/
def seqAfter (n : Nat) : Nat := if n < 65535 then n + 1 else 1

/-- A reserved copy starts (R144, R160). -/
def startCopy (s : State) (n : Fin 3) (r : Reservation) : State :=
  let t := { s with reservations := s.reservations.set n none }
  let t := t.modOrder r.order fun o => o.started r.item s.clock
  let seq := s.stations[n].nextSeq
  let c : Copy := { seq := seq, order := r.order, item := r.item, size := r.size, finish := r.finish,
                    lines := r.size.lines, panel := .y, phase := .waitStart, nextLine := 0, failedAnswers := 0,
                    answer := none }
  let t := t.modStation n fun x =>
    { x with
      state := .printing
      nextSeq := seqAfter seq
      account := { x.account with ribbonLeft := x.account.ribbonLeft - 1, paperLeft := x.account.paperLeft - 1,
                                  reservation := none }
      copy := some c }
  startPanel (t.sendLink n 0x20
    (le 2 seq ++ [BitVec.ofNat 8 r.size.code, BitVec.ofNat 8 r.finish.code] ++ le 2 r.size.lines)) n c

/-- The reserved copy of a station that may start: the station is READY with its entry HELD and no copy in flight
(R160). -/
def State.startDue (s : State) (n : Fin 3) : Option Reservation :=
  if s.stations[n].state = .ready ∧ s.stations[n].copy = none then s.reservations[n] else none

/-- The reserved copy of a station starts as soon as it may, and a station that it makes wait is looked at by the render
arbiter in the same event (R160, R177). -/
def startIfDue (s : State) (n : Fin 3) : State :=
  match s.startDue n with
  | some r => renderGrant (startCopy s n r)
  | none => s

/-! ## What follows in the event of another block -/

/-- The stations for which a selection is due. -/
def State.dueStations (s : State) : List (Fin 3) := (List.finRange 3).filter s.selectionDue

/-- A selection for a station, and the start it may lead to. -/
def serveStation (s : State) (n : Fin 3) : State := startIfDue (selectCopy s n) n

/-- A selection for a station, with the start it may lead to, is an event of the Dispatcher (R155; log 51). -/
def selectionEvent (s : State) (n : Fin 3) : State := finish s (serveStation s n)

/-- Selections, each an event of its own, until none is due (R155). Where several stations have one due, which comes first
is a free choice (log 43). Each selection fills an entry, so that six are enough: a READY station starts the first copy and
reserves the next. -/
def selectAll : Nat → State → State
  | 0, s => s
  | f + 1, s =>
    match s.dueStations with
    | [] => s
    | [n] => selectAll f (selectionEvent s n)
    | n :: m :: rest =>
      let ns := n :: m :: rest
      selectAll f (selectionEvent { s with stationChoices := s.stationChoices + 1 }
        (ns.getD (Config.nextStation s.stationChoices % ns.length) n))

/-- What follows in the event of a block that may end a copy, free a bank or a reservation, or move a station: the arbiter
chooses for an engine that is free, and a HELD copy on a READY station starts (R160, R177, R180). -/
def followUp (s : State) : State := (List.finRange 3).foldl startIfDue (renderGrant s)

/-- An event that takes the blocks from `s` to `t`, with the starts that follow in it, and then the selections it brings
about, each an event of its own: R155 calls them separate events, where R163 and R164 say that they follow in the
same event. Each event marks, counts and raises revisions once, by its own `finish` (DESIGN CHOICE, log 51). -/
def afterWork (s t : State) : State := selectAll 6 (finish s (followUp t))

/-- An event with what follows it. -/
def workEvent (s t : State) : Host.Outcome State Fault Refusal := .next (afterWork s t)

/-- `serve` for a request whose effect may let a copy be selected or started. -/
def serveWork (s : State) (l : Fin 11) (k : Kind) (f : State → Fin 64 → State × Answer) :
    Host.Outcome State Fault Refusal :=
  match s.headOf l k with
  | none => .next s
  | some c => let (t, a) := f (s.take c) c; workEvent s (t.answer c a)

end Sys2Proof.Machine
end

