-- ==== Sys2Proof/Machine/Orders.lean ====
section
/-! DEFINITION. The requests of intake list 5: ORDER_OPEN, ORDER_AMEND, ORDER_PAY, ORDER_CANCEL and ORDER_RETIRE (R81 to
R84, R87, R88, R94, R96). -/

namespace Sys2Proof.Machine

/-! ## ORDER_OPEN -/

/-- An item entry of ORDER_OPEN as its bytes give it (R192). -/
structure ItemEntry where
  raster : Handle
  size : Nat
  finish : Nat
  copies : Nat
  rotation : Nat
  x0 : Nat
  y0 : Nat
  cw : Nat
  ch : Nat
deriving DecidableEq, Repr

/-- Item entry `i` of the request. -/
def itemEntry (c : WorkCell) (i : Nat) : ItemEntry :=
  let b := 8 + 16 * i
  ⟨c.reqHandle b, c.req (b + 2) 1, c.req (b + 3) 1, c.req (b + 4) 1, c.req (b + 5) 1, c.req (b + 6) 2, c.req (b + 8) 2,
   c.req (b + 10) 2, c.req (b + 12) 2⟩

/-- The item an entry opens, when its size, finish and rotation are listed values (R82). -/
def ItemEntry.toItem (e : ItemEntry) : Option Item :=
  match Size.ofCode e.size, Finish.ofCode e.finish, Rotation.ofCode e.rotation with
  | some z, some f, some r =>
    some { raster := e.raster, size := z, finish := f, copies := e.copies, x0 := e.x0, y0 := e.y0, cw := e.cw,
           ch := e.ch, rotation := r, unitPrice := 0, state := .waiting, done := 0, inFlight := 0, reserved := 0,
           failures := 0, refHeld := true }
  | _, _, _ => none

/-- The first field of an entry that fails step 2 of R81, in the order the step names them (log 23). -/
def ItemEntry.badField (e : ItemEntry) : Option Nat :=
  if (Size.ofCode e.size).isNone then some 1
  else if (Finish.ofCode e.finish).isNone then some 2
  else if (Rotation.ofCode e.rotation).isNone then some 4
  else if e.copies < 1 ∨ 99 < e.copies then some 3
  else if e.cw = 0 then some 7
  else if e.ch = 0 then some 8
  else none

/-- The first entry for which `f` gives a field, with its index. -/
def firstBad {α β : Type} (f : α → Option β) : Nat → List α → Option (Nat × β)
  | _, [] => none
  | i, e :: t => match f e with
    | some x => some (i, x)
    | none => firstBad f (i + 1) t

/-- Step 4 of R81: whether the crop leaves the raster across (true) or down (false). The picture stands, since step 3
found it. -/
def ItemEntry.badCrop (e : ItemEntry) (s : State) : Option Bool :=
  match s.pictureAt e.raster with
  | some (_, p) => if p.width < e.x0 + e.cw then some true else if p.height < e.y0 + e.ch then some false else none
  | none => none

/-- The number of the crop field reported: the offset or the size, a free choice (log 22). -/
def cropField (s : State) (across : Bool) : Nat :=
  match Config.cropNamesOffset s.cropChoices, across with
  | true, true => 5
  | true, false => 6
  | false, true => 7
  | false, false => 8

/-- The FREE entry of the Order Table with the lowest index (R77). -/
def State.freeOrder (s : State) : Option (Fin 48) := (List.finRange 48).find? fun n => s.orders[n].order.isNone

/-- A new order (R82). -/
def newOrder (s : State) (tag : Word) (cls : OrderClass) (items : List Item) : Order where
  tag := tag
  cls := cls
  promoted := false
  state := .opened
  cancelPending := false
  items := items
  total := orderTotal items
  authorised := 0
  captured := 0
  code := none
  reason := none
  openTime := s.clock
  paidTime := none
  firstStart := none
  outcome := .none
  failureLimit := 0
  payCell := none

/-- The answer body of ORDER_OPEN (R192). -/
def openBody (h : Handle) (items : List Item) : List Byte :=
  h.bytes ++ [BitVec.ofNat 8 items.length, 0] ++ le 4 (orderTotal items) ++ items.flatMap fun it => le 4 it.unitPrice

/-- Steps 5 to 7 of R81 and the opening of R82. -/
def openPriced (s : State) (tag : Word) (cls : OrderClass) (items : List Item) : State × Answer :=
  let items := priced s.settings items
  match firstOver 0 0 items with
  | some i => (s, refuse .overLimit (fieldDetail 3 i 0xFF))
  | none =>
    match s.freeOrder with
    | none => (s, refuse .noRoom)
    | some n =>
      match s.claimFailure (items.map (·.raster)) with
      | some i => (s, refuse .notFound (fieldDetail 3 i 0))
      | none =>
        let gen := s.orders[n].gen + 1
        ((s.claim (items.map (·.raster))).setOrder n ⟨gen, some (newOrder s tag cls items)⟩,
         doneWith (openBody ⟨BitVec.ofNat 8 n.val, gen⟩ items))

/-- ORDER_OPEN's checks in order, and its effect (R81, R82). -/
def orderOpen (s : State) (c : Fin 64) : State × Answer :=
  let cell := s.cells[c]
  let cls := cell.req 4 1
  let n := cell.req 5 1
  if 1 < cls then (s, refuse .badField (plainField 1))
  else if n < 1 ∨ 24 < n then (s, refuse .badField (plainField 2))
  else
    let entries := (List.range n).map (itemEntry cell)
    match firstBad ItemEntry.badField 0 entries with
    | some (i, f) => (s, refuse .badField (fieldDetail 3 i f))
    | none =>
      match s.claimFailure (entries.map (·.raster)) with
      | some i => (s, refuse .notFound (fieldDetail 3 i 0))
      | none =>
        match firstBad (fun e => e.badCrop s) 0 entries with
        | some (i, across) =>
          ({ s with cropChoices := s.cropChoices + 1 }, refuse .badField (fieldDetail 3 i (cropField s across)))
        | none =>
          openPriced s (BitVec.ofNat 32 (cell.req 0 4)) (if cls = 0 then .normal else .express)
            (entries.filterMap ItemEntry.toItem)

/-! ## The requests that name an order -/

/-- Carries out a request on the order its handle names, or answers NOT_FOUND (R77). -/
def onOrder (s : State) (c : Fin 64) (f : Handle → Fin 48 → Order → State × Answer) : State × Answer :=
  let h := s.cells[c].reqHandle 0
  match s.orderAt h with
  | none => (s, refuse .notFound (plainField 0))
  | some (n, o) => f h n o

/-- WRONG_STATE with the order state as detail. -/
def wrongOrderState (s : State) (o : Order) : State × Answer := (s, refuse .wrongState o.state.code)

/-- The changes of an ORDER_AMEND: item index and new copies. -/
def amendChanges (c : WorkCell) (n : Nat) : List (Nat × Nat) :=
  (List.range n).map fun i => (c.req (4 + 2 * i) 1, c.req (5 + 2 * i) 1)

/-- The field of a change that fails: 0 item index, 1 new copies (R83). -/
def badChange (items : List Item) (earlier : List Nat) (ch : Nat × Nat) : Option Nat :=
  match items[ch.1]? with
  | none => some 0
  | some it =>
    if earlier.contains ch.1 ∨ it.state = .cancelled then some 0 else if it.copies < ch.2 then some 1 else none

/-- The first change that fails, with its field (R83). -/
def firstBadChange (items : List Item) : Nat → List Nat → List (Nat × Nat) → Option (Nat × Nat)
  | _, _, [] => none
  | p, earlier, ch :: t => match badChange items earlier ch with
    | some f => some (p, f)
    | none => firstBadChange items (p + 1) (ch.1 :: earlier) t

/-- One change carried out on the items: new copies, and CANCELLED at 0 (R83). -/
def amendItem (items : List Item) (ch : Nat × Nat) : List Item :=
  items.modify ch.1 fun it =>
    if ch.2 = 0 then { it with copies := 0, state := .cancelled } else { it with copies := ch.2 }

/-- The items whose reference an amend releases: CANCELLED and still holding it (R83, R93). -/
def dropCancelled (s : State) (items : List Item) : State × List Item :=
  (((items.filter fun it => it.state == .cancelled && it.refHeld).map (·.raster)).foldl State.dropRef s,
   items.map fun it => if it.state = .cancelled then { it with refHeld := false } else it)

/-- The order an amend leaves in its entry (R83). -/
def amended (s : State) (n : Fin 48) (o : Order) (items : List Item) : State :=
  let (s, items) := dropCancelled s items
  let o := { o with items := items, total := orderTotal items }
  if items.all fun it => it.state == .cancelled then voidOrClose s n o
  else if o.state = .short ∧ o.total ≤ o.authorised then s.putOrder n (o.enterPaid s)
  else s.putOrder n o

/-- The answer body of ORDER_AMEND (R192). -/
def amendBody (s : State) (n : Fin 48) : List Byte :=
  match s.orders[n].order with
  | some o =>
    [BitVec.ofNat 8 o.state.code, BitVec.ofNat 8 o.items.length, 0, 0] ++ le 4 o.total ++
    o.items.flatMap fun it => [BitVec.ofNat 8 it.copies, 0, 0, 0] ++ le 4 it.unitPrice
  | none => []

/-- ORDER_AMEND's checks in order, and its effect (R83). -/
def orderAmend (s : State) (c : Fin 64) : State × Answer :=
  onOrder s c fun _ n o =>
    if o.state = .opened ∨ o.state = .short then
      let len := s.cells[c].req 2 1
      if len < 1 ∨ 24 < len then (s, refuse .badField (plainField 1))
      else
        let changes := amendChanges s.cells[c] len
        match firstBadChange o.items 0 [] changes with
        | some (p, f) => (s, refuse .badField (fieldDetail 2 p f))
        | none =>
          let items := priced s.settings (changes.foldl amendItem o.items)
          match firstOver 0 0 items with
          | some i => (s, refuse .overLimit (fieldDetail 2 i 0xFF))
          | none => let t := amended s n o items; (t, doneWith (amendBody t n))
    else wrongOrderState s o

/-- The answer body of an ORDER_PAY that is answered at once (R84, R192). -/
def payBody (o : Order) : List Byte := [BitVec.ofNat 8 o.state.code, 0, 0, 0] ++ le 4 o.authorised

/-- ORDER_PAY's checks and effect; no answer when the cell becomes the pay cell (R84). -/
def orderPay (s : State) (c : Fin 64) : State :=
  let h := s.cells[c].reqHandle 0
  match s.orderAt h with
  | none => s.answer c (refuse .notFound (plainField 0))
  | some (n, o) =>
    if o.state = .opened then
      if o.total = 0 then
        let o := { o with authorised := 0 }.enterPaid s
        (s.putOrder n o).answer c (doneWith (payBody o))
      else
        (s.putOrder n { o with state := .authorizing, payCell := some c }).queueAction ⟨h, .authorize, o.total, []⟩
    else s.answer c (refuse .wrongState o.state.code)

/-- ORDER_CANCEL's effect by the order state (R87, R88, R164). -/
def orderCancel (s : State) (c : Fin 64) : State × Answer :=
  onOrder s c fun h n o =>
    match o.state with
    | .opened => (releaseReferences s n { o with state := .closed, outcome := .none }, doneWith [])
    | .authorizing | .doubt => (s.putOrder n { o with cancelPending := true }, doneWith [])
    | .short | .paid =>
      let t := releaseWhere s fun r => r.order == h
      match t.orders[n].order with
      | some o => (voidOrClose t n o, doneWith [])
      | none => (t, doneWith [])
    | .printing =>
      let t := releaseWhere s fun r => r.order == h
      let t := t.modOrder h fun o =>
        { o with state := .cancelling,
                 items := o.items.map fun it => if it.state.final then it else { it with state := .cancelled } }
      (checkSettle t h, doneWith [])
    | .cancelling | .settling | .closed => wrongOrderState s o

/-- ORDER_RETIRE's check and effect (R94). -/
def orderRetire (s : State) (c : Fin 64) : State × Answer :=
  onOrder s c fun _ n o =>
    if o.state = .closed then (s.setOrder n { s.orders[n] with order := none }, doneWith []) else wrongOrderState s o

/-! ## The commands -/

/-- ORDER_OPEN (R81, R82). -/
def execOrderOpen (s : State) : Host.Outcome State Fault Refusal := serve s 5 .orderOpen orderOpen

/-- ORDER_AMEND (R83). -/
def execOrderAmend (s : State) : Host.Outcome State Fault Refusal := serveWork s 5 .orderAmend orderAmend

/-- ORDER_PAY (R84). -/
def execOrderPay (s : State) : Host.Outcome State Fault Refusal :=
  match s.headOf 5 .orderPay with
  | none => .next s
  | some c => workEvent s (orderPay (s.take c) c)

/-- ORDER_CANCEL (R87, R88). -/
def execOrderCancel (s : State) : Host.Outcome State Fault Refusal := serveWork s 5 .orderCancel orderCancel

/-- ORDER_RETIRE (R94). -/
def execOrderRetire (s : State) : Host.Outcome State Fault Refusal := serve s 5 .orderRetire orderRetire

end Sys2Proof.Machine
end

