-- ==== Sys2Proof/Machine/PayOps.lean ====
section
/-! DEFINITION. What the Payment Line and the Payment Engine do inside their events: the transmitter, stored entries, the
loopback, format changes, transactions, doubt (R98 to R113, R117 to R130). -/

namespace Sys2Proof.Machine

/-! ## Character times (R98; log 6) -/

/-- The bits of a character up to its last stop bit. -/
def LineFormat.charBits (f : LineFormat) : Nat := 1 + f.dataBits + (if f.parity = .none then 0 else 1) + f.stopBits

/-- Whole milliseconds in a number of sixteenths of a bit time: periods of 16 × divisor cycles of 29.4912 MHz. -/
def LineFormat.samplesMs (f : LineFormat) (samples : Nat) : Nat := samples * f.divisor * 10 / 294912

/-- Whole milliseconds in one character time. -/
def LineFormat.charMs (f : LineFormat) : Nat := f.samplesMs (16 * f.charBits)

/-- Whole milliseconds from a character's start to the middle of its first stop bit. -/
def LineFormat.toStopMs (f : LineFormat) (resync : Bool) : Nat :=
  f.samplesMs (16 * (f.charBits - f.stopBits) + if resync then 0 else 8)

/-- The data bits of a byte in the format in force (R98). -/
def LineFormat.dataOf (f : LineFormat) (b : Byte) : Byte := if f.dataBits = 7 then b &&& 0x7F#8 else b

/-- The number of ones of a byte. -/
def ones (b : Byte) : Nat := ((List.range 8).map fun i => flag (b.getLsbD i)).foldr (· + ·) 0

/-- The parity check of a character fails (R98). -/
def LineFormat.parityFails (f : LineFormat) (data : Byte) (parity : Bool) : Bool :=
  match f.parity with
  | .none => false
  | .odd => (ones data + flag parity) % 2 == 0
  | .even => (ones data + flag parity) % 2 == 1
  | .mark => !parity
  | .space => parity

/-- The parity bit of a character that is sent; none when the format has none (R98). -/
def LineFormat.parityBit (f : LineFormat) (data : Byte) : Option Bool :=
  match f.parity with
  | .none => none
  | .odd => some (ones data % 2 == 0)
  | .even => some (ones data % 2 == 1)
  | .mark => some true
  | .space => some false

/-! ## The transmitter (R99, R113) -/

/-- The bytes of a frame with its serial number, its first and last byte marked. -/
def txBytes (serial : Nat) (bytes : List Byte) : List TxByte :=
  (List.range bytes.length).map fun i => ⟨byteAt bytes i, serial, i == 0, i + 1 == bytes.length⟩

/-- Waiting bytes enter the transmit FIFO as room allows; a current transaction is sent when the first byte of the frame it
was started with enters, also when a QUERY already waits behind that frame (R99, R113, R118). -/
def Pay.fill (p : Pay) : Pay :=
  let n := 16 - p.txFifo.length
  let moved := p.outBytes.take n
  { p with
    txFifo := p.txFifo ++ moved
    outBytes := p.outBytes.drop n
    current := p.current.map fun t =>
      if moved.any fun b => b.first && b.serial == t.firstFrame then { t with sent := true } else t }

/-- No character is being sent and the transmit FIFO is empty. -/
def Pay.txIdle (p : Pay) : Bool := p.txFifo.isEmpty && p.txChar.isNone

/-- The receiver sees a character begin: from IDLE it goes to RECEIVING (R100). -/
def Pay.sawStart (p : Pay) (now : Word) : Pay := if p.rx = .idle then { p with rx := .receiving now false false } else p

/-- An idle transmitter takes the byte at the head of the FIFO and begins to send it: in CONNECTED on the pin, in LOOPBACK
into the receiver (R99, R100, R107). -/
def startChar (s : State) : State :=
  let p := s.pay
  match p.txChar, p.txFifo with
  | none, b :: rest =>
    let t := s.modPay fun p => { p with txChar := some b, txFifo := rest, txStart := s.clock }
    match p.line with
    | .off => s
    | .connected => t.emit (.character (p.fmt.dataOf b.byte) (p.fmt.parityBit (p.fmt.dataOf b.byte)))
    | .loopback => t.modPay fun p => p.sawStart s.clock
  | _, _ => s

/-- The FIFO is filled, the transmitter started, and the room it made filled again (R99). -/
def pumpTx (s : State) : State := (startChar (s.modPay Pay.fill)).modPay Pay.fill

/-- A frame is built and its bytes begin to enter the FIFO (R113). -/
def sendFrame (s : State) (body : List Byte) : State :=
  pumpTx (s.modPay fun p =>
    { p with frameSerial := p.frameSerial + 1
             outBytes := p.outBytes ++ txBytes (p.frameSerial + 1) (frameBytes body) })

/-! ## The receiver's entries (R103, R104, R110) -/

/-- An entry stored, or lost to a full FIFO. In CONNECTED it sets the sticky errors; in LOOPBACK a lost entry is a flagged
error and every arrival restarts the wait of R110. -/
def storeEntry (s : State) (byte : Byte) (parity framing brk : Bool) : State :=
  s.modPay fun p =>
    let full := decide (16 ≤ p.rxFifo.length)
    let p := if full then p else { p with rxFifo := p.rxFifo ++ [⟨byte, parity, framing, brk, s.clock⟩] }
    if p.line = .loopback then
      { p with loop := p.loop.map fun l =>
          { l with flagged := l.flagged + flag full, lastSent := s.clock } }
    else
      { p with overrun := p.overrun || full, parityErr := p.parityErr || parity,
               framingErr := p.framingErr || framing, breakErr := p.breakErr || brk }

/-! ## Presence (R105, R107) -/

/-- TERMINAL_READY is taken at a level: a change sets the latch and the absent-since time (R105). -/
def Pay.takeReady (p : Pay) (now : Word) (level : Bool) : Pay :=
  if level = p.present then p
  else { p with present := level, changeLatch := true, absentSince := if level then none else some now }

/-! ## Format, timer values, loopback (R107 to R110, R130) -/

/-- A pending format is put in force, and the engine takes the timer values of the same write (R108, R130). -/
def Pay.applyFormat (p : Pay) : Pay :=
  match p.pendingFmt with
  | some f => { p with fmt := f, pendingFmt := none, values := p.pendingValues.getD p.values, pendingValues := none }
  | none => p

/-- The conditions under which a pending format is applied (R108). -/
def Pay.formatFree (p : Pay) : Bool :=
  p.current.isNone && p.txIdle &&
  (match p.rx with
    | .receiving _ _ _ => false
    | .idle | .breakHold => true)

/-- Timer values not yet taken are taken at an idle point with no format pending (R130). -/
def Pay.takeValues (p : Pay) : Pay :=
  if p.current.isNone && p.pendingFmt.isNone then
    { p with values := p.pendingValues.getD p.values, pendingValues := none }
  else p

/-- The loopback begins (R109): the format is applied, the receive side emptied, READY deasserted, the inputs read absent
and deasserted, and the pattern bytes are on their way. A partly assembled frame is dropped and not counted: DESIGN
CHOICE, log 48. -/
def loopbackBegin (s : State) (l : Loopback) : State :=
  pumpTx (s.modPay fun p =>
    let p := (p.applyFormat.takeReady s.clock false)
    { p with
      rxFifo := [], rx := .idle, asm := asmHunt, line := .loopback, readyOut := false, alertLevel := false
      loop := some { l with begun := true, lastSent := s.clock }
      outBytes := (List.range l.length).map fun i => ⟨BitVec.ofNat 8 i, 0, false, false⟩ })

/-- What the payment side does at the end of each of its events: a loopback that was taken begins once the transmitter is
idle, a pending format is applied, timer values are taken (R108, R109, R130). A ping timer that starts in an event that is
also the idle point starts before this, with the old interval: DESIGN CHOICE, log 49. -/
def payIdle (s : State) : State :=
  let s := match s.pay.loop with
    | some l => if !l.begun && s.pay.txIdle then loopbackBegin s l else s
    | none => s
  s.modPay fun p => (if p.formatFree then p.applyFormat else p).takeValues

/-- The loopback ends: CONNECTED again with READY asserted and the pin levels taken (those the last commands gave: DESIGN
CHOICE, log 55), and the cell answered with the four counts (R107, R110). Pattern bytes still waiting in or before the transmit FIFO are dropped: DESIGN CHOICE, log 35. -/
def loopbackEnd (s : State) (l : Loopback) : State :=
  let t := s.modPay fun p =>
    { (p.takeReady s.clock p.readyPin) with
      rxFifo := [], rx := .idle, line := .connected, readyOut := true, alertLevel := p.alertPin, loop := none,
      txFifo := [], outBytes := [] }
  let good := l.received == l.length && l.mismatches == 0 && l.flagged == 0
  t.answer l.cell
    { status := if good then .done else .partly,
      body := le 2 l.sentCount ++ le 2 l.received ++ le 2 l.mismatches ++ le 2 l.flagged }

/-! ## Transactions (R117 to R126) -/

/-- The number after a number: 255 is followed by 1 (R117). -/
def numberAfter (n : Nat) : Nat := if n < 255 then n + 1 else 1

/-- The first number from `n` on that no doubt record holds; five tries are enough (R117). -/
def freeNumber (doubts : List DoubtRec) : Nat → Nat → Nat
  | 0, n => n
  | f + 1, n => if doubts.any fun d => d.number == n then freeNumber doubts f (numberAfter n) else n

/-- The engine is free to query (R124). -/
def Pay.freeToQuery (p : Pay) : Bool :=
  p.current.isNone && p.line == .connected && p.loop.isNone && !p.doubts.isEmpty

/-- The body of an action's frame (R115, R196). -/
def actionBody (number : Nat) (a : QueuedAction) : List Byte :=
  match a.action with
  | .authorize => authorizeBody number a.amount a.order
  | .capture => captureBody number a.code a.amount
  | .void => voidBody number a.code

/-- Sends a frame of the current transaction; its timer starts when the frame is transmitted (R113). -/
def sendCurrent (s : State) (body : List Byte) : State :=
  sendFrame (s.modPay fun p =>
    { p with current := p.current.map fun t =>
        { t with frame := p.frameSerial + 1, untransmitted := true, answerTimer := none, customerTimer := none } }) body

/-- The action at the head of the queue becomes the current transaction (R117, R118). -/
def startAction (s : State) (a : QueuedAction) (rest : List QueuedAction) : State :=
  let n := freeNumber s.pay.doubts 5 s.pay.nextNumber
  let t := s.modPay fun p =>
    { p with
      queue := rest
      nextNumber := numberAfter n
      preQuery := false
      current := some { number := n, order := a.order, action := a.action, amount := a.amount, code := a.code,
                        origin := .queue, phase := .sent, attempts := 0, restartUsed := false, sent := false,
                        firstFrame := p.frameSerial + 1, frame := 0, untransmitted := true, answerTimer := none, customerTimer := none, forAction := false } }
  sendCurrent t (actionBody n a)

/-- A doubt query for the oldest doubt record (R124). -/
def doubtQuery (s : State) (forAction : Bool) : State :=
  match s.pay.doubts with
  | [] => s
  | d :: _ =>
    let t := s.modPay fun p =>
      { p with current := some { number := d.number, order := d.order, action := d.action, amount := d.amount,
                                 code := d.code, origin := .doubt, phase := .querying, attempts := 1,
                                 restartUsed := false, sent := false, firstFrame := p.frameSerial + 1, frame := 0,
                                 untransmitted := true,
                                 answerTimer := none, customerTimer := none, forAction := forAction } }
    sendCurrent t (queryBody d.number)

/-- The current transaction ends; the end of the query of R118 sets pre-query done. -/
def Pay.endCurrent (p : Pay) : Pay :=
  { p with current := none, preQuery := p.preQuery || (match p.current with
      | some t => t.forAction
      | none => false) }

/-- The current transaction goes to doubt (R123); the ping timer starts with the values in force before the event
(log 49). -/
def goToDoubt (s : State) (t : Txn) : State :=
  let u := s.modPay fun p =>
    { p with
      doubts := p.doubts ++ [⟨t.number, t.order, t.action, t.amount, t.code⟩]
      current := none
      pingTimer := if p.doubts.isEmpty then some ⟨s.clock, p.values.pingInterval⟩ else p.pingTimer }
  if t.action = .authorize then authOutcome u t.order .doubt else u

/-- A doubt record leaves the list; with the last one the ping timer stops (R123). -/
def Pay.removeDoubt (p : Pay) (n : Nat) : Pay :=
  let ds := p.doubts.filter fun d => d.number != n
  { p with doubts := ds, pingTimer := if ds.isEmpty then none else p.pingTimer }

/-- One more stale answer (R127). -/
def Pay.stale (p : Pay) : Pay := { p with staleAnswers := sat16 p.staleAnswers }

/-- The action of a CAPTURE or VOID answered UNKNOWN is queued again (R122). -/
def requeue (s : State) (o : Handle) (a : PayAction) (amount : Nat) (code : List Byte) : State :=
  s.queueAction ⟨o, a, amount, code⟩

/-- An answer resolves a doubt record, or leaves it in its place (R126; a PONG: log 28). -/
def resolveDoubt (s : State) (d : DoubtRec) (m : TermMsg) : State :=
  let removed := s.modPay fun p => p.removeDoubt d.number
  match d.action, m with
  | .authorize, .approved amount code => authOutcome removed d.order (.approved amount code)
  | .authorize, .declined r => authOutcome removed d.order (.declined r)
  | .authorize, .unknown => authOutcome removed d.order (.declined 0)
  | .authorize, .accepted => s
  | .capture, .completed | .void, .completed => settleOutcome removed d.order d.action none
  | .capture, .refused r | .void, .refused r => settleOutcome removed d.order d.action (some r)
  | .capture, .unknown | .void, .unknown => requeue removed d.order d.action d.amount d.code
  | _, _ => s.modPay Pay.stale

/-- ACCEPTED for a current AUTHORIZE (R119). -/
def acceptCurrent (s : State) (t : Txn) : State :=
  let customer (used : Bool) : State := s.modPay fun p =>
    { p with current := some { t with phase := .customer, restartUsed := used, untransmitted := false,
                                      answerTimer := none, customerTimer := some ⟨s.clock, p.values.customerLimit⟩ } }
  match t.phase with
  | .sent => customer t.restartUsed
  | .customer => s
  | .querying => if t.restartUsed then s else customer true

/-- An answer to a current transaction of origin QUEUE (R119, R121, R122, R127). -/
def answerCurrent (s : State) (t : Txn) (m : TermMsg) : State :=
  let ended := s.modPay Pay.endCurrent
  match t.action, m with
  | .authorize, .accepted => acceptCurrent s t
  | .authorize, .approved amount code => authOutcome ended t.order (.approved amount code)
  | .authorize, .declined r => authOutcome ended t.order (.declined r)
  | .authorize, .unknown => authOutcome ended t.order (.declined 0)
  | .capture, .completed | .void, .completed => settleOutcome ended t.order t.action none
  | .capture, .refused r | .void, .refused r => settleOutcome ended t.order t.action (some r)
  | .capture, .unknown | .void, .unknown => requeue ended t.order t.action t.amount t.code
  | _, _ => s.modPay Pay.stale

/-- What the engine does with a received message, matched in the order of R115. -/
def handleMessage (s : State) (n : Nat) (m : TermMsg) : State :=
  let byDoubt (s : State) : State :=
    match s.pay.doubts.find? fun d => d.number == n with
    | some d => resolveDoubt s d m
    | none =>
      if m = .pong then (if s.pay.freeToQuery then doubtQuery s false else s) else s.modPay Pay.stale
  match s.pay.current with
  | some t =>
    if t.number = n then
      match t.origin with
      | .queue => answerCurrent s t m
      | .doubt => match s.pay.doubts.find? fun d => d.number == n with
        | some d => resolveDoubt (s.modPay Pay.endCurrent) d m
        | none => s.modPay Pay.endCurrent
    else byDoubt s
  | none => byDoubt s

/-- An unanswered transaction: another QUERY while attempts are left, else doubt (R120). -/
def queryOrDoubt (s : State) (t : Txn) : State :=
  let s := s.modPay fun p => { p with timeoutsCount := sat16 p.timeoutsCount }
  if t.attempts < s.pay.values.queryRetries then
    sendCurrent (s.modPay fun p =>
      { p with current := some { t with attempts := t.attempts + 1, phase := .querying } }) (queryBody t.number)
  else goToDoubt s t

/-! ## Frame assembly (R114) -/

/-- What taking an entry amounts to. -/
inductive EntryTake
  | on (a : Assembly)
  | brk
  | drop
  | message (number : Nat) (m : TermMsg)
deriving DecidableEq, Repr

/-- An entry carries a flag. -/
def RxEntry.flagged (e : RxEntry) : Bool := e.parity || e.framing || e.brk

/-- What the entry does to a frame being assembled; `limit` is the inter-byte limit for a frame that begins (R114,
R128). -/
def Assembly.takes (a : Assembly) (limit : Nat) (e : RxEntry) : EntryTake :=
  if e.brk then .brk
  else if a.step = .hunt then
    if e.byte = 0xC3 ∧ e.flagged = false then .on ⟨.length, 0, [], 0, e.arrival, limit⟩ else .on a
  else if e.flagged then .drop
  else
    match a.step with
    | .hunt => .on a
    | .length =>
      if e.byte.toNat < 1 ∨ 64 < e.byte.toNat then .drop
      else .on { a with step := .body, len := e.byte.toNat, last := e.arrival }
    | .body =>
      let body := a.body ++ [e.byte]
      .on { a with body := body, step := if body.length < a.len then .body else .checkLow, last := e.arrival }
    | .checkLow => .on { a with step := .checkHigh, low := e.byte, last := e.arrival }
    | .checkHigh =>
      if (a.len + sumBytes a.body) % 65536 = a.low.toNat + 256 * e.byte.toNat then
        match termMsgOf a.body with
        | some (n, m) => .message n m
        | none => .drop
      else .drop

/-- The inter-byte limit has passed since the last entry of the frame: before the next one arrived, or with none waiting
until now (R114; log 38). -/
def Pay.interByteOver (p : Pay) (now : Word) : Bool :=
  p.asm.step != .hunt &&
  decide (p.asm.limit ≤ elapsed (match p.rxFifo with
    | e :: _ => e.arrival
    | [] => now) p.asm.last)

/-- What taking the head of the receive FIFO amounts to, while the engine may take it: in CONNECTED, and not once the
inter-byte limit has passed (R103, R114). -/
def Pay.headTake (p : Pay) (now : Word) : Option EntryTake :=
  match p.rxFifo with
  | [] => none
  | e :: _ =>
    if p.line = .connected ∧ p.interByteOver now = false then some (p.asm.takes p.values.interByte e) else none

/-- The head entry leaves the FIFO and assembly takes a new step. -/
def Pay.popTo (p : Pay) (a : Assembly) : Pay := { p with rxFifo := p.rxFifo.drop 1, asm := a }

/-- A frame dropped: counted, HUNT again (R114). -/
def Pay.frameDropped (p : Pay) : Pay := { p with asm := asmHunt, framesDropped := sat16 p.framesDropped }

end Sys2Proof.Machine
end

