-- ==== Sys2Proof/Machine/Line.lean ====
section
/-! DEFINITION. The commands of the Payment Line: receiver, transmitter, input pins, loopback and PAYMENT_RESET (R98 to
R112). The samples of a character come with its command (log 6). -/

namespace Sys2Proof.Machine

/-- An event of the payment side. -/
def payEvent (s t : State) : Host.Outcome State Fault Refusal := event s (payIdle t)

/-- An event of the payment side that may bring an order to PAID. -/
def payWorkEvent (s t : State) : Host.Outcome State Fault Refusal := workEvent s (payIdle t)

/-- RX_START_EDGE (R100): mark to space in IDLE on the receive pin. In LOOPBACK the transmitter's characters begin the
receiver's (`startChar`). -/
def execRxStartEdge (s : State) : Host.Outcome State Fault Refusal :=
  if s.pay.line = .connected ∧ s.pay.rx = .idle then payEvent s (s.modPay fun p => p.sawStart s.clock) else .next s

/-- RX_FALSE_START (R100): mark at the middle of the start bit, eight samples after the start; a resynchronised character
has no such check (R101), and a character of the transmitter none that fails. -/
def execRxFalseStart (s : State) : Host.Outcome State Fault Refusal :=
  match s.pay.rx with
  | .receiving start false false =>
    if s.pay.line = .connected ∧ s.pay.fmt.samplesMs 8 ≤ elapsed s.clock start then
      payEvent s (s.modPay fun p => { p with rx := .idle })
    else .next s
  | _ => .next s

/-- A character whose first stop bit has been sampled (R100, R101, R102). -/
def rxCharacter (s : State) (start : Word) (resync : Bool) (data : Byte) (parity stop : Bool) : State :=
  let f := s.pay.fmt
  let d := f.dataOf data
  let fails := f.parityFails d parity
  let someMark := d != 0 || (f.parity != .none && parity)
  if stop then (storeEntry s d fails false false).modPay fun p => { p with rx := .idle }
  else if someMark then
    (storeEntry s d fails true false).modPay fun p => { p with rx := .receiving s.clock true false }
  else s.modPay fun p => { p with rx := .receiving start resync true }

/-- The samples can come from the receiver's source: any from the receive pin, and in LOOPBACK those of the character
that the transmitter is sending (R100, R107). -/
def Pay.sourceGives (p : Pay) (data : Byte) (parity stop : Bool) : Bool :=
  match p.line, p.txChar with
  | .off, _ | .loopback, none => false
  | .connected, _ => true
  | .loopback, some b =>
    stop && p.fmt.dataOf data == p.fmt.dataOf b.byte &&
    (p.fmt.parity == .none || p.fmt.parityBit (p.fmt.dataOf b.byte) == some parity)

/-- RX_CHARACTER (R100, R101): not before the first stop bit's middle can have come, and with samples that the source
can give. -/
def execRxCharacter (data : Byte) (parity stop : Bool) (s : State) : Host.Outcome State Fault Refusal :=
  match s.pay.rx with
  | .receiving start resync false =>
    if s.pay.fmt.toStopMs resync ≤ elapsed s.clock start ∧ s.pay.sourceGives data parity stop then
      payEvent s (rxCharacter s start resync data parity stop)
    else .next s
  | _ => .next s

/-- Whole milliseconds from the time kept as a character's start until one full character time has passed since its
start; a resynchronised character's start lies half a bit time before the time kept (R101, R102). -/
def LineFormat.fullMs (f : LineFormat) (resync : Bool) : Nat :=
  f.samplesMs (16 * f.charBits - if resync then 8 else 0)

/-- ALL_SPACE_FRAMING_ERROR (R102): every sample up to the first stop bit read space, and mark comes before a full
character time has passed; byte 0 with FRAMING, and PARITY when an all-zero character fails the check. -/
def execAllSpaceFramingError (s : State) : Host.Outcome State Fault Refusal :=
  match s.pay.rx with
  | .receiving start resync true =>
    if s.pay.line = .connected ∧ elapsed s.clock start ≤ s.pay.fmt.fullMs resync + 1 then
      payEvent s ((storeEntry s 0 (s.pay.fmt.parityFails 0 false) true false).modPay fun p => { p with rx := .idle })
    else .next s
  | _ => .next s

/-- BREAK_DETECTED (R102): every sample up to the first stop bit read space, and the line is still at space one full
character time after the start; one entry with BREAK alone. -/
def execBreakDetected (s : State) : Host.Outcome State Fault Refusal :=
  match s.pay.rx with
  | .receiving start resync true =>
    if s.pay.line = .connected ∧ s.pay.fmt.fullMs resync ≤ elapsed s.clock start then
      payEvent s ((storeEntry s 0 false false true).modPay fun p => { p with rx := .breakHold })
    else .next s
  | _ => .next s

/-- BREAK_HOLD_END (R102). -/
def execBreakHoldEnd (s : State) : Host.Outcome State Fault Refusal :=
  if s.pay.rx = .breakHold then payEvent s (s.modPay fun p => { p with rx := .idle }) else .next s

/-- The last stop bit of a character has left the line: a frame whose last byte it was is transmitted, and the timer that
waits for its answer starts (R113); in LOOPBACK a pattern byte has been sent (R110). -/
def characterSent (p : Pay) (now : Word) (b : TxByte) : Pay :=
  { p with
    txChar := none
    current := p.current.map fun t =>
      if b.last && b.serial == t.frame && t.untransmitted then
        { t with untransmitted := false, answerTimer := some ⟨now, p.values.answerTimeout⟩ }
      else t
    loop := p.loop.map fun l =>
      if l.begun then { l with sentCount := l.sentCount + 1, lastSent := now } else l }

/-- In LOOPBACK the receiver has the whole of the character that the transmitter ends (R100, R110). -/
def loopDelivered (s : State) (b : TxByte) : State :=
  match s.pay.line, s.pay.rx with
  | .loopback, .receiving start resync false =>
    let data := s.pay.fmt.dataOf b.byte
    rxCharacter s start resync data ((s.pay.fmt.parityBit data).getD false) true
  | _, _ => s

/-- TX_CHARACTER_DONE (R99): not before a character time can have passed; the next byte follows at once. -/
def execTxCharacterDone (s : State) : Host.Outcome State Fault Refusal :=
  match s.pay.txChar with
  | some b =>
    if s.pay.fmt.charMs ≤ elapsed s.clock s.pay.txStart then
      payEvent s (pumpTx ((loopDelivered s b).modPay fun p => characterSent p s.clock b))
    else .next s
  | none => .next s

/-- TERMINAL_READY_CHANGE (R105): the pin has held a level for 5 ms; read in CONNECTED only (R107). The level stands as the
pin's level until the next such command: DESIGN CHOICE, log 55. -/
def execTerminalReadyChange (level : Bool) (s : State) : Host.Outcome State Fault Refusal :=
  payEvent s (s.modPay fun p =>
    let p := { p with readyPin := level }
    if p.line = .connected then p.takeReady s.clock level else p)

/-- ALERT taken at a level in CONNECTED: at a trailing edge the latch is set and, when the engine is free to query, a
doubt query is made (R106, R124). -/
def takeAlert (s : State) (level : Bool) : State :=
  if s.pay.alertLevel && !level then
    let t := s.modPay fun p => { p with alertLevel := false, alertLatch := true }
    if t.pay.freeToQuery then doubtQuery t false else t
  else s.modPay fun p => { p with alertLevel := level }

/-- ALERT_CHANGE (R106): the pin has held a level for 5 ms; it stands as the pin's level until the next such command (DESIGN
CHOICE, log 55). -/
def execAlertChange (level : Bool) (s : State) : Host.Outcome State Fault Refusal :=
  let t := s.modPay fun p => { p with alertPin := level }
  payEvent s (if t.pay.line = .connected then takeAlert t level else t)

/-- PAYMENT_LOOPBACK's checks at its take, and its arming (R109). -/
def takeLoopback (s : State) (c : Fin 64) : State :=
  let n := s.cells[c].req 0 1
  if n < 1 ∨ 64 < n then s.answer c (refuse .badField (plainField 0))
  else if s.pay.current.isSome ∨ s.pay.queue ≠ [] then s.answer c (refuse .busy)
  else s.modPay fun p => { p with loop := some ⟨c, n, false, 0, 0, 0, 0, s.clock⟩ }

/-- List 9 is taken from in CONNECTED, and not from a PAYMENT_LOOPBACK's take until its answer (R109). -/
def Pay.takesCells (p : Pay) : Bool := p.line == .connected && p.loop.isNone

/-- PAYMENT_LOOPBACK (R109). -/
def execPaymentLoopback (s : State) : Host.Outcome State Fault Refusal :=
  match s.headOf 9 .paymentLoopback with
  | some c => if s.pay.takesCells then payEvent s (takeLoopback (s.take c) c) else .next s
  | none => .next s

/-- The checker compares a removed entry with the pattern byte at its position (R110). -/
def Loopback.check (l : Loopback) (e : RxEntry) : Loopback :=
  { l with received := l.received + 1
           mismatches := l.mismatches + flag (decide (l.length ≤ l.received) || e.byte.toNat != l.received)
           flagged := l.flagged + flag e.flagged }

/-- LOOPBACK_ENTRY_TAKE (R110): the loopback ends when as many entries were removed as the pattern is long. -/
def execLoopbackEntryTake (s : State) : Host.Outcome State Fault Refusal :=
  match s.pay.loop, s.pay.rxFifo with
  | some l, e :: rest =>
    if l.begun then
      let l := l.check e
      let t := s.modPay fun p => { p with rxFifo := rest, loop := some l }
      payEvent s (if l.received = l.length then loopbackEnd t l else t)
    else .next s
  | _, _ => .next s

/-- LOOPBACK_TIMEOUT (R110): every pattern byte is sent, and two character times can have passed since the last character
or entry (log 35). -/
def execLoopbackTimeout (s : State) : Host.Outcome State Fault Refusal :=
  match s.pay.loop with
  | some l =>
    if l.begun ∧ l.sentCount = l.length ∧ s.pay.txIdle ∧
        s.pay.fmt.samplesMs (32 * s.pay.fmt.charBits) ≤ elapsed s.clock l.lastSent then
      payEvent s (loopbackEnd s l)
    else .next s
  | none => .next s

/-- The fate PAYMENT_RESET gives the current transaction, with its code: NONE 0, REQUEUED 1, DOUBT 2, QUERY_AGAIN 3
(R111, R190). -/
def resetCurrent (s : State) : State × Byte :=
  match s.pay.current with
  | none => (s, 0)
  | some t =>
    match t.origin, t.sent with
    | .doubt, _ => (s.modPay Pay.endCurrent, 3)
    | .queue, true => (goToDoubt s t, 2)
    | .queue, false =>
      (s.modPay fun p => { p with current := none, queue := ⟨t.order, t.action, t.amount, t.code⟩ :: p.queue }, 1)

/-- The reset of the line and of the current transaction (R111); a character being sent goes on. A partly assembled frame
is dropped and not counted: DESIGN CHOICE, log 48. -/
def resetLine (s : State) : State × Byte :=
  resetCurrent (s.modPay fun p =>
    { p.clearSticky with txFifo := [], outBytes := [], rxFifo := [], rx := .idle, asm := asmHunt })

/-- PAYMENT_RESET (R111). -/
def execPaymentReset (s : State) : Host.Outcome State Fault Refusal :=
  match s.headOf 9 .paymentReset with
  | some c =>
    if s.pay.takesCells then
      let (t, fate) := resetLine (s.take c)
      payEvent s (t.answer c (doneWith [fate]))
    else .next s
  | none => .next s

end Sys2Proof.Machine
end

