-- ==== Sys2Proof/Machine/Payment.lean ====
section
/-! DEFINITION. The commands of the Payment Engine: entries and messages taken from the receive FIFO, action starts and
timers (R114 to R131). -/

namespace Sys2Proof.Machine

/-- ASSEMBLY_ENTRY_TAKE (R114): an entry that neither drops a frame nor completes one. -/
def execAssemblyEntryTake (s : State) : Host.Outcome State Fault Refusal :=
  match s.pay.headTake s.clock with
  | some (.on a) => payEvent s (s.modPay fun p => p.popTo a)
  | _ => .next s

/-- FRAME_DROP (R114): the entry at the head drops the frame being assembled. -/
def execFrameDrop (s : State) : Host.Outcome State Fault Refusal :=
  match s.pay.headTake s.clock with
  | some .drop => payEvent s (s.modPay fun p => (p.popTo asmHunt).frameDropped)
  | _ => .next s

/-- INTER_BYTE_TIMEOUT (R114). -/
def execInterByteTimeout (s : State) : Host.Outcome State Fault Refusal :=
  if s.pay.line = .connected ∧ s.pay.interByteOver s.clock then payEvent s (s.modPay Pay.frameDropped) else .next s

/-- A break taken from the FIFO: a frame being assembled is dropped and counted, a sent transaction goes to doubt, a
doubt query ends (R128; log 29). -/
def takeBreak (s : State) : State :=
  let t := s.modPay fun p =>
    if p.asm.step = .hunt then p.popTo asmHunt else (p.popTo asmHunt).frameDropped
  match t.pay.current with
  | none => t
  | some c =>
    match c.origin with
    | .doubt => t.modPay fun p => { p with current := none }
    | .queue => if c.sent then goToDoubt t c else t

/-- BREAK_ENTRY (R128). -/
def execBreakEntry (s : State) : Host.Outcome State Fault Refusal :=
  match s.pay.headTake s.clock with
  | some .brk => payEvent s (takeBreak s)
  | _ => .next s

/-- The message that the entry at the head of the FIFO completes, with its transaction number. -/
def headMessage (s : State) : Option (Nat × TermMsg) :=
  match s.pay.headTake s.clock with
  | some (.message n m) => some (n, m)
  | _ => none

/-- The entry that completes a message is taken, and the message handled (R114, R115). -/
def takeMessage (s : State) (n : Nat) (m : TermMsg) : Host.Outcome State Fault Refusal :=
  payWorkEvent s (handleMessage (s.modPay fun p => p.popTo asmHunt) n m)

/-- ACCEPTED (R119). -/
def execAccepted (s : State) : Host.Outcome State Fault Refusal :=
  match headMessage s with
  | some (n, .accepted) => takeMessage s n .accepted
  | _ => .next s

/-- APPROVED (R119, R126). -/
def execApproved (s : State) : Host.Outcome State Fault Refusal :=
  match headMessage s with
  | some (n, .approved amount code) => takeMessage s n (.approved amount code)
  | _ => .next s

/-- DECLINED (R119, R126). -/
def execDeclined (s : State) : Host.Outcome State Fault Refusal :=
  match headMessage s with
  | some (n, .declined r) => takeMessage s n (.declined r)
  | _ => .next s

/-- UNKNOWN (R119, R122, R126). -/
def execUnknown (s : State) : Host.Outcome State Fault Refusal :=
  match headMessage s with
  | some (n, .unknown) => takeMessage s n .unknown
  | _ => .next s

/-- COMPLETED (R121, R126). -/
def execCompleted (s : State) : Host.Outcome State Fault Refusal :=
  match headMessage s with
  | some (n, .completed) => takeMessage s n .completed
  | _ => .next s

/-- REFUSED (R121, R126). -/
def execRefused (s : State) : Host.Outcome State Fault Refusal :=
  match headMessage s with
  | some (n, .refused r) => takeMessage s n (.refused r)
  | _ => .next s

/-- PONG (R125). -/
def execPong (s : State) : Host.Outcome State Fault Refusal :=
  match headMessage s with
  | some (n, .pong) => takeMessage s n .pong
  | _ => .next s

/-- What an action needs to start, but for the terminal's presence (R118). -/
def State.mayAct (s : State) : Bool :=
  s.running && s.pay.line == .connected && s.pay.loop.isNone && s.pay.current.isNone &&
  decide (s.pay.doubts.length < 4)

/-- ACTION_START (R118): the action at the head of the queue, or first the doubt query that precedes it. -/
def execActionStart (s : State) : Host.Outcome State Fault Refusal :=
  match s.pay.queue with
  | a :: rest =>
    if s.mayAct ∧ s.pay.present then
      payEvent s (if !s.pay.doubts.isEmpty && !s.pay.preQuery then doubtQuery s true else startAction s a rest)
    else .next s
  | [] => .next s

/-- The terminal has been absent for longer than the answer timeout (R118). -/
def Pay.absentTooLong (p : Pay) (now : Word) : Bool :=
  !p.present && (match p.absentSince with
    | some t => decide (p.values.answerTimeout < elapsed now t)
    | none => false)

/-- AUTHORIZE_NO_TERMINAL (R118). -/
def execAuthorizeNoTerminal (s : State) : Host.Outcome State Fault Refusal :=
  match s.pay.queue with
  | a :: rest =>
    if a.action = .authorize ∧ s.mayAct ∧ s.pay.absentTooLong s.clock then
      payEvent s (authOutcome (s.modPay fun p => { p with queue := rest }) a.order .noTerminal)
    else .next s
  | [] => .next s

/-- ANSWER_TIMEOUT (R120): the current transaction's answer timeout in SENT or QUERYING. -/
def execAnswerTimeout (s : State) : Host.Outcome State Fault Refusal :=
  match s.pay.current with
  | some t =>
    if t.origin = .queue ∧ t.phase ≠ .customer ∧ timerDue s.clock t.answerTimer then payEvent s (queryOrDoubt s t)
    else .next s
  | none => .next s

/-- CUSTOMER_LIMIT_EXPIRY (R120). -/
def execCustomerLimitExpiry (s : State) : Host.Outcome State Fault Refusal :=
  match s.pay.current with
  | some t =>
    if t.origin = .queue ∧ t.phase = .customer ∧ timerDue s.clock t.customerTimer then payEvent s (queryOrDoubt s t)
    else .next s
  | none => .next s

/-- DOUBT_QUERY_TIMEOUT (R124): counted; the query ends and its record stays in the list. -/
def execDoubtQueryTimeout (s : State) : Host.Outcome State Fault Refusal :=
  match s.pay.current with
  | some t =>
    if t.origin = .doubt ∧ timerDue s.clock t.answerTimer then
      payEvent s (s.modPay fun p => { p.endCurrent with timeoutsCount := sat16 p.timeoutsCount })
    else .next s
  | none => .next s

/-- PING_TIMER_EXPIRY (R125): the timer starts again; PING is sent when the engine is free to query. -/
def execPingTimerExpiry (s : State) : Host.Outcome State Fault Refusal :=
  if !s.pay.doubts.isEmpty && timerDue s.clock s.pay.pingTimer then
    let t := s.modPay fun p => { p with pingTimer := some ⟨s.clock, p.values.pingInterval⟩ }
    payEvent s (if t.pay.freeToQuery then sendFrame t pingBody else t)
  else .next s

end Sys2Proof.Machine
end

