-- ==== Sys2Proof/Machine/CopyDispatch.lean ====
section
/-! DEFINITION. The commands of the Copy Dispatcher and of the render arbiter (R155 to R160, R176, R177). In the events
of other blocks these steps are made by `afterWork`; a command finds one to make in a state that no such event left. -/

namespace Sys2Proof.Machine

/-- COPY_SELECTION (R155 to R159): for an open station with an eligible item, promotion, ranking and the reservation; a
READY station starts the copy in the same event (R160). -/
def execCopySelection (n : Fin 3) (s : State) : Host.Outcome State Fault Refusal :=
  if s.selectionDue n then workEvent s (selectCopy s n) else .next s

/-- COPY_START (R144, R160): the station is READY, its entry HELD, no copy in flight. -/
def execCopyStart (n : Fin 3) (s : State) : Host.Outcome State Fault Refusal :=
  match s.startDue n with
  | some r => workEvent s (startCopy s n r)
  | none => .next s

/-- RENDER_GRANT (R177). -/
def execRenderGrant (s : State) : Host.Outcome State Fault Refusal :=
  if s.job = none ∧ s.renderChoice.isSome then event s (renderGrant s) else .next s

/-- OVERCOAT_LINE_COMPLETION (R176): the completion of a line of panel O, which reads nothing. -/
def execOvercoatLineCompletion (s : State) : Host.Outcome State Fault Refusal :=
  match s.job with
  | some j => if j.panel = .o then event s (completeLine s j) else .next s
  | none => .next s

end Sys2Proof.Machine
end

