-- ==== Sys2Proof/Machine/Stations.lean ====
section
/-! DEFINITION. The commands of a Station Controller: link words and their timers, engine messages, and the requests of
intake lists 6 to 8 (R133 to R151, R178, R197). -/

namespace Sys2Proof.Machine

/-! ## Received words (R133, R197) -/

/-- The time of a received word, whole or damaged, is noted; it shows energy (R133). -/
def noteWord (s : State) (n : Fin 3) : State := s.modStation n fun x => { x with lastWord := some s.clock }

/-- A word in ABSENT outside a rest moves the station to LINKING and starts the exchange (R133). -/
def arriveAbsent (s : State) (n : Fin 3) : State := s.modStation n fun x => x.startExchange s.clock

/-- The rest of ABSENT: an arrival is noted and does nothing else (R133). -/
def Station.absentRest (x : Station) : Bool := x.state == .absent && x.rest.isSome

/-- What a word does to a station while the link is not UP, whatever it is: the message in progress becomes `msg`, a
damaged word and a stale message are counted, and outside a rest `exchange` is what it does in LINKING, while ABSENT goes
to LINKING (R133, R134, R148, R197; logs 25 and 26). -/
def wordDown (s : State) (n : Fin 3) (msg : Option (List Byte)) (damaged stale : Bool)
    (exchange : State → State := fun t => t.modStation n Station.unsettle) : State :=
  let x := s.stations[n]
  if x.absentRest then s
  else
    let t := s.modStation n fun x =>
      { x with msg := msg, damaged := if damaged then sat16 x.damaged else x.damaged,
               stales := if stale then sat16 x.stales else x.stales }
    if x.rest.isSome then t
    else match x.state with
      | .absent => arriveAbsent t n
      | .linking => exchange t
      | _ => t

/-- The class of a word for a station by its message in progress, whether the link is UP or not (R197; log 26); none while
the part is STARTING (R153). -/
def State.wordFor (s : State) (n : Fin 3) (w : List Byte) : Option LinkEvent :=
  if s.running then some (linkEventOf s.stations[n].msg w) else none

/-- ABILITY_WORD (R133 to R135): starts or advances the exchange, or takes an UP link down with cause PEER. -/
def execAbilityWord (n : Fin 3) (w : List Byte) (s : State) : Host.Outcome State Fault Refusal :=
  match s.wordFor n w with
  | some (.ability p) =>
    let x := s.stations[n]
    let t := noteWord s n
    workEvent s (
      if x.linkUp then linkDown t n .peer .link
      else wordDown t n none false false fun t => abilityInExchange t n p)
  | _ => .next s

/-- LINK_IDLE_WORD (R133, R134): drops a message in progress. -/
def execLinkIdleWord (n : Fin 3) (w : List Byte) (s : State) : Host.Outcome State Fault Refusal :=
  match s.wordFor n w with
  | some .idle =>
    let t := noteWord s n
    event s (if s.stations[n].linkUp then t.modStation n fun x => { x with msg := none } else wordDown t n none false false)
  | _ => .next s

/-- DAMAGED_WORD (R133, R134, R137, R197). -/
def execDamagedWord (n : Fin 3) (w : List Byte) (s : State) : Host.Outcome State Fault Refusal :=
  match s.wordFor n w with
  | some .damaged =>
    let t := noteWord s n
    workEvent s (if s.stations[n].linkUp then damagedUp t n else wordDown t n none true false)
  | _ => .next s

/-- LINK_MESSAGE_WORD (R197): a FIRST word begins a message, a NEXT word joins the one in progress; in the exchange either
unsettles the engine's word (R134). -/
def execLinkMessageWord (n : Fin 3) (w : List Byte) (s : State) : Host.Outcome State Fault Refusal :=
  match s.wordFor n w with
  | some (.part m) =>
    let t := noteWord s n
    event s (if s.stations[n].linkUp then t.modStation n fun x => { x with msg := some m } else wordDown t n (some m) false false)
  | _ => .next s

/-- MESSAGE_DROP (R197): a complete message that is not one of the engine's counts as one damaged word. -/
def execMessageDrop (n : Fin 3) (w : List Byte) (s : State) : Host.Outcome State Fault Refusal :=
  match s.wordFor n w with
  | some .dropped =>
    let t := noteWord s n
    workEvent s (if s.stations[n].linkUp then damagedUp t n else wordDown t n none true false)
  | _ => .next s

/-- The engine message that a word completes. -/
def State.messageFor (s : State) (n : Fin 3) (w : List Byte) : Option EngineMsg :=
  match s.wordFor n w with
  | some (.message m) => some m
  | _ => none

/-- A complete message that arrives: `up` is what it does while the link is UP. While it is not, a PAGE or a copy message
(`stale`) finds no request and no copy and is stale (R148), and a status word only acts as a word (R142; log 26). -/
def messageArrives (s : State) (n : Fin 3) (stale : Bool) (up : State) : Host.Outcome State Fault Refusal :=
  workEvent s (if s.stations[n].linkUp then up else wordDown (noteWord s n) n none false stale)

/-- A complete message: its word is noted and no message is in progress any more. A message that an ONLY word cut short is
discarded with it and counted nowhere (DESIGN CHOICE, log 53). -/
def messageTaken (s : State) (n : Fin 3) : State := (noteWord s n).modStation n fun x => { x with msg := none }

/-- PAGE (R139, R140). -/
def execPage (n : Fin 3) (w : List Byte) (s : State) : Host.Outcome State Fault Refusal :=
  match s.messageFor n w with
  | some (.page p toggle payload sum) =>
    let t := messageTaken s n
    messageArrives s n true (pageArrives t n p toggle payload sum)
  | _ => .next s

/-- ENGINE_STATUS_WORD (R142, R143). -/
def execEngineStatusWord (n : Fin 3) (w : List Byte) (s : State) : Host.Outcome State Fault Refusal :=
  match s.messageFor n w with
  | some (.status st) =>
    let t := messageTaken s n
    messageArrives s n false (statusArrives t n st)
  | _ => .next s

/-- LINE_REQUEST (R146, R178). -/
def execLineRequest (n : Fin 3) (w : List Byte) (s : State) : Host.Outcome State Fault Refusal :=
  match s.messageFor n w with
  | some (.lineRequest seq panel line) =>
    let t := messageTaken s n
    messageArrives s n true (withCopy t n seq fun c => lineRequested t n c panel line)
  | _ => .next s

/-- LINE_ACK (R146). -/
def execLineAck (n : Fin 3) (w : List Byte) (s : State) : Host.Outcome State Fault Refusal :=
  match s.messageFor n w with
  | some (.lineAck seq panel line) =>
    let t := messageTaken s n
    messageArrives s n true (withCopy t n seq fun c => lineAcked t n c panel line)
  | _ => .next s

/-- LINE_NAK (R146). -/
def execLineNak (n : Fin 3) (w : List Byte) (s : State) : Host.Outcome State Fault Refusal :=
  match s.messageFor n w with
  | some (.lineNak seq panel line) =>
    let t := messageTaken s n
    messageArrives s n true (withCopy t n seq fun c => lineNaked t n c panel line)
  | _ => .next s

/-- PANEL_DONE (R147). -/
def execPanelDone (n : Fin 3) (w : List Byte) (s : State) : Host.Outcome State Fault Refusal :=
  match s.messageFor n w with
  | some (.panelDone seq panel) =>
    let t := messageTaken s n
    messageArrives s n true (withCopy t n seq fun c => panelEnds t n c panel)
  | _ => .next s

/-- COPY_OK (R147). -/
def execCopyOk (n : Fin 3) (w : List Byte) (s : State) : Host.Outcome State Fault Refusal :=
  match s.messageFor n w with
  | some (.copyOk seq) =>
    let t := messageTaken s n
    messageArrives s n true (withCopy t n seq fun c => copyOk t n c)
  | _ => .next s

/-- COPY_FAULT (R147). -/
def execCopyFault (n : Fin 3) (w : List Byte) (s : State) : Host.Outcome State Fault Refusal :=
  match s.messageFor n w with
  | some (.copyFault seq reason) =>
    let t := messageTaken s n
    messageArrives s n true (withCopy t n seq fun _ => copyFault t n reason)
  | _ => .next s

/-! ## Timers -/

/-- The last word came within the last 10 ms (R133; log 34). -/
def Station.energy (x : Station) (now : Word) : Bool :=
  match x.lastWord with
  | some t => decide (elapsed now t < 10)
  | none => false

/-- ENERGY_LOSS (R133): 10 ms with no word, in LINKING outside a rest or while the link is UP. -/
def execEnergyLoss (n : Fin 3) (s : State) : Host.Outcome State Fault Refusal :=
  let x := s.stations[n]
  if x.energy s.clock then .next s
  else if x.linkUp then workEvent s (linkDown s n .energy .link)
  else if x.state = .linking ∧ x.rest = none then
    event s (s.modStation n fun x =>
      { x with state := .absent, settleCount := 0, prevWord := none, ack := false, exchangeTimer := none })
  else .next s

/-- ABILITY_SEND_TIMER (R133): every 1 ms the ability word in ABSENT and LINKING outside a rest, and an idle word while
the link is UP. -/
def execAbilitySendTimer (n : Fin 3) (s : State) : Host.Outcome State Fault Refusal :=
  if timerDue s.clock s.stations[n].sendTimer then
    event s (if s.stations[n].linkUp then sendIdle s n else sendAbility s n)
  else .next s

/-- EXCHANGE_TIMER_EXPIRY (R134): the exchange restarts. -/
def execExchangeTimerExpiry (n : Fin 3) (s : State) : Host.Outcome State Fault Refusal :=
  let x := s.stations[n]
  if x.state = .linking ∧ timerDue s.clock x.exchangeTimer then
    event s (s.modStation n fun x => x.startExchange s.clock)
  else .next s

/-- REST_EXPIRY (R136, R149): LINKING when a word came within the last 10 ms, ABSENT otherwise, where a taken cell is
answered; the part sends its ability word again. -/
def execRestExpiry (n : Fin 3) (s : State) : Host.Outcome State Fault Refusal :=
  let x := s.stations[n]
  if timerDue s.clock x.rest then
    let t := s.modStation n fun x => { x with rest := none }
    event s (
      if x.energy s.clock then sendAbility (t.modStation n fun x => x.startExchange s.clock) n
      else answerStation (sendAbility (t.modStation n fun x => { x with state := .absent }) n) n)
  else .next s

/-- PAGE_TIMEOUT (R139): the 50 ms wait expires, a mismatch. -/
def execPageTimeout (n : Fin 3) (s : State) : Host.Outcome State Fault Refusal :=
  match s.stations[n].load with
  | some l => if l.timer.due s.clock then workEvent s (pageMismatch s n l) else .next s
  | none => .next s

/-- LINE_ANSWER_TIMEOUT (R146). -/
def execLineAnswerTimeout (n : Fin 3) (s : State) : Host.Outcome State Fault Refusal :=
  match s.stations[n].copy with
  | some c => if timerDue s.clock c.answer then workEvent s (failedAnswer s n c) else .next s
  | none => .next s

/-- LINE_HOLD_EXPIRY (R178). -/
def execLineHoldExpiry (n : Fin 3) (s : State) : Host.Outcome State Fault Refusal :=
  match s.heads[n].held with
  | some r => if r.timer.due s.clock then workEvent s (holdExpires s n) else .next s
  | none => .next s

/-! ## Requests (R149 to R151) -/

/-- The cell at the head of a station's list, while the station holds no taken cell (R149). -/
def State.stationHead (s : State) (n : Fin 3) (k : Kind) : Option (Fin 64) :=
  if s.stations[n].takenCell = none then s.headOf (stationList n) k else none

/-- STATION_POWER with mode STANDBY: what is answered, and whether the engine is put to sleep (R149). -/
def standbyAnswer (x : Station) : Bool × Option Status :=
  match x.state with
  | .standby => (false, none)
  | .ready =>
    if x.account.reservation.isSome then (false, some .wrongState)
    else (((x.abilities.map Abilities.flags).getD 0).getLsbD 3, none)
  | _ => (false, some .wrongState)

/-- STATION_POWER's checks and effect (R149). -/
def stationPower (s : State) (n : Fin 3) (c : Fin 64) : State :=
  let x := s.stations[n]
  match s.cells[c].req 0 1 with
  | 1 =>
    if x.state = .standby then
      (s.sendLink n 0x26 []).modStation n fun x => { x with takenCell := some c, wake := some .wake }
    else s.answer c (doneWith (stationBody x))
  | 2 =>
    match standbyAnswer x with
    | (_, some st) => s.answer c (refuse st x.state.code)
    | (false, none) => s.answer c (doneWith (stationBody x))
    | (true, none) =>
      let t := (s.sendLink n 0x25 []).modStation n fun x => { x with state := .standby }
      t.answer c (doneWith (stationBody t.stations[n]))
  | _ => s.answer c (refuse .badField (plainField 0))

/-- STATION_POWER (R149). -/
def execStationPower (n : Fin 3) (s : State) : Host.Outcome State Fault Refusal :=
  match s.stationHead n .stationPower with
  | some c => event s (stationPower (s.take c) n c)
  | none => .next s

/-- STATION_RELINK's check and effect (R150; log 33). -/
def stationRelink (s : State) (n : Fin 3) (c : Fin 64) : State :=
  let x := s.stations[n]
  if x.copy.isSome then s.answer c (refuse .wrongState x.state.code)
  else
    let t := s.modStation n fun x => { x with takenCell := some c }
    if x.state = .standby then
      (t.sendLink n 0x26 []).modStation n fun x => { x with wake := some .relink }
    else linkDown t n .relink .link

/-- STATION_RELINK (R150). -/
def execStationRelink (n : Fin 3) (s : State) : Host.Outcome State Fault Refusal :=
  match s.stationHead n .stationRelink with
  | some c => workEvent s (stationRelink (s.take c) n c)
  | none => .next s

/-- WAKE_SENT (R149): the last word of WAKE has gone; the link goes down with the cause that waited for it. -/
def execWakeSent (n : Fin 3) (s : State) : Host.Outcome State Fault Refusal :=
  match s.stations[n].wake with
  | some cause => workEvent s (linkDown s n cause .link)
  | none => .next s

/-- The answer of PROFILE_READ from a loaded profile (R151, R192). -/
def profileAnswer (p : Profile) (region : Nat) : Answer :=
  let body := match region with
    | 0 => le 4 p.ident ++ p.sourceCodes.map (BitVec.ofNat 8) ++ partBytes 4 p.scalars
    | 1 => p.toneY.flatMap (leInt 2)
    | 2 => p.toneM.flatMap (leInt 2)
    | _ => p.toneC.flatMap (leInt 2)
  { status := .done, detail := p.sourceCodes.getD region 0, body := body }

/-- PROFILE_READ's checks and answer (R151). -/
def profileRead (n : Fin 3) (s : State) (c : Fin 64) : State × Answer :=
  let region := s.cells[c].req 0 1
  if 3 < region then (s, refuse .badField (plainField 0))
  else
    match s.stations[n].profile with
    | none => (s, refuse .wrongState s.stations[n].state.code)
    | some p => (s, profileAnswer p region)

/-- PROFILE_READ (R151). -/
def execProfileRead (n : Fin 3) (s : State) : Host.Outcome State Fault Refusal :=
  if s.stations[n].takenCell = none then serve s (stationList n) .profileRead (profileRead n) else .next s

end Sys2Proof.Machine
end

