-- ==== Sys2Proof/Machine/Port.lean ====
section
/-! DEFINITION. The staging port: its arbiter, its grants, and the pixel runs that come back (R38 to R40, R174, R176). -/

namespace Sys2Proof.Machine

/-- The clients of the port (R38). -/
inductive Client
  | host
  | render
  | channel (c : Fin 2)
deriving DecidableEq, Repr

/-- The host window waits. -/
def State.hostWaits (s : State) : Bool := !s.port.hostQueue.isEmpty

/-- The render reader waits with the first run still to fetch. -/
def State.renderWaits (s : State) : Bool :=
  match s.job with
  | some j => !j.runs.isEmpty
  | none => false

/-- A card channel waits with a block write. -/
def State.channelWaits (s : State) (c : Fin 2) : Bool := s.channels[c].buffer.isSome

/-- The other card channel. -/
def otherChannel (c : Fin 2) : Fin 2 := if c = 0 then 1 else 0

/-- The choice between the card channels: the one that waits, or the one whose turn it is (R39 step 3). -/
def State.channelChoice (s : State) : Option (Fin 2) :=
  if s.channelWaits 0 && s.channelWaits 1 then some s.port.turn
  else if s.channelWaits 0 then some 0
  else if s.channelWaits 1 then some 1
  else none

/-- The arbiter's choice (R39). -/
def State.portChoice (s : State) : Option Client :=
  if s.hostWaits && decide (8 ≤ s.port.hostWait) then some .host
  else if s.renderWaits then some .render
  else
    match s.channelChoice with
    | some c => some (.channel c)
    | none => if s.hostWaits then some .host else none

/-- The host's wait count after a grant to another client (R39). -/
def State.countHostWait (s : State) : State :=
  { s with port := { s.port with hostWait := if s.hostWaits then s.port.hostWait + 1 else 0 } }

/-- One access of the host window at its grant (R36 to R38): words written with their byte enables, or the bytes read,
zeros where the page is free by now (R40; log 37). -/
def hostAccess (s : State) : HostAccess → State
  | .write ws => { s with dram := ws.foldl (fun m w => m.writeEnabled w.offset w.value w.enables) s.dram }
  | .read offset count =>
    s.emit (.stagingData offset
      (if (s.extentAt (offset / 65536)).isSome then s.dram.readBytes offset (4 * count)
       else List.replicate (4 * count) 0))

/-- The host window's oldest access is granted, and the reads of free pages behind it are answered (R37, R38). -/
def grantHost (s : State) : State :=
  match s.port.hostQueue with
  | [] => s
  | a :: rest => drainHost (hostAccess { s with port := { s.port with hostQueue := rest, hostWait := 0 } } a)

/-- The render reader's pixel run is granted: the port is busy until the run comes back (R38, R176). -/
def grantRun (s : State) : State :=
  match s.job with
  | some j => match j.runs with
    | run :: _ =>
      let t := s.countHostWait
      { t with port := { t.port with inFlight := some ⟨run, s.dram.readBytes run.addr (3 * run.len), true⟩ } }
    | [] => s
  | none => s

/-- A card channel's block write is granted, and the turn passes to the other channel (R39). -/
def grantChannelWrite (s : State) (c : Fin 2) : State :=
  let t := s.countHostWait
  grantBlock { t with port := { t.port with turn := otherChannel c } } c

/-- PORT_GRANT (R38, R39): the port is free and a client waits. -/
def execPortGrant (s : State) : Host.Outcome State Fault Refusal :=
  if s.port.inFlight = none then
    match s.portChoice with
    | some .host => event s (grantHost s)
    | some .render => event s (grantRun s)
    | some (.channel c) => event s (grantChannelWrite s c)
    | none => .next s
  else .next s

/-- A run's pixels join the line being rendered; the last run completes the line (R176). -/
def runArrives (s : State) (g : RunGrant) : State :=
  match s.job with
  | some j =>
    let j := { j with runs := j.runs.drop 1, fetched := j.fetched ++ runPixels g.run g.bytes }
    if j.runs.isEmpty then completeLine s j else { s with job := some j }
  | none => s

/-- PIXEL_RUN_RETURN (R176): a run whose copy has ended is discarded (R40). -/
def execPixelRunReturn (s : State) : Host.Outcome State Fault Refusal :=
  match s.port.inFlight with
  | some g =>
    let t := { s with port := { s.port with inFlight := none } }
    event s (if g.live then runArrives t g else t)
  | none => .next s

end Sys2Proof.Machine
end

