-- ==== Sys2Proof/Machine/SettingsUnit.lean ====
section
/-! DEFINITION. The Settings Unit: the requests of intake list 10, the store, autoload and the end of start-up (R182 to
R189, R199, R200). -/

namespace Sys2Proof.Machine

/-! ## SETTINGS_READ and SETTINGS_WRITE -/

/-- The part a request names, or the answer that refuses its section or part field (R185). -/
def requestedPart (c : WorkCell) : Except Answer (Fin 11) :=
  let sec := c.req 0 1
  if 4 < sec then .error (refuse .badField (plainField 0))
  else
    match partOf sec (c.req 1 1) with
    | some p => .ok p
    | none => .error (refuse .badField (plainField 1))

/-- SETTINGS_READ's checks and answer (R185). -/
def settingsRead (s : State) (c : Fin 64) : State × Answer :=
  match requestedPart s.cells[c] with
  | .error a => (s, a)
  | .ok p => (s, doneWith (partBytes p s.settings[p]))

/-- Section 1 in force is handed to the Payment Line and the Payment Engine (R108, R130). -/
def handLine (s : State) : State :=
  payIdle (s.modPay fun p =>
    { p with pendingFmt := if settingsFormat s.settings = p.fmt then none else some (settingsFormat s.settings)
             pendingValues := some (settingsPayValues s.settings) })

/-- The answer body of SETTINGS_WRITE: the fields clamped, and the part in force (R192). -/
def writeBody (p : Fin 11) (clamped : List Nat) (vals : List Int) : List Byte :=
  let fields := BitVec.ofNat 8 clamped.length :: clamped.map (BitVec.ofNat 8)
  fields ++ List.replicate (256 - fields.length) 0 ++ partBytes p vals

/-- SETTINGS_WRITE's checks and effect (R186). -/
def settingsWrite (s : State) (c : Fin 64) : State × Answer :=
  match requestedPart s.cells[c] with
  | .error a => (s, a)
  | .ok p =>
    let raw := readFields (partSpec p) (s.cells[c].reqBytes 4 (partLength p))
    match firstBadEnum (partSpec p) raw with
    | some i => (s, refuse .badField (fieldDetail 2 0xFF i))
    | none =>
      let vals := clampFields (partSpec p) raw
      let clamped := clampedFields raw vals
      let t := { s with settings := s.settings.set p vals }
      (if p = 1 then handLine t else t,
       { status := .done, detail := clamped.length, body := writeBody p clamped vals })

/-- SETTINGS_READ (R185). -/
def execSettingsRead (s : State) : Host.Outcome State Fault Refusal := serve s 10 .settingsRead settingsRead

/-- SETTINGS_WRITE (R186). -/
def execSettingsWrite (s : State) : Host.Outcome State Fault Refusal := serve s 10 .settingsWrite settingsWrite

/-! ## The store (R188) -/

/-- The offset after a section in the image. -/
def sectionEnd (sec : Fin 5) : Nat :=
  4 + ((List.finRange 5).filter (· ≤ sec)).foldl (fun n k => n + sectionLength k + 3) 0

/-- A page write goes to the EEPROM, with up to 10 ms for its acknowledge (R188). -/
def startPage (s : State) (st : Store) : State :=
  { s.emit (.eeprom st.page st.pageBytes) with store := some { st with poll := ⟨s.clock, 10⟩ } }

/-- SETTINGS_STORE: BUSY while a store runs, else the snapshot and the first page (R188). -/
def settingsStore (s : State) (c : Fin 64) : State :=
  if s.store.isSome then s.answer c (refuse .busy) else startPage s ⟨c, s.settings, 4, false, ⟨s.clock, 10⟩⟩

/-- SETTINGS_STORE (R185, R188). -/
def execSettingsStore (s : State) : Host.Outcome State Fault Refusal :=
  match s.headOf 10 .settingsStore with
  | some c => event s (settingsStore (s.take c) c)
  | none => .next s

/-- The answer body of SETTINGS_STORE: bytes written, cause, sections written whole, stop offset (R192). -/
def storeBody (written cause whole stop : Nat) : List Byte :=
  le 2 written ++ [BitVec.ofNat 8 cause, BitVec.ofNat 8 whole] ++ le 2 stop

/-- A page was acknowledged: the next page, the header after the sections, or the end (R188). -/
def pageAcked (s : State) (st : Store) : State :=
  let t := { s with eeprom := s.eeprom.writeBytes st.page st.pageBytes }
  if st.header then { t with store := none }.answer st.cell (doneWith (storeBody imageLength 0 5 0))
  else if st.pageEnd = imageLength then startPage t { st with page := 0, header := true }
  else startPage t { st with page := st.pageEnd }

/-- STORE_PAGE_ACK (R188). -/
def execStorePageAck (s : State) : Host.Outcome State Fault Refusal :=
  match s.store with
  | some st => event s (pageAcked s st)
  | none => .next s

/-- The sections wholly written before an offset. -/
def wholeSections (stop : Nat) : Nat := ((List.finRange 5).filter fun sec => decide (sectionEnd sec ≤ stop)).length

/-- The store stops after `acked` bytes of the page in progress: PARTIAL with cause NO_ACK (R188, R200; log 31). -/
def storeStops (s : State) (st : Store) (acked : Nat) : State :=
  let stop := st.page + acked
  let written := if st.header then imageLength - 4 + acked else stop - 4
  { s with store := none, eeprom := s.eeprom.writeBytes st.page (st.pageBytes.take acked) }.answer st.cell
    { status := .partly, body := storeBody written 1 (if st.header then 5 else wholeSections stop) stop }

/-- STORE_POLL_TIMEOUT (R188): a byte of the page was not acknowledged, or all were and the 10 ms poll ran out. -/
def execStorePollTimeout (acked : Nat) (s : State) : Host.Outcome State Fault Refusal :=
  match s.store with
  | some st =>
    if acked < st.pageBytes.length ∨ (acked = st.pageBytes.length ∧ st.poll.due s.clock) then
      event s (storeStops s st acked)
    else .next s
  | none => .next s

/-! ## Autoload (R184) -/

/-- The fields of a section's parts read from its contents. -/
def readParts : List (Fin 11) → List Byte → List (Fin 11 × List Int)
  | [], _ => []
  | p :: t, bytes => (p, readFields (partSpec p) (bytes.take (partLength p))) :: readParts t (bytes.drop (partLength p))

/-- A section read from the EEPROM: its parts, clamped; none when the section is bad. Bytes from `acked` on were not
acknowledged or not read in time (R184). -/
def loadSection (m : Mem) (acked off : Nat) (sec : Fin 5) : Option (List (Fin 11 × List Int)) :=
  let len := sectionLength sec
  let contents := m.readBytes (off + 2) len
  let parts := readParts (sectionParts sec) contents
  if off + 3 + len ≤ acked ∧ m.readLe off 2 = len ∧ sumsToZero (contents ++ [m.read (off + 2 + len)]) ∧
      parts.all (fun q => (firstBadEnum (partSpec q.1) q.2).isNone) then
    some (parts.map fun q => (q.1, clampFields (partSpec q.1) q.2))
  else none

/-- The good sections in order up to the first bad one, put in place, with the highest good section (R184). -/
def loadSections (m : Mem) (acked : Nat) :
    List (Fin 5) → Nat → Settings × Option (Fin 5) → Settings × Option (Fin 5)
  | [], _, r => r
  | sec :: t, off, r =>
    match loadSection m acked off sec with
    | some parts =>
      loadSections m acked t (off + 3 + sectionLength sec) (parts.foldl (fun st q => st.set q.1 q.2) r.1, some sec)
    | none => r

/-- The settings and the source that autoload leaves, when the EEPROM acknowledged the bytes below `acked` (R184). -/
def autoloaded (m : Mem) (acked : Nat) : Settings × Option (Fin 5) :=
  let count := (m.read 2).toNat
  if 4 ≤ acked ∧ m.readLe 0 2 = 0x5AC1 ∧ 1 ≤ count ∧ count ≤ 5 then
    loadSections m acked ((List.finRange 5).take count) 4 (defaultSettings, none)
  else (defaultSettings, none)

/-! ## The end of start-up (R189) -/

/-- Each slot whose switch is closed moves to SETTLING (R57). -/
def slotsBegin (s : State) : State :=
  (List.finRange 4).foldl (fun t k => if t.slots[k].detectClosed then startSettling t k else t) s

/-- The Payment Line takes section 1, moves to CONNECTED, asserts READY and takes both pin levels (those the last commands gave: DESIGN
CHOICE, log 55); the engine takes its timer values (R112, R130). -/
def lineBegins (s : State) : State :=
  s.modPay fun p =>
    { p with line := .connected
             readyOut := true
             fmt := settingsFormat s.settings
             values := settingsPayValues s.settings
             present := p.readyPin
             changeLatch := p.readyPin
             absentSince := if p.readyPin then none else some s.clock
             alertLevel := p.alertPin }

/-- Each station begins to send its ability word (R153). -/
def stationsBegin (s : State) : State := (List.finRange 3).foldl sendAbility s

/-- The autoload end, in which the part becomes RUNNING (R184, R189). -/
def autoloadEnd (s : State) (acked : Nat) : State :=
  let (settings, source) := autoloaded s.eeprom acked
  stationsBegin (lineBegins (slotsBegin
    { s with settings := settings, source := source, autoload := none, running := true, started := true }))

/-- AUTOLOAD_END (R184, R189). -/
def execAutoloadEnd (acked : Nat) (s : State) : Host.Outcome State Fault Refusal :=
  match s.autoload with
  | some _ => event s (autoloadEnd s acked)
  | none => .next s

/-- AUTOLOAD_TIMER_EXPIRY (R184): the bytes read when the 100 ms passed. -/
def execAutoloadTimerExpiry (acked : Nat) (s : State) : Host.Outcome State Fault Refusal :=
  match s.autoload with
  | some t => if t.due s.clock then event s (autoloadEnd s acked) else .next s
  | none => .next s

end Sys2Proof.Machine
end

