-- ==== Sys2Proof/Machine/Dispatch.lean ====
section
/-! DEFINITION. What each command does: one arm for each row of spec/opcode_table.json. -/

namespace Sys2Proof.Machine

def exec (i : Instr) (s : State) : Host.Outcome State Fault Refusal :=
  match i with
  | .clockTick => Sys2Proof.Machine.execClockTick s
  | .controlReset irqEnable => Sys2Proof.Machine.execControlReset irqEnable s
  | .controlIrqEnable enable => Sys2Proof.Machine.execControlIrqEnable enable s
  | .attentionRead => Sys2Proof.Machine.execAttentionRead s
  | .attentionMaskWrite value enables => Sys2Proof.Machine.execAttentionMaskWrite value enables s
  | .post cell => Sys2Proof.Machine.execPost cell s
  | .withdraw cell => Sys2Proof.Machine.execWithdraw cell s
  | .returnCell cell => Sys2Proof.Machine.execReturnCell cell s
  | .exchangeWrite offset value enables => Sys2Proof.Machine.execExchangeWrite offset value enables s
  | .changeMaskClear record value enables => Sys2Proof.Machine.execChangeMaskClear record value enables s
  | .orderChangeMapClear high value enables => Sys2Proof.Machine.execOrderChangeMapClear high value enables s
  | .partReset powerOn => Sys2Proof.Machine.execPartReset powerOn s
  | .autoloadEnd acked => Sys2Proof.Machine.execAutoloadEnd acked s
  | .autoloadTimerExpiry acked => Sys2Proof.Machine.execAutoloadTimerExpiry acked s
  | .stagingWrite offset words => Sys2Proof.Machine.execStagingWrite offset words s
  | .stagingRead offset count => Sys2Proof.Machine.execStagingRead offset count s
  | .portGrant => Sys2Proof.Machine.execPortGrant s
  | .pixelRunReturn => Sys2Proof.Machine.execPixelRunReturn s
  | .cardRead slot => Sys2Proof.Machine.execCardRead slot s
  | .cardRelease slot => Sys2Proof.Machine.execCardRelease slot s
  | .slotReset slot => Sys2Proof.Machine.execSlotReset slot s
  | .rasterOpen => Sys2Proof.Machine.execRasterOpen s
  | .rasterSeal => Sys2Proof.Machine.execRasterSeal s
  | .pictureFree => Sys2Proof.Machine.execPictureFree s
  | .pictureInfo => Sys2Proof.Machine.execPictureInfo s
  | .orderOpen => Sys2Proof.Machine.execOrderOpen s
  | .orderAmend => Sys2Proof.Machine.execOrderAmend s
  | .orderPay => Sys2Proof.Machine.execOrderPay s
  | .orderCancel => Sys2Proof.Machine.execOrderCancel s
  | .orderRetire => Sys2Proof.Machine.execOrderRetire s
  | .stationPower station => Sys2Proof.Machine.execStationPower station s
  | .stationRelink station => Sys2Proof.Machine.execStationRelink station s
  | .profileRead station => Sys2Proof.Machine.execProfileRead station s
  | .paymentReset => Sys2Proof.Machine.execPaymentReset s
  | .paymentLoopback => Sys2Proof.Machine.execPaymentLoopback s
  | .settingsRead => Sys2Proof.Machine.execSettingsRead s
  | .settingsWrite => Sys2Proof.Machine.execSettingsWrite s
  | .settingsStore => Sys2Proof.Machine.execSettingsStore s
  | .storePageAck => Sys2Proof.Machine.execStorePageAck s
  | .storePollTimeout acked => Sys2Proof.Machine.execStorePollTimeout acked s
  | .detectClose slot => Sys2Proof.Machine.execDetectClose slot s
  | .detectOpen slot => Sys2Proof.Machine.execDetectOpen slot s
  | .removal slot => Sys2Proof.Machine.execRemoval slot s
  | .writeProtectChange slot level => Sys2Proof.Machine.execWriteProtectChange slot level s
  | .settleTimerExpiry slot => Sys2Proof.Machine.execSettleTimerExpiry slot s
  | .offIntervalExpiry slot => Sys2Proof.Machine.execOffIntervalExpiry slot s
  | .rampTimerExpiry slot => Sys2Proof.Machine.execRampTimerExpiry slot s
  | .identifyResponse slot bytes => Sys2Proof.Machine.execIdentifyResponse slot bytes s
  | .identifyTimeout slot => Sys2Proof.Machine.execIdentifyTimeout slot s
  | .setModeResponse slot bytes => Sys2Proof.Machine.execSetModeResponse slot bytes s
  | .setModeTimeout slot => Sys2Proof.Machine.execSetModeTimeout slot s
  | .statusResponse slot bytes => Sys2Proof.Machine.execStatusResponse slot bytes s
  | .statusTimeout slot => Sys2Proof.Machine.execStatusTimeout slot s
  | .readBlocksResponse slot bytes => Sys2Proof.Machine.execReadBlocksResponse slot bytes s
  | .readBlocksTimeout slot => Sys2Proof.Machine.execReadBlocksTimeout slot s
  | .blockReceived slot data crcs => Sys2Proof.Machine.execBlockReceived slot data crcs s
  | .dataTimeout slot => Sys2Proof.Machine.execDataTimeout slot s
  | .ledBlinkToggle slot => Sys2Proof.Machine.execLedBlinkToggle slot s
  | .rxCharacter data parity stop => Sys2Proof.Machine.execRxCharacter data parity stop s
  | .breakDetected => Sys2Proof.Machine.execBreakDetected s
  | .breakHoldEnd => Sys2Proof.Machine.execBreakHoldEnd s
  | .txCharacterDone => Sys2Proof.Machine.execTxCharacterDone s
  | .terminalReadyChange level => Sys2Proof.Machine.execTerminalReadyChange level s
  | .alertChange level => Sys2Proof.Machine.execAlertChange level s
  | .loopbackEntryTake => Sys2Proof.Machine.execLoopbackEntryTake s
  | .loopbackTimeout => Sys2Proof.Machine.execLoopbackTimeout s
  | .breakEntry => Sys2Proof.Machine.execBreakEntry s
  | .frameDrop => Sys2Proof.Machine.execFrameDrop s
  | .interByteTimeout => Sys2Proof.Machine.execInterByteTimeout s
  | .accepted => Sys2Proof.Machine.execAccepted s
  | .approved => Sys2Proof.Machine.execApproved s
  | .declined => Sys2Proof.Machine.execDeclined s
  | .unknown => Sys2Proof.Machine.execUnknown s
  | .completed => Sys2Proof.Machine.execCompleted s
  | .refused => Sys2Proof.Machine.execRefused s
  | .pong => Sys2Proof.Machine.execPong s
  | .actionStart => Sys2Proof.Machine.execActionStart s
  | .authorizeNoTerminal => Sys2Proof.Machine.execAuthorizeNoTerminal s
  | .answerTimeout => Sys2Proof.Machine.execAnswerTimeout s
  | .customerLimitExpiry => Sys2Proof.Machine.execCustomerLimitExpiry s
  | .doubtQueryTimeout => Sys2Proof.Machine.execDoubtQueryTimeout s
  | .pingTimerExpiry => Sys2Proof.Machine.execPingTimerExpiry s
  | .abilityWord station word => Sys2Proof.Machine.execAbilityWord station word s
  | .linkIdleWord station word => Sys2Proof.Machine.execLinkIdleWord station word s
  | .damagedWord station word => Sys2Proof.Machine.execDamagedWord station word s
  | .messageDrop station word => Sys2Proof.Machine.execMessageDrop station word s
  | .energyLoss station => Sys2Proof.Machine.execEnergyLoss station s
  | .abilitySendTimer station => Sys2Proof.Machine.execAbilitySendTimer station s
  | .exchangeTimerExpiry station => Sys2Proof.Machine.execExchangeTimerExpiry station s
  | .restExpiry station => Sys2Proof.Machine.execRestExpiry station s
  | .wakeSent station => Sys2Proof.Machine.execWakeSent station s
  | .page station word => Sys2Proof.Machine.execPage station word s
  | .pageTimeout station => Sys2Proof.Machine.execPageTimeout station s
  | .engineStatusWord station word => Sys2Proof.Machine.execEngineStatusWord station word s
  | .lineRequest station word => Sys2Proof.Machine.execLineRequest station word s
  | .lineAck station word => Sys2Proof.Machine.execLineAck station word s
  | .lineNak station word => Sys2Proof.Machine.execLineNak station word s
  | .lineAnswerTimeout station => Sys2Proof.Machine.execLineAnswerTimeout station s
  | .panelDone station word => Sys2Proof.Machine.execPanelDone station word s
  | .copyOk station word => Sys2Proof.Machine.execCopyOk station word s
  | .copyFault station word => Sys2Proof.Machine.execCopyFault station word s
  | .lineHoldExpiry station => Sys2Proof.Machine.execLineHoldExpiry station s
  | .copyStart station => Sys2Proof.Machine.execCopyStart station s
  | .copySelection station => Sys2Proof.Machine.execCopySelection station s
  | .renderGrant => Sys2Proof.Machine.execRenderGrant s
  | .rxStartEdge => Sys2Proof.Machine.execRxStartEdge s
  | .rxFalseStart => Sys2Proof.Machine.execRxFalseStart s
  | .allSpaceFramingError => Sys2Proof.Machine.execAllSpaceFramingError s
  | .assemblyEntryTake => Sys2Proof.Machine.execAssemblyEntryTake s
  | .linkMessageWord station word => Sys2Proof.Machine.execLinkMessageWord station word s
  | .overcoatLineCompletion => Sys2Proof.Machine.execOvercoatLineCompletion s

end Sys2Proof.Machine
end

