-- ==== Sys2Proof/Safety.lean ====
section
/-! DEFINITION. What counts as sound: a command that is carried out, and the invariants that every step keeps. -/

namespace Sys2Proof.Machine

/-- The command was carried out: neither a fault nor a refusal. -/
def CarriedOut (o : Host.Outcome State Fault Refusal) : Prop := ∃ t, o = .next t

/-- The part is RUNNING, and the cell at the head of a list asks for a kind (R10). -/
def State.asks (s : State) (l : Fin 11) (k : Kind) (c : Fin 64) : Prop :=
  s.running = true ∧ s.intake[l].head? = some c ∧ s.cells[c].kind = some k

/-- The command is a part reset, or a host write of CONTROL that starts one (R4, R189). -/
def resets : Instr → Bool
  | .partReset _ | .controlReset _ => true
  | .exchangeWrite offset value enables => offset / 4 == 1 && enables.getLsbD 0 && value.getLsbD 0
  | _ => false

/-- The command is a host write of CONTROL or a part reset (R4). -/
def writesControl : Instr → Bool
  | .partReset _ | .controlReset _ | .controlIrqEnable _ => true
  | .exchangeWrite offset _ enables => offset / 4 == 1 && enables.getLsbD 0
  | _ => false

/-- The command is the end of autoload (R184). -/
def endsAutoload : Instr → Bool
  | .autoloadEnd _ | .autoloadTimerExpiry _ => true
  | _ => false

/-- The command is a step of a running store (R188). -/
def stepsStore : Instr → Bool
  | .storePageAck | .storePollTimeout _ => true
  | _ => false

/-- The list and kind of the requests that are answered in the event of their take (R33, R96, R151, R185). -/
def servedAt : Instr → Option (Fin 11 × Kind)
  | .rasterOpen => some (4, .rasterOpen)
  | .rasterSeal => some (4, .rasterSeal)
  | .pictureFree => some (4, .pictureFree)
  | .pictureInfo => some (4, .pictureInfo)
  | .orderOpen => some (5, .orderOpen)
  | .orderAmend => some (5, .orderAmend)
  | .orderCancel => some (5, .orderCancel)
  | .orderRetire => some (5, .orderRetire)
  | .profileRead n => some (stationList n, .profileRead)
  | .settingsRead => some (10, .settingsRead)
  | .settingsWrite => some (10, .settingsWrite)
  | _ => none

/-- What the owning block of such a request waits for beside its list (R33, R149). -/
def ableToServe (s : State) : Instr → Prop
  | .rasterOpen | .rasterSeal | .pictureFree | .pictureInfo => s.hostWritesWait = false
  | .profileRead n => s.stations[n].takenCell = none
  | _ => True

/-! ## Byte memories -/

/-- The DRAM, the EEPROM and the bytes of every work cell are in canonical form. -/
structure MemoriesCanonical (s : State) : Prop where
  dram : s.dram.wf = true
  eeprom : s.eeprom.wf = true
  cells : ∀ c : Fin 64, s.cells[c].mem.wf = true

/-! ## Staging (R22 to R26) -/

/-- The extents lie from page `lo` on in rising order, one after another without overlap, each of at least one page,
all below page 4,096. -/
def extentsFrom : Nat → List Extent → Prop
  | lo, [] => lo ≤ 4096
  | lo, e :: t => lo ≤ e.base ∧ 1 ≤ e.pages ∧ extentsFrom (e.base + e.pages) t

/-- The pages of all extents. -/
def pagesUsed : List Extent → Nat
  | [] => 0
  | e :: t => e.pages + pagesUsed t

/-- R23: extents in ascending order without overlap; exactly one for each picture in use and none for a FREE entry; the
free page count and the pages of all extents make 4,096. -/
structure StagingSound (s : State) : Prop where
  rising : extentsFrom 0 s.extents
  pages : s.freePages + pagesUsed s.extents = 4096
  owned : ∀ i : Fin 256, s.extents.countP (fun e => e.pic == i) = if s.pictures[i].pic.isSome then 1 else 0

/-! ## Work cells (R9) -/

/-- The cells in the intake lists, list by list. -/
def State.listed (s : State) : List (Fin 64) := s.intake.toList.flatten

/-- The cells a slot holds: its read's, and its release's or reset's. -/
def Slot.held (x : Slot) : List (Fin 64) :=
  (x.read.map ReadRec.cell).toList ++ (x.otherCell.map OtherCell.cell).toList

/-- The cells that blocks hold: the slots', the pay cells, the loopback's, the stations' and the store's. -/
def State.held (s : State) : List (Fin 64) :=
  s.slots.toList.flatMap Slot.held ++
  s.orders.toList.flatMap (fun e => (e.order.bind Order.payCell).toList) ++
  (s.pay.loop.map Loopback.cell).toList ++
  s.stations.toList.flatMap (fun x => x.takenCell.toList) ++
  (s.store.map Store.cell).toList

/-- A slot holds a read only in READING and RELEASING, a release only in RELEASING, and a reset only on its way from power
off to READY or FAULT (R51, R52, R55). -/
def Slot.holdsByState (x : Slot) : Prop :=
  (x.read.isSome → x.state = .reading ∨ x.state = .releasing) ∧
  match x.otherCell with
  | none => True
  | some (.release _) => x.state = .releasing
  | some (.reset _) => x.state = .powering ∨ x.state = .identifying ∨ x.state = .tierSettle

/-- R9: no cell stands twice, in the lists or with the blocks; a hand is FILLED exactly while its cell is in a list, and
TAKEN exactly while a block holds it. The other clauses say where a block can hold a cell. -/
structure CellsAccounted (s : State) : Prop where
  once : (s.listed ++ s.held).Nodup
  filled : ∀ c : Fin 64, s.cells[c].hand = .filled ↔ c ∈ s.listed
  taken : ∀ c : Fin 64, s.cells[c].hand = .taken ↔ c ∈ s.held
  slots : ∀ k : Fin 4, s.slots[k].holdsByState
  orders : ∀ n : Fin 48, ∀ o, s.orders[n].order = some o → o.payCell.isSome → o.state = .authorizing
  starting : s.running = !s.autoload.isSome
  resting : s.running = false → ∀ k : Fin 4, s.slots[k].state = .empty

/-! ## Reservations (R154) -/

/-- R154: the Dispatcher's entry and the station's account hold the same reservation. -/
def ReservationsAgree (s : State) : Prop := ∀ n : Fin 3, s.reservations[n] = s.stations[n].account.reservation

/-! ## Bounds -/

/-- The bounds of the FIFOs, lists, numbers and counters of the payment side and the records (R15, R99, R103, R117, R123,
R144). -/
structure WithinBounds (s : State) : Prop where
  txFifo : s.pay.txFifo.length ≤ 16
  rxFifo : s.pay.rxFifo.length ≤ 16
  number : 1 ≤ s.pay.nextNumber ∧ s.pay.nextNumber ≤ 255
  doubts : s.pay.doubts.length + (match s.pay.current with
    | some t => if t.origin = .queue then 1 else 0
    | none => 0) ≤ 4
  sequence : ∀ n : Fin 3, 1 ≤ s.stations[n].nextSeq ∧ s.stations[n].nextSeq ≤ 65535
  counts : ∀ r : Fin 9, s.marks[r].count ≤ 255

/-! ## Slot power (R43, R45, R53) -/

/-- In EMPTY, SETTLING, REMOVE_READY and FAULT the slot is off, and its working tier and width are T0 and 1-bit. The other
clauses are what this rests on: a slot reads only in READING and RELEASING, and while the part is STARTING every slot is
EMPTY (R57). -/
structure PowerFollowsState (s : State) : Prop where
  off : ∀ k : Fin 4, let x := s.slots[k]
    (x.state = .empty ∨ x.state = .settling ∨ x.state = .removeReady ∨ x.state = .fault) →
      x.power = false ∧ x.workTier = .t0 ∧ x.workWide = false
  reads : ∀ k : Fin 4, s.slots[k].read.isSome → s.slots[k].state = .reading ∨ s.slots[k].state = .releasing
  starting : s.autoload.isSome → s.running = false
  resting : s.running = false → ∀ k : Fin 4, s.slots[k].state = .empty

/-! ## Settings (R183, R186) -/

/-- A part of the settings that clamping leaves as it is, with every enumerated field at a listed value. -/
structure PartInRange (p : Fin 11) (vals : List Int) : Prop where
  length : vals.length = (partSpec p).length
  listed : firstBadEnum (partSpec p) vals = none
  clamped : clampFields (partSpec p) vals = vals

/-- Every part in force, and every part of the snapshot of a running store, is in range. -/
structure SettingsInRange (s : State) : Prop where
  inForce : ∀ p : Fin 11, PartInRange p s.settings[p]
  stored : ∀ st, s.store = some st → ∀ p : Fin 11, PartInRange p st.image[p]

/-! ## Commands and messages named in the statements -/

/-- The command of a message of the terminal (R115). -/
def commandOf : TermMsg → Instr
  | .accepted => .accepted
  | .approved _ _ => .approved
  | .declined _ => .declined
  | .unknown => .unknown
  | .completed => .completed
  | .refused _ => .refused
  | .pong => .pong

/-- The bytes the transmitter still holds, in the order of their sending (R99). -/
def Pay.toSend (p : Pay) : List Byte := (p.txChar.toList ++ p.txFifo ++ p.outBytes).map (·.byte)

end Sys2Proof.Machine
end

