-- ==== Sys2Proof/Certificates/Slice0/Obligations.lean ====
section
/-! DEFINITION. The statements for the provers. Each says which rules of spec/ it rests on; `finish`, `notified`, `payIdle`
and the other shared operations named in them are stated on their own by the statements about them. -/

open Sys2Proof Sys2Proof.Machine

/-! ## The queue, time and the whole machine -/

/-- A step carries out the command at the front of the queue with the rest of the queue waiting. On an empty queue it
leaves the state as it is: the model's choice, log 2. -/
def Obligations.StepTakesTheFrontCommand : Prop :=
  ∀ (s : State) (c : Instr) (rest : List Instr),
    step { s with pending := c :: rest } = exec c { s with pending := rest } ∧
    step { s with pending := [] } = .next { s with pending := [] }

/-- R191 whole: what the six registers read, as 4-byte little-endian words: PART_ID with its three codes, CONTROL with RESET 0
and IRQ_ENABLE, the twelve bits of ATTENTION and of ATTENTION_MASK, STRAY_ADDRESS with the offset in bits 0 to 27 and the
window in bits 30 and 31, and CLOCK. R3: a tick is one more whole millisecond; from its largest value CLOCK goes back to 0;
nothing else changes. -/
def Obligations.ClockTicksAndRegistersReadTheirLayout : Prop :=
  ∀ s : State,
    (exec .clockTick s = .next { s with clock := s.clock + 1 } ∧
      (s.clock = 0xFFFFFFFF#32 → exec .clockTick s = .next { s with clock := 0 })) ∧
    let reads (o : Nat) : Nat := ((List.range 4).map fun i => (exchangeByte s (o + i)).toNat * 256 ^ i).sum
    reads 0 = 0x024606D3 ∧ reads 0 % 4096 = 0x6D3 ∧ reads 0 / 4096 % 4096 = 0x460 ∧ reads 0 / 16777216 = 2 ∧
    reads 4 = (if s.irqEnable then 2 else 0) ∧ reads 8 = s.attention.toNat ∧ reads 12 = s.attentionMask.toNat ∧
    (s.strayOffset < 268435456 → reads 16 % 268435456 = s.strayOffset ∧ reads 16 / 268435456 % 4 = 0 ∧
      reads 16 / 1073741824 = (match s.strayWindow with
        | .none => 0
        | .exchange => 1
        | .staging => 2)) ∧
    reads 20 = s.clock.toNat

/-- Which commands can change what the whole machine shares: the queue never; CLOCK only a tick and a part reset (R3);
IRQ_ENABLE only a write of CONTROL and a part reset (R4); the settings in force only SETTINGS_WRITE, the end of autoload
and a part reset (R182); the EEPROM only the steps of a store, and a part reset while a store runs (R188; log 44); the
settings source only the end of autoload and a part reset (R184); the endpoint's configuration never (R21). -/
def Obligations.WhichCommandsChangeSharedState : Prop :=
  ∀ (c : Instr) (s t : State), exec c s = .next t →
    t.pending = s.pending ∧ t.msiAllowed = s.msiAllowed ∧
    (c ≠ .clockTick → resets c = false → t.clock = s.clock) ∧
    (writesControl c = false → t.irqEnable = s.irqEnable) ∧
    (c ≠ .settingsWrite → endsAutoload c = false → resets c = false → t.settings = s.settings) ∧
    (stepsStore c = false → (resets c = false ∨ s.store = none) → t.eeprom = s.eeprom) ∧
    (endsAutoload c = false → resets c = false → t.source = s.source)

/-- R1, R22, R184: the bytes of the DRAM, of the EEPROM and of every work cell stay in the one canonical form: addresses
strictly rising, no byte listed that an unlisted address would read as. That an unlisted byte reads 0 is the model's
choice, logs 7 and 8; the form is the model's own. -/
def Obligations.EveryStepKeepsTheMemoriesCanonical : Prop :=
  ∀ s t : State, MemoriesCanonical s → step s = .next t → MemoriesCanonical t

/-- R23, R24, R25, R26: the extents stay in ascending order without overlap below page 4,096, the free page count and their
pages make 4,096, and every picture in use has exactly one extent and every FREE entry none. -/
def Obligations.EveryStepKeepsTheStagingSound : Prop :=
  ∀ s t : State, StagingSound s → step s = .next t → StagingSound t

/-- R9, R10, R12: every cell whose hand is FILLED stands in exactly one intake list, every cell whose hand is TAKEN is held
by exactly one block, and no cell stands anywhere twice. -/
def Obligations.EveryStepKeepsTheCellsAccounted : Prop :=
  ∀ s t : State, CellsAccounted s → step s = .next t → CellsAccounted t

/-- R99, R103, R117, R123, R144, R15: the FIFOs hold at most 16, numbers and counters stay in range, at most four actions are
in doubt; R154: the Dispatcher and the stations hold the same reservations; R43, R45, R53: a slot without power is at T0
and 1-bit; R183, R186: the settings in force and those being stored are in range. Each is kept by every step. -/
def Obligations.EveryStepKeepsBoundsAndReservations : Prop :=
  ∀ s t : State, step s = .next t →
    (WithinBounds s → WithinBounds t) ∧ (ReservationsAgree s → ReservationsAgree t) ∧
    (PowerFollowsState s → PowerFollowsState t) ∧ (SettingsInRange s → SettingsInRange t)

/-- R21, R41, R57, R112, R132, R153, R182, R183: the state after reset meets every invariant that the steps keep. -/
def Obligations.ResetIsSound : Prop :=
  MemoriesCanonical State.reset ∧ StagingSound State.reset ∧ CellsAccounted State.reset ∧ WithinBounds State.reset ∧
  ReservationsAgree State.reset ∧ PowerFollowsState State.reset ∧ SettingsInRange State.reset

/-! ## Registers, ATTENTION and the interrupt -/

/-- R4 whole, with R20's MSI: a write of CONTROL with RESET clear sets IRQ_ENABLE to the value written, which can itself
send an MSI; a write with RESET set is carried out as that register write and followed by the part reset; a PCIe function
reset is the same part reset; IRQ_ENABLE is 0 after a reset whatever was written; RESET always reads 0. -/
def Obligations.ControlWritesSetIrqEnable : Prop :=
  ∀ (s : State) (e : Bool),
    let msi := if e && !s.irqEnable && (s.attention &&& s.attentionMask) != 0 && s.msiAllowed then [Output.msi] else []
    exec (.controlIrqEnable e) s = .next { s with irqEnable := e, sent := s.sent ++ msi } ∧
    exec (.controlReset e) s = .next { partReset s false with sent := s.sent ++ msi } ∧
    exec (.partReset false) s = .next (partReset s false) ∧ (partReset s false).irqEnable = false ∧
    (partReset s false).running = false ∧ (partReset s false).autoload = some ⟨0, 100⟩ ∧
    (exchangeByte s 4).getLsbD 0 = false ∧ (exchangeByte s 4).getLsbD 1 = s.irqEnable

/-- R19, R20, R1: the twelve bits of ATTENTION: bits 0 to 8 follow the change masks, bit 8 the order change map too, bit 9
the ANSWERED hands, bits 10 and 11 the latches; a write to ATTENTION is stray. A read returns the twelve bits, clears bits
10 and 11 in the same event, and is followed by a new MSI if the interrupt condition still holds. A write of
ATTENTION_MASK changes the enabled bytes of its twelve bits, and sends an MSI when the condition begins to hold by it. -/
def Obligations.AttentionFollowsItsConditions : Prop :=
  (∀ s : State,
    (∀ r : Fin 9, s.attention.getLsbD r.val =
      (decide (∃ g : Fin 8, s.marks[r].mask[g] = true) || decide (r = 8 ∧ ∃ n : Fin 48, s.orderMap[n] = true))) ∧
    s.attention.getLsbD 9 = decide (∃ c : Fin 64, s.cells[c].hand = .answered) ∧
    s.attention.getLsbD 10 = s.stray ∧ s.attention.getLsbD 11 = s.started ∧
    ∀ (v : Word) (en : BitVec 4), exec (.exchangeWrite 8 v en) s = .next (notified s.interrupt
      { s with stray := true, strayWindow := .exchange, strayOffset := 8 })) ∧
  (∀ s : State,
    let t : State := { s with stray := false, started := false }
    exec .attentionRead s = .next { t with
      sent := s.sent ++ [.attention s.attention] ++ if t.interrupt && s.msiAllowed then [.msi] else [] }) ∧
  (∀ (s : State) (v : Word) (en : BitVec 4), ∃ m : BitVec 12,
    exec (.attentionMaskWrite v en) s = .next (notified s.interrupt { s with attentionMask := m }) ∧
    ∀ i, i < 12 → m.getLsbD i = if en.getLsbD (i / 8) then v.getLsbD i else s.attentionMask.getLsbD i)

/-- R15, R18, R20: the end of every event. Each changed order board record has its revision and its map bit raised, and
each changed group of a record its mask bit; the count rises by the groups changed, at most to 255. Of SR8, group 0 is
marked when the part state changes, groups 1 and 2 when the settings source and the free page count change while RUNNING
and not before (R189), group 3 when the map stops being empty (R17). One MSI goes out when the interrupt condition begins
to hold; nothing else changes. An MSI is sent exactly when the condition holds now, did not hold before, and the endpoint
allows it (the model's choice, log 10). That a group counts as changed when its shown fields differ across the whole
event, and marks nothing otherwise, is the model's choice, log 13. -/
def Obligations.EventEndMarksEveryChange : Prop :=
  (∀ s t : State, let u := finish s t
    (∀ n : Fin 48, u.revisions[n] = (if orderChanged s t n then t.revisions[n] + 1 else t.revisions[n]) ∧
      u.orderMap[n] = (t.orderMap[n] || orderChanged s t n)) ∧
    (∀ (r : Fin 9) (g : Fin 8), r ≠ 8 → u.marks[r].mask[g] =
      (t.marks[r].mask[g] || decide ((recordGroups s r)[g.val]? ≠ (recordGroups t r)[g.val]?))) ∧
    (u.marks[(8 : Fin 9)].mask[(0 : Fin 8)] = (t.marks[(8 : Fin 9)].mask[(0 : Fin 8)] || (s.running != t.running))) ∧
    (u.marks[(8 : Fin 9)].mask[(3 : Fin 8)] =
      (t.marks[(8 : Fin 9)].mask[(3 : Fin 8)] || (t.running && !s.mapAny && u.mapAny))) ∧
    (s.running = false → u.marks[(8 : Fin 9)].mask[(1 : Fin 8)] = t.marks[(8 : Fin 9)].mask[(1 : Fin 8)] ∧
      u.marks[(8 : Fin 9)].mask[(2 : Fin 8)] = t.marks[(8 : Fin 9)].mask[(2 : Fin 8)]) ∧
    (s.running = true → t.running = true →
      (u.marks[(8 : Fin 9)].mask[(1 : Fin 8)] = (t.marks[(8 : Fin 9)].mask[(1 : Fin 8)] || decide (s.source ≠ t.source))) ∧
      (u.marks[(8 : Fin 9)].mask[(2 : Fin 8)] =
        (t.marks[(8 : Fin 9)].mask[(2 : Fin 8)] || decide (s.freePages ≠ t.freePages)))) ∧
    (u.marks[(8 : Fin 9)].count = min 255 (t.marks[(8 : Fin 9)].count +
      ((List.range 8).filter fun g => groupChanged s u 8 g).length)) ∧
    (∀ r : Fin 9, r ≠ 8 → u.marks[r].count = min 255 (t.marks[r].count +
      ((List.range 8).filter fun g => decide ((recordGroups s r)[g]? ≠ (recordGroups t r)[g]?)).length)) ∧
    u = notified s.interrupt { t with marks := u.marks, revisions := u.revisions, orderMap := u.orderMap }) ∧
  (∀ (before : Bool) (t : State), notified before t =
    { t with sent := t.sent ++ if t.interrupt && !before && t.msiAllowed then [.msi] else [] })

/-! ## Work cells and status records -/

/-- R5, R7: a post on a FREE cell whose kind is listed and whose unit is in range appends the cell to the tail of the list
its kind names and leaves the hand FILLED; nothing else changes. A post whose kind is not listed, or whose unit is out of
range, is answered BAD_KIND at once, with detail 0 and answer length 0, in both part states. -/
def Obligations.PostJoinsItsListOrIsABadKind : Prop :=
  (∀ (s : State) (c : Fin 64) (k : Kind) (l : Fin 11),
    s.cells[c].hand = .free → s.cells[c].kind = some k → intakeOf k s.cells[c].unit = some l →
      exec (.post c) s = .next { s with
        intake := s.intake.set l (s.intake[l] ++ [c])
        cells := s.cells.set c { s.cells[c] with hand := .filled } }) ∧
  (∀ (s : State) (c : Fin 64),
    s.cells[c].hand = .free → (s.cells[c].kind.bind fun k => intakeOf k s.cells[c].unit) = none →
    s.cells[c].mem.wf = true → (∀ l : Fin 11, c ∉ s.intake[l]) →
      ∃ x : WorkCell, exec (.post c) s = .next (notified s.interrupt { s with cells := s.cells.set c x }) ∧
        x.hand = .answered ∧ x.withdrawNoted = false ∧ cellByte x 12 = BitVec.ofNat 8 Status.badKind.code ∧
        (∀ o, 13 ≤ o → o < 20 → cellByte x o = 0) ∧
        (∀ o, 4 ≤ o → (o < 12 ∨ 20 ≤ o) → cellByte x o = cellByte s.cells[c] o))

/-- R5, R11, R13: FREE written to the hand: a FILLED cell leaves its list and becomes FREE, an ANSWERED cell becomes FREE,
and each keeps its other bytes; a TAKEN cell stays TAKEN, the write is stray and the withdraw is noted. R2, R5: FILLED
written to the hand of a cell that is not FREE, FREE written to the hand of a FREE cell, any other value, and a write that
does not enable all four bytes are stray and leave the hand as it was; the values 1 and 0 with all bytes enabled are the
post and the withdraw or return. -/
def Obligations.FreeWrittenToAHand : Prop :=
  (∀ (s : State) (c : Fin 64),
    (s.cells[c].hand = .filled → exec (.withdraw c) s = .next { s with
      intake := tab fun l => s.intake[l].filter (· != c)
      cells := s.cells.set c { s.cells[c] with hand := .free } }) ∧
    (s.cells[c].hand = .answered → exec (.returnCell c) s =
      .next (notified s.interrupt { s with cells := s.cells.set c { s.cells[c] with hand := .free } })) ∧
    (s.cells[c].hand = .taken → exec (.withdraw c) s = .next (notified s.interrupt { s with
      stray := true, strayWindow := .exchange, strayOffset := 0x4000 + c.val * 1024
      cells := s.cells.set c { s.cells[c] with withdrawNoted := true } }))) ∧
  (∀ (s : State) (c : Fin 64),
    let stray : State := { s with stray := true, strayWindow := .exchange, strayOffset := 0x4000 + c.val * 1024 }
    (s.cells[c].hand ≠ .free → exec (.post c) s = .next (notified s.interrupt stray)) ∧
    (s.cells[c].hand = .free → exec (.withdraw c) s = .next (notified s.interrupt stray) ∧
      exec (.returnCell c) s = .next (notified s.interrupt stray)) ∧
    (∀ (v : Word) (en : BitVec 4), en ≠ 0xF#4 ∨ (v ≠ 0 ∧ v ≠ 1) →
      exec (.exchangeWrite (0x4000 + c.val * 1024) v en) s = .next (notified s.interrupt stray)) ∧
    exec (.exchangeWrite (0x4000 + c.val * 1024) 1 0xF) s = exec (.post c) s ∧
    exec (.exchangeWrite (0x4000 + c.val * 1024) 0 0xF) s = exec (.withdraw c) s)

/-- R10, R12: a take removes the cell from its list, sets answer status, WITHDRAW_LATE, answer length and answer detail to
0 and the hand to TAKEN; the request stands as it was posted. An answer writes the body, the length, the status and the
detail, sets WITHDRAW_LATE when a withdraw was noted since the take, and moves the hand to ANSWERED; body bytes beyond the
length, the header's other bytes and the request stay. Neither changes another cell or another field. -/
def Obligations.TakeAndAnswerWriteTheAnswerFields : Prop :=
  (∀ (s : State) (c : Fin 64), s.cells[c].mem.wf = true →
    let t := s.take c
    t = { s with intake := t.intake, cells := t.cells } ∧
    (∀ l : Fin 11, t.intake[l] = s.intake[l].filter (· != c)) ∧
    (∀ d : Fin 64, d ≠ c → t.cells[d] = s.cells[d]) ∧
    t.cells[c].hand = .taken ∧ t.cells[c].withdrawNoted = false ∧
    (∀ o, 12 ≤ o → o < 20 → cellByte t.cells[c] o = 0) ∧
    (∀ o, 4 ≤ o → (o < 12 ∨ 20 ≤ o) → cellByte t.cells[c] o = cellByte s.cells[c] o)) ∧
  (∀ (s : State) (c : Fin 64) (a : Answer), s.cells[c].mem.wf = true →
    let t := s.answer c a
    t = { s with cells := t.cells } ∧ (∀ d : Fin 64, d ≠ c → t.cells[d] = s.cells[d]) ∧
    t.cells[c].hand = .answered ∧ t.cells[c].withdrawNoted = false ∧
    cellByte t.cells[c] 12 = BitVec.ofNat 8 a.status.code ∧
    cellByte t.cells[c] 13 = BitVec.ofNat 8 (flag s.cells[c].withdrawNoted) ∧
    (∀ i, i < 2 → cellByte t.cells[c] (14 + i) = BitVec.ofNat 8 (a.body.length / 256 ^ i)) ∧
    (∀ i, i < 4 → cellByte t.cells[c] (16 + i) = BitVec.ofNat 8 (a.detail / 256 ^ i)) ∧
    (∀ i, i < a.body.length → cellByte t.cells[c] (512 + i) = a.body.getD i 0) ∧
    (∀ o, 4 ≤ o → (o < 12 ∨ (20 ≤ o ∧ o < 512) ∨ 512 + a.body.length ≤ o) →
      cellByte t.cells[c] o = cellByte s.cells[c] o))

/-- R9, R10, R12: each request that its block answers at the take: with the block able to take it and the cell at the
head of the list, the command completes, the cell leaves the list and is ANSWERED, and every other cell stays as it
was, in its list and in its hand. R151, R192: the answer of PROFILE_READ: BAD_FIELD for a region above 3, WRONG_STATE with
the station state while no profile has been loaded, else DONE with the region's source as detail and, of the profile in
use, the identifier, the four sources, the scalars and the matrix, or the 256 entries of a tone table. -/
def Obligations.ServedRequestsAreTakenAndAnswered : Prop :=
  (∀ (i : Instr) (l : Fin 11) (k : Kind) (s : State) (c : Fin 64),
    servedAt i = some (l, k) → ableToServe s i → s.asks l k c →
      ∃ t, exec i s = .next t ∧ t.cells[c].hand = .answered ∧
        (∀ m : Fin 11, t.intake[m] = s.intake[m].filter (· != c)) ∧ ∀ d : Fin 64, d ≠ c → t.cells[d] = s.cells[d]) ∧
  ∀ (s : State) (n : Fin 3) (c : Fin 64), s.stations[n].takenCell = none → s.asks (stationList n) .profileRead c →
    let u := s.take c
    let region := u.cells[c].req 0 1
    let go (a : Answer) : Prop := exec (.profileRead n) s = .next (finish s (u.answer c a))
    (3 < region → go ⟨.badField, 0xFFFF00, []⟩) ∧
    (region ≤ 3 → s.stations[n].profile = none → go ⟨.wrongState, s.stations[n].state.code, []⟩) ∧
    ∀ p, region ≤ 3 → s.stations[n].profile = some p →
      let sources : List Nat := p.fromEngine.map fun engine => if engine then 0 else 1
      go ⟨.done, sources.getD region 0,
        if region = 0 then le 4 p.ident ++ sources.map (BitVec.ofNat 8) ++ partBytes 4 p.scalars
        else (if region = 1 then p.toneY else if region = 2 then p.toneM else p.toneC).flatMap (leInt 2)⟩

/-- R1, R6: a word written to a cell's header or request body lands in its enabled bytes while the hand is FREE or
FILLED; while it is TAKEN or ANSWERED, and in the answer body always, the write is stray; so are writes to the registers
other than CONTROL and ATTENTION_MASK, to every word of the status records but the change masks and the order change map,
to the order board, and to unused offsets. That the header bytes no layout names are plain storage is the model's choice,
log 16; the fault for an offset outside the window is the model's choice, log 1. -/
def Obligations.ExchangeWritesLandByTheHand : Prop :=
  ∀ (s : State) (v : Word) (en : BitVec 4),
    (∀ (c : Fin 64) (o : Nat), o % 4 = 0 → 4 ≤ o → o < 512 → s.cells[c].mem.wf = true →
      s.cells[c].hand = .free ∨ s.cells[c].hand = .filled →
      ∃ m : Mem, exec (.exchangeWrite (0x4000 + c.val * 1024 + o) v en) s =
          .next { s with cells := s.cells.set c { s.cells[c] with mem := m } } ∧
        ∀ a, m.read a = if o ≤ a ∧ a < o + 4 ∧ en.getLsbD (a - o) then (v >>> (8 * (a - o))).setWidth 8
                        else s.cells[c].mem.read a) ∧
    (∀ (c : Fin 64) (o : Nat), o % 4 = 0 → 4 ≤ o → o < 1024 →
      (512 ≤ o ∨ s.cells[c].hand = .taken ∨ s.cells[c].hand = .answered) →
      exec (.exchangeWrite (0x4000 + c.val * 1024 + o) v en) s = .next (notified s.interrupt
        { s with stray := true, strayWindow := .exchange, strayOffset := 0x4000 + c.val * 1024 + o })) ∧
    (∀ a, a % 4 = 0 →
      (a < 0x100 ∧ a ≠ 4 ∧ a ≠ 12) ∨ (0x100 ≤ a ∧ a < 0xA00 ∧ a % 256 ≠ 0 ∧ a ≠ 0x910 ∧ a ≠ 0x914) ∨
        (0xA00 ≤ a ∧ a < 0x4000) ∨ (0x14000 ≤ a ∧ a < 131072) →
      exec (.exchangeWrite a v en) s = .next (notified s.interrupt
        { s with stray := true, strayWindow := .exchange, strayOffset := a })) ∧
    (∀ a, 131072 ≤ a → exec (.exchangeWrite a v en) s = .fault .outsideExchangeWindow)

/-- R16: a write to a change mask clears each enabled bit written as 1 and keeps the others, the count and every field;
in SR7 the input latches go with bit 1 and the sticky errors with bit 2, each clear counted once when it cleared
something. A write that does not enable the mask's byte changes nothing. R18: a write to
the order change map clears each enabled bit written as 1 and leaves each bit written as 0; orders 0 to 31 stand in the low
word and 32 to 47 in the high one. -/
def Obligations.MaskAndMapWritesClear : Prop :=
  (∀ (s : State) (v : Word) (en : BitVec 4),
    (∀ r : Fin 9, en.getLsbD 0 = false → exec (.changeMaskClear r v en) s = .next (notified s.interrupt s)) ∧
    (en.getLsbD 0 = true →
    (∀ r : Fin 9, r ≠ 7 → ∃ m : Vector Bool 8, (∀ g : Fin 8, m[g] = (s.marks[r].mask[g] && !v.getLsbD g.val)) ∧
      exec (.changeMaskClear r v en) s =
        .next (notified s.interrupt { s with marks := s.marks.set r ⟨m, s.marks[r].count⟩ })) ∧
    (let latches := v.getLsbD 1 && (s.pay.changeLatch || s.pay.alertLatch)
     let errors := v.getLsbD 2 && (s.pay.overrun || s.pay.parityErr || s.pay.framingErr || s.pay.breakErr)
     ∃ m : Vector Bool 8, (∀ g : Fin 8, m[g] = (s.marks[(7 : Fin 9)].mask[g] && !v.getLsbD g.val)) ∧
      (s.marks[(7 : Fin 9)].count ≤ 255 → exec (.changeMaskClear 7 v en) s = .next (notified s.interrupt { s with
        marks := s.marks.set 7 ⟨m, min 255 (s.marks[(7 : Fin 9)].count + flag latches + flag errors)⟩
        pay := { s.pay with changeLatch := s.pay.changeLatch && !v.getLsbD 1, alertLatch := s.pay.alertLatch && !v.getLsbD 1,
                            overrun := s.pay.overrun && !v.getLsbD 2, parityErr := s.pay.parityErr && !v.getLsbD 2,
                            framingErr := s.pay.framingErr && !v.getLsbD 2, breakErr := s.pay.breakErr && !v.getLsbD 2 } }))))) ∧
  (∀ (s : State) (high : Bool) (v : Word) (en : BitVec 4), ∃ m : Vector Bool 48,
    exec (.orderChangeMapClear high v en) s = .next (notified s.interrupt { s with orderMap := m }) ∧
    ∀ n : Fin 48, m[n] = (s.orderMap[n] &&
      !(if high then decide (32 ≤ n.val) && v.getLsbD (n.val - 32) && en.getLsbD ((n.val - 32) / 8)
        else decide (n.val < 32) && v.getLsbD n.val && en.getLsbD (n.val / 8))))

/-! ## Part reset and start-up -/

/-- R21, R41, R57, R76, R97, R112, R132, R153, R166, R181, R184, R188: what a part reset leaves. That a port
grant in progress is dropped is the model's choice, log 45; how many bytes of the page in progress a running store leaves
in the EEPROM is free, log 44. -/
def Obligations.PartResetClearsThePart : Prop :=
  ∀ (s : State) (powerOn : Bool), ∃ t, exec (.partReset powerOn) s = .next t ∧
    t.clock = 0 ∧ t.running = false ∧ t.irqEnable = false ∧ t.attentionMask = 0 ∧ t.attention = 0 ∧
    t.strayWindow = .none ∧ t.strayOffset = 0 ∧
    (∀ c : Fin 64, t.cells[c].hand = .free ∧ t.cells[c].withdrawNoted = false ∧ ∀ o, cellByte t.cells[c] o = 0) ∧
    (∀ l : Fin 11, t.intake[l] = []) ∧ (∀ (r : Fin 9) (o : Nat), recordByte t r o = 0) ∧
    (∀ (n : Fin 48) (o : Nat), t.orders[n] = ⟨0, none⟩ ∧ orderByte t n o = 0) ∧
    (∀ i : Fin 256, t.pictures[i] = ⟨0, none⟩) ∧ t.extents = [] ∧ t.freePages = 4096 ∧ t.port = ⟨none, 0, 0, []⟩ ∧
    (∀ k : Fin 4, t.slots[k].state = .empty ∧ t.slots[k].power = false ∧ t.slots[k].record = none ∧
      t.slots[k].read = none ∧ t.slots[k].otherCell = none ∧ t.slots[k].workTier = .t0 ∧ t.slots[k].workWide = false ∧
      t.slots[k].threshold = 0 ∧ t.slots[k].retries = 0 ∧ t.slots[k].winTransfers = 0 ∧ t.slots[k].winErrors = 0 ∧
      t.slots[k].removalCount = 0) ∧
    (∀ c : Fin 2, t.channels[c].owner = none ∧ t.channels[c].buffer = none) ∧ t.chanWait = [] ∧
    t.pay.line = .off ∧ t.pay.fmt = ⟨192, 8, .none, 1⟩ ∧ t.pay.txFifo = [] ∧ t.pay.rxFifo = [] ∧ t.pay.rx = .idle ∧
    t.pay.readyOut = false ∧ t.pay.queue = [] ∧ t.pay.current = none ∧ t.pay.doubts = [] ∧ t.pay.nextNumber = 1 ∧ t.pay.preQuery = false ∧
    (∀ n : Fin 3, t.stations[n].state = .absent ∧ t.stations[n].rate = .none ∧ t.stations[n].profile = none ∧
      t.stations[n].copy = none ∧ t.stations[n].nextSeq = 1 ∧ t.reservations[n] = none ∧
      t.heads[n].history = List.replicate 1824 0 ∧ t.heads[n].cursor = none ∧ t.heads[n].held = none ∧
      t.heads[n].banks[(0 : Fin 2)].state = .empty ∧ t.heads[n].banks[(1 : Fin 2)].state = .empty) ∧
    t.job = none ∧ t.settings = defaultSettings ∧ t.store = none ∧ t.autoload = some ⟨0, 100⟩ ∧
    (s.store = none → t.eeprom = s.eeprom) ∧
    (∀ st, s.store = some st →
      ∃ n, n ≤ st.pageBytes.length ∧ t.eeprom = s.eeprom.writeBytes st.page (st.pageBytes.take n)) ∧
    (powerOn = false → t.dram = s.dram ∧ t.source = s.source)

/-- R184, R189, R57, R112, R153: the end of autoload, by its own end or by its timer, makes the part RUNNING with STARTED
set: the settings and the source are those autoload leaves, a slot whose switch is closed goes from EMPTY to SETTLING for
50 ms, the line is CONNECTED with section 1's format, asserts READY and takes both pins, and each station begins to send its ability
word. The model's choices: the first of these words goes out in this event (log 41), and a pin's level is the last that a
command gave (log 55). -/
def Obligations.StartUpEndsWithAutoload : Prop :=
  ∀ (s : State) (acked : Nat) (tm : Timer), s.autoload = some tm → s.running = false →
    (∀ k : Fin 4, s.slots[k].state = .empty ∧ s.slots[k].timer = none) →
      ∃ t, exec (.autoloadEnd acked) s = .next t ∧
        (tm.due s.clock = true → exec (.autoloadTimerExpiry acked) s = .next t) ∧
        t.running = true ∧ t.started = true ∧ t.autoload = none ∧
        t.settings = (autoloaded s.eeprom acked).1 ∧ t.source = (autoloaded s.eeprom acked).2 ∧
        (∀ k : Fin 4, if s.slots[k].detectClosed then
            t.slots[k].state = .settling ∧ t.slots[k].timer = some ⟨.settle, ⟨s.clock, 50⟩⟩
          else t.slots[k] = s.slots[k]) ∧
        t.pay.line = .connected ∧ t.pay.readyOut = true ∧ t.pay.fmt = settingsFormat t.settings ∧ t.pay.present = s.pay.readyPin ∧
        t.pay.changeLatch = s.pay.readyPin ∧ t.pay.alertLevel = s.pay.alertPin ∧
        t.pay.absentSince = (if s.pay.readyPin then none else some s.clock) ∧
        (∀ n : Fin 3, t.stations[n] = { s.stations[n] with sendTimer := some ⟨s.clock, 1⟩ } ∧
          Output.link n [partAbilityWord s.stations[n].ack] ∈ t.sent) ∧
        t.marks[(8 : Fin 9)].mask[(0 : Fin 8)] = true

/-! ## Staging -/

/-- R24: in a sound Extent Table the page chosen is the lowest at which n pages fit between the extents and below page
4,096, and none is chosen only where nothing fits. R26, R29: RASTER_OPEN with width and height in range and room for the
pages: the FREE entry of lowest index takes the next generation and a HOST_FILL raster with its stride, its extent goes to
the first fit, and the answer is DONE with handle, base page, page count and stride. With a width or a height out of range
nothing is allocated, and the answer is BAD_FIELD with the index of the first of them; above 1,024 pages it is OVER_LIMIT;
with no FREE entry, or no gap of that many pages, it is NO_ROOM. -/
def Obligations.RasterOpenAllocatesTheFirstFit : Prop :=
  (∀ (n : Nat) (es : List Extent), 1 ≤ n → extentsFrom 0 es →
    let fits (b : Nat) : Prop := b + n ≤ 4096 ∧ ∀ e ∈ es, b + n ≤ e.base ∨ e.base + e.pages ≤ b
    (∀ b, firstFit n 0 es = some b → fits b ∧ ∀ a, a < b → ¬ fits a) ∧
    (firstFit n 0 es = none → ∀ a, ¬ fits a)) ∧
  (∀ (s : State) (c : Fin 64), s.asks 4 .rasterOpen c → s.hostWritesWait = false →
    let u := s.take c
    let w := u.cells[c].req 0 2
    let h := u.cells[c].req 2 2
    let stride := (3 * w + 63) / 64 * 64
    let pages := (stride * h + 65535) / 65536
    (w < 16 ∨ 8192 < w → exec .rasterOpen s = .next (finish s (u.answer c ⟨.badField, 0xFFFF00, []⟩))) ∧
    (16 ≤ w → w ≤ 8192 → (h < 16 ∨ 8192 < h) →
      exec .rasterOpen s = .next (finish s (u.answer c ⟨.badField, 0xFFFF01, []⟩))) ∧
    (16 ≤ w → w ≤ 8192 → 16 ≤ h → h ≤ 8192 → 1024 < pages →
      exec .rasterOpen s = .next (finish s (u.answer c ⟨.overLimit, 0xFFFF01, []⟩))) ∧
    (16 ≤ w → w ≤ 8192 → 16 ≤ h → h ≤ 8192 → pages ≤ 1024 →
      (∀ i : Fin 256, s.pictures[i].pic.isSome) ∨ firstFit pages 0 s.extents = none →
      exec .rasterOpen s = .next (finish s (u.answer c ⟨.noRoom, 0, []⟩))) ∧
    ∀ (i : Fin 256) (b : Nat), 16 ≤ w → w ≤ 8192 → 16 ≤ h → h ≤ 8192 → pages ≤ 1024 →
      s.pictures[i].pic = none → (∀ j : Fin 256, j < i → s.pictures[j].pic.isSome) →
      firstFit pages 0 s.extents = some b →
        let gen := s.pictures[i].gen + 1
        exec .rasterOpen s = .next (finish s (({ u with
          extents := insertExtent ⟨b, pages, i⟩ s.extents
          freePages := s.freePages - pages
          pictures := s.pictures.set i
            ⟨gen, some ⟨.raster, .hostFill, 0, 0, 0, 0, 0, w, h, stride, 0⟩⟩ } : State).answer
          c ⟨.done, 0, [BitVec.ofNat 8 i.val, gen] ++ le 2 b ++ le 2 pages ++ [0, 0] ++ le 4 stride⟩)))

/-- R26, R30, R31, R32: the requests that name a picture: NOT_FOUND when the handle is not current; RASTER_SEAL takes
HOST_FILL to SEALED and refuses every other state; PICTURE_FREE refuses CARD_FILL, frees a picture without references and
defers the free of one with references. R32, R192: PICTURE_INFO changes nothing and answers handle, kind, state, base page,
page count and reference count, and then origin slot, card id, byte length, valid bytes and failed blocks of a card file, or
width, height and stride of a raster, in the layout of the answer table. -/
def Obligations.PictureRequestsFollowTheirTables : Prop :=
  ∀ (s : State) (c : Fin 64), s.hostWritesWait = false →
    let u := s.take c
    let h := u.cells[c].reqHandle 0
    (s.asks 4 .rasterSeal c →
      (s.pictureAt h = none → exec .rasterSeal s = .next (finish s (u.answer c ⟨.notFound, 0xFFFF00, []⟩))) ∧
      ∀ i p, s.pictureAt h = some (i, p) →
        (p.state = .hostFill → exec .rasterSeal s = .next (finish s
          ((u.setPicture i ⟨s.pictures[i].gen, some { p with state := .sealed }⟩).answer c ⟨.done, 0, []⟩))) ∧
        (p.state ≠ .hostFill →
          exec .rasterSeal s = .next (finish s (u.answer c ⟨.wrongState, p.state.code, []⟩)))) ∧
    (s.asks 4 .pictureFree c →
      (s.pictureAt h = none → exec .pictureFree s = .next (finish s (u.answer c ⟨.notFound, 0xFFFF00, []⟩))) ∧
      ∀ i p, s.pictureAt h = some (i, p) →
        (p.state = .cardFill → exec .pictureFree s = .next (finish s (u.answer c ⟨.wrongState, 1, []⟩))) ∧
        (p.state ≠ .cardFill → 0 < p.refs → exec .pictureFree s = .next (finish s
          ((u.setPicture i ⟨s.pictures[i].gen, some { p with state := .doomed }⟩).answer c ⟨.done, 1, []⟩))) ∧
        (p.state ≠ .cardFill → p.refs = 0 → exec .pictureFree s = .next (finish s
          (({ u with extents := s.extents.filter (·.pic != i), freePages := s.freePages + s.pagesOf i
                     pictures := s.pictures.set i ⟨s.pictures[i].gen, none⟩ } : State).answer c ⟨.done, 0, []⟩)))) ∧
    (s.asks 4 .pictureInfo c →
      (s.pictureAt h = none → exec .pictureInfo s = .next (finish s (u.answer c ⟨.notFound, 0xFFFF00, []⟩))) ∧
      ∀ i p, s.pictureAt h = some (i, p) →
        let e := s.extents.find? fun e => e.pic == i
        let head (kind : Byte) : List Byte := [BitVec.ofNat 8 i.val, s.pictures[i].gen, kind, BitVec.ofNat 8 p.state.code] ++
          le 2 ((e.map (·.base)).getD 0) ++ le 2 ((e.map (·.pages)).getD 0) ++ le 2 p.refs
        (p.kind = .cardFile → exec .pictureInfo s = .next (finish s (u.answer c ⟨.done, 0, head 2 ++
          [BitVec.ofNat 8 p.slot.val, 0] ++ le 4 p.cardId.toNat ++ le 4 p.byteLen ++ le 4 p.valid ++ le 4 p.failed⟩))) ∧
        (p.kind = .raster → exec .pictureInfo s = .next (finish s (u.answer c ⟨.done, 0, head 1 ++
          [0, 0] ++ le 2 p.width ++ le 2 p.height ++ le 4 p.stride⟩))))

/-- R36, R37, R38: a host write to the staging window, word by word: the words of HOST_FILL pages wait for the port in
their order, cut into one access for each 64-byte span that holds any of them, in ascending order; every other word is stray,
and the last of them is the one STRAY_ADDRESS names; the memory is not written yet. A host read is cut into one access for
each 64-byte span it covers, in ascending order, which wait behind every earlier access; the oldest accesses are answered as
long as they read a free page, with zeros and without the port, and the first other one waits for the port. A read is
never stray. The model's choices: a read's page is looked at when its access comes to the head (log 37), and an access
beyond the window is a fault (log 1). -/
def Obligations.StagingAccessesAreCheckedWordByWord : Prop :=
  (∀ (s : State) (o : Nat) (ws : List StagingWord), o % 4 = 0 →
    (o + 4 * ws.length ≤ 268435456 → ∃ (as : List (List HostWord)) (t : State),
      exec (.stagingWrite o ws) s = .next (finish s t) ∧
      as.flatten = (hostWords o ws).filter (fun w => s.hostMayWrite w.offset) ∧
      (∀ a ∈ as, a ≠ [] ∧ ∀ x ∈ a, ∀ y ∈ a, x.offset / 64 = y.offset / 64) ∧
      as.Pairwise (fun a b => ∀ x ∈ a, ∀ y ∈ b, x.offset / 64 < y.offset / 64) ∧
      t = { s with
        port := { s.port with hostQueue := s.port.hostQueue ++ as.map .write }
        stray := t.stray, strayWindow := t.strayWindow, strayOffset := t.strayOffset } ∧
      match ((hostWords o ws).filter fun w => !s.hostMayWrite w.offset).getLast? with
      | none => t.stray = s.stray ∧ t.strayWindow = s.strayWindow ∧ t.strayOffset = s.strayOffset
      | some w => t.stray = true ∧ t.strayWindow = .staging ∧ t.strayOffset = w.offset) ∧
    (268435456 < o + 4 * ws.length → exec (.stagingWrite o ws) s = .fault .outsideStagingWindow)) ∧
  (∀ (s : State) (o n : Nat), o % 4 = 0 →
    (o + 4 * n ≤ 268435456 → ∃ cuts : List (Nat × Nat),
      (∀ q ∈ cuts, 1 ≤ q.2 ∧ q.1 % 64 + 4 * q.2 ≤ 64) ∧ cuts.Pairwise (fun q p => q.1 / 64 < p.1 / 64) ∧
      cuts.flatMap (fun q => (List.range q.2).map fun i => q.1 + 4 * i) = (List.range n).map (fun i => o + 4 * i) ∧
      exec (.stagingRead o n) s = .next (finish s (drainHost { s with
        port := { s.port with hostQueue := s.port.hostQueue ++ cuts.map fun q => .read q.1 q.2 } }))) ∧
    (268435456 < o + 4 * n → exec (.stagingRead o n) s = .fault .outsideStagingWindow)) ∧
  ∀ s : State, ∃ (zeros : List (Nat × Nat)) (rest : List HostAccess),
    s.port.hostQueue = zeros.map (fun q => .read q.1 q.2) ++ rest ∧
    (∀ q ∈ zeros, s.extentAt (q.1 / 65536) = none) ∧
    (∀ o n, rest.head? = some (.read o n) → (s.extentAt (o / 65536)).isSome) ∧
    drainHost s = { s with
      port := { s.port with hostQueue := rest, hostWait := if rest = [] then 0 else s.port.hostWait }
      sent := s.sent ++ zeros.map fun q => .stagingData q.1 (List.replicate (4 * q.2) 0) }

/-- R38, R39: the port while it is free. The host window's oldest access is granted when its wait count has reached 8 or
nothing else waits: its words reach the memory, or its bytes go out, and the reads of free pages behind it are answered.
Else the render reader's run is granted. Else a card
channel's block, the one that waits or, of two, the one whose turn it is, and the turn passes to the other. A grant past
a waiting host window raises its wait count; one to it sets the count to 0. -/
def Obligations.PortGrantsByPriority : Prop :=
  ∀ s : State, s.port.inFlight = none →
    let hostWait := if s.port.hostQueue = [] then 0 else s.port.hostWait + 1
    (∀ a rest, s.port.hostQueue = a :: rest →
      (8 ≤ s.port.hostWait ∨ (s.renderWaits = false ∧ ∀ c : Fin 2, s.channels[c].buffer = none)) →
        let u : State := { s with port := { s.port with hostQueue := rest, hostWait := 0 } }
        exec .portGrant s = .next (finish s (drainHost (match a with
          | .write ws => { u with dram := ws.foldl (fun m w => m.writeEnabled w.offset w.value w.enables) s.dram }
          | .read o n => { u with sent := s.sent ++ [.stagingData o
              (if (s.extentAt (o / 65536)).isSome then s.dram.readBytes o (4 * n) else List.replicate (4 * n) 0)] })))) ∧
    (∀ j run rest, s.job = some j → j.runs = run :: rest → (s.port.hostQueue = [] ∨ s.port.hostWait < 8) →
      exec .portGrant s = .next (finish s { s with port := { s.port with
        hostWait := hostWait, inFlight := some ⟨run, s.dram.readBytes run.addr (3 * run.len), true⟩ } })) ∧
    (∀ c d : Fin 2, c ≠ d → s.channels[c].buffer.isSome → (s.channels[d].buffer = none ∨ s.port.turn = c) →
      s.renderWaits = false → (s.port.hostQueue = [] ∨ s.port.hostWait < 8) →
        exec .portGrant s = .next (finish s
          (grantBlock { s with port := { s.port with hostWait := hostWait, turn := d } } c)))

/-- R28, R65, R66: a granted block write, for a picture in CARD_FILL: the 512 bytes of a good block, or 512 zero bytes for
a failed one, lie at its position of the extent, no other byte of memory changes, and the valid byte count rises by 512 or
the failed block count by 1; a picture that has left CARD_FILL is not written. By the grant the channel's buffer is EMPTY,
blocks placed rises by 1, and a failed block's position joins the failed list of up to 16 and raises the failed total;
here with no marker owed and the run not complete, when nothing follows that fills the buffer again. -/
def Obligations.BlockWriteFillsThePicture : Prop :=
  (∀ (s : State) (b : BlockBuf) (i : Fin 256) (p : Picture), s.dram.wf = true → s.pictureAt b.picture = some (i, p) →
    let at_ := s.baseOf i * 65536 + b.pos * 512
    (p.state = .cardFill → (∀ data, b.data = some data → data.length = 512) → ∃ t, s.writeBlock b = (t, true) ∧
      t = { s with
        dram := t.dram
        pictures := s.pictures.set i ⟨s.pictures[i].gen, some { p with
          valid := if b.data.isSome then p.valid + 512 else p.valid
          failed := if b.data.isSome then p.failed else p.failed + 1 }⟩ } ∧
      (∀ n, n < 512 → t.dram.read (at_ + n) = (match b.data with
        | some data => data.getD n 0
        | none => 0)) ∧
      ∀ a, (a < at_ ∨ at_ + 512 ≤ a) → t.dram.read a = s.dram.read a) ∧
    (p.state ≠ .cardFill → s.writeBlock b = (s, false))) ∧
  ∀ (s : State) (c : Fin 2) (k : Fin 4) (m : ChanMode) (b : BlockBuf) (i : Fin 256) (p : Picture) (r : ReadRec),
    s.channels[c] = ⟨some k, m, some b⟩ → s.pictureAt b.picture = some (i, p) → s.slots[k].read = some r →
    r.owed = .none → r.phase ≠ .draining →
      let t := grantBlock s c
      t.channels = s.channels.set c ⟨some k, m, none⟩ ∧ t.dram = (s.writeBlock b).1.dram ∧
      t.pictures = (s.writeBlock b).1.pictures ∧
      (p.state ≠ .cardFill → t.slots[k].read = some r) ∧
      (p.state = .cardFill → t.slots[k].read = some { r with
        placed := r.placed + 1
        failedList := if b.data = none ∧ r.failedList.length < 16 then r.failedList ++ [b.pos] else r.failedList
        failedTotal := if b.data = none then r.failedTotal + 1 else r.failedTotal })

/-- R40, R176: a pixel run that comes back frees the port. One whose copy has ended is discarded. A live run's pixels join
the line being rendered, and while runs are left to fetch nothing else changes. -/
def Obligations.PixelRunsComeBack : Prop :=
  ∀ (s : State) (g : RunGrant), s.port.inFlight = some g →
    (g.live = false →
      exec .pixelRunReturn s = .next (finish s { s with port := { s.port with inFlight := none } })) ∧
    (∀ j run next rest, g.live = true → s.job = some j → j.runs = run :: next :: rest →
      exec .pixelRunReturn s = .next (finish s { s with
        port := { s.port with inFlight := none }
        job := some { j with runs := next :: rest, fetched := j.fetched ++ runPixels g.run g.bytes } })) ∧
    (∀ j run, g.live = true → s.job = some j → j.runs = [run] →
      exec .pixelRunReturn s = .next (finish s
        (completeLine { s with port := { s.port with inFlight := none } }
          { j with runs := [], fetched := j.fetched ++ runPixels g.run g.bytes })))

/-! ## Card slots -/

/-- R44, R45, R46: the way in. The switch closing in EMPTY starts the 50 ms settle; opening in SETTLING goes back to EMPTY
and drops the timer; opening in a powered state only starts the 1 ms of a removal; the settle's end, or the end of a
reset's off interval, applies power with the 20 ms ramp; the ramp's end sends the first IDENTIFY with its 250 ms. R44, R50,
R56: the write-protect switch is followed, and shown in every state but EMPTY: the model's choice, log 40; a blinking LED turns every 500
ms. -/
def Obligations.CardInsertionFollowsItsTimers : Prop :=
  (∀ (s : State) (k : Fin 4), let x := s.slots[k]
    (x.state = .empty → x.detectClosed = false → s.running = true →
      exec (.detectClose k) s = .next (finish s (s.setSlot k { x with
        detectClosed := true, openTimer := none, state := .settling, timer := some ⟨.settle, ⟨s.clock, 50⟩⟩
        ledLit := true, ledTimer := some ⟨s.clock, 500⟩ }))) ∧
    (x.state = .settling → x.detectClosed = true →
      exec (.detectOpen k) s = .next (finish s (s.setSlot k { x with
        detectClosed := false, state := .empty, timer := none, ledLit := false, ledTimer := none }))) ∧
    (x.state ≠ .empty → x.state ≠ .settling → x.detectClosed = true →
      exec (.detectOpen k) s = .next (finish s (s.setSlot k { x with
        detectClosed := false, openTimer := some ⟨s.clock, 1⟩ }))) ∧
    (let ramp : Slot := { x with
        state := .powering, power := true, faultCause := .none, timer := some ⟨.ramp, ⟨s.clock, 20⟩⟩
        busTier := .t0, busWide := false, workTier := .t0, workWide := false }
     ∀ tm : Timer, tm.due s.clock = true →
      (x.state = .settling → x.detectClosed = true → x.timer = some ⟨.settle, tm⟩ →
        exec (.settleTimerExpiry k) s = .next (finish s (s.setSlot k ramp))) ∧
      (x.state = .powering → x.timer = some ⟨.offInterval, tm⟩ →
        exec (.offIntervalExpiry k) s = .next (finish s (s.setSlot k ramp))) ∧
      (x.state = .powering → x.timer = some ⟨.ramp, tm⟩ →
        exec (.rampTimerExpiry k) s = .next (finish s ((s.setSlot k { x with
          state := .identifying, attempts := 1, timer := some ⟨.identify, ⟨s.clock, 250⟩⟩ }).emit
            (.card k [1, 0, 0, 0, 0, 0, 0, 0xFF])))))) ∧
  (∀ (s : State) (k : Fin 4),
    (∀ level : Bool, exec (.writeProtectChange k level) s =
        .next (finish s (s.setSlot k { s.slots[k] with protectPin := level })) ∧
      ({ s.slots[k] with protectPin := level } : Slot).protectShown = (decide (s.slots[k].state ≠ .empty) && level)) ∧
    (∀ tm : Timer, s.slots[k].ledTimer = some tm → tm.due s.clock = true →
      exec (.ledBlinkToggle k) s = .next (finish s (s.setSlot k { s.slots[k] with
        ledLit := !s.slots[k].ledLit, ledTimer := some ⟨s.clock, 500⟩ }))))

/-- R46, R47, R195: identification. A good record is shown and moves the slot to tier settle, where the highest open tier
is tried first, or to FAULT with cause NO_MODE when none is open. A record whose own check fails, whatever the response
check says, a record with capacity 0, and the end of the 250 ms, end the attempt: IDENTIFY again before the third, FAULT
with cause UNRESPONSIVE and power off after it. A response whose check alone fails is no response; that one of another
length is none either is the model's choice, log 20. -/
def Obligations.IdentificationTriesThreeTimes : Prop :=
  ∀ (s : State) (k : Fin 4) (tm : Timer), let x := s.slots[k]
    x.state = .identifying → x.timer = some ⟨.identify, tm⟩ → x.otherCell = none →
    let again : State := (s.setSlot k { x with
      attempts := x.attempts + 1, timer := some ⟨.identify, ⟨s.clock, 250⟩⟩ }).emit (.card k [1, 0, 0, 0, 0, 0, 0, 0xFF])
    let fault : State := s.setSlot k { x with
      state := .fault, faultCause := .unresponsive, power := false, timer := none
      busTier := .t0, busWide := false, workTier := .t0, workWide := false
      ledLit := true, ledTimer := some ⟨s.clock, 500⟩ }
    (∀ bytes, bytes.length = 13 → sumBytes ((bytes.drop 1).take 11) % 256 ≠ 0 →
      exec (.identifyResponse k bytes) s = .next (finish s (if x.attempts < 3 then again else fault))) ∧
    (∀ bytes, bytes.length = 13 → sumBytes ((bytes.drop 1).take 11) % 256 = 0 → sumBytes bytes % 256 = 0 →
      fieldLe bytes 1 4 = 0 →
      exec (.identifyResponse k bytes) s = .next (finish s (if x.attempts < 3 then again else fault))) ∧
    (∀ bytes, bytes.length ≠ 13 ∨ (sumBytes ((bytes.drop 1).take 11) % 256 = 0 ∧ sumBytes bytes % 256 ≠ 0) →
      exec (.identifyResponse k bytes) s = .next s) ∧
    (tm.due s.clock = true →
      exec (.identifyTimeout k) s = .next (finish s (if x.attempts < 3 then again else fault))) ∧
    (∀ bytes c rec, responseContents 11 bytes = some c → cardRecordOf c = some rec →
      ∃ t, exec (.identifyResponse k bytes) s = .next t ∧ t.slots[k].record = some rec ∧
        t.slots[k].crcErrs = 0 ∧ t.slots[k].timeouts = 0 ∧ t.slots[k].settleLimit = advertised s.settings k ∧
        match openBelow rec (advertised s.settings k) 4 with
        | some tier => t.slots[k].state = .tierSettle ∧ t.slots[k].tryTier = tier ∧
            t.slots[k].timer = some ⟨.setMode, ⟨s.clock, 250⟩⟩
        | none => t.slots[k].state = .fault ∧ t.slots[k].faultCause = .noMode)

/-- R47, R48: tier settle. SET_MODE accepted: the bus switches to the tier and width tried, and STATUS is sent with 250
ms. STATUS with the ready flag: READY at that tier and width. A response is taken as the answer to the command last sent,
whatever code it carries (R42). A refusal, a STATUS without the flag, or the end of either
wait: the next lower open tier with the bus back at T0 and 1-bit, or, with none left, FAULT with cause NO_MODE. -/
def Obligations.TierSettleTriesEachTier : Prop :=
  ∀ (s : State) (k : Fin 4) (tm : Timer), let x := s.slots[k]
    x.state = .tierSettle → x.otherCell = none →
    let failed : State := match x.openBelow x.tryTier.code with
      | some t => (s.setSlot k { x with
          tryTier := t, busTier := .t0, busWide := false, workTier := .t0, workWide := false
          timer := some ⟨.setMode, ⟨s.clock, 250⟩⟩ }).emit (.card k (setModeCommand x.chosenWide t))
      | none => s.setSlot k { x with
          state := .fault, faultCause := .noMode, power := false, timer := none
          busTier := .t0, busWide := false, workTier := .t0, workWide := false
          ledLit := true, ledTimer := some ⟨s.clock, 500⟩ }
    (x.timer = some ⟨.setMode, tm⟩ →
      (∀ bytes c, responseContents 1 bytes = some c →
        exec (.setModeResponse k bytes) s = .next (finish s (if byteAt c 0 = 0 then
          (s.setSlot k { x with
            busTier := x.tryTier, busWide := x.chosenWide, workTier := x.tryTier, workWide := x.chosenWide
            timer := some ⟨.status, ⟨s.clock, 250⟩⟩ }).emit (.card k [5, 0, 0, 0, 0, 0, 0, 0xFB])
          else failed))) ∧
      (tm.due s.clock = true → exec (.setModeTimeout k) s = .next (finish s failed))) ∧
    (x.timer = some ⟨.status, tm⟩ →
      (∀ bytes c, responseContents 1 bytes = some c →
        exec (.statusResponse k bytes) s = .next (finish s (if (byteAt c 0).getLsbD 0 then
          s.setSlot k { x with
            state := .ready, workTier := x.tryTier, workWide := x.chosenWide, timer := none
            winTransfers := 0, winErrors := 0, ledLit := true, ledTimer := none }
          else failed))) ∧
      (tm.due s.clock = true → exec (.statusTimeout k) s = .next (finish s failed)))

/-- R53, R54, R74: a removal, once the switch has stood open for its 1 ms in a powered state: power off, EMPTY, LED off,
the card record cleared, the removal record written with the count raised to at most 65,535, the list emptied and every
cell of it and of the slot answered REMOVED. A read in progress is cut: its picture in CARD_FILL is TORN with its counts as
they stand, its channel goes with an EMPTY buffer to the head of the wait list, or is free, and without a channel the
slot leaves the list. -/
def Obligations.RemovalEmptiesTheSlot : Prop :=
  ∀ (s : State) (k : Fin 4) (tm : Timer), let x := s.slots[k]
    x.state ≠ .empty → x.state ≠ .settling → x.openTimer = some tm → tm.due s.clock = true →
      ∃ t, exec (.removal k) s = .next t ∧
        (let y := t.slots[k]
         y.state = .empty ∧ y.power = false ∧ y.ledLit = false ∧ y.timer = none ∧ y.record = none ∧ y.read = none ∧
         y.otherCell = none ∧ y.faultCause = .none ∧ y.workTier = .t0 ∧ y.workWide = false ∧
         y.lastCardId = (x.record.map CardRecord.cardId).getD 0 ∧ y.removedReading = x.read.isSome ∧
         y.removalCount = (if x.removalCount < 65535 then x.removalCount + 1 else x.removalCount)) ∧
        t.intake[slotList k] = [] ∧
        (let removed (c : Fin 64) : Prop := t.cells[c].hand = .answered ∧
           (s.cells[c].mem.wf = true → cellByte t.cells[c] 12 = BitVec.ofNat 8 Status.removed.code)
         (∀ c ∈ s.intake[slotList k], removed c) ∧ (∀ r, x.read = some r → removed r.cell) ∧
         (∀ o, x.otherCell = some o → removed o.cell)) ∧
        ∀ r, x.read = some r →
          (∀ i p, s.pictureAt r.picture = some (i, p) → p.state = .cardFill →
            t.pictures[i].pic = some { p with state := .torn }) ∧
          (r.channel = none → t.chanWait = s.chanWait.filter (· != k)) ∧
          ∀ ch, r.channel = some ch → t.channels[ch].buffer = none ∧
            (s.chanWait = [] → t.channels[ch].owner = none ∧ t.chanWait = []) ∧
            (∀ j rest, s.chanWait = j :: rest → t.channels[ch].owner = some j ∧ t.chanWait = rest)

/-- R51, R52: CARD_RELEASE. In READY: STOP, power off, REMOVE_READY, and DONE in the same event. In READING: RELEASING,
with the cell TAKEN. In EMPTY, RELEASING, REMOVE_READY and FAULT: WRONG_STATE with the slot state. -/
def Obligations.CardReleaseFollowsTheSlotState : Prop :=
  ∀ (s : State) (k : Fin 4) (c : Fin 64), s.asks (slotList k) .cardRelease c → let x := s.slots[k]
    (x.state = .ready → exec (.cardRelease k) s = .next (finish s
      ((((s.take c).emit (.card k [4, 0, 0, 0, 0, 0, 0, 0xFC])).setSlot k { x with
        state := .removeReady, power := false, timer := none, otherCell := none
        busTier := .t0, busWide := false, workTier := .t0, workWide := false
        ledLit := true, ledTimer := none }).answer c ⟨.done, 0, []⟩))) ∧
    (x.state = .reading → exec (.cardRelease k) s = .next (finish s
      ((s.take c).setSlot k { x with state := .releasing, otherCell := some (.release c) }))) ∧
    (x.state = .empty ∨ x.state = .releasing ∨ x.state = .removeReady ∨ x.state = .fault →
      exec (.cardRelease k) s = .next (finish s ((s.take c).answer c ⟨.wrongState, x.state.code, []⟩)))

/-- R51, R55, R74: SLOT_RESET. In EMPTY it is DONE at once with the slot's state. In READY, READING, RELEASING, REMOVE_READY
and FAULT it completes: the slot goes to POWERING with power off and the 50 ms off interval, its record and fault cause
cleared, and the reset's cell TAKEN; a read in progress is cut, its cell and that of a waiting release answered ABORTED, its
picture in CARD_FILL TORN, and its channel given up. The end of a reset: DONE with READY, the tier and width and the card
id when a tier is confirmed; DONE with FAULT and its cause when no tier is left, when the card gives none that is open, and
at the third failed identification. -/
def Obligations.SlotResetStartsOverFromPower : Prop :=
  (∀ (s : State) (k : Fin 4) (c : Fin 64), s.asks (slotList k) .slotReset c → let x := s.slots[k]
    (x.state = .empty → exec (.slotReset k) s = .next (finish s ((s.take c).answer c ⟨.done, 0,
      [0, BitVec.ofNat 8 x.faultCause.code, BitVec.ofNat 8 x.workTier.code, BitVec.ofNat 8 (flag x.workWide)] ++
        le 4 ((x.record.map CardRecord.cardId).getD 0).toNat⟩))) ∧
    (x.state = .ready ∨ x.state = .reading ∨ x.state = .releasing ∨ x.state = .removeReady ∨ x.state = .fault →
      ∃ t, exec (.slotReset k) s = .next t ∧
        (let y := t.slots[k]
         y.state = .powering ∧ y.power = false ∧ y.timer = some ⟨.offInterval, ⟨s.clock, 50⟩⟩ ∧ y.record = none ∧
         y.read = none ∧ y.faultCause = .none ∧ y.workTier = .t0 ∧ y.workWide = false ∧
         y.otherCell = some (.reset c)) ∧
        ((∀ r, x.read = some r → r.cell ≠ c) → (∀ o, x.otherCell = some o → o.cell ≠ c) → t.cells[c].hand = .taken) ∧
        (let aborted (d : Fin 64) : Prop := t.cells[d].hand = .answered ∧
           (d ≠ c → s.cells[d].mem.wf = true → cellByte t.cells[d] 12 = BitVec.ofNat 8 Status.aborted.code)
         (∀ r, x.read = some r → aborted r.cell) ∧ (∀ o, x.otherCell = some o → aborted o.cell)) ∧
        ∀ r, x.read = some r →
          (∀ i p, s.pictureAt r.picture = some (i, p) → p.state = .cardFill →
            t.pictures[i].pic = some { p with state := .torn }) ∧
          (r.channel = none → t.chanWait = s.chanWait.filter (· != k)) ∧
          ∀ ch, r.channel = some ch → t.channels[ch].buffer = none ∧
            (s.chanWait = [] → t.channels[ch].owner = none ∧ t.chanWait = []) ∧
            (∀ j rest, s.chanWait = j :: rest → t.channels[ch].owner = some j ∧ t.chanWait = rest))) ∧
  ∀ (s : State) (k : Fin 4) (c : Fin 64) (tm : Timer), let x := s.slots[k]
    x.otherCell = some (.reset c) →
    let id : List Byte := le 4 ((x.record.map CardRecord.cardId).getD 0).toNat
    let off : Slot := { x with
      state := .fault, power := false, timer := none, otherCell := none
      busTier := .t0, busWide := false, workTier := .t0, workWide := false
      ledLit := true, ledTimer := some ⟨s.clock, 500⟩ }
    (x.state = .tierSettle →
      (∀ bytes contents, x.timer = some ⟨.status, tm⟩ → responseContents 1 bytes = some contents →
        (byteAt contents 0).getLsbD 0 = true →
          exec (.statusResponse k bytes) s = .next (finish s ((s.setSlot k { x with
            state := .ready, workTier := x.tryTier, workWide := x.chosenWide, timer := none, otherCell := none
            winTransfers := 0, winErrors := 0, ledLit := true, ledTimer := none }).answer c ⟨.done, 0,
              [5, BitVec.ofNat 8 x.faultCause.code, BitVec.ofNat 8 x.tryTier.code,
               BitVec.ofNat 8 (flag x.chosenWide)] ++ id⟩))) ∧
      (∀ i : Instr, x.openBelow x.tryTier.code = none →
        (∃ bytes contents, x.timer = some ⟨.status, tm⟩ ∧ i = .statusResponse k bytes ∧
            responseContents 1 bytes = some contents ∧ (byteAt contents 0).getLsbD 0 = false) ∨
          (x.timer = some ⟨.status, tm⟩ ∧ i = .statusTimeout k ∧ tm.due s.clock = true) ∨
          (∃ bytes contents, x.timer = some ⟨.setMode, tm⟩ ∧ i = .setModeResponse k bytes ∧
            responseContents 1 bytes = some contents ∧ byteAt contents 0 ≠ 0) ∨
          (x.timer = some ⟨.setMode, tm⟩ ∧ i = .setModeTimeout k ∧ tm.due s.clock = true) →
        exec i s = .next (finish s ((s.setSlot k { off with faultCause := .noMode }).answer c
          ⟨.done, 0, [9, 2, 0, 0] ++ id⟩)))) ∧
    (x.state = .identifying → x.timer = some ⟨.identify, tm⟩ →
      (3 ≤ x.attempts → ∀ i : Instr, (i = .identifyTimeout k ∧ tm.due s.clock = true) ∨
          (∃ bytes, i = .identifyResponse k bytes ∧ identifyOutcome bytes = some none) →
        exec i s = .next (finish s ((s.setSlot k { off with faultCause := .unresponsive }).answer c
          ⟨.done, 0, [9, 1, 0, 0] ++ id⟩))) ∧
      ∀ bytes rec, identifyOutcome bytes = some (some rec) → openBelow rec (advertised s.settings k) 4 = none →
        ∃ t, exec (.identifyResponse k bytes) s = .next t ∧ t.slots[k].state = .fault ∧ t.slots[k].faultCause = .noMode ∧
          t.slots[k].power = false ∧ t.slots[k].record = some rec ∧ t.slots[k].otherCell = none ∧
          t.cells[c] = s.cells[c].answered ⟨.done, 0, [9, 2, 0, 0] ++ le 4 rec.cardId.toNat⟩)

/-! ## Card reading -/

/-- R51, R59, R60, R61: a CARD_READ at the head. In READY, with every run inside the card and room for the file, the read
starts in the event of the take: READING, the read record at its start values, group 4 showing it, and a channel (A when
both are free) with READ_BLOCKS for the first run, or the tail of the wait list. A run count out of range is BAD_FIELD,
as is the first run with a count of 0, a start beyond the card or an end beyond it, with its index and the field; more than
131,072 blocks are OVER_LIMIT; no room for the file is NO_ROOM; the states that refuse it answer WRONG_STATE. -/
def Obligations.CardReadStartsInReady : Prop :=
  ∀ (s : State) (k : Fin 4) (c : Fin 64), s.asks (slotList k) .cardRead c → let x := s.slots[k]
    let u := s.take c
    let n := u.cells[c].req 0 1
    let runs := runsOf u.cells[c] n
    (∀ rec, x.state = .ready → x.record = some rec →
      (n < 1 ∨ 32 < n → exec (.cardRead k) s = .next (finish s (u.answer c ⟨.badField, 0xFFFF00, []⟩))) ∧
      (let inside (q : BlockRun) : Prop := 1 ≤ q.count ∧ q.start < rec.capacity ∧ q.start + q.count ≤ rec.capacity
       (∀ i q, 1 ≤ n → n ≤ 32 → runs[i]? = some q → ¬ inside q → (∀ p ∈ runs.take i, inside p) →
         exec (.cardRead k) s = .next (finish s (u.answer c ⟨.badField,
           1 + 256 * i + 65536 * (if q.count ≠ 0 ∧ rec.capacity ≤ q.start then 0 else 1), []⟩))) ∧
       (1 ≤ n → n ≤ 32 → (∀ q ∈ runs, inside q) →
         (131072 < totalBlocks runs →
           exec (.cardRead k) s = .next (finish s (u.answer c ⟨.overLimit, 0xFFFF00, []⟩))) ∧
         (totalBlocks runs ≤ 131072 → (∀ i : Fin 256, s.pictures[i].pic.isSome) ∨
             firstFit ((totalBlocks runs * 512 + 65535) / 65536) 0 s.extents = none →
           exec (.cardRead k) s = .next (finish s (u.answer c ⟨.noRoom, 0, []⟩))))) ∧
      ∀ v h base, 1 ≤ n → n ≤ 32 → badRun rec.capacity 0 runs = none → totalBlocks runs ≤ 131072 →
        u.createCardFile k rec.cardId (totalBlocks runs) = some (v, h, base) →
        ∃ t r, exec (.cardRead k) s = .next t ∧ t.slots[k].state = .reading ∧ t.slots[k].read = some r ∧
          r.cell = c ∧ t.cells[c].hand = .taken ∧ r.runs = runs ∧ r.curRun = 0 ∧ r.nextPos = 0 ∧ r.attempts = 0 ∧
          r.picture = h ∧ r.placed = 0 ∧ r.failedTotal = 0 ∧ r.startTier = x.workTier ∧
          (runs.head?.map (·.start)) = some r.nextBlock ∧
          t.slots[k].shown.active = true ∧ t.slots[k].shown.total = totalBlocks runs ∧ t.slots[k].shown.placed = 0 ∧
          (∀ ch : Fin 2, s.chanWait = [] →
            (ch = 0 ∨ s.channels[(0 : Fin 2)].owner.isSome) → s.channels[ch].owner = none →
            r.channel = some ch ∧ r.phase = .issuing ∧ t.channels[ch].owner = some k ∧ t.channels[ch].buffer = none ∧
            t.channels[ch].mode = channelMode s.settings ch ∧
            t.slots[k].timer = some ⟨.readBlocks, ⟨s.clock, 250⟩⟩ ∧
            ∃ run, runs.head? = some run ∧ Output.card k (readBlocksCommand run.start run.count) ∈ t.sent) ∧
          (s.chanWait ≠ [] ∨ (∀ ch : Fin 2, s.channels[ch].owner.isSome) →
            r.channel = none ∧ r.phase = .waitChannel ∧ t.chanWait = s.chanWait ++ [k])) ∧
    (x.state = .empty ∨ x.state = .releasing ∨ x.state = .removeReady ∨ x.state = .fault →
      exec (.cardRead k) s = .next (finish s (u.answer c ⟨.wrongState, x.state.code, []⟩)))

/-- R63, R64: READ_BLOCKS accepted: RECEIVING, with the 100 ms data timeout once the channel's buffer is EMPTY. Refused, or
not answered in 250 ms: STATUS, and CHECKING with the cause noted as a command failure. -/
def Obligations.ReadBlocksIsAnsweredOrChecked : Prop :=
  ∀ (s : State) (k : Fin 4) (tm : Timer) (r : ReadRec), let x := s.slots[k]
    x.timer = some ⟨.readBlocks, tm⟩ → x.read = some r →
    let checking : State := (s.setSlot k { x with
      timer := some ⟨.status, ⟨s.clock, 250⟩⟩, read := some { r with phase := .checking, cause := .command } }).emit
        (.card k [5, 0, 0, 0, 0, 0, 0, 0xFB])
    (∀ bytes c ch, responseContents 1 bytes = some c → byteAt c 0 = 0 → r.channel = some ch → r.owed = .none →
      exec (.readBlocksResponse k bytes) s = .next (finish s (s.setSlot k { x with
        timer := if s.channels[ch].buffer.isNone then some ⟨.data, ⟨s.clock, 100⟩⟩ else none
        read := some { r with phase := .receiving } }))) ∧
    (∀ bytes c, responseContents 1 bytes = some c → byteAt c 0 ≠ 0 →
      exec (.readBlocksResponse k bytes) s = .next (finish s checking)) ∧
    (tm.due s.clock = true → exec (.readBlocksTimeout k) s = .next (finish s checking))

/-- R64 to R69: a block of a slot that is READING or RELEASING, as one with a read is (R52; `Slot.holdsByState`). With every
line's CRC matching, it goes into the channel's buffer for the next position and the
read advances, to DRAINING after the last block of its run. At the data timeout, STOP and STATUS go out and the read is
CHECKING. A CRC failure is an attempt, and counts in the slot's and the read's totals. Each of the three is a transfer of the
CRC error window and the CRC failure an error too; the window restarts at its threshold of errors, and at 256 transfers. A
CRC failure that does not bring a fall-back (below the threshold, or with no lower open tier): with attempts left, STOP and
READ_BLOCKS go out again for the same block; with the attempts used up the block has failed, its marker goes into the buffer
when that is EMPTY, and the read goes on with the following block, or to DRAINING after the last of its run. At the threshold
with a lower open tier the read falls back before any further attempt: STOP, and SET_MODE for that tier at the working width
with the bus at T0 and 1-bit. That a read goes on before its marker is granted, and where a marker is owed meanwhile, are
the model's choice, logs 17 and 18. -/
def Obligations.BlocksArriveOrFail : Prop :=
  ∀ (s : State) (k : Fin 4) (tm : Timer) (r : ReadRec) (ch : Fin 2) (run : BlockRun), let x := s.slots[k]
    x.timer = some ⟨.data, tm⟩ → x.read = some r → r.channel = some ch → r.runs[r.curRun]? = some run →
    x.state = .reading ∨ x.state = .releasing → x.winErrors < x.threshold →
    let counted : Slot := { x with
      winTransfers := if 256 ≤ x.winTransfers + 1 then 0 else x.winTransfers + 1
      winErrors := if 256 ≤ x.winTransfers + 1 then 0 else x.winErrors }
    let after : ReadRec := { r with nextBlock := r.nextBlock + 1, nextPos := r.nextPos + 1, attempts := 0 }
    (∀ data crcs, blockGood x.workWide data crcs = true →
      exec (.blockReceived k data crcs) s = .next (finish s ((s.setSlot k { counted with
        timer := none
        read := some (if run.start + run.count ≤ r.nextBlock + 1 then { after with phase := .draining } else after)
        }).setChannel ch { s.channels[ch] with buffer := some ⟨r.picture, r.nextPos, some data⟩ }))) ∧
    (∀ data crcs, blockGood x.workWide data crcs = false →
      let full := x.threshold ≤ x.winErrors + 1
      let tried : ReadRec := { r with attempts := r.attempts + 1, crcErrs := sat16 r.crcErrs }
      let failed : ReadRec := { after with crcErrs := sat16 r.crcErrs, owed := .none }
      let marker (t : State) : Prop :=
        t.channels = s.channels.set ch { s.channels[ch] with buffer := some ⟨r.picture, r.nextPos, none⟩ }
      let reads (b : Nat) : Output := .card k (readBlocksCommand b (run.start + run.count - b))
      let ends (holds : State → List Output → Prop) : Prop :=
        ∃ t msi, exec (.blockReceived k data crcs) s = .next t ∧ (msi = [] ∨ msi = [Output.msi]) ∧
          t.slots[k].winTransfers = (if full ∨ 256 ≤ x.winTransfers + 1 then 0 else x.winTransfers + 1) ∧
          t.slots[k].winErrors = (if full ∨ 256 ≤ x.winTransfers + 1 then 0 else x.winErrors + 1) ∧
          t.slots[k].crcErrs = sat16 x.crcErrs ∧ t.slots[k].timeouts = x.timeouts ∧ t.slots[k].workTier = x.workTier ∧
          holds t msi
      (¬ full ∨ x.openBelow x.workTier.code = none →
        (r.attempts < x.retries → ends fun t msi =>
          t.slots[k].read = some { tried with phase := .issuing } ∧
          t.slots[k].timer = some ⟨.readBlocks, ⟨s.clock, 250⟩⟩ ∧ t.channels = s.channels ∧
          t.sent = s.sent ++ [.card k stopCommand, reads r.nextBlock] ++ msi) ∧
        (x.retries ≤ r.attempts → s.channels[ch].buffer = none → ends fun t msi => marker t ∧
          (r.nextBlock + 1 < run.start + run.count →
            t.slots[k].read = some { failed with phase := .issuing } ∧
            t.slots[k].timer = some ⟨.readBlocks, ⟨s.clock, 250⟩⟩ ∧
            t.sent = s.sent ++ [.card k stopCommand, reads (r.nextBlock + 1)] ++ msi) ∧
          (run.start + run.count ≤ r.nextBlock + 1 →
            t.slots[k].read = some { failed with phase := .draining } ∧ t.slots[k].timer = none ∧
            t.sent = s.sent ++ msi)) ∧
        (x.retries ≤ r.attempts → s.channels[ch].buffer.isSome → ends fun t msi =>
          t.slots[k].read = some { tried with phase := .checking, owed := .block } ∧ t.slots[k].timer = none ∧
          t.channels = s.channels ∧ t.sent = s.sent ++ msi)) ∧
      (∀ tier, full → x.openBelow x.workTier.code = some tier → ends fun t msi =>
        t.slots[k].tryTier = tier ∧ t.slots[k].busTier = .t0 ∧ t.slots[k].busWide = false ∧
        t.slots[k].timer = some ⟨.setMode, ⟨s.clock, 250⟩⟩ ∧
        t.sent = s.sent ++ [.card k stopCommand, .card k (setModeCommand x.workWide tier)] ++ msi ∧
        (r.attempts < x.retries →
          t.slots[k].read = some { tried with phase := .fallingBack } ∧ t.channels = s.channels) ∧
        (x.retries ≤ r.attempts → s.channels[ch].buffer = none →
          t.slots[k].read = some { failed with phase := .fallingBack } ∧ marker t) ∧
        (x.retries ≤ r.attempts → s.channels[ch].buffer.isSome →
          t.slots[k].read = some { tried with phase := .fallingBack, owed := .block } ∧ t.channels = s.channels))) ∧
    (tm.due s.clock = true → exec (.dataTimeout k) s = .next (finish s { s.setSlot k { counted with
        timer := some ⟨.status, ⟨s.clock, 250⟩⟩, read := some { r with phase := .checking, cause := .timeout } } with
      sent := s.sent ++ [.card k [4, 0, 0, 0, 0, 0, 0, 0xFC], .card k [5, 0, 0, 0, 0, 0, 0, 0xFB]] }))

/-- R47, R48, R66 to R69: CHECKING and the tier fall-back. The tier tried is the highest of the card's tiers at or below
the settle limit and below the bound given. A STATUS without the address error, or none in 250 ms, makes the failure a
failed attempt: counted, and tried again while attempts are left, or the block fails and its marker goes into the empty
buffer. With the address error nothing is counted and the rest of the run fails. At the threshold, with a lower open tier,
the read falls back: STOP, then SET_MODE for that tier at the working width with the bus at T0 and 1-bit. A tier confirmed
becomes the working tier, READ_BLOCKS goes out again for the next block, and group 4 shows the read (R73). R71: a tier that
fails hands on to the next lower open one; with none left the read is FAILING with the bus at T0 and 1-bit, group 4 shows
it, and the blocks not yet placed fail one by one into the EMPTY buffer. The moment a failed block's successor is asked
for, and the owed markers, are the model's choice, logs 17 and 18. -/
def Obligations.CheckingAndFallBackFollowTheWindow : Prop :=
  (∀ (c : CardRecord) (limit t : Tier) (n : Nat), openBelow c limit n = some t ↔
    (openTier c limit t = true ∧ t.code < n ∧ ∀ u : Tier, openTier c limit u = true → u.code < n → u.code ≤ t.code)) ∧
  ∀ (s : State) (k : Fin 4) (tm : Timer) (r : ReadRec) (ch : Fin 2) (run : BlockRun),
    let x := s.slots[k]
    x.timer = some ⟨.status, tm⟩ → x.state = .reading ∨ x.state = .releasing → x.read = some r → r.owed = .none →
    r.channel = some ch → r.runs[r.curRun]? = some run → r.nextBlock < run.start + run.count →
    let reads (b : Nat) : Output := .card k (readBlocksCommand b (run.start + run.count - b))
    (r.phase = .checking →
      (∀ i : Instr, (∃ bytes c, i = .statusResponse k bytes ∧ responseContents 1 bytes = some c ∧
          (byteAt c 0).getLsbD 1 = false) ∨ (i = .statusTimeout k ∧ tm.due s.clock = true) →
        let failed : ReadRec := { r with attempts := r.attempts + 1, timeouts := sat16 r.timeouts }
        (x.winErrors + 1 < x.threshold → r.attempts < x.retries →
          ∃ t msi, exec i s = .next t ∧ t.slots[k].read = some { failed with phase := .issuing } ∧
            t.slots[k].timer = some ⟨.readBlocks, ⟨s.clock, 250⟩⟩ ∧ t.slots[k].timeouts = sat16 x.timeouts ∧
            (x.winTransfers < 255 → t.slots[k].winErrors = x.winErrors + 1 ∧
              t.slots[k].winTransfers = x.winTransfers + (if r.cause = .command then 1 else 0)) ∧
            (msi = [] ∨ msi = [Output.msi]) ∧
            t.sent = s.sent ++ [.card k stopCommand, reads r.nextBlock] ++ msi) ∧
        (x.winErrors + 1 < x.threshold → x.retries ≤ r.attempts → s.channels[ch].buffer = none →
          r.nextBlock + 1 < run.start + run.count →
          ∃ t msi, exec i s = .next t ∧ t.channels[ch].buffer = some ⟨r.picture, r.nextPos, none⟩ ∧
            t.slots[k].read = some { failed with
              nextBlock := r.nextBlock + 1, nextPos := r.nextPos + 1, attempts := 0, phase := .issuing } ∧
            (msi = [] ∨ msi = [Output.msi]) ∧
            t.sent = s.sent ++ [.card k stopCommand, reads (r.nextBlock + 1)] ++ msi) ∧
        (∀ tier, x.threshold ≤ x.winErrors + 1 → r.attempts < x.retries → x.openBelow x.workTier.code = some tier →
          ∃ t msi, exec i s = .next t ∧ t.slots[k].read = some { failed with phase := .fallingBack } ∧
            t.slots[k].tryTier = tier ∧ t.slots[k].busTier = .t0 ∧ t.slots[k].busWide = false ∧
            t.slots[k].workTier = x.workTier ∧ t.slots[k].winTransfers = 0 ∧ t.slots[k].winErrors = 0 ∧
            t.slots[k].timer = some ⟨.setMode, ⟨s.clock, 250⟩⟩ ∧ (msi = [] ∨ msi = [Output.msi]) ∧
            t.sent = s.sent ++ [.card k stopCommand, .card k (setModeCommand x.workWide tier)] ++ msi)) ∧
      (∀ bytes c, responseContents 1 bytes = some c → (byteAt c 0).getLsbD 1 = true →
        s.channels[ch].buffer = none → r.nextBlock + 1 < run.start + run.count →
        exec (.statusResponse k bytes) s = .next (finish s ((s.setSlot k { x with
          timer := none
          read := some { r with
            nextBlock := r.nextBlock + 1, nextPos := r.nextPos + 1, attempts := 0, owed := .run }
          }).setChannel ch { s.channels[ch] with buffer := some ⟨r.picture, r.nextPos, none⟩ })))) ∧
    (r.phase = .fallingBack → (∀ bytes c, responseContents 1 bytes = some c → (byteAt c 0).getLsbD 0 = true →
      ∃ t msi, exec (.statusResponse k bytes) s = .next t ∧ t.slots[k].workTier = x.tryTier ∧
        t.slots[k].workWide = x.workWide ∧ t.slots[k].read = some { r with phase := .issuing } ∧
        t.slots[k].timer = some ⟨.readBlocks, ⟨s.clock, 250⟩⟩ ∧
        t.slots[k].shown = ⟨true, r.picture, r.placed, totalBlocks r.runs, r.failedTotal, x.crcErrs, x.timeouts⟩ ∧
        (msi = [] ∨ msi = [Output.msi]) ∧ t.sent = s.sent ++ [reads r.nextBlock] ++ msi) ∧
      ∀ i : Instr, (∃ bytes c, i = .statusResponse k bytes ∧ responseContents 1 bytes = some c ∧
          (byteAt c 0).getLsbD 0 = false) ∨ (i = .statusTimeout k ∧ tm.due s.clock = true) →
        let fallen : Slot := { x with busTier := .t0, busWide := false }
        (∀ tier, x.openBelow x.tryTier.code = some tier → exec i s = .next (finish s ((s.setSlot k { fallen with
          tryTier := tier, timer := some ⟨.setMode, ⟨s.clock, 250⟩⟩ }).emit (.card k (setModeCommand x.workWide tier))))) ∧
        (x.openBelow x.tryTier.code = none →
          let failing : ReadRec := { r with phase := .failing, owed := .rest }
          let shown : Slot := { fallen with
            timer := none
            shown := ⟨true, r.picture, r.placed, totalBlocks r.runs, r.failedTotal, x.crcErrs, x.timeouts⟩ }
          (s.channels[ch].buffer.isSome →
            exec i s = .next (finish s (s.setSlot k { shown with read := some failing }))) ∧
          (s.channels[ch].buffer = none → r.nextPos < totalBlocks r.runs →
            exec i s = .next (finish s ((s.setSlot k { shown with read := some { failing with
              nextBlock := r.nextBlock + 1, nextPos := r.nextPos + 1, attempts := 0 } }).setChannel ch
                { s.channels[ch] with buffer := some ⟨r.picture, r.nextPos, none⟩ })))))

/-- R28, R52, R62, R70 to R73: the grant of a block write of a read that waits for nothing else. After the last block of
the read the picture is COMPLETE with the block counted, the cell is ANSWERED (DONE without failed blocks, PARTIAL with),
the channel is released, group 4 is written with the read-active flag clear, and the slot is READY, or in FAULT with cause
NO_MODE and power off after a failed fall-back; a waiting release is carried out instead: STOP, power off, REMOVE_READY and
DONE. After the last block of a run the next run begins, with group 4 written: in HOLD READ_BLOCKS goes out at once; in
SHARE the channel goes to the head of the wait list and the slot to its tail, or the slot takes a free channel again (that
it takes Channel A when both are free is the model's choice, log 46). A failing read writes group 4 at a run's end too and
puts its next marker; that it keeps its channel there, in SHARE too, is the model's choice, log 19. -/
def Obligations.LastGrantEndsTheRead : Prop :=
  ∀ (s : State) (c : Fin 2) (k : Fin 4) (m : ChanMode) (b : BlockBuf) (r : ReadRec) (i : Fin 256) (p : Picture),
    let x := s.slots[k]
    s.channels[c] = ⟨some k, m, some b⟩ → x.read = some r → r.channel = some c → b.picture = r.picture →
    s.pictureAt r.picture = some (i, p) → p.state = .cardFill →
    let t := grantBlock s c
    let q : ReadRec := { r with
      placed := r.placed + 1
      failedList := if b.data = none ∧ r.failedList.length < 16 then r.failedList ++ [b.pos] else r.failedList
      failedTotal := if b.data = none then r.failedTotal + 1 else r.failedTotal }
    let shown (active : Bool) : ReadShown :=
      ⟨active, r.picture, q.placed, totalBlocks r.runs, q.failedTotal, x.crcErrs, x.timeouts⟩
    let reads (run : BlockRun) : Output := .card k (readBlocksCommand run.start run.count)
    ((r.phase = .draining ∧ r.owed = .none ∧ r.runs.length ≤ r.curRun + 1) ∨
        (r.phase = .failing ∧ r.owed = .rest ∧ totalBlocks r.runs ≤ r.nextPos) →
      s.chanWait = [] → (∀ d, x.otherCell ≠ some (.reset d)) →
      t.pictures[i].pic = some { p with
        valid := if b.data = none then p.valid else p.valid + 512
        failed := if b.data = none then p.failed + 1 else p.failed, state := .complete } ∧
      t.cells[r.cell].hand = .answered ∧
      (s.cells[r.cell].mem.wf = true → (∀ d, x.otherCell = some (.release d) → d ≠ r.cell) →
        cellByte t.cells[r.cell] 12 = (if q.failedTotal = 0 then 1 else 2)) ∧
      t.channels[c].owner = none ∧ t.channels[c].buffer = none ∧
      t.slots[k].read = none ∧ t.slots[k].timer = none ∧ t.slots[k].shown = shown false ∧
      (x.otherCell = none → r.phase = .draining → t.slots[k].state = .ready) ∧
      (x.otherCell = none → r.phase = .failing →
        t.slots[k].state = .fault ∧ t.slots[k].faultCause = .noMode ∧ t.slots[k].power = false) ∧
      (∀ d, x.otherCell = some (.release d) →
        t.slots[k].state = .removeReady ∧ t.slots[k].power = false ∧ t.slots[k].otherCell = none ∧
        t.cells[d].hand = .answered ∧ (s.cells[d].mem.wf = true → cellByte t.cells[d] 12 = 1) ∧
        t.sent = s.sent ++ [.card k [4, 0, 0, 0, 0, 0, 0, 0xFC]])) ∧
    (∀ run, r.phase = .draining → r.owed = .none → r.runs[r.curRun + 1]? = some run →
      let after : ReadRec := { q with curRun := r.curRun + 1, nextBlock := run.start, attempts := 0 }
      t.slots[k].shown = shown true ∧
      (m = .hold → t.channels = s.channels.set c ⟨some k, .hold, none⟩ ∧ t.chanWait = s.chanWait ∧
        t.slots[k].read = some { after with phase := .issuing } ∧
        t.slots[k].timer = some ⟨.readBlocks, ⟨s.clock, 250⟩⟩ ∧ t.sent = s.sent ++ [reads run]) ∧
      (∀ ch : Fin 2, m = .share → s.chanWait = [] →
        ch = (if c = 0 ∨ s.channels[(0 : Fin 2)].owner = none then 0 else 1) →
        t.channels[ch] = ⟨some k, channelMode s.settings ch, none⟩ ∧ (ch ≠ c → t.channels[c].owner = none) ∧
        t.chanWait = [] ∧ t.slots[k].read = some { after with channel := some ch, phase := .issuing } ∧
        t.slots[k].timer = some ⟨.readBlocks, ⟨s.clock, 250⟩⟩ ∧ t.sent = s.sent ++ [reads run]) ∧
      (∀ j rest, m = .share → s.chanWait = j :: rest → j ≠ k → (∀ d : Fin 2, d ≠ c → s.channels[d].owner.isSome) →
        t.channels[c] = ⟨some j, channelMode s.settings c, none⟩ ∧ t.chanWait = rest ++ [k] ∧
        t.slots[k].read = some { after with channel := none, phase := .waitChannel })) ∧
    ∀ run next, r.phase = .failing → r.owed = .rest → r.nextPos < totalBlocks r.runs →
      r.runs[r.curRun]? = some run → run.start + run.count ≤ r.nextBlock → r.runs[r.curRun + 1]? = some next →
      t.slots[k].shown = shown true ∧ t.channels[c].buffer = some ⟨r.picture, r.nextPos, none⟩ ∧
      t.slots[k].read = some { q with
        curRun := r.curRun + 1, nextBlock := next.start + 1, nextPos := r.nextPos + 1, attempts := 0 }

/-! ## Orders and pricing -/

/-- R79, R80: pricing. The size count is the sum of the copies of the items of the size that are not CANCELLED; the unit
price is the bulk price at or above a threshold that is not 0, else the base price; the total is the sum of copies times
unit price, exact; the item named by OVER_LIMIT is the first at which the running sum exceeds 99,999,999. R34, R81, R82:
ORDER_OPEN. A class above 1 and an item count out of 1 to 24 are BAD_FIELD; the first item with a value out of its list or
range is BAD_FIELD with its index and the field (which one of several: the model's choice, log 23); then the first item
whose raster is not a SEALED raster of the table is NOT_FOUND; then the first item whose crop leaves its raster is BAD_FIELD
with one of the two crop fields (which one is free, log 22). With every item passing its checks the order is refused
OVER_LIMIT or NO_ROOM, or the lowest FREE entry takes its next generation and the order OPEN with its items priced, each
raster gains a reference for each item that names it, and the answer carries handle, item count, total and unit prices.
The detail of OVER_LIMIT is the model's choice, log 23. -/
def Obligations.OrderOpenOpensAPricedOrder : Prop :=
  ((∀ (st : Settings) (items : List Item) (i : Nat) (it : Item), items[i]? = some it →
    let count := ((items.filter fun x => decide (x.state ≠ .cancelled ∧ x.size = it.size)).map (·.copies)).sum
    (priced st items)[i]? = some (if it.state = .cancelled then it else { it with
      unitPrice := price st it.size it.finish
        (decide (bulkThreshold st it.size ≠ 0 ∧ bulkThreshold st it.size ≤ count)) })) ∧
  (∀ items : List Item, orderTotal items =
    ((items.filter fun x => decide (x.state ≠ .cancelled)).map fun x => x.copies * x.unitPrice).sum) ∧
  ∀ (items : List Item) (i : Nat), (firstOver 0 0 items = none ↔ orderTotal items ≤ 99999999) ∧
    (firstOver 0 0 items = some i ↔ i < items.length ∧ orderTotal (items.take i) ≤ 99999999 ∧
      99999999 < orderTotal (items.take (i + 1)))) ∧
  (∀ (s : State) (c : Fin 64) (m : Fin 48), s.asks 5 .orderOpen c →
    let u := s.take c
    let cell := u.cells[c]
    let entries := (List.range (cell.req 5 1)).map (itemEntry cell)
    let items := priced s.settings (entries.filterMap ItemEntry.toItem)
    let gen := s.orders[m].gen + 1
    let ord : Order := {
      tag := BitVec.ofNat 32 (cell.req 0 4), cls := if cell.req 4 1 = 0 then .normal else .express, promoted := false,
      state := .opened, cancelPending := false, items := items, total := orderTotal items, authorised := 0, captured := 0,
      code := none, reason := none, openTime := s.clock, paidTime := none, firstStart := none, outcome := .none,
      failureLimit := 0, payCell := none }
    (1 < cell.req 4 1 → exec .orderOpen s = .next (finish s (u.answer c ⟨.badField, 0xFFFF01, []⟩))) ∧
    (cell.req 4 1 ≤ 1 → cell.req 5 1 < 1 ∨ 24 < cell.req 5 1 →
      exec .orderOpen s = .next (finish s (u.answer c ⟨.badField, 0xFFFF02, []⟩))) ∧
    (cell.req 4 1 ≤ 1 → 1 ≤ cell.req 5 1 → cell.req 5 1 ≤ 24 →
      let listed (e : ItemEntry) : Prop :=
        e.size ≤ 2 ∧ e.finish ≤ 1 ∧ e.rotation ≤ 3 ∧ 1 ≤ e.copies ∧ e.copies ≤ 99 ∧ 1 ≤ e.cw ∧ 1 ≤ e.ch
      let sealed (e : ItemEntry) : Prop := ∃ i p, s.pictureAt e.raster = some (i, p) ∧ p.kind = .raster ∧ p.state = .sealed
      let fits (e : ItemEntry) : Prop := ∀ i p, s.pictureAt e.raster = some (i, p) →
        e.x0 + e.cw ≤ p.width ∧ e.y0 + e.ch ≤ p.height
      (∀ i e, entries[i]? = some e → ¬ listed e → (∀ q ∈ entries.take i, listed q) →
        let field := if 2 < e.size then 1 else if 1 < e.finish then 2 else if 3 < e.rotation then 4
          else if e.copies < 1 ∨ 99 < e.copies then 3 else if e.cw = 0 then 7 else 8
        exec .orderOpen s = .next (finish s (u.answer c ⟨.badField, 3 + 256 * i + 65536 * field, []⟩))) ∧
      (∀ i e, (∀ q ∈ entries, listed q) → entries[i]? = some e → ¬ sealed e → (∀ q ∈ entries.take i, sealed q) →
        exec .orderOpen s = .next (finish s (u.answer c ⟨.notFound, 3 + 256 * i, []⟩))) ∧
      (∀ i e j p, (∀ q ∈ entries, listed q ∧ sealed q) → entries[i]? = some e → s.pictureAt e.raster = some (j, p) →
        (p.width < e.x0 + e.cw ∨ p.height < e.y0 + e.ch) → (∀ q ∈ entries.take i, fits q) →
        ∃ field, (if p.width < e.x0 + e.cw then field = 5 ∨ field = 7 else field = 6 ∨ field = 8) ∧
          exec .orderOpen s = .next (finish s (({ u with cropChoices := s.cropChoices + 1 } : State).answer c
            ⟨.badField, 3 + 256 * i + 65536 * field, []⟩))) ∧
      ((∀ e ∈ entries, e.size ≤ 2 ∧ e.finish ≤ 1 ∧ e.rotation ≤ 3 ∧ 1 ≤ e.copies ∧ e.copies ≤ 99 ∧ 1 ≤ e.cw ∧ 1 ≤ e.ch ∧
        ∃ i p, s.pictureAt e.raster = some (i, p) ∧ p.kind = .raster ∧ p.state = .sealed ∧
          e.x0 + e.cw ≤ p.width ∧ e.y0 + e.ch ≤ p.height) →
      (∀ i, firstOver 0 0 items = some i →
        exec .orderOpen s = .next (finish s (u.answer c ⟨.overLimit, 0xFF0003 + 256 * i, []⟩))) ∧
      (orderTotal items ≤ 99999999 → (∀ k : Fin 48, s.orders[k].order.isSome) →
        exec .orderOpen s = .next (finish s (u.answer c ⟨.noRoom, 0, []⟩))) ∧
      (orderTotal items ≤ 99999999 → s.orders[m].order = none → (∀ k : Fin 48, k < m → s.orders[k].order.isSome) →
        ∃ pics : Vector PicEntry 256,
          exec .orderOpen s = .next (finish s (({ u with
            pictures := pics
            orders := s.orders.set m ⟨gen, some ord⟩ } : State).answer c ⟨.done, 0,
            [BitVec.ofNat 8 m.val, gen, BitVec.ofNat 8 items.length, 0] ++ le 4 (orderTotal items) ++
              items.flatMap fun it => le 4 it.unitPrice⟩)) ∧
          items.length = cell.req 5 1 ∧
          ∀ i : Fin 256, pics[i] = { s.pictures[i] with pic := s.pictures[i].pic.map fun p => { p with
            refs := p.refs + entries.countP fun e => decide (e.raster = ⟨BitVec.ofNat 8 i.val, s.pictures[i].gen⟩) } }))))

/-- R77, R80, R83, R93: ORDER_AMEND. A handle that is not current is NOT_FOUND. Outside OPEN and SHORT it is WRONG_STATE with
the order state; a list length out of 1 to 24 is BAD_FIELD with the length field. The first change in list order that fails is
BAD_FIELD with its position: in the item index when that is at or above the item count, appeared in an earlier change or names
a CANCELLED item, in the new copies when they are above the item's. A total above 99,999,999 is OVER_LIMIT, with a detail that
is the model's choice, log 23. None of these changes anything but the cell. When all checks pass, each changed item takes its
copies, an item left with 0 becomes CANCELLED, the order is priced again, and it goes to SETTLING or CLOSED when every item is
cancelled, or from SHORT to PAID when the total is covered, with the paid time from CLOCK. The copies that this lets be selected
follow (`afterWork`, R155), as events of their own by the model's choice, log 51. -/
def Obligations.AmendRepricesTheOrder : Prop :=
  ∀ (s : State) (c : Fin 64), s.asks 5 .orderAmend c →
    let u := s.take c
    let cell := u.cells[c]
    let h := cell.reqHandle 0
    let len := cell.req 2 1
    let changes := (List.range len).map fun i => (cell.req (4 + 2 * i) 1, cell.req (5 + 2 * i) 1)
    let refuses (st : Status) (detail : Nat) : Prop :=
      exec .orderAmend s = .next (afterWork s (u.answer c ⟨st, detail, []⟩))
    (s.orderAt h = none → refuses .notFound 0xFFFF00) ∧
    ∀ (n : Fin 48) (o : Order), s.orderAt h = some (n, o) → s.cells[c].mem.wf = true →
    let items := priced s.settings (changes.foldl (fun is ch => is.modify ch.1 fun it =>
      if ch.2 = 0 then { it with copies := 0, state := .cancelled } else { it with copies := ch.2 }) o.items)
    let badIndex (p : Nat) (ch : Nat × Nat) : Prop := o.items.length ≤ ch.1 ∨
      (∃ q e, q < p ∧ changes[q]? = some e ∧ e.1 = ch.1) ∨ ∃ it, o.items[ch.1]? = some it ∧ it.state = .cancelled
    let badCopies (ch : Nat × Nat) : Prop := ∃ it, o.items[ch.1]? = some it ∧ it.copies < ch.2
    (o.state ≠ .opened → o.state ≠ .short → refuses .wrongState o.state.code) ∧
    (o.state = .opened ∨ o.state = .short →
      (len < 1 ∨ 24 < len → refuses .badField 0xFFFF01) ∧
      (1 ≤ len → len ≤ 24 →
        (∀ p ch, changes[p]? = some ch → (∀ q e, q < p → changes[q]? = some e → ¬ badIndex q e ∧ ¬ badCopies e) →
          (badIndex p ch → refuses .badField (2 + 256 * p)) ∧
          (¬ badIndex p ch → badCopies ch → refuses .badField (65538 + 256 * p))) ∧
        ((∀ p ch, changes[p]? = some ch → ¬ badIndex p ch ∧ ¬ badCopies ch) →
          (∀ i, firstOver 0 0 items = some i → refuses .overLimit (0xFF0002 + 256 * i)) ∧
          (orderTotal items ≤ 99999999 →
            ∃ t p, exec .orderAmend s = .next (afterWork s t) ∧ t.orders[n] = ⟨s.orders[n].gen, some p⟩ ∧
              t.cells[c].hand = .answered ∧ cellByte t.cells[c] 12 = 1 ∧ p.total = orderTotal items ∧
              p.items.map (fun it => (it.copies, it.unitPrice, it.state)) =
                items.map (fun it => (it.copies, it.unitPrice, it.state)) ∧
              p.state = (if items.all fun it => it.state == .cancelled then
                  (if o.authorised = 0 then .closed else .settling)
                else if o.state = .short ∧ orderTotal items ≤ o.authorised then .paid else o.state) ∧
              (p.state = .paid → p.paidTime = some s.clock ∧ p.authorised = o.authorised)))))

/-- R77, R84, R94: ORDER_PAY of an OPEN order goes to AUTHORIZING with an AUTHORIZE action at the queue's tail, or straight
to PAID with a total of 0; ORDER_RETIRE frees a CLOSED entry; other states answer WRONG_STATE, other handles NOT_FOUND.
R87, R88, R90, R93, R164: ORDER_CANCEL by the order state. In AUTHORIZING and DOUBT cancel-pending is set. OPEN goes to
CLOSED; SHORT and PAID to SETTLING with a VOID when something is authorised, else to CLOSED; PRINTING cancels every item
that is not final and goes to CANCELLING while copies are in flight, else it settles at once. Reservations of the order are
released, and with the settlement or the end its references. The copies that a payment or a cancel lets be selected follow
(`afterWork`, R155), as events of their own by the model's choice, log 51. -/
def Obligations.PayRetireAndCancelFollowTheOrderState : Prop :=
  (∀ (s : State) (c : Fin 64), let u := s.take c
    let h := u.cells[c].reqHandle 0
    (s.asks 5 .orderPay c →
      let go (t : State) : Prop := exec .orderPay s = .next (afterWork s t)
      (s.orderAt h = none → go (u.answer c ⟨.notFound, 0xFFFF00, []⟩)) ∧
      ∀ n o, s.orderAt h = some (n, o) →
        (o.state = .opened → 0 < o.total → go { u with
          orders := s.orders.set n ⟨s.orders[n].gen, some { o with state := .authorizing, payCell := some c }⟩
          pay := { s.pay with queue := s.pay.queue ++ [⟨h, .authorize, o.total, []⟩] } }) ∧
        (o.state = .opened → o.total = 0 → go (({ u with
          orders := s.orders.set n ⟨s.orders[n].gen, some { o with
            state := .paid, authorised := 0, paidTime := some s.clock, failureLimit := failureLimit s.settings }⟩
          } : State).answer c ⟨.done, 0, [4, 0, 0, 0, 0, 0, 0, 0]⟩)) ∧
        (o.state ≠ .opened → go (u.answer c ⟨.wrongState, o.state.code, []⟩))) ∧
    (s.asks 5 .orderRetire c →
      (s.orderAt h = none → exec .orderRetire s = .next (finish s (u.answer c ⟨.notFound, 0xFFFF00, []⟩))) ∧
      ∀ n o, s.orderAt h = some (n, o) →
        (o.state = .closed → exec .orderRetire s = .next (finish s
          (({ u with orders := s.orders.set n ⟨s.orders[n].gen, none⟩ } : State).answer c ⟨.done, 0, []⟩))) ∧
        (o.state ≠ .closed →
          exec .orderRetire s = .next (finish s (u.answer c ⟨.wrongState, o.state.code, []⟩)))) ∧
    (s.asks 5 .orderCancel c → s.orderAt h = none →
      exec .orderCancel s = .next (afterWork s (u.answer c ⟨.notFound, 0xFFFF00, []⟩)))) ∧
  (∀ (s : State) (c : Fin 64) (n : Fin 48) (o : Order), s.asks 5 .orderCancel c →
    let u := s.take c
    let h := u.cells[c].reqHandle 0
    let captured : Nat := if o.state = .printing then (o.items.map fun it => it.done * it.unitPrice).sum else 0
    let runs : Bool := o.state == .printing && o.items.any fun it => it.inFlight != 0
    let pays : Bool := o.state != .opened && (captured != 0 || o.authorised != 0)
    s.orderAt h = some (n, o) →
    (o.state = .authorizing ∨ o.state = .doubt → exec .orderCancel s = .next (afterWork s
      (({ u with orders := s.orders.set n ⟨s.orders[n].gen, some { o with cancelPending := true }⟩ } : State).answer c
        ⟨.done, 0, []⟩))) ∧
    (o.state = .cancelling ∨ o.state = .settling ∨ o.state = .closed →
      exec .orderCancel s = .next (afterWork s (u.answer c ⟨.wrongState, o.state.code, []⟩))) ∧
    (o.state = .opened ∨ o.state = .short ∨ o.state = .paid ∨ o.state = .printing →
      ∃ t p, exec .orderCancel s = .next (afterWork s t) ∧ t.orders[n] = ⟨s.orders[n].gen, some p⟩ ∧
        p.state = (if runs then .cancelling else if pays then .settling else .closed) ∧
        t.pay.queue = s.pay.queue ++ (if runs || !pays then []
          else if captured ≠ 0 then [⟨h, .capture, captured, o.code.getD []⟩]
          else [⟨h, .void, o.authorised, o.code.getD []⟩]) ∧
        (runs = false → ∀ it ∈ p.items, it.refHeld = false) ∧
        (runs = false → o.state = .printing → p.captured = captured) ∧
        (o.state = .printing → p.items.map (·.state) = o.items.map fun it =>
          if it.state = .waiting ∨ it.state = .active then .cancelled else it.state) ∧
        (o.state ≠ .opened → ∀ (m : Fin 3) (r : Reservation), t.reservations[m] = some r → r.order ≠ h)))

/-- R85, R86: the outcome of an authorisation. An approval of the whole total makes the order PAID, a lower one SHORT; a
decline and no terminal leave it OPEN; doubt makes it DOUBT; an approval of 0 counts as a decline. The pay cell, when one
is held, is answered with it. With cancel-pending an approval is voided and a decline closes the order. R89, R90, R91: when
the last item is final with no copy in flight, the order's captured amount is the printed copies at their unit prices, its
references are released, and a CAPTURE, a VOID or nothing is queued; the outcome of that action closes the order. -/
def Obligations.OutcomesMoveTheOrder : Prop :=
  (∀ (s : State) (h : Handle) (n : Fin 48) (o : Order), s.orderAt h = some (n, o) →
    o.state = .authorizing ∨ o.state = .doubt →
    (let moves (t : State) (p : Order) (st : Status) (detail : Nat) : Prop :=
      t.orders[n] = ⟨s.orders[n].gen, some p⟩ ∧ p.payCell = none ∧
      ∀ c, o.payCell = some c → s.cells[c].mem.wf = true → t.cells[c].hand = .answered ∧
        cellByte t.cells[c] 12 = BitVec.ofNat 8 st.code ∧ cellByte t.cells[c] 16 = BitVec.ofNat 8 detail ∧
        cellByte t.cells[c] 512 = BitVec.ofNat 8 p.state.code
    (o.cancelPending = false →
      (∀ amount code, o.total ≤ amount → 0 < amount → ∃ p, moves (authOutcome s h (.approved amount code)) p .done 0 ∧
        p = { o with state := .paid, authorised := o.total, code := some code, paidTime := some s.clock,
                     failureLimit := failureLimit s.settings, payCell := none }) ∧
      (∀ amount code, amount < o.total → 0 < amount → ∃ p, moves (authOutcome s h (.approved amount code)) p .short 0 ∧
        p = { o with state := .short, authorised := amount, code := some code, payCell := none }) ∧
      (∀ r, ∃ p, moves (authOutcome s h (.declined r)) p .declined r.toNat ∧
        p = { o with state := .opened, authorised := 0, reason := some r, payCell := none }) ∧
      ∃ p, moves (authOutcome s h .noTerminal) p .noTerminal 0 ∧
        p = { o with state := .opened, authorised := 0, payCell := none }) ∧
    (o.cancelPending = true →
      (∀ amount code, 0 < amount → 0 < o.total → ∃ p,
        moves (authOutcome s h (.approved amount code)) p (if o.total ≤ amount then .done else .short) 0 ∧
        p.state = .settling ∧ p.cancelPending = false ∧ p.authorised = min amount o.total ∧ p.code = some code ∧
        (∀ it ∈ p.items, it.refHeld = false) ∧ (authOutcome s h (.approved amount code)).pay.queue =
          s.pay.queue ++ [⟨h, .void, min amount o.total, code⟩]) ∧
      ∀ r, ∃ p, moves (authOutcome s h (.declined r)) p .declined r.toNat ∧ p.state = .closed ∧ p.outcome = .none ∧
        p.cancelPending = false ∧ p.authorised = 0 ∧ ∀ it ∈ p.items, it.refHeld = false) ∧
    (∃ p, moves (authOutcome s h .doubt) p .doubt 0 ∧ p = { o with state := .doubt, payCell := none }) ∧
    ∀ code, authOutcome s h (.approved 0 code) = authOutcome s h (.declined 0))) ∧
  (∀ (s : State) (h : Handle) (n : Fin 48) (o : Order), s.orderAt h = some (n, o) →
    let final : ItemState → Prop := fun st => st = .done ∨ st = .failed ∨ st = .cancelled
    let captured : Nat := (o.items.map fun it => it.done * it.unitPrice).sum
    ((o.state = .printing ∨ o.state = .cancelling) ∧ (∀ it ∈ o.items, final it.state ∧ it.inFlight = 0) →
      ∃ p, (checkSettle s h).orders[n] = ⟨s.orders[n].gen, some p⟩ ∧ p.captured = captured ∧
        (∀ it ∈ p.items, it.refHeld = false) ∧
        p.state = (if captured = 0 ∧ o.authorised = 0 then .closed else .settling) ∧
        (checkSettle s h).pay.queue = s.pay.queue ++ (if captured ≠ 0 then [⟨h, .capture, captured, o.code.getD []⟩]
          else if o.authorised ≠ 0 then [⟨h, .void, o.authorised, o.code.getD []⟩] else [])) ∧
    (¬ ((o.state = .printing ∨ o.state = .cancelling) ∧ ∀ it ∈ o.items, final it.state ∧ it.inFlight = 0) →
      checkSettle s h = s) ∧
    (o.state = .settling →
      settleOutcome s h .capture none =
        { s with orders := s.orders.set n ⟨s.orders[n].gen, some { o with state := .closed, outcome := .ok }⟩ } ∧
      settleOutcome s h .void none =
        { s with orders := s.orders.set n ⟨s.orders[n].gen, some { o with state := .closed, outcome := .voided }⟩ } ∧
      ∀ r, settleOutcome s h .capture (some r) = { s with
          orders := s.orders.set n ⟨s.orders[n].gen, some { o with state := .closed, outcome := .captureFailed, captured := 0 }⟩ } ∧
        settleOutcome s h .void (some r) = { s with
          orders := s.orders.set n ⟨s.orders[n].gen, some { o with state := .closed, outcome := .voided, reason := some r }⟩ }))

/-! ## The payment line -/

/-- R98, R100 to R104, R110: the receiver. A start edge on the pin begins RECEIVING, a false start and the end of a held
break return it to IDLE; a character with its stop bit is stored with its parity error; one with a framing error is stored
and the receiver resynchronises on the space, unless every sample was space, when it is a break or a framing error by what
follows; in LOOPBACK the samples are those of the character being sent. An entry is stored, or lost to a full FIFO with
OVERRUN set; in LOOPBACK the line errors are left as they were and a lost entry is counted as flagged. The model's choices:
the gates in whole milliseconds (log 6), and that in LOOPBACK every entry starts the wait of R110 anew (log 35). -/
def Obligations.ReceiverFollowsItsCharacters : Prop :=
  ∀ s : State,
    let go (p : Pay) : Host.Outcome State Fault Refusal := .next (finish s (payIdle { s with pay := p }))
    (s.pay.line = .connected → s.pay.rx = .idle →
      exec .rxStartEdge s = go { s.pay with rx := .receiving s.clock false false }) ∧
    (∀ st, s.pay.rx = .receiving st false false → s.pay.line = .connected →
      8 * s.pay.fmt.divisor * 10 / 294912 ≤ elapsed s.clock st →
        exec .rxFalseStart s = go { s.pay with rx := .idle }) ∧
    (s.pay.rx = .breakHold → exec .breakHoldEnd s = go { s.pay with rx := .idle }) ∧
    (∀ st re data par, s.pay.rx = .receiving st re false → s.pay.fmt.toStopMs re ≤ elapsed s.clock st →
      let d := if s.pay.fmt.dataBits = 7 then data &&& 0x7F else data
      let bad := s.pay.fmt.parityFails d par
      (s.pay.line = .connected ∨ (s.pay.line = .loopback ∧ ∃ b, s.pay.txChar = some b ∧
          d = (if s.pay.fmt.dataBits = 7 then b.byte &&& 0x7F else b.byte) ∧
          (s.pay.fmt.parity = .none ∨ s.pay.fmt.parityBit d = some par)) →
        exec (.rxCharacter data par true) s = go { (storeEntry s d bad false false).pay with rx := .idle }) ∧
      (s.pay.line = .connected →
        (d ≠ 0 ∨ (s.pay.fmt.parity ≠ .none ∧ par = true) → exec (.rxCharacter data par false) s =
          go { (storeEntry s d bad true false).pay with rx := .receiving s.clock true false }) ∧
        (d = 0 → (s.pay.fmt.parity = .none ∨ par = false) →
          exec (.rxCharacter data par false) s = go { s.pay with rx := .receiving st re true }))) ∧
    (∀ st re, s.pay.rx = .receiving st re true → s.pay.line = .connected →
      let full := (16 * s.pay.fmt.charBits - if re then 8 else 0) * s.pay.fmt.divisor * 10 / 294912
      (elapsed s.clock st ≤ full + 1 → exec .allSpaceFramingError s = go { (storeEntry s 0
        (decide (s.pay.fmt.parity = .odd ∨ s.pay.fmt.parity = .mark)) true false).pay with rx := .idle }) ∧
      (full ≤ elapsed s.clock st →
        exec .breakDetected s = go { (storeEntry s 0 false false true).pay with rx := .breakHold })) ∧
    ∀ b par fr brk,
      (s.pay.line = .connected → (storeEntry s b par fr brk).pay = { s.pay with
        rxFifo := if s.pay.rxFifo.length < 16 then s.pay.rxFifo ++ [⟨b, par, fr, brk, s.clock⟩] else s.pay.rxFifo
        overrun := s.pay.overrun || decide (16 ≤ s.pay.rxFifo.length)
        parityErr := s.pay.parityErr || par, framingErr := s.pay.framingErr || fr
        breakErr := s.pay.breakErr || brk }) ∧
      (s.pay.line = .loopback → (storeEntry s b par fr brk).pay = { s.pay with
        rxFifo := if s.pay.rxFifo.length < 16 then s.pay.rxFifo ++ [⟨b, par, fr, brk, s.clock⟩] else s.pay.rxFifo
        loop := s.pay.loop.map fun l => { l with
          flagged := l.flagged + (if s.pay.rxFifo.length < 16 then 0 else 1), lastSent := s.clock } })

/-- R98, R99, R100, R113, R118: the end of a character counts it in a loopback, where the receiver now has the whole of it, and
starts the answer timer of the frame whose last byte it was; the transmitter loses no byte and keeps their order, at most 16
in the FIFO and none waiting while it has room, and an idle one begins the next byte: in CONNECTED the pin carries it with
the parity bit of the format, and in LOOPBACK it starts an idle receiver. The first byte of the frame that a transaction was
started with sets its sent flag as it enters the FIFO. The model's choices: a character ends from the whole
milliseconds in its time on (log 6), and in a loopback its end brings the receiver the character whole, if no RX_CHARACTER
has, and starts the wait anew (log 35), and a pin's level is the last that a command gave (log 55). R105, R106, R107, R124: the input pins are taken in
CONNECTED: a change of TERMINAL_READY sets the latch and the absent-since time, and ALERT going away sets its latch and
brings a doubt query when the engine is free. -/
def Obligations.TransmitterAndInputPins : Prop :=
  (∀ s : State,
    (∀ b, s.pay.txChar = some b → 16 * s.pay.fmt.charBits * s.pay.fmt.divisor * 10 / 294912 ≤ elapsed s.clock s.pay.txStart →
      let d := if s.pay.fmt.dataBits = 7 then b.byte &&& 0x7F else b.byte
      let ended (p : Pay) : Host.Outcome State Fault Refusal := .next (finish s (payIdle (pumpTx { s with pay := { p with
        txChar := none
        current := p.current.map fun t => if b.last = true ∧ b.serial = t.frame ∧ t.untransmitted = true then
          { t with untransmitted := false, answerTimer := some ⟨s.clock, p.values.answerTimeout⟩ } else t
        loop := p.loop.map fun l => if l.begun then { l with sentCount := l.sentCount + 1, lastSent := s.clock } else l
        } })))
      (s.pay.line ≠ .loopback → exec .txCharacterDone s = ended s.pay) ∧
      (s.pay.line = .loopback →
        (∀ st re, s.pay.rx = .receiving st re false →
          exec .txCharacterDone s = ended { (storeEntry s d false false false).pay with rx := .idle }) ∧
        ((∀ st re, s.pay.rx ≠ .receiving st re false) → exec .txCharacterDone s = ended s.pay))) ∧
    (let p := (pumpTx s).pay
     let entered := s.pay.outBytes.take (s.pay.outBytes.length - p.outBytes.length)
     p.current = s.pay.current.map (fun t =>
       if ∃ b ∈ entered, b.first = true ∧ b.serial = t.firstFrame then { t with sent := true } else t) ∧
     p.txChar.toList ++ p.txFifo ++ p.outBytes = s.pay.txChar.toList ++ s.pay.txFifo ++ s.pay.outBytes ∧
     (s.pay.txFifo.length ≤ 16 → p.txFifo.length ≤ 16 ∧ (p.txFifo.length < 16 → p.outBytes = [])) ∧
     (s.pay.txChar = none → s.pay.line ≠ .off → ∀ b bs, s.pay.txFifo ++ s.pay.outBytes = b :: bs →
       let d := if s.pay.fmt.dataBits = 7 then b.byte &&& 0x7F else b.byte
       p.txChar = some b ∧ p.txStart = s.clock ∧
       p.rx = (if s.pay.line = .loopback ∧ s.pay.rx = .idle then .receiving s.clock false false else s.pay.rx) ∧
       (pumpTx s).sent = s.sent ++ if s.pay.line = .connected then [.character d (match s.pay.fmt.parity with
           | .none => none
           | .odd => some (decide (ones d % 2 = 0))
           | .even => some (decide (ones d % 2 = 1))
           | .mark => some true
           | .space => some false)] else []))) ∧
  (∀ (s : State) (level : Bool),
    let go (p : Pay) : Host.Outcome State Fault Refusal := .next (finish s (payIdle { s with pay := p }))
    (s.pay.line ≠ .connected → exec (.terminalReadyChange level) s = go { s.pay with readyPin := level } ∧
      exec (.alertChange level) s = go { s.pay with alertPin := level }) ∧
    (s.pay.line = .connected →
      (s.pay.present = level → exec (.terminalReadyChange level) s = go { s.pay with readyPin := level }) ∧
      (s.pay.present ≠ level → exec (.terminalReadyChange level) s = go { s.pay with
        readyPin := level, present := level, changeLatch := true
        absentSince := if level then none else some s.clock }) ∧
      (s.pay.alertLevel = false ∨ level = true →
        exec (.alertChange level) s = go { s.pay with alertPin := level, alertLevel := level }) ∧
      (s.pay.alertLevel = true → level = false →
        let edge : Pay := { s.pay with alertPin := false, alertLevel := false, alertLatch := true }
        exec (.alertChange false) s = if s.pay.current = none ∧ s.pay.loop = none ∧ s.pay.doubts ≠ [] then
          .next (finish s (payIdle (doubtQuery { s with pay := edge } false))) else go edge)))

/-- R108, R109, R130: at the end of a payment event a pending format is applied once no transaction is current, the
transmitter is idle and the receiver is not receiving, timer values once no transaction is current and no format is
pending, and a loopback that waits begins once the transmitter is idle, with READY deasserted and its pattern on the way into the receiver.
R109, R110: PAYMENT_LOOPBACK is BAD_FIELD outside 1 to 64 bytes and BUSY with a transaction or an action; each entry that
comes back is compared with the pattern and counted, and the last one, or two character times of silence, ends the loopback
with its four counts and READY asserted. The model's choices: where the silence is counted from and that pattern bytes not
yet sent are dropped at the end (log 35), the silence in whole milliseconds (log 6), a partly assembled frame that the begin
drops is not counted (log 48), a pin's level at the end is the last that a command gave (log 55). -/
def Obligations.DeferredWorkAndLoopback : Prop :=
  (∀ s : State,
    let rests := s.pay.txFifo = [] ∧ s.pay.txChar = none
    let receiving := ∃ st re al, s.pay.rx = .receiving st re al
    ((∀ l, s.pay.loop = some l → l.begun = true ∨ ¬ rests) →
      (s.pay.pendingFmt = none → s.pay.pendingValues = none → payIdle s = s) ∧
      (∀ f v, s.pay.pendingFmt = some f → s.pay.pendingValues = some v →
        (s.pay.current = none → rests → ¬ receiving → payIdle s = { s with pay := { s.pay with
          fmt := f, values := v, pendingFmt := none, pendingValues := none } }) ∧
        (s.pay.current.isSome ∨ ¬ rests ∨ receiving → payIdle s = s)) ∧
      (∀ v, s.pay.pendingFmt = none → s.pay.pendingValues = some v →
        payIdle s = if s.pay.current = none then { s with pay := { s.pay with values := v, pendingValues := none } }
                    else s)) ∧
    ∀ l, s.pay.loop = some l → l.begun = false → rests →
      let p := (payIdle s).pay
      p.line = .loopback ∧ p.fmt = s.pay.pendingFmt.getD s.pay.fmt ∧ p.pendingFmt = none ∧ p.rxFifo = [] ∧
      p.rx = (if l.length = 0 then .idle else .receiving s.clock false false) ∧ p.asm = asmHunt ∧ p.readyOut = false ∧
      p.framesDropped = s.pay.framesDropped ∧ p.present = false ∧ p.changeLatch = (s.pay.changeLatch || s.pay.present) ∧
      p.alertLevel = false ∧ p.loop = some { l with begun := true, lastSent := s.clock } ∧
      (p.txChar.toList ++ p.txFifo ++ p.outBytes).map (·.byte) = (List.range l.length).map (BitVec.ofNat 8) ∧
      (payIdle s).sent = s.sent) ∧
  (∀ s : State,
    (∀ c, s.asks 9 .paymentLoopback c → s.pay.line = .connected → s.pay.loop = none →
      let u := s.take c
      let n := u.cells[c].req 0 1
      (n < 1 ∨ 64 < n →
        exec .paymentLoopback s = .next (finish s (payIdle (u.answer c ⟨.badField, 0xFFFF00, []⟩)))) ∧
      (1 ≤ n → n ≤ 64 → (s.pay.current.isSome ∨ s.pay.queue ≠ []) →
        exec .paymentLoopback s = .next (finish s (payIdle (u.answer c ⟨.busy, 0, []⟩)))) ∧
      (1 ≤ n → n ≤ 64 → s.pay.current = none → s.pay.queue = [] →
        exec .paymentLoopback s = .next (finish s (payIdle { u with
          pay := { s.pay with loop := some ⟨c, n, false, 0, 0, 0, 0, s.clock⟩ } })))) ∧
    ∀ l, s.pay.loop = some l → l.begun = true →
      let ended (l : Loopback) : State := ({ s with pay := { s.pay with
          present := s.pay.readyPin
          changeLatch := s.pay.changeLatch || (s.pay.readyPin != s.pay.present)
          absentSince := if s.pay.readyPin = s.pay.present then s.pay.absentSince
            else if s.pay.readyPin then none else some s.clock
          rxFifo := [], rx := .idle, line := .connected, readyOut := true, alertLevel := s.pay.alertPin, loop := none
          txFifo := [], outBytes := [] } } : State).answer l.cell
        ⟨if l.received = l.length ∧ l.mismatches = 0 ∧ l.flagged = 0 then .done else .partly, 0,
          le 2 l.sentCount ++ le 2 l.received ++ le 2 l.mismatches ++ le 2 l.flagged⟩
      (∀ e rest, s.pay.rxFifo = e :: rest →
        let good := l.received < l.length ∧ e.byte.toNat = l.received
        let m : Loopback := { l with
          received := l.received + 1
          mismatches := l.mismatches + if good then 0 else 1
          flagged := l.flagged + if e.parity = true ∨ e.framing = true ∨ e.brk = true then 1 else 0 }
        exec .loopbackEntryTake s = .next (finish s (payIdle (if m.received = m.length then ended m
          else { s with pay := { s.pay with rxFifo := rest, loop := some m } })))) ∧
      (l.sentCount = l.length → s.pay.txFifo = [] → s.pay.txChar = none →
        32 * s.pay.fmt.charBits * s.pay.fmt.divisor * 10 / 294912 ≤ elapsed s.clock l.lastSent →
          exec .loopbackTimeout s = .next (finish s (payIdle (ended l)))))

/-- R111: PAYMENT_RESET empties both FIFOs, the receiver, the assembly and the sticky errors. A transaction not sent goes back
to the head of the queue, a sent one goes to doubt, a doubt query ends, and the answer says which. The model's choices: bytes of a frame that
still waited are dropped (log 30), a partly assembled frame is dropped without being counted (log 48), and a ping timer that
starts with this doubt takes its interval before new timer values come into force (log 49). -/
def Obligations.PaymentResetClearsTheLine : Prop :=
  ∀ (s : State) (c : Fin 64), s.asks 9 .paymentReset c → s.pay.line = .connected → s.pay.loop = none →
    let u := s.take c
    let p : Pay := { s.pay with
      txFifo := [], outBytes := [], rxFifo := [], rx := .idle, asm := asmHunt
      overrun := false, parityErr := false, framingErr := false, breakErr := false }
    let go (t : State) (fate : Byte) : Host.Outcome State Fault Refusal :=
      .next (finish s (payIdle (t.answer c ⟨.done, 0, [fate]⟩)))
    (s.pay.current = none → exec .paymentReset s = go { u with pay := p } 0) ∧
    ∀ t, s.pay.current = some t →
      (t.origin = .queue → t.sent = false → exec .paymentReset s = go { u with pay := { p with
        current := none, queue := ⟨t.order, t.action, t.amount, t.code⟩ :: s.pay.queue } } 1) ∧
      (t.origin = .queue → t.sent = true → exec .paymentReset s = go (
        let v : State := { u with pay := { p with
          doubts := s.pay.doubts ++ [⟨t.number, t.order, t.action, t.amount, t.code⟩], current := none
          pingTimer := if s.pay.doubts = [] then some ⟨s.clock, s.pay.values.pingInterval⟩ else s.pay.pingTimer } }
        if t.action = .authorize then authOutcome v t.order .doubt else v) 2) ∧
      (t.origin = .doubt → exec .paymentReset s = go { u with pay := { p with
        current := none, preQuery := s.pay.preQuery || t.forAction } } 3)

/-! ## Payment transactions -/

/-- R114, R128: frame assembly, entry by entry in CONNECTED. Once the inter-byte limit has passed since the frame's last
entry, the frame is dropped and counted. An entry in time goes on: in HUNT an unflagged 0xC3 begins a frame and
any other entry is thrown away; a flagged entry, a length out of 1 to 64, a wrong checksum or an unknown message drops the
frame and counts it; a break drops a frame being assembled, puts a sent transaction in doubt and ends a doubt query. The
model's choices: an entry is late by its arrival (log 38), a doubt query that a break ends does not count as done for the
action that waits (log 29), and a ping timer that starts with a doubt takes its interval before new timer values come into
force (log 49). -/
def Obligations.AssemblyTakesEntryByEntry : Prop :=
  ∀ s : State, s.pay.line = .connected → s.pay.framesDropped ≤ 65535 →
    let a := s.pay.asm
    let go (p : Pay) : Host.Outcome State Fault Refusal := .next (finish s (payIdle { s with pay := p }))
    (a.step ≠ .hunt → a.limit ≤ elapsed ((s.pay.rxFifo.head?.map (·.arrival)).getD s.clock) a.last →
      exec .interByteTimeout s = go { s.pay with asm := asmHunt, framesDropped := min 65535 (s.pay.framesDropped + 1) }) ∧
    ∀ (e : RxEntry) (rest : List RxEntry), s.pay.rxFifo = e :: rest →
    let on (b : Assembly) : Host.Outcome State Fault Refusal := go { s.pay with rxFifo := rest, asm := b }
    let dropped : Pay := { s.pay with
      rxFifo := rest, asm := asmHunt, framesDropped := min 65535 (s.pay.framesDropped + 1) }
    let plain := e.parity = false ∧ e.framing = false
    (a.step = .hunt ∨ elapsed e.arrival a.last < a.limit → e.brk = false →
      (a.step = .hunt → e.byte = 0xC3 → plain →
        exec .assemblyEntryTake s = on ⟨.length, 0, [], 0, e.arrival, s.pay.values.interByte⟩) ∧
      (a.step = .hunt → e.byte ≠ 0xC3 ∨ ¬ plain → exec .assemblyEntryTake s = on a) ∧
      (a.step ≠ .hunt → ¬ plain → exec .frameDrop s = go dropped) ∧
      (a.step = .length → plain → (1 ≤ e.byte.toNat → e.byte.toNat ≤ 64 →
          exec .assemblyEntryTake s = on { a with step := .body, len := e.byte.toNat, last := e.arrival }) ∧
        (e.byte.toNat < 1 ∨ 64 < e.byte.toNat → exec .frameDrop s = go dropped)) ∧
      (a.step = .body → plain → exec .assemblyEntryTake s = on { a with
        body := a.body ++ [e.byte], last := e.arrival
        step := if a.body.length + 1 < a.len then .body else .checkLow }) ∧
      (a.step = .checkLow → plain →
        exec .assemblyEntryTake s = on { a with step := .checkHigh, low := e.byte, last := e.arrival }) ∧
      (a.step = .checkHigh → plain →
        let good := (a.len + sumBytes a.body) % 65536 = a.low.toNat + 256 * e.byte.toNat
        (¬ good ∨ termMsgOf a.body = none → exec .frameDrop s = go dropped) ∧
        ∀ n m, good → termMsgOf a.body = some (n, m) → s.pay.headTake s.clock = some (.message n m))) ∧
    (a.step = .hunt ∨ elapsed e.arrival a.last < a.limit → e.brk = true →
      let p : Pay := if a.step = .hunt then { s.pay with rxFifo := rest, asm := asmHunt } else dropped
      (s.pay.current = none ∨ (∃ t, s.pay.current = some t ∧ t.origin = .queue ∧ t.sent = false) →
        exec .breakEntry s = go p) ∧
      ∀ t, s.pay.current = some t →
        (t.origin = .doubt → exec .breakEntry s = go { p with current := none }) ∧
        (t.origin = .queue → t.sent = true →
          exec .breakEntry s = .next (finish s (payIdle (goToDoubt { s with pay := p } t)))))

/-- R115, R119, R121, R122, R125 to R127: what a message of the terminal does. Matched with the current transaction of the
queue, with the doubt record it names, or with the record of the doubt query that runs, it resolves the action; an answer
that fits nothing is counted as stale, and a record it names keeps its place. ACCEPTED moves an AUTHORIZE to its customer
phase, once more after a query. PONG sends a doubt query when the engine is free; a PONG with a transaction's number is
the model's reading, log 28. -/
def Obligations.AnswersFindTheirTransaction : Prop :=
  ∀ (s : State) (n : Nat) (m : TermMsg), s.pay.headTake s.clock = some (.message n m) →
    let p : Pay := { s.pay with rxFifo := s.pay.rxFifo.drop 1, asm := asmHunt }
    let u : State := { s with pay := p }
    let gives (t : State) : Prop := exec (commandOf m) s = .next (afterWork s (payIdle t))
    let late (q : Pay) : State := { s with pay := { q with staleAnswers := sat16 s.pay.staleAnswers } }
    let resolves (stays : Pay) (ended : State) (order : Handle) (action : PayAction) (amount : Nat) (code : List Byte) :
        Prop :=
      match m with
      | .approved sum auth =>
        if action = .authorize then gives (authOutcome ended order (.approved sum auth)) else gives (late stays)
      | .declined r => if action = .authorize then gives (authOutcome ended order (.declined r)) else gives (late stays)
      | .unknown =>
        if action = .authorize then gives (authOutcome ended order (.declined 0))
        else gives { ended with pay := { ended.pay with queue := ended.pay.queue ++ [⟨order, action, amount, code⟩] } }
      | .completed => if action = .authorize then gives (late stays) else gives (settleOutcome ended order action none)
      | .refused r =>
        if action = .authorize then gives (late stays) else gives (settleOutcome ended order action (some r))
      | .accepted => if action = .authorize then True else gives (late stays)
      | .pong => gives (late stays)
    let without (q : Pay) : State := { s with pay := { q with
      doubts := s.pay.doubts.filter (·.number != n)
      pingTimer := if s.pay.doubts.all (·.number == n) then none else s.pay.pingTimer } }
    (∀ t, s.pay.current = some t → t.number = n → t.origin = .queue →
      resolves p { s with pay := { p with current := none, preQuery := s.pay.preQuery || t.forAction } }
        t.order t.action t.amount t.code ∧
      (m = .accepted → t.action = .authorize →
        (t.phase = .sent ∨ (t.phase = .querying ∧ t.restartUsed = false) →
          gives { s with pay := { p with current := some { t with
            phase := .customer, restartUsed := t.restartUsed || t.phase == .querying, untransmitted := false
            answerTimer := none, customerTimer := some ⟨s.clock, s.pay.values.customerLimit⟩ } } }) ∧
        (t.phase = .customer ∨ (t.phase = .querying ∧ t.restartUsed = true) → gives u))) ∧
    ((∀ t, s.pay.current = some t → t.number ≠ n) →
      (∀ d, (s.pay.doubts.find? fun d => d.number == n) = some d →
        resolves p (without p) d.order d.action d.amount d.code ∧
        (m = .accepted → d.action = .authorize → gives u)) ∧
      ((∀ d ∈ s.pay.doubts, d.number ≠ n) → m ≠ .pong → gives (late p)) ∧
      ((∀ d ∈ s.pay.doubts, d.number ≠ n) → m = .pong →
        if s.pay.current = none ∧ s.pay.loop = none ∧ s.pay.doubts ≠ [] then gives (doubtQuery u false) else gives u)) ∧
    (∀ t d, s.pay.current = some t → t.number = n → t.origin = .doubt →
      (s.pay.doubts.find? fun d => d.number == n) = some d →
        let q : Pay := { p with current := none, preQuery := s.pay.preQuery || t.forAction }
        resolves q (without q) d.order d.action d.amount d.code ∧
        (m = .accepted → d.action = .authorize → gives { s with pay := q }))

/-- R113, R115, R117, R118, R124, R196: ACTION_START with the terminal present: the action at the head of the queue becomes
the current transaction with the next number that no doubt record holds, and its frame is sent, the one whose first byte will
set the sent flag; with doubt records and no
pre-query done, a query of the oldest record is sent first. AUTHORIZE_NO_TERMINAL: the terminal absent for longer than the
answer timeout hands the order back. -/
def Obligations.ActionsStartFromTheQueue : Prop :=
  ∀ (s : State) (a : QueuedAction) (rest : List QueuedAction), s.pay.queue = a :: rest → s.running = true →
    s.pay.line = .connected → s.pay.loop = none → s.pay.current = none → s.pay.doubts.length < 4 →
    (s.pay.present = true → s.pay.doubts = [] ∨ s.pay.preQuery = true →
      ∃ t n x, exec .actionStart s = .next t ∧ t.pay.queue = rest ∧ t.pay.current = some x ∧ t.pay.preQuery = false ∧
        (∀ d ∈ s.pay.doubts, d.number ≠ n) ∧ ((∀ d ∈ s.pay.doubts, d.number ≠ s.pay.nextNumber) → n = s.pay.nextNumber) ∧
        t.pay.nextNumber = (if n < 255 then n + 1 else 1) ∧
        x.number = n ∧ x.order = a.order ∧ x.action = a.action ∧ x.amount = a.amount ∧ x.code = a.code ∧
        x.origin = .queue ∧ x.phase = .sent ∧ x.attempts = 0 ∧ x.restartUsed = false ∧ x.untransmitted = true ∧
        (let waiting (p : Pay) : List TxByte := p.txChar.toList ++ p.txFifo ++ p.outBytes
         ∃ b bs, waiting t.pay = waiting s.pay ++ b :: bs ∧ b.first = true ∧ b.serial = x.firstFrame ∧
           ∀ c ∈ bs, c.first = false) ∧
        (let body : List Byte := match a.action with
          | .authorize => [1, BitVec.ofNat 8 n] ++ le 4 a.amount ++ [a.order.index, a.order.gen]
          | .capture => [3, BitVec.ofNat 8 n] ++ a.code ++ le 4 a.amount
          | .void => [4, BitVec.ofNat 8 n] ++ a.code
         t.pay.toSend = s.pay.toSend ++ [0xC3, BitVec.ofNat 8 body.length] ++ body ++
           le 2 (sumBytes (BitVec.ofNat 8 body.length :: body)))) ∧
    (∀ d ds, s.pay.present = true → s.pay.doubts = d :: ds → s.pay.preQuery = false →
      ∃ t x, exec .actionStart s = .next t ∧ t.pay.queue = a :: rest ∧ t.pay.current = some x ∧ x.number = d.number ∧
        x.order = d.order ∧ x.action = d.action ∧ x.amount = d.amount ∧ x.origin = .doubt ∧ x.phase = .querying ∧
        x.attempts = 1 ∧ x.forAction = true ∧
        t.pay.toSend = s.pay.toSend ++ [0xC3, 2, 2, BitVec.ofNat 8 d.number] ++
          le 2 (sumBytes [2, 2, BitVec.ofNat 8 d.number])) ∧
    (∀ since, a.action = .authorize → s.pay.present = false → s.pay.absentSince = some since →
      s.pay.values.answerTimeout < elapsed s.clock since →
        exec .authorizeNoTerminal s = .next (finish s (payIdle
          (authOutcome { s with pay := { s.pay with queue := rest } } a.order .noTerminal))))

/-- R123: a transaction in doubt leaves the engine, its record joins the tail of the doubt list, the ping timer starts with
the first, its interval taken before new timer values come into force (the model's choice, log 49), and an AUTHORIZE hands
doubt to its order. R120, R124, R125, R130: an answer timeout or the customer limit is
counted and brings another QUERY, which leaves the frame that sets the sent flag as it is (R118), or doubt once the queries are used up; a doubt query's timeout leaves its record; the
ping timer starts again and sends PING when the engine is free. -/
def Obligations.PaymentTimersQueryOrDoubt : Prop :=
  (∀ (s : State) (t : Txn),
    let u : State := { s with pay := { s.pay with
      doubts := s.pay.doubts ++ [⟨t.number, t.order, t.action, t.amount, t.code⟩], current := none
      pingTimer := if s.pay.doubts = [] then some ⟨s.clock, s.pay.values.pingInterval⟩ else s.pay.pingTimer } }
    goToDoubt s t = if t.action = .authorize then authOutcome u t.order .doubt else u) ∧
  (∀ (s : State) (tm : Timer), tm.due s.clock = true →
    (∀ (t : Txn) (i : Instr), s.pay.current = some t → t.origin = .queue →
      (i = .answerTimeout ∧ t.phase ≠ .customer ∧ t.answerTimer = some tm) ∨
        (i = .customerLimitExpiry ∧ t.phase = .customer ∧ t.customerTimer = some tm) →
      (s.pay.values.queryRetries ≤ t.attempts → exec i s = .next (finish s (payIdle
        (goToDoubt { s with pay := { s.pay with timeoutsCount := sat16 s.pay.timeoutsCount } } t)))) ∧
      (t.attempts < s.pay.values.queryRetries → s.pay.loop = none →
        ∃ u x, exec i s = .next u ∧ u.pay.timeoutsCount = sat16 s.pay.timeoutsCount ∧ u.pay.current = some x ∧
          x.number = t.number ∧ x.phase = .querying ∧ x.attempts = t.attempts + 1 ∧ x.restartUsed = t.restartUsed ∧
          x.order = t.order ∧ x.action = t.action ∧ x.firstFrame = t.firstFrame ∧ (t.sent = true → x.sent = true) ∧
          x.untransmitted = true ∧ x.answerTimer = none ∧
          x.customerTimer = none ∧
          u.pay.toSend = s.pay.toSend ++ [0xC3, 2, 2, BitVec.ofNat 8 t.number] ++
            le 2 (sumBytes [2, 2, BitVec.ofNat 8 t.number]))) ∧
    (∀ t, s.pay.current = some t → t.origin = .doubt → t.answerTimer = some tm →
      exec .doubtQueryTimeout s = .next (finish s (payIdle { s with pay := { s.pay with
        current := none, preQuery := s.pay.preQuery || t.forAction
        timeoutsCount := sat16 s.pay.timeoutsCount } }))) ∧
    (s.pay.doubts ≠ [] → s.pay.pingTimer = some tm →
      let p : Pay := { s.pay with pingTimer := some ⟨s.clock, s.pay.values.pingInterval⟩ }
      (s.pay.current.isSome ∨ s.pay.line ≠ .connected ∨ s.pay.loop.isSome →
        exec .pingTimerExpiry s = .next (finish s (payIdle { s with pay := p }))) ∧
      (s.pay.current = none → s.pay.line = .connected → s.pay.loop = none →
        ∃ u, exec .pingTimerExpiry s = .next u ∧ u.pay.current = none ∧ u.pay.pingTimer = p.pingTimer ∧
          u.pay.toSend = s.pay.toSend ++ [0xC3, 2, 5, 0, 7, 0])))

/-! ## Print stations and the station link -/

/-- R133 to R135, R138: ability words. The third equal one with ACK brings the link up at the rate both know, with the
abilities noted, and the profile load begins; three that fail the check bring it down with cause ENGINE; one while the link
is up brings it down with cause PEER. R197: a word by its check, its kind and the message in progress: FIRST begins a
message and NEXT extends one, ONLY and LAST complete one, which is an engine message or is dropped, and a NEXT or LAST with
none in progress is damaged as a failed check is. R133, R134, R148, R197: what a word does while the link is not up. In the
rest of ABSENT it is noted only; else damaged words and dropped messages are counted, also in the rests of LINKING and FAULT,
and outside a rest the word brings ABSENT to LINKING and unsettles LINKING; a copy message or a PAGE is stale then, and a
status word is not taken (logs 25 and 26: the model's choice). R137: while it is up an idle word drops the message in
assembly, a FIRST or NEXT word extends it, and a damaged word or a dropped message is an error of the link window, which
brings the link down at its threshold. The model's choices: all bits of an ability word but ACK are compared (log 57), the link is up while a rate is in
force (log 24), the ribbon type
as a listed code (log 28), an ONLY between FIRST and LAST (log 53), bytes beyond a message's end (log 54). -/
def Obligations.ReceivedWordsDriveTheLink : Prop :=
  (∀ (s : State) (n : Fin 3) (w p : List Byte), s.wordFor n w = some (.ability p) →
    let x := s.stations[n]
    let noted : Station := { x with lastWord := some s.clock }
    let heard : Station := { noted with msg := none }
    let v := (byteAt p 0 &&& 0x7F) :: p.drop 1
    let count := if x.prevWord = some v then min 3 (x.settleCount + 1) else 1
    let passes := ((byteAt p 0).getLsbD 0 = true ∨ (byteAt p 0).getLsbD 1 = true) ∧ byteAt v 1 = 7
    let work (t : State) : Prop := exec (.abilityWord n w) s = .next (afterWork s t)
    let go (y : Station) : Prop := work (s.setStation n y)
    (x.rate ≠ .none → work (linkDown (s.setStation n noted) n .peer .link)) ∧
    (x.rate = .none → x.rest.isSome → x.state = .absent → go noted) ∧
    (x.rate = .none → x.rest.isSome → x.state ≠ .absent → go heard) ∧
    (x.rate = .none → x.rest = none → x.state = .absent → go { heard with
      state := .linking, settleCount := 0, prevWord := none, ack := false, exchangeTimer := some ⟨s.clock, 500⟩ }) ∧
    (x.rate = .none → x.rest = none → x.state = .linking →
      (count < 3 → go { heard with prevWord := some v, settleCount := count, ack := false }) ∧
      (count = 3 → ¬ passes → work (linkDown (s.setStation n heard) n .engine .link)) ∧
      (count = 3 → passes → (byteAt p 0).getLsbD 7 = false →
        go { heard with prevWord := some v, settleCount := 3, ack := true }) ∧
      (count = 3 → passes → (byteAt p 0).getLsbD 7 = true →
        ∃ t, work t ∧
          (let y := t.stations[n]
           y.state = .profiling ∧ y.rate = (if (byteAt p 0).getLsbD 1 then .lrB else .lrA) ∧ y.exchangeTimer = none ∧
           y.sendTimer = some ⟨s.clock, 1⟩ ∧ y.winTransfers = 0 ∧ y.winErrors = 0 ∧ y.statusSeen = false ∧ y.msg = none ∧
           y.abilities = some ⟨byteAt v 0, byteAt v 1, if (byteAt v 2).toNat < 4 then byteAt v 2 else 0, max 300 (min 1200 (fieldLe v 3 2))⟩ ∧
           (if (byteAt p 0).getLsbD 4 then
              y.load = some ⟨0, false, false, ⟨s.clock, 50⟩, 0, 0, [], []⟩ ∧ y.profile = x.profile ∧
              Output.link n (messageWords 0x24 [0, 0]) ∈ t.sent
            else y.load = none ∧ ∃ q, y.profile = some q ∧ q.ident = 0 ∧
              q.fromEngine = [false, false, false, false]))))) ∧
  (∀ (s : State) (n : Fin 3) (w : List Byte), s.running = true →
    let x := s.stations[n]
    let word (e : LinkEvent) : Prop := s.wordFor n w = some e
    let whole (bytes : List Byte) : Prop := (∀ m, engineMsgOf bytes = some m → word (.message m)) ∧
      (engineMsgOf bytes = none → word .dropped)
    (w.length = 8 → crc8 (w.take 7) ≠ byteAt w 7 → word .damaged) ∧
    ∀ p, w.length = 8 → crc8 (w.take 7) = byteAt w 7 → p = (w.drop 1).take 6 →
      let kind := (byteAt w 0).toNat
      (kind ∉ [0x00, 0x5A, 0x10, 0x11, 0x12, 0x13] → word .damaged) ∧ (kind = 0x00 → word .idle) ∧
      (kind = 0x5A → word (.ability p)) ∧ (kind = 0x10 → whole p) ∧ (kind = 0x11 → word (.part p)) ∧
      (kind = 0x12 ∨ kind = 0x13 → x.msg = none → word .damaged) ∧
      ∀ b, x.msg = some b → (kind = 0x12 → word (.part (b ++ p))) ∧ (kind = 0x13 → whole (b ++ p))) ∧
  (∀ (s : State) (n : Fin 3) (w : List Byte),
    let x := s.stations[n]
    let noted : Station := { x with lastWord := some s.clock }
    let work (i : Instr) (t : State) : Prop := exec i s = .next (afterWork s t)
    (x.rate = .none → ∀ (i : Instr) (m : Option (List Byte)) (damaged stale works : Bool),
      (i = .linkIdleWord n w ∧ s.wordFor n w = some .idle ∧ m = none ∧ damaged = false ∧ stale = false ∧ works = false) ∨
        (∃ p, i = .linkMessageWord n w ∧ s.wordFor n w = some (.part p) ∧ m = some p ∧ damaged = false ∧ stale = false ∧
          works = false) ∨
        (((i = .damagedWord n w ∧ s.wordFor n w = some .damaged) ∨ (i = .messageDrop n w ∧ s.wordFor n w = some .dropped)) ∧
          m = none ∧ damaged = true ∧ stale = false ∧ works = true) ∨
        (∃ st, i = .engineStatusWord n w ∧ s.messageFor n w = some (.status st) ∧ m = none ∧ damaged = false ∧
          stale = false ∧ works = true) ∨
        (((∃ page toggle payload sum, i = .page n w ∧ s.messageFor n w = some (.page page toggle payload sum)) ∨
            (∃ seq panel line, i = .lineRequest n w ∧ s.messageFor n w = some (.lineRequest seq panel line)) ∨
            (∃ seq panel line, i = .lineAck n w ∧ s.messageFor n w = some (.lineAck seq panel line)) ∨
            (∃ seq panel line, i = .lineNak n w ∧ s.messageFor n w = some (.lineNak seq panel line)) ∨
            (∃ seq panel, i = .panelDone n w ∧ s.messageFor n w = some (.panelDone seq panel)) ∨
            (∃ seq, i = .copyOk n w ∧ s.messageFor n w = some (.copyOk seq)) ∨
            (∃ seq reason, i = .copyFault n w ∧ s.messageFor n w = some (.copyFault seq reason))) ∧
          m = none ∧ damaged = false ∧ stale = true ∧ works = true) →
      let seen : Station := { noted with
        msg := m
        damaged := if damaged then sat16 x.damaged else x.damaged
        stales := if stale then sat16 x.stales else x.stales }
      let go (y : Station) : Prop :=
        exec i s = .next (if works then afterWork s (s.setStation n y) else finish s (s.setStation n y))
      (x.rest.isSome → x.state = .absent → go noted) ∧
      (x.rest.isSome → x.state ≠ .absent → go seen) ∧
      (x.rest = none → x.state = .absent → go { seen with
        state := .linking, settleCount := 0, prevWord := none, ack := false, exchangeTimer := some ⟨s.clock, 500⟩ }) ∧
      (x.rest = none → x.state = .linking → go { seen with settleCount := 0, prevWord := none, ack := false }) ∧
      (x.rest = none → x.state ≠ .absent → x.state ≠ .linking → go seen)) ∧
    (x.rate ≠ .none →
      let go (i : Instr) (y : Station) : Prop := exec i s = .next (finish s (s.setStation n y))
      (s.wordFor n w = some .idle → go (.linkIdleWord n w) { noted with msg := none }) ∧
      (∀ m, s.wordFor n w = some (.part m) → go (.linkMessageWord n w) { noted with msg := some m }) ∧
      ∀ i : Instr, (i = .damagedWord n w ∧ s.wordFor n w = some .damaged) ∨
          (i = .messageDrop n w ∧ s.wordFor n w = some .dropped) →
        let y : Station := { noted with msg := none, damaged := sat16 x.damaged, winErrors := x.winErrors + 1 }
        (linkThreshold s.settings ≤ x.winErrors + 1 → work i (linkDown (s.setStation n y) n .linkErrors .link)) ∧
        (x.winErrors + 1 < linkThreshold s.settings → x.winTransfers < linkWindow s.settings →
          work i (s.setStation n y))))

/-- R136, R147, R149: a link down: the state its cause gives, the rest of 500 or 1,000 ms, the profile load and the copy
ended, the reservation released, and the cell answered when the station goes to FAULT. R133, R134, R136: 10 ms without a
word take the link down, or LINKING to ABSENT; the send timer sends the ability word every millisecond, and an idle word
while the link is up; the exchange timer starts the ability exchange over; the rest's end begins again in LINKING or ABSENT.
The model's choices: the reason 0 of the copy that ends here (log 27), a message in assembly dropped (log 56), a link down while the link is down already (log 33),
energy lost at 10 whole milliseconds (log 34), an idle word at each run of the send timer and the first ability word in the
event that begins a bring-up again (log 41). -/
def Obligations.LinkDownAndTimersFollowTheirStates : Prop :=
  (∀ (s : State) (n : Fin 3) (cause : DownCause) (copyCause : CopyOutcome), cause ≠ .none →
    let t := linkDown s n cause copyCause
    let x := s.stations[n]
    let y := t.stations[n]
    let long := cause = .profile ∨ cause = .engine
    let fault := cause = .linkErrors ∨ long
    y.state = (if fault then .fault else if cause = .energy then .absent else .linking) ∧
    y.rest = some ⟨s.clock, if long then 1000 else 500⟩ ∧ y.downCause = cause ∧ y.rate = .none ∧ y.load = none ∧
    y.copy = none ∧ y.msg = none ∧ y.exchangeTimer = none ∧ y.sendTimer = none ∧ y.ack = false ∧ y.settleCount = 0 ∧
    y.faultCause = (if cause = .linkErrors then .linkErrors else if cause = .profile then .profile
      else if cause = .engine then .engine else x.faultCause) ∧
    y.downs = (if x.rate = .none then x.downs else sat16 x.downs) ∧
    (x.copy.isSome → y.outcome = copyCause ∧ y.reason = 0) ∧ t.reservations[n] = none ∧ t.sent = s.sent ∧
    (∀ c, x.takenCell = some c → if fault then y.takenCell = none ∧ t.cells[c].hand = .answered
      else y.takenCell = some c ∧ t.cells[c] = s.cells[c])) ∧
  (∀ (s : State) (n : Fin 3),
    let x := s.stations[n]
    let quiet := ∀ t, x.lastWord = some t → 10 ≤ elapsed s.clock t
    let ability (t : State) : State := { t with
      stations := t.stations.set n { t.stations[n] with sendTimer := some ⟨s.clock, 1⟩ }
      sent := t.sent ++ [.link n [partAbilityWord t.stations[n].ack]] }
    (quiet → x.rate ≠ .none → exec (.energyLoss n) s = .next (afterWork s (linkDown s n .energy .link))) ∧
    (quiet → x.rate = .none → x.state = .linking → x.rest = none → exec (.energyLoss n) s = .next (finish s
      (s.setStation n { x with state := .absent, settleCount := 0, prevWord := none, ack := false, exchangeTimer := none }))) ∧
    (∀ tm : Timer, tm.due s.clock = true →
      (x.sendTimer = some tm → x.rate = .none → exec (.abilitySendTimer n) s = .next (finish s (ability s))) ∧
      (x.sendTimer = some tm → x.rate ≠ .none → exec (.abilitySendTimer n) s = .next (finish s { s with
        stations := s.stations.set n { x with sendTimer := some ⟨s.clock, 1⟩ }
        sent := s.sent ++ [.link n [idleWord]] })) ∧
      (x.state = .linking → x.exchangeTimer = some tm → exec (.exchangeTimerExpiry n) s = .next (finish s
        (s.setStation n { x with settleCount := 0, prevWord := none, ack := false, exchangeTimer := some ⟨s.clock, 500⟩ }))) ∧
      (x.rest = some tm → ¬ quiet → exec (.restExpiry n) s = .next (finish s (ability (s.setStation n { x with
        rest := none, state := .linking, settleCount := 0, prevWord := none, ack := false
        exchangeTimer := some ⟨s.clock, 500⟩ })))) ∧
      (x.rest = some tm → quiet → x.takenCell = none → exec (.restExpiry n) s = .next (finish s
        (ability (s.setStation n { x with rest := none, state := .absent })))) ∧
      (∀ c, x.rest = some tm → quiet → x.takenCell = some c →
        ∃ t, exec (.restExpiry n) s = .next t ∧ t.stations[n].state = .absent ∧ t.stations[n].takenCell = none ∧
          t.cells[c].hand = .answered)))

/-- R149, R150: STATION_POWER and STATION_RELINK by the station state: BAD_FIELD for an unknown mode; standby from READY
without a reservation when the engine can, WAKE from STANDBY; a relink takes the link down with the cell held, after WAKE
in STANDBY, and is WRONG_STATE with a copy. WAKE sent, the link goes down. -/
def Obligations.PowerAndRelinkFollowTheStationState : Prop :=
  ∀ (s : State) (n : Fin 3) (c : Fin 64),
    let x := s.stations[n]
    let u := s.take c
    let body (y : Station) : List Byte := [BitVec.ofNat 8 y.state.code, BitVec.ofNat 8 y.rate.code, 0, 0] ++
      le 4 ((y.profile.map Profile.ident).getD 0)
    let go (i : Instr) (t : State) : Prop := exec i s = .next (finish s t)
    let work (i : Instr) (t : State) : Prop := exec i s = .next (afterWork s t)
    (x.takenCell = none → s.asks (stationList n) .stationPower c →
      let mode := u.cells[c].req 0 1
      let i := Instr.stationPower n
      (mode ≠ 1 → mode ≠ 2 → go i (u.answer c ⟨.badField, 0xFFFF00, []⟩)) ∧
      (mode = 1 → x.state ≠ .standby → go i (u.answer c ⟨.done, 0, body x⟩)) ∧
      (mode = 1 → x.state = .standby → go i { u with
        stations := s.stations.set n { x with takenCell := some c, wake := some .wake }
        sent := s.sent ++ [.link n (messageWords 0x26 [])] }) ∧
      (mode = 2 → x.state = .standby → go i (u.answer c ⟨.done, 0, body x⟩)) ∧
      (mode = 2 → x.state ≠ .standby → x.state ≠ .ready ∨ x.account.reservation.isSome →
        go i (u.answer c ⟨.wrongState, x.state.code, []⟩)) ∧
      (mode = 2 → x.state = .ready → x.account.reservation = none → ∀ a, x.abilities = some a →
        (a.flags.getLsbD 3 = false → go i (u.answer c ⟨.done, 0, body x⟩)) ∧
        (a.flags.getLsbD 3 = true → go i (({ u with
          stations := s.stations.set n { x with state := .standby }
          sent := s.sent ++ [.link n (messageWords 0x25 [])] } : State).answer c
            ⟨.done, 0, body { x with state := .standby }⟩)))) ∧
    (x.takenCell = none → s.asks (stationList n) .stationRelink c →
      let held : Station := { x with takenCell := some c }
      let i := Instr.stationRelink n
      (x.copy.isSome → work i (u.answer c ⟨.wrongState, x.state.code, []⟩)) ∧
      (x.copy = none → x.state = .standby → work i { u with
        stations := s.stations.set n { held with wake := some .relink }
        sent := s.sent ++ [.link n (messageWords 0x26 [])] }) ∧
      (x.copy = none → x.state ≠ .standby → work i (linkDown (u.setStation n held) n .relink .link))) ∧
    (∀ cause, x.wake = some cause → work (.wakeSent n) (linkDown s n cause .link))

/-- R138 to R141, R148: the profile load. A page that was asked for with its toggle is taken and the next one asked for; a
mismatch or 50 ms of silence asks again once and then takes the link down with cause PROFILE; a bad header, a bad sum or
the last region ends the load with the regions that passed; a PAGE without a load is stale. With the settings in range,
every value of the profile in use lies in its range, from the engine's region 0 or from section 4. (A PAGE while the link is
not up: O49.) -/
def Obligations.ProfileLoadsPageByPage : Prop :=
  (∀ (s : State) (n : Fin 3) (w payload : List Byte) (page sum : Nat) (toggle : Byte),
    s.messageFor n w = some (.page page toggle payload sum) → s.stations[n].rate ≠ .none →
    let x : Station := { s.stations[n] with lastWord := some s.clock, msg := none }
    let u := s.setStation n x
    let go (t : State) : Prop := exec (.page n w) s = .next (afterWork s t)
    let asking (l : Load) : State := { u with
      stations := u.stations.set n { x with load := some { l with timer := ⟨s.clock, 50⟩ } }
      sent := s.sent ++ [.link n (messageWords 0x24 [BitVec.ofNat 8 l.page, BitVec.ofNat 8 (flag l.toggle)])] }
    let ends (ident : Nat) (passed : List (List Byte)) : Prop :=
      ∃ t q, go t ∧ t.stations[n].load = none ∧ t.stations[n].profile = some q ∧
        q.ident = ident ∧ q.fromEngine = (List.range 4).map (fun i => decide (i < passed.length)) ∧
        (x.statusSeen = false → t.stations[n].state = x.state) ∧
        (∀ st, x.statusSeen = true → x.status = some st →
          t.stations[n].state = (if st.pauses then .paused else .ready) ∧ t.stations[n].takenCell = none)
    (x.load = none → go (u.setStation n { x with stales := sat16 x.stales })) ∧
    ∀ l, x.load = some l →
      (page ≠ l.page ∨ toggle.toNat ≠ flag l.toggle →
        (l.mismatch = false → go (asking { l with mismatch := true })) ∧
        (l.mismatch = true → go (linkDown u n .profile .link))) ∧
      (page = l.page → toggle.toNat = flag l.toggle →
        let further : Load := { l with page := l.page + 1, toggle := !l.toggle, mismatch := false }
        let regions := (byteAt payload 2).toNat
        (l.page = 0 → fieldLe payload 0 2 = 0x9E21 → 1 ≤ regions → regions ≤ 4 →
          go (asking { further with regions := regions, ident := fieldLe payload 4 4 })) ∧
        (l.page = 0 → fieldLe payload 0 2 ≠ 0x9E21 ∨ regions < 1 ∨ 4 < regions → ends 0 []) ∧
        (l.page ≠ 0 → l.page ≠ 2 → l.page ≠ 18 → l.page ≠ 34 → l.page ≠ 50 →
          go (asking { further with gathered := l.gathered ++ payload })) ∧
        (l.page = 2 ∨ l.page = 18 ∨ l.page = 34 ∨ l.page = 50 →
          (sumBytes (l.gathered ++ payload) % 65536 ≠ sum → ends l.ident l.passed) ∧
          (sumBytes (l.gathered ++ payload) % 65536 = sum →
            (l.passed.length + 1 < l.regions →
              go (asking { further with gathered := [], passed := l.passed ++ [l.gathered ++ payload] })) ∧
            (l.regions ≤ l.passed.length + 1 → ends l.ident (l.passed ++ [l.gathered ++ payload])))))) ∧
  ((∀ (s : State) (n : Fin 3) (l : Load), s.stations[n].load = some l → l.timer.due s.clock = true →
    (l.mismatch = false → exec (.pageTimeout n) s = .next (afterWork s { s with
      stations := s.stations.set n { s.stations[n] with
        load := some { l with mismatch := true, timer := ⟨s.clock, 50⟩ } }
      sent := s.sent ++ [.link n (messageWords 0x24 [BitVec.ofNat 8 l.page, BitVec.ofNat 8 (flag l.toggle)])] })) ∧
    (l.mismatch = true → exec (.pageTimeout n) s = .next (afterWork s (linkDown s n .profile .link)))) ∧
  ∀ (s : State) (ident : Nat) (passed : List (List Byte)), (∀ p : Fin 11, PartInRange p s.settings[p]) →
    let q := loadedProfile s ident passed
    (1 ≤ q.scalar 0 ∧ q.scalar 0 ≤ 1023) ∧ (0 ≤ q.scalar 1 ∧ q.scalar 1 ≤ 255) ∧
    (10 ≤ q.scalar 2 ∧ q.scalar 2 ≤ 60) ∧ (0 ≤ q.scalar 3 ∧ q.scalar 3 ≤ 15) ∧
    (∀ i, 4 ≤ i → i ≤ 6 → 0 ≤ q.scalar i ∧ q.scalar i ≤ q.scalar 0) ∧
    (∀ i, 7 ≤ i → i ≤ 15 → -2048 ≤ q.scalar i ∧ q.scalar i ≤ 2047) ∧
    (∀ tone ∈ [q.toneY, q.toneM, q.toneC], ∀ e ∈ tone, 0 ≤ e ∧ e ≤ 1023) ∧
    (∀ region, passed[0]? = some region → fieldLe region 0 2 ≠ 0 → q.scalar 0 = min 1023 (fieldLe region 0 2)) ∧
    (∀ region, passed[0]? = some region → fieldLe region 0 2 = 0 → q.scalar 0 = setting s.settings 4 0) ∧
    (passed = [] → q.scalars = s.settings[(4 : Fin 11)]))

/-- R142, R143, R145, R147, R149, R164: a status word. It is noted; READY and PAUSED follow its condition and PROFILING ends
with it; the media account is taken over at the first word and at a new media counter, and a reservation it can no longer
serve is released. With a copy, a pausing condition fails the copy with cause ENGINE and sends COPY_ABORT (its reason 0 is
the model's choice, log 27); a cooled head starts the panel that waited, and the pause
cause shown is NONE again (the model's choice, log 59). (One while the link is not up: O49.) -/
def Obligations.StatusWordsActByTheStationState : Prop :=
  ∀ (s : State) (n : Fin 3) (w : List Byte) (st : EngineStatus), s.messageFor n w = some (.status st) →
    s.stations[n].rate ≠ .none →
    let x := s.stations[n]
    let work (t : State) : Prop := exec (.engineStatusWord n w) s = .next (afterWork s t)
    (x.copy = none → ∃ t, work t ∧
      (let y := t.stations[n]
       y.status = some st ∧ y.statusSeen = true ∧ y.copy = none ∧
       y.state = (match x.state with
         | .ready => if st.pauses then .paused else .ready
         | .paused => if st.pauses then .paused else if st.cond = .idle then .ready else .paused
         | .profiling => if x.load.isSome then .profiling else if st.pauses then .paused else .ready
         | other => other) ∧
       (y.state = .paused → x.state = .ready ∨ x.state = .profiling ∨ st.pauses = true → y.pauseCause = st.cause) ∧
       (y.account.ribbonLeft, y.account.paperLeft, y.account.ribbon, y.account.mediaCounter) =
         (if x.statusSeen = false ∨ st.mediaCounter ≠ x.account.mediaCounter then
            (st.ribbonLeft, st.paperLeft, st.ribbon, st.mediaCounter)
          else (x.account.ribbonLeft, x.account.paperLeft, x.account.ribbon, x.account.mediaCounter)) ∧
       (s.reservations[n] = x.account.reservation →
         t.reservations[n] = (match x.account.reservation with
           | none => none
           | some r =>
             if x.statusSeen = false ∨ (st.mediaCounter ≠ x.account.mediaCounter ∧
                 (st.ribbonLeft = 0 ∨ st.paperLeft = 0 ∨ st.ribbon.takes r.size = false)) then none else some r) ∧
         y.account.reservation = t.reservations[n]))) ∧
    (∀ c, x.copy = some c → x.statusSeen = true → x.state = .printing ∨ x.state = .paused → st.pauses = true →
      ∃ t, work t ∧ t.stations[n].copy = none ∧ t.stations[n].state = .paused ∧
        t.stations[n].pauseCause = st.cause ∧ t.stations[n].outcome = .engine ∧ t.stations[n].reason = 0 ∧
        Output.link n (messageWords 0x23 (le 2 c.seq)) ∈ t.sent) ∧
    (∀ c, x.copy = some c → x.statusSeen = true → x.state = .paused → st.pauses = false →
      ∃ t, work t ∧
        (st.temp ≤ hotLimit s.settings - 3 →
          t.stations[n].state = .printing ∧ t.stations[n].pauseCause = .none ∧
          t.stations[n].copy = some { c with phase := .inPanel, nextLine := 0, failedAnswers := 0, answer := none } ∧
          Output.link n (messageWords 0x21 (le 2 c.seq ++ [BitVec.ofNat 8 c.panel.code])) ∈ t.sent ∧
          t.heads[n].temp = st.temp ∧ t.heads[n].cursor = some 0 ∧ t.heads[n].history = List.replicate 1824 0) ∧
        (hotLimit s.settings - 3 < st.temp → t.stations[n].state = .paused ∧ t.stations[n].copy = some c))

/-- R144 to R148, R178, R179: the copy's messages, while the link is up (while it is not: O49). One with another sequence number is stale. LINE_REQUEST for the next line
sends the bank that holds it, or is held until it is rendered; LINE_ACK frees the bank and moves on; PANEL_DONE starts the
next panel, waits for a hot head, or waits for COPY_OK after the overcoat; COPY_OK completes the copy; one that does not
fit the flow takes the link down with cause ENGINE, one that names another panel too (the model's choice, log 42). The panel
shown while a hot head holds its start is the next one: the model's choice, log 52. R137, R146, R147, R161,
R163, R178, R180: a copy fails by COPY_FAULT, by a request held too long, or at the third failed answer of a line, and
before that its line is sent again. The copy that ends moves its item's counters: a completed one makes an item with all its
copies DONE; a failed one is pending again, and makes its item FAILED at the order's limit, with its reservations released.
An order whose items are then all final and idle settles. The reason 0 of a copy that the part fails is the model's choice,
log 27. -/
def Obligations.CopyMessagesFollowTheFlow : Prop :=
  (∀ (s : State) (n : Fin 3) (w : List Byte),
    s.stations[n].rate ≠ .none →
    let x : Station := { s.stations[n] with lastWord := some s.clock, msg := none }
    let u := s.setStation n x
    let go (i : Instr) (t : State) : Prop := exec i s = .next (afterWork s t)
    let violation := linkDown u n .engine .engine
    (∀ (i : Instr) (seq : Nat),
      (∃ panel line, (i = .lineRequest n w ∧ s.messageFor n w = some (.lineRequest seq panel line)) ∨
        (i = .lineAck n w ∧ s.messageFor n w = some (.lineAck seq panel line)) ∨
        (i = .lineNak n w ∧ s.messageFor n w = some (.lineNak seq panel line)) ∨
        (i = .panelDone n w ∧ s.messageFor n w = some (.panelDone seq panel)) ∨
        (i = .copyOk n w ∧ s.messageFor n w = some (.copyOk seq)) ∨
        (i = .copyFault n w ∧ ∃ reason, s.messageFor n w = some (.copyFault seq reason))) →
      (∀ c, x.copy = some c → c.seq ≠ seq) → go i (u.setStation n { x with stales := sat16 x.stales })) ∧
    ∀ c, x.copy = some c →
      let h := s.heads[n]
      let tm : Option Timer := some ⟨s.clock, 20⟩
      (∀ panel line, s.messageFor n w = some (.lineRequest c.seq panel line) →
        let fits := c.phase = .inPanel ∧ panel = c.panel.code ∧ line = c.nextLine ∧ line < c.lines ∧
          c.answer = none ∧ h.held = none
        (¬ fits → go (.lineRequest n w) violation) ∧
        (∀ i : Fin 2, fits → h.banks[i].state = .ready → h.banks[i].line = line →
          (∀ j : Fin 2, j < i → ¬ (h.banks[j].state = .ready ∧ h.banks[j].line = line)) →
          go (.lineRequest n w) { u with
            heads := s.heads.set n { h with banks := h.banks.set i { h.banks[i] with state := .sending } }
            stations := u.stations.set n { x with copy := some { c with answer := tm } }
            sent := s.sent ++ [.link n (messageWords 0x22 (lineBody h.banks[i]))] }) ∧
        (fits → (∀ j : Fin 2, ¬ (h.banks[j].state = .ready ∧ h.banks[j].line = line)) →
          go (.lineRequest n w) { u with
            heads := s.heads.set n { h with held := some ⟨line, s.clock, ⟨s.clock, holdLimit s.settings⟩⟩ } })) ∧
      (∀ panel line, s.messageFor n w = some (.lineAck c.seq panel line) →
        let fits := c.answer.isSome ∧ panel = c.panel.code ∧ line = c.nextLine
        (¬ fits → go (.lineAck n w) violation) ∧
        (fits → x.winErrors < linkThreshold s.settings → ∃ t, go (.lineAck n w) t ∧
          t.stations[n].copy = some { c with nextLine := c.nextLine + 1, failedAnswers := 0, answer := none } ∧
          t.stations[n].winTransfers = (if linkWindow s.settings ≤ x.winTransfers + 1 then 0 else x.winTransfers + 1) ∧
          (∀ i : Fin 2, h.banks[i].state = .sending → (∀ j : Fin 2, j < i → h.banks[j].state ≠ .sending) →
            t.heads[n].banks[i].state = .empty))) ∧
      (∀ panel line, s.messageFor n w = some (.lineNak c.seq panel line) →
        ¬ (c.answer.isSome ∧ panel = c.panel.code ∧ line = c.nextLine) → go (.lineNak n w) violation) ∧
      (∀ panel, s.messageFor n w = some (.panelDone c.seq panel) →
        let fits := c.phase = .inPanel ∧ panel = c.panel.code ∧ c.nextLine = c.lines
        (¬ fits → go (.panelDone n w) violation) ∧
        (fits → c.panel = .o →
          go (.panelDone n w) (u.setStation n { x with copy := some { c with phase := .waitOk } })) ∧
        (∀ p st, fits → c.panel.next = some p → x.status = some st →
          (st.temp ≤ hotLimit s.settings → ∃ t, go (.panelDone n w) t ∧ t.stations[n].state = .printing ∧
            t.stations[n].copy = some { c with
              panel := p, phase := .inPanel, nextLine := 0, failedAnswers := 0, answer := none } ∧
            Output.link n (messageWords 0x21 (le 2 c.seq ++ [BitVec.ofNat 8 p.code])) ∈ t.sent) ∧
          (hotLimit s.settings < st.temp → go (.panelDone n w) (u.setStation n { x with
            state := .paused, pauseCause := .hot, copy := some { c with panel := p, phase := .waitStart } })))) ∧
      (s.messageFor n w = some (.copyOk c.seq) → c.phase ≠ .waitOk → go (.copyOk n w) violation)) ∧
  (∀ (s : State) (n : Fin 3) (c : Copy) (o : Order) (m : Fin 48) (it : Item), s.stations[n].copy = some c →
    s.orderAt c.order = some (m, o) → o.items[c.item]? = some it →
    let x := s.stations[n]
    let ends (i : Instr) (outcome : CopyOutcome) (reason : Byte) (good aborts : Bool) : Prop := ∃ t p q,
      exec i s = .next (afterWork s t) ∧
      t.stations[n].copy = none ∧ t.stations[n].outcome = outcome ∧ t.stations[n].reason = reason ∧
      (∀ st, x.status = some st → t.stations[n].state = (if st.pauses then .paused else .ready)) ∧
      t.heads[n] = resetHead ∧
      t.sent = s.sent ++ (if aborts then [.link n (messageWords 0x23 (le 2 c.seq))] else []) ∧
      t.orders[m].order = some p ∧ p.items[c.item]? = some q ∧ q.inFlight = it.inFlight - 1 ∧
      q.done = (if good then it.done + 1 else it.done) ∧
      q.failures = (if good = false ∧ it.failures < o.failureLimit then it.failures + 1 else it.failures) ∧
      q.state = (if it.state ≠ .active then it.state
        else if good then (if q.done = it.copies then .done else .active)
        else if o.failureLimit ≤ q.failures then .failed else .active) ∧
      (good = false → q.state = .failed → ∀ (k : Fin 3) r, s.reservations[k] = some r → r.order = c.order →
        r.item = c.item → t.reservations[k] = none) ∧
      (let settles := (o.state = .printing ∨ o.state = .cancelling) ∧
         ∀ a ∈ p.items, (a.state = .done ∨ a.state = .failed ∨ a.state = .cancelled) ∧ a.inFlight = 0
       let captured : Nat := (p.items.map fun a => a.done * a.unitPrice).sum
       (settles → p.captured = captured ∧ p.state = (if captured = 0 ∧ o.authorised = 0 then .closed else .settling) ∧
         t.pay.queue = s.pay.queue ++ (if captured ≠ 0 then [⟨c.order, .capture, captured, o.code.getD []⟩]
           else if o.authorised ≠ 0 then [⟨c.order, .void, o.authorised, o.code.getD []⟩] else [])) ∧
       (¬ settles → p.state = o.state ∧ t.pay.queue = s.pay.queue))
    let failed (i : Instr) (outcome : CopyOutcome) (reason : Byte) (aborts : Bool) : Prop :=
      ends i outcome reason false aborts
    (∀ w, x.rate ≠ .none → s.messageFor n w = some (.copyOk c.seq) → c.phase = .waitOk → ends (.copyOk n w) .completed 0 true false) ∧
    (∀ w reason, x.rate ≠ .none → s.messageFor n w = some (.copyFault c.seq reason) → failed (.copyFault n w) .engine reason false) ∧
    (∀ r, s.heads[n].held = some r → r.timer.due s.clock = true → failed (.lineHoldExpiry n) .underrun 0 true) ∧
    (∀ (i : Instr), x.winErrors + 1 < linkThreshold s.settings →
      (∃ tm, i = .lineAnswerTimeout n ∧ c.answer = some tm ∧ tm.due s.clock = true) ∨
        (∃ w, x.rate ≠ .none ∧ i = .lineNak n w ∧ s.messageFor n w = some (.lineNak c.seq c.panel.code c.nextLine) ∧ c.answer.isSome) →
      (2 ≤ c.failedAnswers → failed i .link 0 true) ∧
      (∀ b : Fin 2, c.failedAnswers < 2 → s.heads[n].banks[b].state = .sending →
        (∀ j : Fin 2, j < b → s.heads[n].banks[j].state ≠ .sending) →
        ∃ t, exec i s = .next (afterWork s t) ∧ t.stations[n].naks = sat16 x.naks ∧ t.heads[n] = s.heads[n] ∧
          t.stations[n].copy = some { c with failedAnswers := c.failedAnswers + 1, answer := some ⟨s.clock, 20⟩ } ∧
          Output.link n (messageWords 0x22 (lineBody s.heads[n].banks[b])) ∈ t.sent)))

/-! ## Copy dispatch and line rendering -/

/-- R155 to R159: the selection for an open station promotes orders that waited too long and reserves the first eligible
item of the first order of the ranking: priority orders first, then the oldest open time, then the lower index. R143 to
R145, R160, R167: a reserved copy starts on a READY station: the order prints, the copy is in flight, one ribbon panel set
and one sheet are taken, COPY_START is sent, and panel Y starts with its temperature factor unless the head is hot. R155,
R160, R177: what follows an event leaves no selection, no start and no line to a free engine that could still be made,
changes nothing else, and nothing where none could be made. The event ends with the starts it brings (`followUp`), and each
selection after it, with the start it leads to, is an event of its own, with its own marks, counts and revisions, made from
the state as the one before left it. The model's choices: which of these are one event (log 51), that several stations are
served in a free order (log 43), and that the pause cause shown is NONE outside PAUSED (log 59). -/
def Obligations.CopiesAreRankedReservedAndStarted : Prop :=
  (∀ (s : State) (n : Fin 3),
    let x := s.stations[n]
    let promote (o : Order) : Order :=
      if o.state = .paid ∧ o.promoted = false ∧ (o.paidTime.any fun p => decide (waitLimit s.settings < elapsed s.clock p)) = true
      then { o with promoted := true } else o
    let eligible (o : Order) (it : Item) : Prop :=
      (o.state = .paid ∨ o.state = .printing) ∧ (it.state = .waiting ∨ it.state = .active) ∧
      1 ≤ it.copies - it.done - it.inFlight - it.reserved ∧ x.account.ribbon.takes it.size = true ∧
      (it.finish = .gloss ∨ ∃ a, x.abilities = some a ∧ a.flags.getLsbD 2 = true)
    let first (m : Fin 48) (o : Order) (i : Nat) (it : Item) : Prop :=
      s.orders[m].order = some o ∧ o.items[i]? = some it ∧ eligible o it ∧
      ∀ j jt, j < i → o.items[j]? = some jt → ¬ eligible o jt
    let ahead (a b : Fin 48) (o p : Order) : Prop :=
      let po : Bool := o.cls == .express || (promote o).promoted
      let pp : Bool := p.cls == .express || (promote p).promoted
      (po = true ∧ pp = false) ∨ (po = pp ∧ (elapsed s.clock p.openTime < elapsed s.clock o.openTime ∨
        (o.openTime = p.openTime ∧ a < b)))
    s.running = true → x.state = .ready ∨ x.state = .printing → s.reservations[n] = none →
    1 ≤ x.account.ribbonLeft → 1 ≤ x.account.paperLeft →
    (∀ (m : Fin 48) (o : Order), s.orders[m].order = some o → elapsed s.clock o.openTime < 2147483648) →
    ∀ m o i it, first m o i it → (∀ k p j jt, first k p j jt → k ≠ m → ahead m k o p) →
      let r : Reservation := ⟨⟨BitVec.ofNat 8 m.val, s.orders[m].gen⟩, i, it.size, it.finish⟩
      ∃ t, exec (.copySelection n) s = .next (afterWork s t) ∧
        t.reservations = s.reservations.set n (some r) ∧
        t.stations = s.stations.set n { x with account := { x.account with reservation := some r } } ∧
        (∀ k : Fin 48, k ≠ m → t.orders[k] = { s.orders[k] with order := s.orders[k].order.map promote }) ∧
        t.orders[m] = { s.orders[m] with order := some { promote o with
          items := o.items.set i { it with
            reserved := it.reserved + 1, state := if it.state = .waiting then .active else it.state } } }) ∧
  (∀ (s : State) (n : Fin 3) (r : Reservation) (m : Fin 48) (o : Order) (it : Item) (st : EngineStatus),
    let x := s.stations[n]
    s.reservations[n] = some r → x.state = .ready → x.copy = none → x.status = some st →
    s.orderAt r.order = some (m, o) → o.items[r.item]? = some it →
    let lines := match r.size with
      | .s4 => 1240
      | .s6 => 1840
      | .s8 => 2440
    let c : Copy := { seq := x.nextSeq, order := r.order, item := r.item, size := r.size, finish := r.finish, lines := lines,
                      panel := .y, phase := .waitStart, nextLine := 0, failedAnswers := 0, answer := none }
    let started := Output.link n (messageWords 0x20
      (le 2 x.nextSeq ++ [BitVec.ofNat 8 r.size.code, BitVec.ofNat 8 r.finish.code] ++ le 2 lines))
    let account : Account := { x.account with
      ribbonLeft := x.account.ribbonLeft - 1, paperLeft := x.account.paperLeft - 1, reservation := none }
    let next := if x.nextSeq < 65535 then x.nextSeq + 1 else 1
    let taken : State := { s with
      reservations := s.reservations.set n none
      orders := s.orders.set m { s.orders[m] with order := some { o with
        state := if o.state = .paid then .printing else o.state
        firstStart := if o.state = .paid then some s.clock else o.firstStart
        items := o.items.set r.item { it with reserved := it.reserved - 1, inFlight := it.inFlight + 1 } } } }
    (st.temp ≤ hotLimit s.settings → ∃ h : Head, exec (.copyStart n) s = .next (afterWork s { taken with
        stations := s.stations.set n { x with
          state := .printing, pauseCause := .none, nextSeq := next, account := account
          copy := some { c with phase := .inPanel } }
        heads := s.heads.set n h
        sent := s.sent ++ [started, .link n (messageWords 0x21 (le 2 x.nextSeq ++ [0]))] }) ∧
      h.temp = st.temp ∧ h.cursor = some 0 ∧ h.history = List.replicate 1824 0 ∧ h.banks = s.heads[n].banks ∧
      ∀ p, x.profile = some p → h.factor =
        max 128 (min 384 (256 + p.scalar 3 * (p.scalar 2 - st.temp)))) ∧
    (hotLimit s.settings < st.temp → exec (.copyStart n) s = .next (afterWork s { taken with
        stations := s.stations.set n { x with
          state := .paused, pauseCause := .hot, nextSeq := next, account := account, copy := some c }
        sent := s.sent ++ [started] }))) ∧
  ∀ s₀ s : State,
    let t := afterWork s₀ s
    let selects (s : State) (n : Fin 3) : Prop :=
      let x := s.stations[n]
      s.running = true ∧ (x.state = .ready ∨ x.state = .printing) ∧ s.reservations[n] = none ∧
      1 ≤ x.account.ribbonLeft ∧ 1 ≤ x.account.paperLeft ∧
      ∃ (m : Fin 48) (o : Order) (it : Item), s.orders[m].order = some o ∧ it ∈ o.items ∧
        (o.state = .paid ∨ o.state = .printing) ∧ (it.state = .waiting ∨ it.state = .active) ∧
        1 ≤ it.copies - it.done - it.inFlight - it.reserved ∧ x.account.ribbon.takes it.size = true ∧
        (it.finish = .gloss ∨ ∃ a, x.abilities = some a ∧ a.flags.getLsbD 2 = true)
    let starts (s : State) (n : Fin 3) : Prop :=
      s.stations[n].state = .ready ∧ s.stations[n].copy = none ∧ s.reservations[n].isSome
    let renders (s : State) (n : Fin 3) : Prop := s.job = none ∧ s.waitsToRender n = true
    let follows (p q : State) : Prop :=
      q = { p with orders := q.orders, reservations := q.reservations, stations := q.stations, heads := q.heads,
                   job := q.job, sent := q.sent, stationChoices := q.stationChoices }
    (∀ n, ¬ selects t n ∧ ¬ starts t n ∧ ¬ renders t n) ∧
    ((∀ n, ¬ selects s n ∧ ¬ starts s n ∧ ¬ renders s n) → t = finish s₀ s) ∧
    follows s (followUp s) ∧ (∀ n, ¬ starts (followUp s) n ∧ ¬ renders (followUp s) n) ∧
    t = selectAll 6 (finish s₀ (followUp s)) ∧
    (∀ (f : Nat) (u : State), (∀ n, ¬ selects u n) → selectAll f u = u) ∧
    ∀ (f : Nat) (u : State), (∃ n, selects u n) → ∃ (n : Fin 3) (v : State), selects u n ∧
      v = { u with stationChoices := v.stationChoices } ∧ ((∀ m, selects u m → m = n) → v = u) ∧
      selectAll (f + 1) u = selectAll f (finish v (startIfDue (selectCopy v n) n)) ∧
      follows u (startIfDue (selectCopy v n) n)

/-- R175 to R178: the arbiter chooses the waiting station with the fewest READY banks, a held request before others and
the earliest held request first, and then the lower number; the line at its cursor goes into its EMPTY bank. R173: an overcoat line has its finish energy in
every dot, scaled by the factor; a request held for the line is answered with it. R168: the pixel of a dot by the crop and
the rotation, always inside the crop. R169 to R172, R176: a colour line's pulses and history, dot by dot. -/
def Obligations.LinesAreArbitratedAndRendered : Prop :=
  ((∀ (s : State) (n : Fin 3), s.renderChoice = some n →
    s.waitsToRender n = true ∧ (∀ k : Fin 3, s.waitsToRender k = true → s.heads[n].readyBanks ≤ s.heads[k].readyBanks) ∧
    (∀ k : Fin 3, s.waitsToRender k = true → s.heads[n].readyBanks = s.heads[k].readyBanks →
      (s.heads[n].held = none → s.heads[k].held = none ∧ n ≤ k) ∧
      ∀ r q, s.heads[n].held = some r → s.heads[k].held = some q →
        (∀ (j : Fin 3) p, s.heads[j].held = some p → elapsed s.clock p.arrival < 2147483648) →
        elapsed s.clock q.arrival ≤ elapsed s.clock r.arrival ∧ (q.arrival = r.arrival → n ≤ k))) ∧
  (∀ (s : State) (n : Fin 3) (c : Copy) (l : Nat) (i : Fin 2), s.job = none → s.renderChoice = some n →
    s.stations[n].copy = some c → s.heads[n].cursor = some l → s.heads[n].banks[i].state = .empty →
    (∀ j : Fin 2, j < i → s.heads[n].banks[j].state ≠ .empty) →
    let h := s.heads[n]
    exec .renderGrant s = .next (finish s { s with
      heads := s.heads.set n { h with banks := h.banks.set i ⟨.filling, c.seq, c.panel, l, []⟩, cursor := some (l + 1) }
      job := some ⟨n, c.seq, c.panel, l, i, s.runsFor c l, []⟩ })) ∧
  ∀ (s : State) (j : RenderJob) (c : Copy) (p : Profile), s.job = some j → j.panel = .o →
    s.stations[j.station].copy = some c → s.stations[j.station].profile = some p →
    let h := s.heads[j.station]
    let energy (d : Nat) : Int := match c.finish with
      | .gloss => p.scalar 4
      | .matte => if (d + j.line) % 2 = 0 then p.scalar 5 else p.scalar 6
    let values := (List.range 1824).map fun d =>
      (max 0 (min (p.scalar 0) (Int.fdiv (energy d * h.factor + 128) 256))).toNat
    let bank (st : BankState) : Bank := ⟨st, j.seq, .o, j.line, values⟩
    ((∀ r, h.held = some r → r.line ≠ j.line) → exec .overcoatLineCompletion s = .next (finish s (renderGrant { s with
      job := none
      heads := s.heads.set j.station { h with banks := h.banks.set j.bank (bank .ready) } }))) ∧
    (∀ r, h.held = some r → r.line = j.line → exec .overcoatLineCompletion s = .next (finish s (renderGrant { s with
      job := none
      heads := s.heads.set j.station { h with banks := h.banks.set j.bank (bank .sending), held := none }
      stations := s.stations.set j.station { s.stations[j.station] with copy := some { c with answer := some ⟨s.clock, 20⟩ } }
      sent := s.sent ++ [.link j.station (messageWords 0x22 (le 2 j.seq ++ [3] ++ le 2 j.line ++ values.flatMap (le 2)))] })))) ∧
  ((∀ (it : Item) (lines d l : Nat), d < 1824 → l < lines → 1 ≤ it.cw → 1 ≤ it.ch →
    let turned := it.rotation = .r90 ∨ it.rotation = .r270
    let u := d * (if turned then it.ch else it.cw) / 1824
    let v := l * (if turned then it.cw else it.ch) / lines
    let q := samplePixel it lines d l
    (it.x0 ≤ q.1 ∧ q.1 < it.x0 + it.cw ∧ it.y0 ≤ q.2 ∧ q.2 < it.y0 + it.ch) ∧
    q = (match it.rotation with
      | .r0 => (it.x0 + u, it.y0 + v)
      | .r90 => (it.x0 + v, it.y0 + (it.ch - 1 - u))
      | .r180 => (it.x0 + (it.cw - 1 - u), it.y0 + (it.ch - 1 - v))
      | .r270 => (it.x0 + (it.cw - 1 - v), it.y0 + u))) ∧
  ∀ (s : State) (j : RenderJob) (c : Copy) (p : Profile) (it : Item), s.stations[j.station].copy = some c →
    s.stations[j.station].profile = some p → s.itemOf c = some it → j.panel ≠ .o → s.heads[j.station].held = none →
    let h := s.heads[j.station]
    let k := match j.panel with
      | .c => 7
      | .m => 10
      | .y => 13
      | .o => 16
    let tone := match j.panel with
      | .y => p.toneY
      | .m => p.toneM
      | .c => p.toneC
      | .o => []
    let t := completeLine s j
    let b := t.heads[j.station].banks[j.bank]
    b.state = .ready ∧ b.seq = j.seq ∧ b.panel = j.panel ∧ b.line = j.line ∧ b.values.length = 1824 ∧
    t.heads[j.station].history.length = 1824 ∧
    ∀ d, d < 1824 → ∀ px, (j.fetched.find? fun q => decide ((q.x, q.y) = samplePixel it c.lines d j.line)) = some px →
      let dens := max 0 (min 255 (Int.fdiv (p.scalar k * (255 - px.r.toNat : Int) + p.scalar (k + 1) * (255 - px.g.toNat : Int) +
        p.scalar (k + 2) * (255 - px.b.toNat : Int) + 512) 1024))
      let e1 := tone.getD dens.toNat 0 - Int.fdiv (p.scalar 1 * h.history.getD d 0) 256
      let pulse := (max 0 (min (p.scalar 0) (Int.fdiv (e1 * h.factor + 128) 256))).toNat
      b.values.getD d 0 = pulse ∧ t.heads[j.station].history.getD d 0 = (3 * h.history.getD d 0 + pulse) / 4)

/-- R169 and R170 whole: the density of a dye from the inverted inputs and the row of the matrix, rounded toward minus
infinity and clamped to 0 to 255; the tone entry less the allowance for heat, exact and signed; at line 0 of a panel the
history is 0. -/
def Obligations.DensityAndHeatAllowance : Prop :=
  (∀ (a1 a2 a3 : Int) (r g b : Byte), -2048 ≤ a1 → a1 ≤ 2047 → -2048 ≤ a2 → a2 ≤ 2047 → -2048 ≤ a3 → a3 ≤ 2047 →
    let c0 : Int := 255 - r.toNat
    let m0 : Int := 255 - g.toNat
    let y0 : Int := 255 - b.toNat
    let sum := a1 * c0 + a2 * m0 + a3 * y0 + 512
    density a1 a2 a3 r g b = max 0 (min 255 (Int.fdiv sum 1024)) ∧ (sum < 0 → density a1 a2 a3 r g b = 0) ∧
    (-1600000 ≤ sum ∧ sum ≤ 1600000) ∧ density 1024 0 0 r g b = c0 ∧ density 0 1024 0 r g b = m0 ∧
    density 0 0 1024 r g b = y0) ∧
  (∀ (p : Profile) (panel : Panel) (px : Pixel),
    px.density p .c = density (p.scalar 7) (p.scalar 8) (p.scalar 9) px.r px.g px.b ∧
    px.density p .m = density (p.scalar 10) (p.scalar 11) (p.scalar 12) px.r px.g px.b ∧
    px.density p .y = density (p.scalar 13) (p.scalar 14) (p.scalar 15) px.r px.g px.b ∧
    (∀ (factor dens : Int) (h : Nat), 0 ≤ dens → dens ≤ 255 → 0 ≤ p.scalar 1 → p.scalar 1 ≤ 255 → h ≤ 1023 →
      (∀ e ∈ p.tone panel, 0 ≤ e ∧ e ≤ 1023) →
      let e0 := (p.tone panel).getD dens.toNat 0
      let allowance := Int.fdiv (p.scalar 1 * h) 256
      let e1 := afterHistory (p.scalar 1) e0 h
      e1 = e0 - allowance ∧ (0 ≤ allowance ∧ allowance ≤ 1019) ∧ (-1019 ≤ e1 ∧ e1 ≤ 1023) ∧ (h = 0 → e1 = e0) ∧
      colourPulse p panel factor dens h = pulse (p.scalar 0) (scaled factor e1)) ∧
    ∀ (th : Nat) (hd : Head) (d : Nat), (panelHead (some p) th hd).history.getD d 0 = 0)

/-! ## Settings -/

/-- R108, R130, R183, R185, R186: SETTINGS_READ and SETTINGS_WRITE: BAD_FIELD for an unknown section or part; a read answers
the part in force; a write with an undefined enumerated value is BAD_FIELD, and otherwise every numeric field is clamped,
the part replaced and the clamped fields listed; section 1 hands the format and the timer values to the payment side. -/
def Obligations.SettingsAreReadAndClamped : Prop :=
  ∀ (s : State) (c : Fin 64),
    let u := s.take c
    let sec := u.cells[c].req 0 1
    let part := u.cells[c].req 1 1
    (∀ i : Instr, (i = .settingsRead ∧ s.asks 10 .settingsRead c) ∨ (i = .settingsWrite ∧ s.asks 10 .settingsWrite c) →
      (4 < sec → exec i s = .next (finish s (u.answer c ⟨.badField, 0xFFFF00, []⟩))) ∧
      (sec ≤ 4 → partOf sec part = none → exec i s = .next (finish s (u.answer c ⟨.badField, 0xFFFF01, []⟩)))) ∧
    ∀ p : Fin 11, partOf sec part = some p →
      (s.asks 10 .settingsRead c →
        exec .settingsRead s = .next (finish s (u.answer c ⟨.done, 0, partBytes p s.settings[p]⟩))) ∧
      (s.asks 10 .settingsWrite c →
        let raw := readFields (partSpec p) (u.cells[c].reqBytes 4 (partLength p))
        (∀ i, firstBadEnum (partSpec p) raw = some i →
          exec .settingsWrite s = .next (finish s (u.answer c ⟨.badField, 0xFF02 + 65536 * i, []⟩))) ∧
        (firstBadEnum (partSpec p) raw = none →
          ∃ vals : List Int, PartInRange p vals ∧
            (∀ (i : Nat) (f : FieldSpec) (v : Int), (partSpec p)[i]? = some f → raw[i]? = some v → vals[i]? = some (match f.kind with
              | .enum _ => v
              | .num lo hi => max lo (min hi v)
              | .energy => max 0 (min (max 1 (min 1023 (raw.getD 0 0))) v))) ∧
            (let changed := (List.range raw.length).filter fun i => decide (raw[i]? ≠ vals[i]?)
             let answered (t : State) : State := t.answer c ⟨.done, changed.length,
               (BitVec.ofNat 8 changed.length :: changed.map (BitVec.ofNat 8)) ++
                 List.replicate (255 - changed.length) 0 ++ partBytes p vals⟩
             let w : State := { u with settings := s.settings.set p vals }
             (p ≠ 1 → exec .settingsWrite s = .next (finish s (answered w))) ∧
             (p = 1 → exec .settingsWrite s = .next (finish s (answered (payIdle { w with pay := { s.pay with
               pendingFmt := if settingsFormat w.settings = s.pay.fmt then none else some (settingsFormat w.settings)
               pendingValues := some (settingsPayValues w.settings) } })))))))

/-- R188, R200: SETTINGS_STORE takes a snapshot and writes it page by page, sections first and the header last, and is BUSY
during a store. The last acknowledge answers DONE; a byte or a poll not acknowledged stops the store with PARTIAL, its
offset and the sections written whole: where it stops and what its answer counts is the model's choice, log 31. -/
def Obligations.StoreWritesPageByPage : Prop :=
  ∀ s : State,
    (∀ c, s.asks 10 .settingsStore c →
      (s.store.isSome → exec .settingsStore s = .next (finish s ((s.take c).answer c ⟨.busy, 0, []⟩))) ∧
      (s.store = none → exec .settingsStore s = .next (finish s { s.take c with
        store := some ⟨c, s.settings, 4, false, ⟨s.clock, 10⟩⟩
        sent := s.sent ++ [.eeprom 4 ((sectionsImage s.settings).take 28)] }))) ∧
    ∀ st, s.store = some st →
      let written (bytes : List Byte) : State := { s with eeprom := s.eeprom.writeBytes st.page bytes }
      let poll : Timer := ⟨s.clock, 10⟩
      (st.header = false → 4 ≤ st.page → st.page < 1677 →
        let stop := min ((st.page / 32 + 1) * 32) 1677
        let bytes := ((sectionsImage st.image).drop (st.page - 4)).take (stop - st.page)
        (stop < 1677 → exec .storePageAck s = .next (finish s { written bytes with
          store := some { st with page := stop, poll := poll }
          sent := s.sent ++ [.eeprom stop (((sectionsImage st.image).drop (stop - 4)).take (min 32 (1677 - stop)))] })) ∧
        (stop = 1677 → exec .storePageAck s = .next (finish s { written bytes with
          store := some { st with page := 0, header := true, poll := poll }
          sent := s.sent ++ [.eeprom 0 [0xC1, 0x5A, 5, 0]] })) ∧
        ∀ n, n < bytes.length ∨ (n = bytes.length ∧ st.poll.due s.clock = true) →
          ∃ whole, exec (.storePollTimeout n) s = .next (finish s (({ written (bytes.take n) with store := none } : State).answer
            st.cell ⟨.partly, 0, le 2 (st.page + n - 4) ++ [1, BitVec.ofNat 8 whole] ++ le 2 (st.page + n)⟩)) ∧
            whole ≤ 5 ∧ ∀ k : Fin 5, (k.val < whole ↔
              4 + (((List.finRange 5).filter (· ≤ k)).map fun j => sectionLength j + 3).sum ≤ st.page + n)) ∧
      (st.header = true → st.page = 0 →
        exec .storePageAck s = .next (finish s (({ written [0xC1, 0x5A, 5, 0] with store := none } : State).answer
          st.cell ⟨.done, 0, le 2 1677 ++ [0, 5] ++ le 2 0⟩)) ∧
        ∀ n, n < 4 ∨ (n = 4 ∧ st.poll.due s.clock = true) →
          exec (.storePollTimeout n) s = .next (finish s (({ written ([0xC1, 0x5A, 5, 0].take n) with
            store := none } : State).answer st.cell ⟨.partly, 0, le 2 (1673 + n) ++ [1, 5] ++ le 2 n⟩)))

/-- R184, R188, R199, R200: what a complete store wrote, autoload reads back: the same sections, source 4. -/
def Obligations.AutoloadReadsBackACompleteStore : Prop :=
  ∀ (img : Settings) (m : Mem) (acked : Nat), (∀ p : Fin 11, PartInRange p img[p]) → m.wf = true → 1677 ≤ acked →
    autoloaded ((m.writeBytes 4 (sectionsImage img)).writeBytes 0 headerBytes) acked = (img, some 4)
end

