-- ==== Sys2Proof/Laws/Memory.lean ====
section
/-! SUPPORT. Byte memories: every write keeps the canonical form, a byte reads as it was written, and a write leaves
every other byte alone. -/

namespace Sys2Proof.Machine

theorem Mem.wfAbove_mono {lo hi : Nat} {m : Mem} (h : lo ≤ hi) (w : Mem.wfAbove hi m = true) : Mem.wfAbove lo m = true := by
  cases m with
  | nil => rfl
  | cons c t =>
    obtain ⟨k, v⟩ := c
    simp only [Mem.wfAbove, Bool.and_eq_true, decide_eq_true_eq] at w ⊢
    exact ⟨⟨Nat.le_trans h w.1.1, w.1.2⟩, w.2⟩

theorem Mem.read_below {lo a : Nat} {m : Mem} (w : Mem.wfAbove lo m = true) (h : a < lo) : m.read a = 0 := by
  induction m generalizing lo with
  | nil => rfl
  | cons c t ih =>
    obtain ⟨k, v⟩ := c
    simp only [Mem.wfAbove, Bool.and_eq_true, decide_eq_true_eq] at w
    have hk : k ≠ a := by omega
    simpa [Mem.read, hk] using ih w.2 (by omega)

theorem Mem.write_wfAbove {lo a : Nat} {b : Byte} {m : Mem} (w : Mem.wfAbove lo m = true) (h : lo ≤ a) :
    Mem.wfAbove lo (m.write a b) = true := by
  induction m generalizing lo with
  | nil =>
    simp only [Mem.write]
    split <;> simp_all [Mem.wfAbove]
  | cons c t ih =>
    obtain ⟨k, v⟩ := c
    have w' := w
    simp only [Mem.wfAbove, Bool.and_eq_true, decide_eq_true_eq] at w
    simp only [Mem.write]
    split
    · split
      · exact w'
      · simp only [Mem.wfAbove, Bool.and_eq_true, decide_eq_true_eq]
        exact ⟨⟨h, by assumption⟩, ⟨⟨by omega, w.1.2⟩, w.2⟩⟩
    · split
      · split
        · exact Mem.wfAbove_mono (by omega) w.2
        · simp only [Mem.wfAbove, Bool.and_eq_true, decide_eq_true_eq]
          subst_vars
          exact ⟨⟨h, by assumption⟩, w.2⟩
      · simp only [Mem.wfAbove, Bool.and_eq_true, decide_eq_true_eq]
        exact ⟨w.1, ih w.2 (by omega)⟩

/-- A write keeps the canonical form. -/
theorem Mem.write_wf {m : Mem} (w : m.wf = true) (a : Nat) (b : Byte) : (m.write a b).wf = true :=
  Mem.write_wfAbove w (Nat.zero_le a)

theorem Mem.writeBytes_wf {m : Mem} (w : m.wf = true) (a : Nat) (bs : List Byte) : (m.writeBytes a bs).wf = true := by
  induction bs generalizing m a with
  | nil => exact w
  | cons b t ih => exact ih (Mem.write_wf w a b) (a + 1)

theorem Mem.writeEnabled_wf {m : Mem} (w : m.wf = true) (a : Nat) (v : Word) (en : BitVec 4) :
    (m.writeEnabled a v en).wf = true := by
  unfold Mem.writeEnabled
  induction (List.range 4) generalizing m with
  | nil => exact w
  | cons i t ih =>
    simp only [List.foldl_cons]
    apply ih
    split
    · exact Mem.write_wf w _ _
    · exact w

theorem Mem.read_write_above {lo a x : Nat} {b : Byte} {m : Mem} (w : Mem.wfAbove lo m = true) :
    (m.write a b).read x = if x = a then b else m.read x := by
  induction m generalizing lo with
  | nil =>
    by_cases hx : x = a
    · by_cases hb : b = 0#8 <;> simp [Mem.write, Mem.read, hb, hx]
    · have hx' : a ≠ x := fun h => hx h.symm
      by_cases hb : b = 0#8 <;> simp [Mem.write, Mem.read, hb, hx, hx']
  | cons c t ih =>
    obtain ⟨k, v⟩ := c
    simp only [Mem.wfAbove, Bool.and_eq_true, decide_eq_true_eq] at w
    have below : ∀ y, y < k + 1 → Mem.read t y = 0 := fun y hy => Mem.read_below w.2 hy
    by_cases hx : x = a
    · subst hx
      by_cases h1 : x < k
      · have hk : k ≠ x := by omega
        by_cases hb : b = 0#8 <;> simp [Mem.write, Mem.read, h1, hb, hk, below x (by omega)]
      · by_cases h2 : x = k
        · subst h2
          by_cases hb : b = 0#8 <;> simp [Mem.write, Mem.read, hb, below x (by omega)]
        · have hk : k ≠ x := fun h => h2 h.symm
          simp [Mem.write, Mem.read, h1, h2, hk, ih w.2]
    · have hx' : a ≠ x := fun h => hx h.symm
      by_cases h1 : a < k
      · by_cases hb : b = 0#8 <;> simp [Mem.write, Mem.read, h1, hb, hx, hx']
      · by_cases h2 : a = k
        · subst h2
          by_cases hb : b = 0#8 <;> simp [Mem.write, Mem.read, hb, hx, hx']
        · simp [Mem.write, Mem.read, h1, h2, hx, ih w.2]

/-- A byte reads as it was last written, and a write leaves every other byte alone. -/
theorem Mem.read_write {m : Mem} (w : m.wf = true) (a x : Nat) (b : Byte) :
    (m.write a b).read x = if x = a then b else m.read x := Mem.read_write_above w

theorem Mem.read_writeBytes {m : Mem} (w : m.wf = true) (a x : Nat) (bs : List Byte) :
    (m.writeBytes a bs).read x = if a ≤ x ∧ x < a + bs.length then bs.getD (x - a) 0 else m.read x := by
  induction bs generalizing m a with
  | nil =>
    have : ¬ (a ≤ x ∧ x < a) := by omega
    simp [Mem.writeBytes, this]
  | cons b t ih =>
    rw [Mem.writeBytes, ih (Mem.write_wf w a b), Mem.read_write w]
    simp only [List.length_cons]
    by_cases h1 : a + 1 ≤ x ∧ x < a + 1 + t.length
    · have h2 : a ≤ x ∧ x < a + (t.length + 1) := by omega
      have h3 : x - a = (x - (a + 1)) + 1 := by omega
      rw [if_pos h1, if_pos h2, h3]
      simp
    · rw [if_neg h1]
      by_cases h2 : x = a
      · subst h2
        simp
      · have h3 : ¬ (a ≤ x ∧ x < a + (t.length + 1)) := by omega
        rw [if_neg h2, if_neg h3]

/-- The canonical form makes equal contents equal data. -/
theorem Mem.ext_above {lo : Nat} {m n : Mem} (hm : Mem.wfAbove lo m = true) (hn : Mem.wfAbove lo n = true)
    (h : ∀ a, m.read a = n.read a) : m = n := by
  induction m generalizing lo n with
  | nil =>
    cases n with
    | nil => rfl
    | cons c t =>
      obtain ⟨k, v⟩ := c
      have := h k
      simp only [Mem.wfAbove, Bool.and_eq_true, decide_eq_true_eq] at hn
      simp [Mem.read] at this
      exact absurd this.symm hn.1.2
  | cons c t ih =>
    obtain ⟨k, v⟩ := c
    simp only [Mem.wfAbove, Bool.and_eq_true, decide_eq_true_eq] at hm
    cases n with
    | nil =>
      have := h k
      simp [Mem.read] at this
      exact absurd this hm.1.2
    | cons d u =>
      obtain ⟨j, w⟩ := d
      simp only [Mem.wfAbove, Bool.and_eq_true, decide_eq_true_eq] at hn
      have hjk : k = j := by
        rcases Nat.lt_trichotomy k j with hlt | heq | hgt
        · have := h k
          have hr : Mem.read u k = 0 := Mem.read_below hn.2 (by omega)
          have hne : j ≠ k := by omega
          simp [Mem.read, hne, hr] at this
          exact absurd this hm.1.2
        · exact heq
        · have := h j
          have hr : Mem.read t j = 0 := Mem.read_below hm.2 (by omega)
          have hne : k ≠ j := by omega
          simp [Mem.read, hne, hr] at this
          exact absurd this.symm hn.1.2
      subst hjk
      have hv : v = w := by simpa [Mem.read] using h k
      subst hv
      have : t = u := ih hm.2 hn.2 fun a => by
        by_cases ha : k = a
        · subst ha
          rw [Mem.read_below hm.2 (by omega), Mem.read_below hn.2 (by omega)]
        · simpa [Mem.read, ha] using h a
      rw [this]

theorem Mem.ext_read {m n : Mem} (hm : m.wf = true) (hn : n.wf = true) (h : ∀ a, m.read a = n.read a) : m = n :=
  Mem.ext_above hm hn h

theorem reset_memories : State.reset.dram.wf = true ∧ State.reset.eeprom.wf = true ∧
    ∀ c : Fin 64, State.reset.cells[c].mem.wf = true := by
  refine ⟨rfl, rfl, fun c => ?_⟩
  simp [State.reset, clearCell, Mem.wf, Mem.wfAbove]

end Sys2Proof.Machine
end

