-- ==== Sys2Proof/Laws/State.lean ====
section
/-! SUPPORT. What each update of one part of the state leaves in each field, and how the parts are read back. -/

namespace Sys2Proof.Machine

/-! ## `State.emit` -/

@[simp] theorem State.emit_pending (s : State) (o : Output) : (s.emit o).pending = s.pending := rfl
@[simp] theorem State.emit_clock (s : State) (o : Output) : (s.emit o).clock = s.clock := rfl
@[simp] theorem State.emit_running (s : State) (o : Output) : (s.emit o).running = s.running := rfl
@[simp] theorem State.emit_irqEnable (s : State) (o : Output) : (s.emit o).irqEnable = s.irqEnable := rfl
@[simp] theorem State.emit_attentionMask (s : State) (o : Output) : (s.emit o).attentionMask = s.attentionMask := rfl
@[simp] theorem State.emit_stray (s : State) (o : Output) : (s.emit o).stray = s.stray := rfl
@[simp] theorem State.emit_started (s : State) (o : Output) : (s.emit o).started = s.started := rfl
@[simp] theorem State.emit_strayWindow (s : State) (o : Output) : (s.emit o).strayWindow = s.strayWindow := rfl
@[simp] theorem State.emit_strayOffset (s : State) (o : Output) : (s.emit o).strayOffset = s.strayOffset := rfl
@[simp] theorem State.emit_cells (s : State) (o : Output) : (s.emit o).cells = s.cells := rfl
@[simp] theorem State.emit_intake (s : State) (o : Output) : (s.emit o).intake = s.intake := rfl
@[simp] theorem State.emit_marks (s : State) (o : Output) : (s.emit o).marks = s.marks := rfl
@[simp] theorem State.emit_orderMap (s : State) (o : Output) : (s.emit o).orderMap = s.orderMap := rfl
@[simp] theorem State.emit_revisions (s : State) (o : Output) : (s.emit o).revisions = s.revisions := rfl
@[simp] theorem State.emit_msiAllowed (s : State) (o : Output) : (s.emit o).msiAllowed = s.msiAllowed := rfl
@[simp] theorem State.emit_extents (s : State) (o : Output) : (s.emit o).extents = s.extents := rfl
@[simp] theorem State.emit_freePages (s : State) (o : Output) : (s.emit o).freePages = s.freePages := rfl
@[simp] theorem State.emit_pictures (s : State) (o : Output) : (s.emit o).pictures = s.pictures := rfl
@[simp] theorem State.emit_dram (s : State) (o : Output) : (s.emit o).dram = s.dram := rfl
@[simp] theorem State.emit_port (s : State) (o : Output) : (s.emit o).port = s.port := rfl
@[simp] theorem State.emit_slots (s : State) (o : Output) : (s.emit o).slots = s.slots := rfl
@[simp] theorem State.emit_channels (s : State) (o : Output) : (s.emit o).channels = s.channels := rfl
@[simp] theorem State.emit_chanWait (s : State) (o : Output) : (s.emit o).chanWait = s.chanWait := rfl
@[simp] theorem State.emit_orders (s : State) (o : Output) : (s.emit o).orders = s.orders := rfl
@[simp] theorem State.emit_pay (s : State) (o : Output) : (s.emit o).pay = s.pay := rfl
@[simp] theorem State.emit_stations (s : State) (o : Output) : (s.emit o).stations = s.stations := rfl
@[simp] theorem State.emit_reservations (s : State) (o : Output) : (s.emit o).reservations = s.reservations := rfl
@[simp] theorem State.emit_heads (s : State) (o : Output) : (s.emit o).heads = s.heads := rfl
@[simp] theorem State.emit_job (s : State) (o : Output) : (s.emit o).job = s.job := rfl
@[simp] theorem State.emit_settings (s : State) (o : Output) : (s.emit o).settings = s.settings := rfl
@[simp] theorem State.emit_source (s : State) (o : Output) : (s.emit o).source = s.source := rfl
@[simp] theorem State.emit_autoload (s : State) (o : Output) : (s.emit o).autoload = s.autoload := rfl
@[simp] theorem State.emit_store (s : State) (o : Output) : (s.emit o).store = s.store := rfl
@[simp] theorem State.emit_eeprom (s : State) (o : Output) : (s.emit o).eeprom = s.eeprom := rfl
@[simp] theorem State.emit_sent (s : State) (o : Output) : (s.emit o).sent = s.sent ++ [o] := rfl
@[simp] theorem State.emit_cropChoices (s : State) (o : Output) : (s.emit o).cropChoices = s.cropChoices := rfl
@[simp] theorem State.emit_stationChoices (s : State) (o : Output) : (s.emit o).stationChoices = s.stationChoices := rfl
@[simp] theorem State.emit_resetChoices (s : State) (o : Output) : (s.emit o).resetChoices = s.resetChoices := rfl

/-! ## `State.setSlot` -/

@[simp] theorem State.setSlot_pending (s : State) (k : Fin 4) (x : Slot) : (s.setSlot k x).pending = s.pending := rfl
@[simp] theorem State.setSlot_clock (s : State) (k : Fin 4) (x : Slot) : (s.setSlot k x).clock = s.clock := rfl
@[simp] theorem State.setSlot_running (s : State) (k : Fin 4) (x : Slot) : (s.setSlot k x).running = s.running := rfl
@[simp] theorem State.setSlot_irqEnable (s : State) (k : Fin 4) (x : Slot) : (s.setSlot k x).irqEnable = s.irqEnable := rfl
@[simp] theorem State.setSlot_attentionMask (s : State) (k : Fin 4) (x : Slot) : (s.setSlot k x).attentionMask = s.attentionMask := rfl
@[simp] theorem State.setSlot_stray (s : State) (k : Fin 4) (x : Slot) : (s.setSlot k x).stray = s.stray := rfl
@[simp] theorem State.setSlot_started (s : State) (k : Fin 4) (x : Slot) : (s.setSlot k x).started = s.started := rfl
@[simp] theorem State.setSlot_strayWindow (s : State) (k : Fin 4) (x : Slot) : (s.setSlot k x).strayWindow = s.strayWindow := rfl
@[simp] theorem State.setSlot_strayOffset (s : State) (k : Fin 4) (x : Slot) : (s.setSlot k x).strayOffset = s.strayOffset := rfl
@[simp] theorem State.setSlot_cells (s : State) (k : Fin 4) (x : Slot) : (s.setSlot k x).cells = s.cells := rfl
@[simp] theorem State.setSlot_intake (s : State) (k : Fin 4) (x : Slot) : (s.setSlot k x).intake = s.intake := rfl
@[simp] theorem State.setSlot_marks (s : State) (k : Fin 4) (x : Slot) : (s.setSlot k x).marks = s.marks := rfl
@[simp] theorem State.setSlot_orderMap (s : State) (k : Fin 4) (x : Slot) : (s.setSlot k x).orderMap = s.orderMap := rfl
@[simp] theorem State.setSlot_revisions (s : State) (k : Fin 4) (x : Slot) : (s.setSlot k x).revisions = s.revisions := rfl
@[simp] theorem State.setSlot_msiAllowed (s : State) (k : Fin 4) (x : Slot) : (s.setSlot k x).msiAllowed = s.msiAllowed := rfl
@[simp] theorem State.setSlot_extents (s : State) (k : Fin 4) (x : Slot) : (s.setSlot k x).extents = s.extents := rfl
@[simp] theorem State.setSlot_freePages (s : State) (k : Fin 4) (x : Slot) : (s.setSlot k x).freePages = s.freePages := rfl
@[simp] theorem State.setSlot_pictures (s : State) (k : Fin 4) (x : Slot) : (s.setSlot k x).pictures = s.pictures := rfl
@[simp] theorem State.setSlot_dram (s : State) (k : Fin 4) (x : Slot) : (s.setSlot k x).dram = s.dram := rfl
@[simp] theorem State.setSlot_port (s : State) (k : Fin 4) (x : Slot) : (s.setSlot k x).port = s.port := rfl
@[simp] theorem State.setSlot_slots (s : State) (k : Fin 4) (x : Slot) : (s.setSlot k x).slots = s.slots.set k x := rfl
@[simp] theorem State.setSlot_channels (s : State) (k : Fin 4) (x : Slot) : (s.setSlot k x).channels = s.channels := rfl
@[simp] theorem State.setSlot_chanWait (s : State) (k : Fin 4) (x : Slot) : (s.setSlot k x).chanWait = s.chanWait := rfl
@[simp] theorem State.setSlot_orders (s : State) (k : Fin 4) (x : Slot) : (s.setSlot k x).orders = s.orders := rfl
@[simp] theorem State.setSlot_pay (s : State) (k : Fin 4) (x : Slot) : (s.setSlot k x).pay = s.pay := rfl
@[simp] theorem State.setSlot_stations (s : State) (k : Fin 4) (x : Slot) : (s.setSlot k x).stations = s.stations := rfl
@[simp] theorem State.setSlot_reservations (s : State) (k : Fin 4) (x : Slot) : (s.setSlot k x).reservations = s.reservations := rfl
@[simp] theorem State.setSlot_heads (s : State) (k : Fin 4) (x : Slot) : (s.setSlot k x).heads = s.heads := rfl
@[simp] theorem State.setSlot_job (s : State) (k : Fin 4) (x : Slot) : (s.setSlot k x).job = s.job := rfl
@[simp] theorem State.setSlot_settings (s : State) (k : Fin 4) (x : Slot) : (s.setSlot k x).settings = s.settings := rfl
@[simp] theorem State.setSlot_source (s : State) (k : Fin 4) (x : Slot) : (s.setSlot k x).source = s.source := rfl
@[simp] theorem State.setSlot_autoload (s : State) (k : Fin 4) (x : Slot) : (s.setSlot k x).autoload = s.autoload := rfl
@[simp] theorem State.setSlot_store (s : State) (k : Fin 4) (x : Slot) : (s.setSlot k x).store = s.store := rfl
@[simp] theorem State.setSlot_eeprom (s : State) (k : Fin 4) (x : Slot) : (s.setSlot k x).eeprom = s.eeprom := rfl
@[simp] theorem State.setSlot_sent (s : State) (k : Fin 4) (x : Slot) : (s.setSlot k x).sent = s.sent := rfl
@[simp] theorem State.setSlot_cropChoices (s : State) (k : Fin 4) (x : Slot) : (s.setSlot k x).cropChoices = s.cropChoices := rfl
@[simp] theorem State.setSlot_stationChoices (s : State) (k : Fin 4) (x : Slot) : (s.setSlot k x).stationChoices = s.stationChoices := rfl
@[simp] theorem State.setSlot_resetChoices (s : State) (k : Fin 4) (x : Slot) : (s.setSlot k x).resetChoices = s.resetChoices := rfl

/-! ## `State.setChannel` -/

@[simp] theorem State.setChannel_pending (s : State) (c : Fin 2) (x : Channel) : (s.setChannel c x).pending = s.pending := rfl
@[simp] theorem State.setChannel_clock (s : State) (c : Fin 2) (x : Channel) : (s.setChannel c x).clock = s.clock := rfl
@[simp] theorem State.setChannel_running (s : State) (c : Fin 2) (x : Channel) : (s.setChannel c x).running = s.running := rfl
@[simp] theorem State.setChannel_irqEnable (s : State) (c : Fin 2) (x : Channel) : (s.setChannel c x).irqEnable = s.irqEnable := rfl
@[simp] theorem State.setChannel_attentionMask (s : State) (c : Fin 2) (x : Channel) : (s.setChannel c x).attentionMask = s.attentionMask := rfl
@[simp] theorem State.setChannel_stray (s : State) (c : Fin 2) (x : Channel) : (s.setChannel c x).stray = s.stray := rfl
@[simp] theorem State.setChannel_started (s : State) (c : Fin 2) (x : Channel) : (s.setChannel c x).started = s.started := rfl
@[simp] theorem State.setChannel_strayWindow (s : State) (c : Fin 2) (x : Channel) : (s.setChannel c x).strayWindow = s.strayWindow := rfl
@[simp] theorem State.setChannel_strayOffset (s : State) (c : Fin 2) (x : Channel) : (s.setChannel c x).strayOffset = s.strayOffset := rfl
@[simp] theorem State.setChannel_cells (s : State) (c : Fin 2) (x : Channel) : (s.setChannel c x).cells = s.cells := rfl
@[simp] theorem State.setChannel_intake (s : State) (c : Fin 2) (x : Channel) : (s.setChannel c x).intake = s.intake := rfl
@[simp] theorem State.setChannel_marks (s : State) (c : Fin 2) (x : Channel) : (s.setChannel c x).marks = s.marks := rfl
@[simp] theorem State.setChannel_orderMap (s : State) (c : Fin 2) (x : Channel) : (s.setChannel c x).orderMap = s.orderMap := rfl
@[simp] theorem State.setChannel_revisions (s : State) (c : Fin 2) (x : Channel) : (s.setChannel c x).revisions = s.revisions := rfl
@[simp] theorem State.setChannel_msiAllowed (s : State) (c : Fin 2) (x : Channel) : (s.setChannel c x).msiAllowed = s.msiAllowed := rfl
@[simp] theorem State.setChannel_extents (s : State) (c : Fin 2) (x : Channel) : (s.setChannel c x).extents = s.extents := rfl
@[simp] theorem State.setChannel_freePages (s : State) (c : Fin 2) (x : Channel) : (s.setChannel c x).freePages = s.freePages := rfl
@[simp] theorem State.setChannel_pictures (s : State) (c : Fin 2) (x : Channel) : (s.setChannel c x).pictures = s.pictures := rfl
@[simp] theorem State.setChannel_dram (s : State) (c : Fin 2) (x : Channel) : (s.setChannel c x).dram = s.dram := rfl
@[simp] theorem State.setChannel_port (s : State) (c : Fin 2) (x : Channel) : (s.setChannel c x).port = s.port := rfl
@[simp] theorem State.setChannel_slots (s : State) (c : Fin 2) (x : Channel) : (s.setChannel c x).slots = s.slots := rfl
@[simp] theorem State.setChannel_channels (s : State) (c : Fin 2) (x : Channel) : (s.setChannel c x).channels = s.channels.set c x := rfl
@[simp] theorem State.setChannel_chanWait (s : State) (c : Fin 2) (x : Channel) : (s.setChannel c x).chanWait = s.chanWait := rfl
@[simp] theorem State.setChannel_orders (s : State) (c : Fin 2) (x : Channel) : (s.setChannel c x).orders = s.orders := rfl
@[simp] theorem State.setChannel_pay (s : State) (c : Fin 2) (x : Channel) : (s.setChannel c x).pay = s.pay := rfl
@[simp] theorem State.setChannel_stations (s : State) (c : Fin 2) (x : Channel) : (s.setChannel c x).stations = s.stations := rfl
@[simp] theorem State.setChannel_reservations (s : State) (c : Fin 2) (x : Channel) : (s.setChannel c x).reservations = s.reservations := rfl
@[simp] theorem State.setChannel_heads (s : State) (c : Fin 2) (x : Channel) : (s.setChannel c x).heads = s.heads := rfl
@[simp] theorem State.setChannel_job (s : State) (c : Fin 2) (x : Channel) : (s.setChannel c x).job = s.job := rfl
@[simp] theorem State.setChannel_settings (s : State) (c : Fin 2) (x : Channel) : (s.setChannel c x).settings = s.settings := rfl
@[simp] theorem State.setChannel_source (s : State) (c : Fin 2) (x : Channel) : (s.setChannel c x).source = s.source := rfl
@[simp] theorem State.setChannel_autoload (s : State) (c : Fin 2) (x : Channel) : (s.setChannel c x).autoload = s.autoload := rfl
@[simp] theorem State.setChannel_store (s : State) (c : Fin 2) (x : Channel) : (s.setChannel c x).store = s.store := rfl
@[simp] theorem State.setChannel_eeprom (s : State) (c : Fin 2) (x : Channel) : (s.setChannel c x).eeprom = s.eeprom := rfl
@[simp] theorem State.setChannel_sent (s : State) (c : Fin 2) (x : Channel) : (s.setChannel c x).sent = s.sent := rfl
@[simp] theorem State.setChannel_cropChoices (s : State) (c : Fin 2) (x : Channel) : (s.setChannel c x).cropChoices = s.cropChoices := rfl
@[simp] theorem State.setChannel_stationChoices (s : State) (c : Fin 2) (x : Channel) : (s.setChannel c x).stationChoices = s.stationChoices := rfl
@[simp] theorem State.setChannel_resetChoices (s : State) (c : Fin 2) (x : Channel) : (s.setChannel c x).resetChoices = s.resetChoices := rfl

/-! ## `State.setCell` -/

@[simp] theorem State.setCell_pending (s : State) (c : Fin 64) (x : WorkCell) : (s.setCell c x).pending = s.pending := rfl
@[simp] theorem State.setCell_clock (s : State) (c : Fin 64) (x : WorkCell) : (s.setCell c x).clock = s.clock := rfl
@[simp] theorem State.setCell_running (s : State) (c : Fin 64) (x : WorkCell) : (s.setCell c x).running = s.running := rfl
@[simp] theorem State.setCell_irqEnable (s : State) (c : Fin 64) (x : WorkCell) : (s.setCell c x).irqEnable = s.irqEnable := rfl
@[simp] theorem State.setCell_attentionMask (s : State) (c : Fin 64) (x : WorkCell) : (s.setCell c x).attentionMask = s.attentionMask := rfl
@[simp] theorem State.setCell_stray (s : State) (c : Fin 64) (x : WorkCell) : (s.setCell c x).stray = s.stray := rfl
@[simp] theorem State.setCell_started (s : State) (c : Fin 64) (x : WorkCell) : (s.setCell c x).started = s.started := rfl
@[simp] theorem State.setCell_strayWindow (s : State) (c : Fin 64) (x : WorkCell) : (s.setCell c x).strayWindow = s.strayWindow := rfl
@[simp] theorem State.setCell_strayOffset (s : State) (c : Fin 64) (x : WorkCell) : (s.setCell c x).strayOffset = s.strayOffset := rfl
@[simp] theorem State.setCell_cells (s : State) (c : Fin 64) (x : WorkCell) : (s.setCell c x).cells = s.cells.set c x := rfl
@[simp] theorem State.setCell_intake (s : State) (c : Fin 64) (x : WorkCell) : (s.setCell c x).intake = s.intake := rfl
@[simp] theorem State.setCell_marks (s : State) (c : Fin 64) (x : WorkCell) : (s.setCell c x).marks = s.marks := rfl
@[simp] theorem State.setCell_orderMap (s : State) (c : Fin 64) (x : WorkCell) : (s.setCell c x).orderMap = s.orderMap := rfl
@[simp] theorem State.setCell_revisions (s : State) (c : Fin 64) (x : WorkCell) : (s.setCell c x).revisions = s.revisions := rfl
@[simp] theorem State.setCell_msiAllowed (s : State) (c : Fin 64) (x : WorkCell) : (s.setCell c x).msiAllowed = s.msiAllowed := rfl
@[simp] theorem State.setCell_extents (s : State) (c : Fin 64) (x : WorkCell) : (s.setCell c x).extents = s.extents := rfl
@[simp] theorem State.setCell_freePages (s : State) (c : Fin 64) (x : WorkCell) : (s.setCell c x).freePages = s.freePages := rfl
@[simp] theorem State.setCell_pictures (s : State) (c : Fin 64) (x : WorkCell) : (s.setCell c x).pictures = s.pictures := rfl
@[simp] theorem State.setCell_dram (s : State) (c : Fin 64) (x : WorkCell) : (s.setCell c x).dram = s.dram := rfl
@[simp] theorem State.setCell_port (s : State) (c : Fin 64) (x : WorkCell) : (s.setCell c x).port = s.port := rfl
@[simp] theorem State.setCell_slots (s : State) (c : Fin 64) (x : WorkCell) : (s.setCell c x).slots = s.slots := rfl
@[simp] theorem State.setCell_channels (s : State) (c : Fin 64) (x : WorkCell) : (s.setCell c x).channels = s.channels := rfl
@[simp] theorem State.setCell_chanWait (s : State) (c : Fin 64) (x : WorkCell) : (s.setCell c x).chanWait = s.chanWait := rfl
@[simp] theorem State.setCell_orders (s : State) (c : Fin 64) (x : WorkCell) : (s.setCell c x).orders = s.orders := rfl
@[simp] theorem State.setCell_pay (s : State) (c : Fin 64) (x : WorkCell) : (s.setCell c x).pay = s.pay := rfl
@[simp] theorem State.setCell_stations (s : State) (c : Fin 64) (x : WorkCell) : (s.setCell c x).stations = s.stations := rfl
@[simp] theorem State.setCell_reservations (s : State) (c : Fin 64) (x : WorkCell) : (s.setCell c x).reservations = s.reservations := rfl
@[simp] theorem State.setCell_heads (s : State) (c : Fin 64) (x : WorkCell) : (s.setCell c x).heads = s.heads := rfl
@[simp] theorem State.setCell_job (s : State) (c : Fin 64) (x : WorkCell) : (s.setCell c x).job = s.job := rfl
@[simp] theorem State.setCell_settings (s : State) (c : Fin 64) (x : WorkCell) : (s.setCell c x).settings = s.settings := rfl
@[simp] theorem State.setCell_source (s : State) (c : Fin 64) (x : WorkCell) : (s.setCell c x).source = s.source := rfl
@[simp] theorem State.setCell_autoload (s : State) (c : Fin 64) (x : WorkCell) : (s.setCell c x).autoload = s.autoload := rfl
@[simp] theorem State.setCell_store (s : State) (c : Fin 64) (x : WorkCell) : (s.setCell c x).store = s.store := rfl
@[simp] theorem State.setCell_eeprom (s : State) (c : Fin 64) (x : WorkCell) : (s.setCell c x).eeprom = s.eeprom := rfl
@[simp] theorem State.setCell_sent (s : State) (c : Fin 64) (x : WorkCell) : (s.setCell c x).sent = s.sent := rfl
@[simp] theorem State.setCell_cropChoices (s : State) (c : Fin 64) (x : WorkCell) : (s.setCell c x).cropChoices = s.cropChoices := rfl
@[simp] theorem State.setCell_stationChoices (s : State) (c : Fin 64) (x : WorkCell) : (s.setCell c x).stationChoices = s.stationChoices := rfl
@[simp] theorem State.setCell_resetChoices (s : State) (c : Fin 64) (x : WorkCell) : (s.setCell c x).resetChoices = s.resetChoices := rfl

/-! ## `State.setIntake` -/

@[simp] theorem State.setIntake_pending (s : State) (l : Fin 11) (x : List (Fin 64)) : (s.setIntake l x).pending = s.pending := rfl
@[simp] theorem State.setIntake_clock (s : State) (l : Fin 11) (x : List (Fin 64)) : (s.setIntake l x).clock = s.clock := rfl
@[simp] theorem State.setIntake_running (s : State) (l : Fin 11) (x : List (Fin 64)) : (s.setIntake l x).running = s.running := rfl
@[simp] theorem State.setIntake_irqEnable (s : State) (l : Fin 11) (x : List (Fin 64)) : (s.setIntake l x).irqEnable = s.irqEnable := rfl
@[simp] theorem State.setIntake_attentionMask (s : State) (l : Fin 11) (x : List (Fin 64)) : (s.setIntake l x).attentionMask = s.attentionMask := rfl
@[simp] theorem State.setIntake_stray (s : State) (l : Fin 11) (x : List (Fin 64)) : (s.setIntake l x).stray = s.stray := rfl
@[simp] theorem State.setIntake_started (s : State) (l : Fin 11) (x : List (Fin 64)) : (s.setIntake l x).started = s.started := rfl
@[simp] theorem State.setIntake_strayWindow (s : State) (l : Fin 11) (x : List (Fin 64)) : (s.setIntake l x).strayWindow = s.strayWindow := rfl
@[simp] theorem State.setIntake_strayOffset (s : State) (l : Fin 11) (x : List (Fin 64)) : (s.setIntake l x).strayOffset = s.strayOffset := rfl
@[simp] theorem State.setIntake_cells (s : State) (l : Fin 11) (x : List (Fin 64)) : (s.setIntake l x).cells = s.cells := rfl
@[simp] theorem State.setIntake_intake (s : State) (l : Fin 11) (x : List (Fin 64)) : (s.setIntake l x).intake = s.intake.set l x := rfl
@[simp] theorem State.setIntake_marks (s : State) (l : Fin 11) (x : List (Fin 64)) : (s.setIntake l x).marks = s.marks := rfl
@[simp] theorem State.setIntake_orderMap (s : State) (l : Fin 11) (x : List (Fin 64)) : (s.setIntake l x).orderMap = s.orderMap := rfl
@[simp] theorem State.setIntake_revisions (s : State) (l : Fin 11) (x : List (Fin 64)) : (s.setIntake l x).revisions = s.revisions := rfl
@[simp] theorem State.setIntake_msiAllowed (s : State) (l : Fin 11) (x : List (Fin 64)) : (s.setIntake l x).msiAllowed = s.msiAllowed := rfl
@[simp] theorem State.setIntake_extents (s : State) (l : Fin 11) (x : List (Fin 64)) : (s.setIntake l x).extents = s.extents := rfl
@[simp] theorem State.setIntake_freePages (s : State) (l : Fin 11) (x : List (Fin 64)) : (s.setIntake l x).freePages = s.freePages := rfl
@[simp] theorem State.setIntake_pictures (s : State) (l : Fin 11) (x : List (Fin 64)) : (s.setIntake l x).pictures = s.pictures := rfl
@[simp] theorem State.setIntake_dram (s : State) (l : Fin 11) (x : List (Fin 64)) : (s.setIntake l x).dram = s.dram := rfl
@[simp] theorem State.setIntake_port (s : State) (l : Fin 11) (x : List (Fin 64)) : (s.setIntake l x).port = s.port := rfl
@[simp] theorem State.setIntake_slots (s : State) (l : Fin 11) (x : List (Fin 64)) : (s.setIntake l x).slots = s.slots := rfl
@[simp] theorem State.setIntake_channels (s : State) (l : Fin 11) (x : List (Fin 64)) : (s.setIntake l x).channels = s.channels := rfl
@[simp] theorem State.setIntake_chanWait (s : State) (l : Fin 11) (x : List (Fin 64)) : (s.setIntake l x).chanWait = s.chanWait := rfl
@[simp] theorem State.setIntake_orders (s : State) (l : Fin 11) (x : List (Fin 64)) : (s.setIntake l x).orders = s.orders := rfl
@[simp] theorem State.setIntake_pay (s : State) (l : Fin 11) (x : List (Fin 64)) : (s.setIntake l x).pay = s.pay := rfl
@[simp] theorem State.setIntake_stations (s : State) (l : Fin 11) (x : List (Fin 64)) : (s.setIntake l x).stations = s.stations := rfl
@[simp] theorem State.setIntake_reservations (s : State) (l : Fin 11) (x : List (Fin 64)) : (s.setIntake l x).reservations = s.reservations := rfl
@[simp] theorem State.setIntake_heads (s : State) (l : Fin 11) (x : List (Fin 64)) : (s.setIntake l x).heads = s.heads := rfl
@[simp] theorem State.setIntake_job (s : State) (l : Fin 11) (x : List (Fin 64)) : (s.setIntake l x).job = s.job := rfl
@[simp] theorem State.setIntake_settings (s : State) (l : Fin 11) (x : List (Fin 64)) : (s.setIntake l x).settings = s.settings := rfl
@[simp] theorem State.setIntake_source (s : State) (l : Fin 11) (x : List (Fin 64)) : (s.setIntake l x).source = s.source := rfl
@[simp] theorem State.setIntake_autoload (s : State) (l : Fin 11) (x : List (Fin 64)) : (s.setIntake l x).autoload = s.autoload := rfl
@[simp] theorem State.setIntake_store (s : State) (l : Fin 11) (x : List (Fin 64)) : (s.setIntake l x).store = s.store := rfl
@[simp] theorem State.setIntake_eeprom (s : State) (l : Fin 11) (x : List (Fin 64)) : (s.setIntake l x).eeprom = s.eeprom := rfl
@[simp] theorem State.setIntake_sent (s : State) (l : Fin 11) (x : List (Fin 64)) : (s.setIntake l x).sent = s.sent := rfl
@[simp] theorem State.setIntake_cropChoices (s : State) (l : Fin 11) (x : List (Fin 64)) : (s.setIntake l x).cropChoices = s.cropChoices := rfl
@[simp] theorem State.setIntake_stationChoices (s : State) (l : Fin 11) (x : List (Fin 64)) : (s.setIntake l x).stationChoices = s.stationChoices := rfl
@[simp] theorem State.setIntake_resetChoices (s : State) (l : Fin 11) (x : List (Fin 64)) : (s.setIntake l x).resetChoices = s.resetChoices := rfl

/-! ## `State.setStation` -/

@[simp] theorem State.setStation_pending (s : State) (n : Fin 3) (x : Station) : (s.setStation n x).pending = s.pending := rfl
@[simp] theorem State.setStation_clock (s : State) (n : Fin 3) (x : Station) : (s.setStation n x).clock = s.clock := rfl
@[simp] theorem State.setStation_running (s : State) (n : Fin 3) (x : Station) : (s.setStation n x).running = s.running := rfl
@[simp] theorem State.setStation_irqEnable (s : State) (n : Fin 3) (x : Station) : (s.setStation n x).irqEnable = s.irqEnable := rfl
@[simp] theorem State.setStation_attentionMask (s : State) (n : Fin 3) (x : Station) : (s.setStation n x).attentionMask = s.attentionMask := rfl
@[simp] theorem State.setStation_stray (s : State) (n : Fin 3) (x : Station) : (s.setStation n x).stray = s.stray := rfl
@[simp] theorem State.setStation_started (s : State) (n : Fin 3) (x : Station) : (s.setStation n x).started = s.started := rfl
@[simp] theorem State.setStation_strayWindow (s : State) (n : Fin 3) (x : Station) : (s.setStation n x).strayWindow = s.strayWindow := rfl
@[simp] theorem State.setStation_strayOffset (s : State) (n : Fin 3) (x : Station) : (s.setStation n x).strayOffset = s.strayOffset := rfl
@[simp] theorem State.setStation_cells (s : State) (n : Fin 3) (x : Station) : (s.setStation n x).cells = s.cells := rfl
@[simp] theorem State.setStation_intake (s : State) (n : Fin 3) (x : Station) : (s.setStation n x).intake = s.intake := rfl
@[simp] theorem State.setStation_marks (s : State) (n : Fin 3) (x : Station) : (s.setStation n x).marks = s.marks := rfl
@[simp] theorem State.setStation_orderMap (s : State) (n : Fin 3) (x : Station) : (s.setStation n x).orderMap = s.orderMap := rfl
@[simp] theorem State.setStation_revisions (s : State) (n : Fin 3) (x : Station) : (s.setStation n x).revisions = s.revisions := rfl
@[simp] theorem State.setStation_msiAllowed (s : State) (n : Fin 3) (x : Station) : (s.setStation n x).msiAllowed = s.msiAllowed := rfl
@[simp] theorem State.setStation_extents (s : State) (n : Fin 3) (x : Station) : (s.setStation n x).extents = s.extents := rfl
@[simp] theorem State.setStation_freePages (s : State) (n : Fin 3) (x : Station) : (s.setStation n x).freePages = s.freePages := rfl
@[simp] theorem State.setStation_pictures (s : State) (n : Fin 3) (x : Station) : (s.setStation n x).pictures = s.pictures := rfl
@[simp] theorem State.setStation_dram (s : State) (n : Fin 3) (x : Station) : (s.setStation n x).dram = s.dram := rfl
@[simp] theorem State.setStation_port (s : State) (n : Fin 3) (x : Station) : (s.setStation n x).port = s.port := rfl
@[simp] theorem State.setStation_slots (s : State) (n : Fin 3) (x : Station) : (s.setStation n x).slots = s.slots := rfl
@[simp] theorem State.setStation_channels (s : State) (n : Fin 3) (x : Station) : (s.setStation n x).channels = s.channels := rfl
@[simp] theorem State.setStation_chanWait (s : State) (n : Fin 3) (x : Station) : (s.setStation n x).chanWait = s.chanWait := rfl
@[simp] theorem State.setStation_orders (s : State) (n : Fin 3) (x : Station) : (s.setStation n x).orders = s.orders := rfl
@[simp] theorem State.setStation_pay (s : State) (n : Fin 3) (x : Station) : (s.setStation n x).pay = s.pay := rfl
@[simp] theorem State.setStation_stations (s : State) (n : Fin 3) (x : Station) : (s.setStation n x).stations = s.stations.set n x := rfl
@[simp] theorem State.setStation_reservations (s : State) (n : Fin 3) (x : Station) : (s.setStation n x).reservations = s.reservations := rfl
@[simp] theorem State.setStation_heads (s : State) (n : Fin 3) (x : Station) : (s.setStation n x).heads = s.heads := rfl
@[simp] theorem State.setStation_job (s : State) (n : Fin 3) (x : Station) : (s.setStation n x).job = s.job := rfl
@[simp] theorem State.setStation_settings (s : State) (n : Fin 3) (x : Station) : (s.setStation n x).settings = s.settings := rfl
@[simp] theorem State.setStation_source (s : State) (n : Fin 3) (x : Station) : (s.setStation n x).source = s.source := rfl
@[simp] theorem State.setStation_autoload (s : State) (n : Fin 3) (x : Station) : (s.setStation n x).autoload = s.autoload := rfl
@[simp] theorem State.setStation_store (s : State) (n : Fin 3) (x : Station) : (s.setStation n x).store = s.store := rfl
@[simp] theorem State.setStation_eeprom (s : State) (n : Fin 3) (x : Station) : (s.setStation n x).eeprom = s.eeprom := rfl
@[simp] theorem State.setStation_sent (s : State) (n : Fin 3) (x : Station) : (s.setStation n x).sent = s.sent := rfl
@[simp] theorem State.setStation_cropChoices (s : State) (n : Fin 3) (x : Station) : (s.setStation n x).cropChoices = s.cropChoices := rfl
@[simp] theorem State.setStation_stationChoices (s : State) (n : Fin 3) (x : Station) : (s.setStation n x).stationChoices = s.stationChoices := rfl
@[simp] theorem State.setStation_resetChoices (s : State) (n : Fin 3) (x : Station) : (s.setStation n x).resetChoices = s.resetChoices := rfl

/-! ## `State.setHead` -/

@[simp] theorem State.setHead_pending (s : State) (n : Fin 3) (x : Head) : (s.setHead n x).pending = s.pending := rfl
@[simp] theorem State.setHead_clock (s : State) (n : Fin 3) (x : Head) : (s.setHead n x).clock = s.clock := rfl
@[simp] theorem State.setHead_running (s : State) (n : Fin 3) (x : Head) : (s.setHead n x).running = s.running := rfl
@[simp] theorem State.setHead_irqEnable (s : State) (n : Fin 3) (x : Head) : (s.setHead n x).irqEnable = s.irqEnable := rfl
@[simp] theorem State.setHead_attentionMask (s : State) (n : Fin 3) (x : Head) : (s.setHead n x).attentionMask = s.attentionMask := rfl
@[simp] theorem State.setHead_stray (s : State) (n : Fin 3) (x : Head) : (s.setHead n x).stray = s.stray := rfl
@[simp] theorem State.setHead_started (s : State) (n : Fin 3) (x : Head) : (s.setHead n x).started = s.started := rfl
@[simp] theorem State.setHead_strayWindow (s : State) (n : Fin 3) (x : Head) : (s.setHead n x).strayWindow = s.strayWindow := rfl
@[simp] theorem State.setHead_strayOffset (s : State) (n : Fin 3) (x : Head) : (s.setHead n x).strayOffset = s.strayOffset := rfl
@[simp] theorem State.setHead_cells (s : State) (n : Fin 3) (x : Head) : (s.setHead n x).cells = s.cells := rfl
@[simp] theorem State.setHead_intake (s : State) (n : Fin 3) (x : Head) : (s.setHead n x).intake = s.intake := rfl
@[simp] theorem State.setHead_marks (s : State) (n : Fin 3) (x : Head) : (s.setHead n x).marks = s.marks := rfl
@[simp] theorem State.setHead_orderMap (s : State) (n : Fin 3) (x : Head) : (s.setHead n x).orderMap = s.orderMap := rfl
@[simp] theorem State.setHead_revisions (s : State) (n : Fin 3) (x : Head) : (s.setHead n x).revisions = s.revisions := rfl
@[simp] theorem State.setHead_msiAllowed (s : State) (n : Fin 3) (x : Head) : (s.setHead n x).msiAllowed = s.msiAllowed := rfl
@[simp] theorem State.setHead_extents (s : State) (n : Fin 3) (x : Head) : (s.setHead n x).extents = s.extents := rfl
@[simp] theorem State.setHead_freePages (s : State) (n : Fin 3) (x : Head) : (s.setHead n x).freePages = s.freePages := rfl
@[simp] theorem State.setHead_pictures (s : State) (n : Fin 3) (x : Head) : (s.setHead n x).pictures = s.pictures := rfl
@[simp] theorem State.setHead_dram (s : State) (n : Fin 3) (x : Head) : (s.setHead n x).dram = s.dram := rfl
@[simp] theorem State.setHead_port (s : State) (n : Fin 3) (x : Head) : (s.setHead n x).port = s.port := rfl
@[simp] theorem State.setHead_slots (s : State) (n : Fin 3) (x : Head) : (s.setHead n x).slots = s.slots := rfl
@[simp] theorem State.setHead_channels (s : State) (n : Fin 3) (x : Head) : (s.setHead n x).channels = s.channels := rfl
@[simp] theorem State.setHead_chanWait (s : State) (n : Fin 3) (x : Head) : (s.setHead n x).chanWait = s.chanWait := rfl
@[simp] theorem State.setHead_orders (s : State) (n : Fin 3) (x : Head) : (s.setHead n x).orders = s.orders := rfl
@[simp] theorem State.setHead_pay (s : State) (n : Fin 3) (x : Head) : (s.setHead n x).pay = s.pay := rfl
@[simp] theorem State.setHead_stations (s : State) (n : Fin 3) (x : Head) : (s.setHead n x).stations = s.stations := rfl
@[simp] theorem State.setHead_reservations (s : State) (n : Fin 3) (x : Head) : (s.setHead n x).reservations = s.reservations := rfl
@[simp] theorem State.setHead_heads (s : State) (n : Fin 3) (x : Head) : (s.setHead n x).heads = s.heads.set n x := rfl
@[simp] theorem State.setHead_job (s : State) (n : Fin 3) (x : Head) : (s.setHead n x).job = s.job := rfl
@[simp] theorem State.setHead_settings (s : State) (n : Fin 3) (x : Head) : (s.setHead n x).settings = s.settings := rfl
@[simp] theorem State.setHead_source (s : State) (n : Fin 3) (x : Head) : (s.setHead n x).source = s.source := rfl
@[simp] theorem State.setHead_autoload (s : State) (n : Fin 3) (x : Head) : (s.setHead n x).autoload = s.autoload := rfl
@[simp] theorem State.setHead_store (s : State) (n : Fin 3) (x : Head) : (s.setHead n x).store = s.store := rfl
@[simp] theorem State.setHead_eeprom (s : State) (n : Fin 3) (x : Head) : (s.setHead n x).eeprom = s.eeprom := rfl
@[simp] theorem State.setHead_sent (s : State) (n : Fin 3) (x : Head) : (s.setHead n x).sent = s.sent := rfl
@[simp] theorem State.setHead_cropChoices (s : State) (n : Fin 3) (x : Head) : (s.setHead n x).cropChoices = s.cropChoices := rfl
@[simp] theorem State.setHead_stationChoices (s : State) (n : Fin 3) (x : Head) : (s.setHead n x).stationChoices = s.stationChoices := rfl
@[simp] theorem State.setHead_resetChoices (s : State) (n : Fin 3) (x : Head) : (s.setHead n x).resetChoices = s.resetChoices := rfl

/-! ## `State.setOrder` -/

@[simp] theorem State.setOrder_pending (s : State) (n : Fin 48) (x : OrderEntry) : (s.setOrder n x).pending = s.pending := rfl
@[simp] theorem State.setOrder_clock (s : State) (n : Fin 48) (x : OrderEntry) : (s.setOrder n x).clock = s.clock := rfl
@[simp] theorem State.setOrder_running (s : State) (n : Fin 48) (x : OrderEntry) : (s.setOrder n x).running = s.running := rfl
@[simp] theorem State.setOrder_irqEnable (s : State) (n : Fin 48) (x : OrderEntry) : (s.setOrder n x).irqEnable = s.irqEnable := rfl
@[simp] theorem State.setOrder_attentionMask (s : State) (n : Fin 48) (x : OrderEntry) : (s.setOrder n x).attentionMask = s.attentionMask := rfl
@[simp] theorem State.setOrder_stray (s : State) (n : Fin 48) (x : OrderEntry) : (s.setOrder n x).stray = s.stray := rfl
@[simp] theorem State.setOrder_started (s : State) (n : Fin 48) (x : OrderEntry) : (s.setOrder n x).started = s.started := rfl
@[simp] theorem State.setOrder_strayWindow (s : State) (n : Fin 48) (x : OrderEntry) : (s.setOrder n x).strayWindow = s.strayWindow := rfl
@[simp] theorem State.setOrder_strayOffset (s : State) (n : Fin 48) (x : OrderEntry) : (s.setOrder n x).strayOffset = s.strayOffset := rfl
@[simp] theorem State.setOrder_cells (s : State) (n : Fin 48) (x : OrderEntry) : (s.setOrder n x).cells = s.cells := rfl
@[simp] theorem State.setOrder_intake (s : State) (n : Fin 48) (x : OrderEntry) : (s.setOrder n x).intake = s.intake := rfl
@[simp] theorem State.setOrder_marks (s : State) (n : Fin 48) (x : OrderEntry) : (s.setOrder n x).marks = s.marks := rfl
@[simp] theorem State.setOrder_orderMap (s : State) (n : Fin 48) (x : OrderEntry) : (s.setOrder n x).orderMap = s.orderMap := rfl
@[simp] theorem State.setOrder_revisions (s : State) (n : Fin 48) (x : OrderEntry) : (s.setOrder n x).revisions = s.revisions := rfl
@[simp] theorem State.setOrder_msiAllowed (s : State) (n : Fin 48) (x : OrderEntry) : (s.setOrder n x).msiAllowed = s.msiAllowed := rfl
@[simp] theorem State.setOrder_extents (s : State) (n : Fin 48) (x : OrderEntry) : (s.setOrder n x).extents = s.extents := rfl
@[simp] theorem State.setOrder_freePages (s : State) (n : Fin 48) (x : OrderEntry) : (s.setOrder n x).freePages = s.freePages := rfl
@[simp] theorem State.setOrder_pictures (s : State) (n : Fin 48) (x : OrderEntry) : (s.setOrder n x).pictures = s.pictures := rfl
@[simp] theorem State.setOrder_dram (s : State) (n : Fin 48) (x : OrderEntry) : (s.setOrder n x).dram = s.dram := rfl
@[simp] theorem State.setOrder_port (s : State) (n : Fin 48) (x : OrderEntry) : (s.setOrder n x).port = s.port := rfl
@[simp] theorem State.setOrder_slots (s : State) (n : Fin 48) (x : OrderEntry) : (s.setOrder n x).slots = s.slots := rfl
@[simp] theorem State.setOrder_channels (s : State) (n : Fin 48) (x : OrderEntry) : (s.setOrder n x).channels = s.channels := rfl
@[simp] theorem State.setOrder_chanWait (s : State) (n : Fin 48) (x : OrderEntry) : (s.setOrder n x).chanWait = s.chanWait := rfl
@[simp] theorem State.setOrder_orders (s : State) (n : Fin 48) (x : OrderEntry) : (s.setOrder n x).orders = s.orders.set n x := rfl
@[simp] theorem State.setOrder_pay (s : State) (n : Fin 48) (x : OrderEntry) : (s.setOrder n x).pay = s.pay := rfl
@[simp] theorem State.setOrder_stations (s : State) (n : Fin 48) (x : OrderEntry) : (s.setOrder n x).stations = s.stations := rfl
@[simp] theorem State.setOrder_reservations (s : State) (n : Fin 48) (x : OrderEntry) : (s.setOrder n x).reservations = s.reservations := rfl
@[simp] theorem State.setOrder_heads (s : State) (n : Fin 48) (x : OrderEntry) : (s.setOrder n x).heads = s.heads := rfl
@[simp] theorem State.setOrder_job (s : State) (n : Fin 48) (x : OrderEntry) : (s.setOrder n x).job = s.job := rfl
@[simp] theorem State.setOrder_settings (s : State) (n : Fin 48) (x : OrderEntry) : (s.setOrder n x).settings = s.settings := rfl
@[simp] theorem State.setOrder_source (s : State) (n : Fin 48) (x : OrderEntry) : (s.setOrder n x).source = s.source := rfl
@[simp] theorem State.setOrder_autoload (s : State) (n : Fin 48) (x : OrderEntry) : (s.setOrder n x).autoload = s.autoload := rfl
@[simp] theorem State.setOrder_store (s : State) (n : Fin 48) (x : OrderEntry) : (s.setOrder n x).store = s.store := rfl
@[simp] theorem State.setOrder_eeprom (s : State) (n : Fin 48) (x : OrderEntry) : (s.setOrder n x).eeprom = s.eeprom := rfl
@[simp] theorem State.setOrder_sent (s : State) (n : Fin 48) (x : OrderEntry) : (s.setOrder n x).sent = s.sent := rfl
@[simp] theorem State.setOrder_cropChoices (s : State) (n : Fin 48) (x : OrderEntry) : (s.setOrder n x).cropChoices = s.cropChoices := rfl
@[simp] theorem State.setOrder_stationChoices (s : State) (n : Fin 48) (x : OrderEntry) : (s.setOrder n x).stationChoices = s.stationChoices := rfl
@[simp] theorem State.setOrder_resetChoices (s : State) (n : Fin 48) (x : OrderEntry) : (s.setOrder n x).resetChoices = s.resetChoices := rfl

/-! ## `State.setPicture` -/

@[simp] theorem State.setPicture_pending (s : State) (i : Fin 256) (x : PicEntry) : (s.setPicture i x).pending = s.pending := rfl
@[simp] theorem State.setPicture_clock (s : State) (i : Fin 256) (x : PicEntry) : (s.setPicture i x).clock = s.clock := rfl
@[simp] theorem State.setPicture_running (s : State) (i : Fin 256) (x : PicEntry) : (s.setPicture i x).running = s.running := rfl
@[simp] theorem State.setPicture_irqEnable (s : State) (i : Fin 256) (x : PicEntry) : (s.setPicture i x).irqEnable = s.irqEnable := rfl
@[simp] theorem State.setPicture_attentionMask (s : State) (i : Fin 256) (x : PicEntry) : (s.setPicture i x).attentionMask = s.attentionMask := rfl
@[simp] theorem State.setPicture_stray (s : State) (i : Fin 256) (x : PicEntry) : (s.setPicture i x).stray = s.stray := rfl
@[simp] theorem State.setPicture_started (s : State) (i : Fin 256) (x : PicEntry) : (s.setPicture i x).started = s.started := rfl
@[simp] theorem State.setPicture_strayWindow (s : State) (i : Fin 256) (x : PicEntry) : (s.setPicture i x).strayWindow = s.strayWindow := rfl
@[simp] theorem State.setPicture_strayOffset (s : State) (i : Fin 256) (x : PicEntry) : (s.setPicture i x).strayOffset = s.strayOffset := rfl
@[simp] theorem State.setPicture_cells (s : State) (i : Fin 256) (x : PicEntry) : (s.setPicture i x).cells = s.cells := rfl
@[simp] theorem State.setPicture_intake (s : State) (i : Fin 256) (x : PicEntry) : (s.setPicture i x).intake = s.intake := rfl
@[simp] theorem State.setPicture_marks (s : State) (i : Fin 256) (x : PicEntry) : (s.setPicture i x).marks = s.marks := rfl
@[simp] theorem State.setPicture_orderMap (s : State) (i : Fin 256) (x : PicEntry) : (s.setPicture i x).orderMap = s.orderMap := rfl
@[simp] theorem State.setPicture_revisions (s : State) (i : Fin 256) (x : PicEntry) : (s.setPicture i x).revisions = s.revisions := rfl
@[simp] theorem State.setPicture_msiAllowed (s : State) (i : Fin 256) (x : PicEntry) : (s.setPicture i x).msiAllowed = s.msiAllowed := rfl
@[simp] theorem State.setPicture_extents (s : State) (i : Fin 256) (x : PicEntry) : (s.setPicture i x).extents = s.extents := rfl
@[simp] theorem State.setPicture_freePages (s : State) (i : Fin 256) (x : PicEntry) : (s.setPicture i x).freePages = s.freePages := rfl
@[simp] theorem State.setPicture_pictures (s : State) (i : Fin 256) (x : PicEntry) : (s.setPicture i x).pictures = s.pictures.set i x := rfl
@[simp] theorem State.setPicture_dram (s : State) (i : Fin 256) (x : PicEntry) : (s.setPicture i x).dram = s.dram := rfl
@[simp] theorem State.setPicture_port (s : State) (i : Fin 256) (x : PicEntry) : (s.setPicture i x).port = s.port := rfl
@[simp] theorem State.setPicture_slots (s : State) (i : Fin 256) (x : PicEntry) : (s.setPicture i x).slots = s.slots := rfl
@[simp] theorem State.setPicture_channels (s : State) (i : Fin 256) (x : PicEntry) : (s.setPicture i x).channels = s.channels := rfl
@[simp] theorem State.setPicture_chanWait (s : State) (i : Fin 256) (x : PicEntry) : (s.setPicture i x).chanWait = s.chanWait := rfl
@[simp] theorem State.setPicture_orders (s : State) (i : Fin 256) (x : PicEntry) : (s.setPicture i x).orders = s.orders := rfl
@[simp] theorem State.setPicture_pay (s : State) (i : Fin 256) (x : PicEntry) : (s.setPicture i x).pay = s.pay := rfl
@[simp] theorem State.setPicture_stations (s : State) (i : Fin 256) (x : PicEntry) : (s.setPicture i x).stations = s.stations := rfl
@[simp] theorem State.setPicture_reservations (s : State) (i : Fin 256) (x : PicEntry) : (s.setPicture i x).reservations = s.reservations := rfl
@[simp] theorem State.setPicture_heads (s : State) (i : Fin 256) (x : PicEntry) : (s.setPicture i x).heads = s.heads := rfl
@[simp] theorem State.setPicture_job (s : State) (i : Fin 256) (x : PicEntry) : (s.setPicture i x).job = s.job := rfl
@[simp] theorem State.setPicture_settings (s : State) (i : Fin 256) (x : PicEntry) : (s.setPicture i x).settings = s.settings := rfl
@[simp] theorem State.setPicture_source (s : State) (i : Fin 256) (x : PicEntry) : (s.setPicture i x).source = s.source := rfl
@[simp] theorem State.setPicture_autoload (s : State) (i : Fin 256) (x : PicEntry) : (s.setPicture i x).autoload = s.autoload := rfl
@[simp] theorem State.setPicture_store (s : State) (i : Fin 256) (x : PicEntry) : (s.setPicture i x).store = s.store := rfl
@[simp] theorem State.setPicture_eeprom (s : State) (i : Fin 256) (x : PicEntry) : (s.setPicture i x).eeprom = s.eeprom := rfl
@[simp] theorem State.setPicture_sent (s : State) (i : Fin 256) (x : PicEntry) : (s.setPicture i x).sent = s.sent := rfl
@[simp] theorem State.setPicture_cropChoices (s : State) (i : Fin 256) (x : PicEntry) : (s.setPicture i x).cropChoices = s.cropChoices := rfl
@[simp] theorem State.setPicture_stationChoices (s : State) (i : Fin 256) (x : PicEntry) : (s.setPicture i x).stationChoices = s.stationChoices := rfl
@[simp] theorem State.setPicture_resetChoices (s : State) (i : Fin 256) (x : PicEntry) : (s.setPicture i x).resetChoices = s.resetChoices := rfl

/-! ## `State.modPay` -/

@[simp] theorem State.modPay_pending (s : State) (f : Pay → Pay) : (s.modPay f).pending = s.pending := rfl
@[simp] theorem State.modPay_clock (s : State) (f : Pay → Pay) : (s.modPay f).clock = s.clock := rfl
@[simp] theorem State.modPay_running (s : State) (f : Pay → Pay) : (s.modPay f).running = s.running := rfl
@[simp] theorem State.modPay_irqEnable (s : State) (f : Pay → Pay) : (s.modPay f).irqEnable = s.irqEnable := rfl
@[simp] theorem State.modPay_attentionMask (s : State) (f : Pay → Pay) : (s.modPay f).attentionMask = s.attentionMask := rfl
@[simp] theorem State.modPay_stray (s : State) (f : Pay → Pay) : (s.modPay f).stray = s.stray := rfl
@[simp] theorem State.modPay_started (s : State) (f : Pay → Pay) : (s.modPay f).started = s.started := rfl
@[simp] theorem State.modPay_strayWindow (s : State) (f : Pay → Pay) : (s.modPay f).strayWindow = s.strayWindow := rfl
@[simp] theorem State.modPay_strayOffset (s : State) (f : Pay → Pay) : (s.modPay f).strayOffset = s.strayOffset := rfl
@[simp] theorem State.modPay_cells (s : State) (f : Pay → Pay) : (s.modPay f).cells = s.cells := rfl
@[simp] theorem State.modPay_intake (s : State) (f : Pay → Pay) : (s.modPay f).intake = s.intake := rfl
@[simp] theorem State.modPay_marks (s : State) (f : Pay → Pay) : (s.modPay f).marks = s.marks := rfl
@[simp] theorem State.modPay_orderMap (s : State) (f : Pay → Pay) : (s.modPay f).orderMap = s.orderMap := rfl
@[simp] theorem State.modPay_revisions (s : State) (f : Pay → Pay) : (s.modPay f).revisions = s.revisions := rfl
@[simp] theorem State.modPay_msiAllowed (s : State) (f : Pay → Pay) : (s.modPay f).msiAllowed = s.msiAllowed := rfl
@[simp] theorem State.modPay_extents (s : State) (f : Pay → Pay) : (s.modPay f).extents = s.extents := rfl
@[simp] theorem State.modPay_freePages (s : State) (f : Pay → Pay) : (s.modPay f).freePages = s.freePages := rfl
@[simp] theorem State.modPay_pictures (s : State) (f : Pay → Pay) : (s.modPay f).pictures = s.pictures := rfl
@[simp] theorem State.modPay_dram (s : State) (f : Pay → Pay) : (s.modPay f).dram = s.dram := rfl
@[simp] theorem State.modPay_port (s : State) (f : Pay → Pay) : (s.modPay f).port = s.port := rfl
@[simp] theorem State.modPay_slots (s : State) (f : Pay → Pay) : (s.modPay f).slots = s.slots := rfl
@[simp] theorem State.modPay_channels (s : State) (f : Pay → Pay) : (s.modPay f).channels = s.channels := rfl
@[simp] theorem State.modPay_chanWait (s : State) (f : Pay → Pay) : (s.modPay f).chanWait = s.chanWait := rfl
@[simp] theorem State.modPay_orders (s : State) (f : Pay → Pay) : (s.modPay f).orders = s.orders := rfl
@[simp] theorem State.modPay_pay (s : State) (f : Pay → Pay) : (s.modPay f).pay = f s.pay := rfl
@[simp] theorem State.modPay_stations (s : State) (f : Pay → Pay) : (s.modPay f).stations = s.stations := rfl
@[simp] theorem State.modPay_reservations (s : State) (f : Pay → Pay) : (s.modPay f).reservations = s.reservations := rfl
@[simp] theorem State.modPay_heads (s : State) (f : Pay → Pay) : (s.modPay f).heads = s.heads := rfl
@[simp] theorem State.modPay_job (s : State) (f : Pay → Pay) : (s.modPay f).job = s.job := rfl
@[simp] theorem State.modPay_settings (s : State) (f : Pay → Pay) : (s.modPay f).settings = s.settings := rfl
@[simp] theorem State.modPay_source (s : State) (f : Pay → Pay) : (s.modPay f).source = s.source := rfl
@[simp] theorem State.modPay_autoload (s : State) (f : Pay → Pay) : (s.modPay f).autoload = s.autoload := rfl
@[simp] theorem State.modPay_store (s : State) (f : Pay → Pay) : (s.modPay f).store = s.store := rfl
@[simp] theorem State.modPay_eeprom (s : State) (f : Pay → Pay) : (s.modPay f).eeprom = s.eeprom := rfl
@[simp] theorem State.modPay_sent (s : State) (f : Pay → Pay) : (s.modPay f).sent = s.sent := rfl
@[simp] theorem State.modPay_cropChoices (s : State) (f : Pay → Pay) : (s.modPay f).cropChoices = s.cropChoices := rfl
@[simp] theorem State.modPay_stationChoices (s : State) (f : Pay → Pay) : (s.modPay f).stationChoices = s.stationChoices := rfl
@[simp] theorem State.modPay_resetChoices (s : State) (f : Pay → Pay) : (s.modPay f).resetChoices = s.resetChoices := rfl

/-! ## `State.modSlot` -/

@[simp] theorem State.modSlot_pending (s : State) (k : Fin 4) (f : Slot → Slot) : (s.modSlot k f).pending = s.pending := rfl
@[simp] theorem State.modSlot_clock (s : State) (k : Fin 4) (f : Slot → Slot) : (s.modSlot k f).clock = s.clock := rfl
@[simp] theorem State.modSlot_running (s : State) (k : Fin 4) (f : Slot → Slot) : (s.modSlot k f).running = s.running := rfl
@[simp] theorem State.modSlot_irqEnable (s : State) (k : Fin 4) (f : Slot → Slot) : (s.modSlot k f).irqEnable = s.irqEnable := rfl
@[simp] theorem State.modSlot_attentionMask (s : State) (k : Fin 4) (f : Slot → Slot) : (s.modSlot k f).attentionMask = s.attentionMask := rfl
@[simp] theorem State.modSlot_stray (s : State) (k : Fin 4) (f : Slot → Slot) : (s.modSlot k f).stray = s.stray := rfl
@[simp] theorem State.modSlot_started (s : State) (k : Fin 4) (f : Slot → Slot) : (s.modSlot k f).started = s.started := rfl
@[simp] theorem State.modSlot_strayWindow (s : State) (k : Fin 4) (f : Slot → Slot) : (s.modSlot k f).strayWindow = s.strayWindow := rfl
@[simp] theorem State.modSlot_strayOffset (s : State) (k : Fin 4) (f : Slot → Slot) : (s.modSlot k f).strayOffset = s.strayOffset := rfl
@[simp] theorem State.modSlot_cells (s : State) (k : Fin 4) (f : Slot → Slot) : (s.modSlot k f).cells = s.cells := rfl
@[simp] theorem State.modSlot_intake (s : State) (k : Fin 4) (f : Slot → Slot) : (s.modSlot k f).intake = s.intake := rfl
@[simp] theorem State.modSlot_marks (s : State) (k : Fin 4) (f : Slot → Slot) : (s.modSlot k f).marks = s.marks := rfl
@[simp] theorem State.modSlot_orderMap (s : State) (k : Fin 4) (f : Slot → Slot) : (s.modSlot k f).orderMap = s.orderMap := rfl
@[simp] theorem State.modSlot_revisions (s : State) (k : Fin 4) (f : Slot → Slot) : (s.modSlot k f).revisions = s.revisions := rfl
@[simp] theorem State.modSlot_msiAllowed (s : State) (k : Fin 4) (f : Slot → Slot) : (s.modSlot k f).msiAllowed = s.msiAllowed := rfl
@[simp] theorem State.modSlot_extents (s : State) (k : Fin 4) (f : Slot → Slot) : (s.modSlot k f).extents = s.extents := rfl
@[simp] theorem State.modSlot_freePages (s : State) (k : Fin 4) (f : Slot → Slot) : (s.modSlot k f).freePages = s.freePages := rfl
@[simp] theorem State.modSlot_pictures (s : State) (k : Fin 4) (f : Slot → Slot) : (s.modSlot k f).pictures = s.pictures := rfl
@[simp] theorem State.modSlot_dram (s : State) (k : Fin 4) (f : Slot → Slot) : (s.modSlot k f).dram = s.dram := rfl
@[simp] theorem State.modSlot_port (s : State) (k : Fin 4) (f : Slot → Slot) : (s.modSlot k f).port = s.port := rfl
@[simp] theorem State.modSlot_slots (s : State) (k : Fin 4) (f : Slot → Slot) : (s.modSlot k f).slots = s.slots.set k (f s.slots[k]) := rfl
@[simp] theorem State.modSlot_channels (s : State) (k : Fin 4) (f : Slot → Slot) : (s.modSlot k f).channels = s.channels := rfl
@[simp] theorem State.modSlot_chanWait (s : State) (k : Fin 4) (f : Slot → Slot) : (s.modSlot k f).chanWait = s.chanWait := rfl
@[simp] theorem State.modSlot_orders (s : State) (k : Fin 4) (f : Slot → Slot) : (s.modSlot k f).orders = s.orders := rfl
@[simp] theorem State.modSlot_pay (s : State) (k : Fin 4) (f : Slot → Slot) : (s.modSlot k f).pay = s.pay := rfl
@[simp] theorem State.modSlot_stations (s : State) (k : Fin 4) (f : Slot → Slot) : (s.modSlot k f).stations = s.stations := rfl
@[simp] theorem State.modSlot_reservations (s : State) (k : Fin 4) (f : Slot → Slot) : (s.modSlot k f).reservations = s.reservations := rfl
@[simp] theorem State.modSlot_heads (s : State) (k : Fin 4) (f : Slot → Slot) : (s.modSlot k f).heads = s.heads := rfl
@[simp] theorem State.modSlot_job (s : State) (k : Fin 4) (f : Slot → Slot) : (s.modSlot k f).job = s.job := rfl
@[simp] theorem State.modSlot_settings (s : State) (k : Fin 4) (f : Slot → Slot) : (s.modSlot k f).settings = s.settings := rfl
@[simp] theorem State.modSlot_source (s : State) (k : Fin 4) (f : Slot → Slot) : (s.modSlot k f).source = s.source := rfl
@[simp] theorem State.modSlot_autoload (s : State) (k : Fin 4) (f : Slot → Slot) : (s.modSlot k f).autoload = s.autoload := rfl
@[simp] theorem State.modSlot_store (s : State) (k : Fin 4) (f : Slot → Slot) : (s.modSlot k f).store = s.store := rfl
@[simp] theorem State.modSlot_eeprom (s : State) (k : Fin 4) (f : Slot → Slot) : (s.modSlot k f).eeprom = s.eeprom := rfl
@[simp] theorem State.modSlot_sent (s : State) (k : Fin 4) (f : Slot → Slot) : (s.modSlot k f).sent = s.sent := rfl
@[simp] theorem State.modSlot_cropChoices (s : State) (k : Fin 4) (f : Slot → Slot) : (s.modSlot k f).cropChoices = s.cropChoices := rfl
@[simp] theorem State.modSlot_stationChoices (s : State) (k : Fin 4) (f : Slot → Slot) : (s.modSlot k f).stationChoices = s.stationChoices := rfl
@[simp] theorem State.modSlot_resetChoices (s : State) (k : Fin 4) (f : Slot → Slot) : (s.modSlot k f).resetChoices = s.resetChoices := rfl

/-! ## `State.modStation` -/

@[simp] theorem State.modStation_pending (s : State) (k : Fin 3) (f : Station → Station) : (s.modStation k f).pending = s.pending := rfl
@[simp] theorem State.modStation_clock (s : State) (k : Fin 3) (f : Station → Station) : (s.modStation k f).clock = s.clock := rfl
@[simp] theorem State.modStation_running (s : State) (k : Fin 3) (f : Station → Station) : (s.modStation k f).running = s.running := rfl
@[simp] theorem State.modStation_irqEnable (s : State) (k : Fin 3) (f : Station → Station) : (s.modStation k f).irqEnable = s.irqEnable := rfl
@[simp] theorem State.modStation_attentionMask (s : State) (k : Fin 3) (f : Station → Station) : (s.modStation k f).attentionMask = s.attentionMask := rfl
@[simp] theorem State.modStation_stray (s : State) (k : Fin 3) (f : Station → Station) : (s.modStation k f).stray = s.stray := rfl
@[simp] theorem State.modStation_started (s : State) (k : Fin 3) (f : Station → Station) : (s.modStation k f).started = s.started := rfl
@[simp] theorem State.modStation_strayWindow (s : State) (k : Fin 3) (f : Station → Station) : (s.modStation k f).strayWindow = s.strayWindow := rfl
@[simp] theorem State.modStation_strayOffset (s : State) (k : Fin 3) (f : Station → Station) : (s.modStation k f).strayOffset = s.strayOffset := rfl
@[simp] theorem State.modStation_cells (s : State) (k : Fin 3) (f : Station → Station) : (s.modStation k f).cells = s.cells := rfl
@[simp] theorem State.modStation_intake (s : State) (k : Fin 3) (f : Station → Station) : (s.modStation k f).intake = s.intake := rfl
@[simp] theorem State.modStation_marks (s : State) (k : Fin 3) (f : Station → Station) : (s.modStation k f).marks = s.marks := rfl
@[simp] theorem State.modStation_orderMap (s : State) (k : Fin 3) (f : Station → Station) : (s.modStation k f).orderMap = s.orderMap := rfl
@[simp] theorem State.modStation_revisions (s : State) (k : Fin 3) (f : Station → Station) : (s.modStation k f).revisions = s.revisions := rfl
@[simp] theorem State.modStation_msiAllowed (s : State) (k : Fin 3) (f : Station → Station) : (s.modStation k f).msiAllowed = s.msiAllowed := rfl
@[simp] theorem State.modStation_extents (s : State) (k : Fin 3) (f : Station → Station) : (s.modStation k f).extents = s.extents := rfl
@[simp] theorem State.modStation_freePages (s : State) (k : Fin 3) (f : Station → Station) : (s.modStation k f).freePages = s.freePages := rfl
@[simp] theorem State.modStation_pictures (s : State) (k : Fin 3) (f : Station → Station) : (s.modStation k f).pictures = s.pictures := rfl
@[simp] theorem State.modStation_dram (s : State) (k : Fin 3) (f : Station → Station) : (s.modStation k f).dram = s.dram := rfl
@[simp] theorem State.modStation_port (s : State) (k : Fin 3) (f : Station → Station) : (s.modStation k f).port = s.port := rfl
@[simp] theorem State.modStation_slots (s : State) (k : Fin 3) (f : Station → Station) : (s.modStation k f).slots = s.slots := rfl
@[simp] theorem State.modStation_channels (s : State) (k : Fin 3) (f : Station → Station) : (s.modStation k f).channels = s.channels := rfl
@[simp] theorem State.modStation_chanWait (s : State) (k : Fin 3) (f : Station → Station) : (s.modStation k f).chanWait = s.chanWait := rfl
@[simp] theorem State.modStation_orders (s : State) (k : Fin 3) (f : Station → Station) : (s.modStation k f).orders = s.orders := rfl
@[simp] theorem State.modStation_pay (s : State) (k : Fin 3) (f : Station → Station) : (s.modStation k f).pay = s.pay := rfl
@[simp] theorem State.modStation_stations (s : State) (k : Fin 3) (f : Station → Station) : (s.modStation k f).stations = s.stations.set k (f s.stations[k]) := rfl
@[simp] theorem State.modStation_reservations (s : State) (k : Fin 3) (f : Station → Station) : (s.modStation k f).reservations = s.reservations := rfl
@[simp] theorem State.modStation_heads (s : State) (k : Fin 3) (f : Station → Station) : (s.modStation k f).heads = s.heads := rfl
@[simp] theorem State.modStation_job (s : State) (k : Fin 3) (f : Station → Station) : (s.modStation k f).job = s.job := rfl
@[simp] theorem State.modStation_settings (s : State) (k : Fin 3) (f : Station → Station) : (s.modStation k f).settings = s.settings := rfl
@[simp] theorem State.modStation_source (s : State) (k : Fin 3) (f : Station → Station) : (s.modStation k f).source = s.source := rfl
@[simp] theorem State.modStation_autoload (s : State) (k : Fin 3) (f : Station → Station) : (s.modStation k f).autoload = s.autoload := rfl
@[simp] theorem State.modStation_store (s : State) (k : Fin 3) (f : Station → Station) : (s.modStation k f).store = s.store := rfl
@[simp] theorem State.modStation_eeprom (s : State) (k : Fin 3) (f : Station → Station) : (s.modStation k f).eeprom = s.eeprom := rfl
@[simp] theorem State.modStation_sent (s : State) (k : Fin 3) (f : Station → Station) : (s.modStation k f).sent = s.sent := rfl
@[simp] theorem State.modStation_cropChoices (s : State) (k : Fin 3) (f : Station → Station) : (s.modStation k f).cropChoices = s.cropChoices := rfl
@[simp] theorem State.modStation_stationChoices (s : State) (k : Fin 3) (f : Station → Station) : (s.modStation k f).stationChoices = s.stationChoices := rfl
@[simp] theorem State.modStation_resetChoices (s : State) (k : Fin 3) (f : Station → Station) : (s.modStation k f).resetChoices = s.resetChoices := rfl

/-! ## `State.modHead` -/

@[simp] theorem State.modHead_pending (s : State) (k : Fin 3) (f : Head → Head) : (s.modHead k f).pending = s.pending := rfl
@[simp] theorem State.modHead_clock (s : State) (k : Fin 3) (f : Head → Head) : (s.modHead k f).clock = s.clock := rfl
@[simp] theorem State.modHead_running (s : State) (k : Fin 3) (f : Head → Head) : (s.modHead k f).running = s.running := rfl
@[simp] theorem State.modHead_irqEnable (s : State) (k : Fin 3) (f : Head → Head) : (s.modHead k f).irqEnable = s.irqEnable := rfl
@[simp] theorem State.modHead_attentionMask (s : State) (k : Fin 3) (f : Head → Head) : (s.modHead k f).attentionMask = s.attentionMask := rfl
@[simp] theorem State.modHead_stray (s : State) (k : Fin 3) (f : Head → Head) : (s.modHead k f).stray = s.stray := rfl
@[simp] theorem State.modHead_started (s : State) (k : Fin 3) (f : Head → Head) : (s.modHead k f).started = s.started := rfl
@[simp] theorem State.modHead_strayWindow (s : State) (k : Fin 3) (f : Head → Head) : (s.modHead k f).strayWindow = s.strayWindow := rfl
@[simp] theorem State.modHead_strayOffset (s : State) (k : Fin 3) (f : Head → Head) : (s.modHead k f).strayOffset = s.strayOffset := rfl
@[simp] theorem State.modHead_cells (s : State) (k : Fin 3) (f : Head → Head) : (s.modHead k f).cells = s.cells := rfl
@[simp] theorem State.modHead_intake (s : State) (k : Fin 3) (f : Head → Head) : (s.modHead k f).intake = s.intake := rfl
@[simp] theorem State.modHead_marks (s : State) (k : Fin 3) (f : Head → Head) : (s.modHead k f).marks = s.marks := rfl
@[simp] theorem State.modHead_orderMap (s : State) (k : Fin 3) (f : Head → Head) : (s.modHead k f).orderMap = s.orderMap := rfl
@[simp] theorem State.modHead_revisions (s : State) (k : Fin 3) (f : Head → Head) : (s.modHead k f).revisions = s.revisions := rfl
@[simp] theorem State.modHead_msiAllowed (s : State) (k : Fin 3) (f : Head → Head) : (s.modHead k f).msiAllowed = s.msiAllowed := rfl
@[simp] theorem State.modHead_extents (s : State) (k : Fin 3) (f : Head → Head) : (s.modHead k f).extents = s.extents := rfl
@[simp] theorem State.modHead_freePages (s : State) (k : Fin 3) (f : Head → Head) : (s.modHead k f).freePages = s.freePages := rfl
@[simp] theorem State.modHead_pictures (s : State) (k : Fin 3) (f : Head → Head) : (s.modHead k f).pictures = s.pictures := rfl
@[simp] theorem State.modHead_dram (s : State) (k : Fin 3) (f : Head → Head) : (s.modHead k f).dram = s.dram := rfl
@[simp] theorem State.modHead_port (s : State) (k : Fin 3) (f : Head → Head) : (s.modHead k f).port = s.port := rfl
@[simp] theorem State.modHead_slots (s : State) (k : Fin 3) (f : Head → Head) : (s.modHead k f).slots = s.slots := rfl
@[simp] theorem State.modHead_channels (s : State) (k : Fin 3) (f : Head → Head) : (s.modHead k f).channels = s.channels := rfl
@[simp] theorem State.modHead_chanWait (s : State) (k : Fin 3) (f : Head → Head) : (s.modHead k f).chanWait = s.chanWait := rfl
@[simp] theorem State.modHead_orders (s : State) (k : Fin 3) (f : Head → Head) : (s.modHead k f).orders = s.orders := rfl
@[simp] theorem State.modHead_pay (s : State) (k : Fin 3) (f : Head → Head) : (s.modHead k f).pay = s.pay := rfl
@[simp] theorem State.modHead_stations (s : State) (k : Fin 3) (f : Head → Head) : (s.modHead k f).stations = s.stations := rfl
@[simp] theorem State.modHead_reservations (s : State) (k : Fin 3) (f : Head → Head) : (s.modHead k f).reservations = s.reservations := rfl
@[simp] theorem State.modHead_heads (s : State) (k : Fin 3) (f : Head → Head) : (s.modHead k f).heads = s.heads.set k (f s.heads[k]) := rfl
@[simp] theorem State.modHead_job (s : State) (k : Fin 3) (f : Head → Head) : (s.modHead k f).job = s.job := rfl
@[simp] theorem State.modHead_settings (s : State) (k : Fin 3) (f : Head → Head) : (s.modHead k f).settings = s.settings := rfl
@[simp] theorem State.modHead_source (s : State) (k : Fin 3) (f : Head → Head) : (s.modHead k f).source = s.source := rfl
@[simp] theorem State.modHead_autoload (s : State) (k : Fin 3) (f : Head → Head) : (s.modHead k f).autoload = s.autoload := rfl
@[simp] theorem State.modHead_store (s : State) (k : Fin 3) (f : Head → Head) : (s.modHead k f).store = s.store := rfl
@[simp] theorem State.modHead_eeprom (s : State) (k : Fin 3) (f : Head → Head) : (s.modHead k f).eeprom = s.eeprom := rfl
@[simp] theorem State.modHead_sent (s : State) (k : Fin 3) (f : Head → Head) : (s.modHead k f).sent = s.sent := rfl
@[simp] theorem State.modHead_cropChoices (s : State) (k : Fin 3) (f : Head → Head) : (s.modHead k f).cropChoices = s.cropChoices := rfl
@[simp] theorem State.modHead_stationChoices (s : State) (k : Fin 3) (f : Head → Head) : (s.modHead k f).stationChoices = s.stationChoices := rfl
@[simp] theorem State.modHead_resetChoices (s : State) (k : Fin 3) (f : Head → Head) : (s.modHead k f).resetChoices = s.resetChoices := rfl

/-! ## The end of an event -/

@[simp] theorem State.sendMsi_pending (s : State) : s.sendMsi.pending = s.pending := by unfold State.sendMsi; split <;> rfl
@[simp] theorem notified_pending (b : Bool) (s : State) : (notified b s).pending = s.pending := by unfold notified; split <;> simp
@[simp] theorem State.sendMsi_clock (s : State) : s.sendMsi.clock = s.clock := by unfold State.sendMsi; split <;> rfl
@[simp] theorem notified_clock (b : Bool) (s : State) : (notified b s).clock = s.clock := by unfold notified; split <;> simp
@[simp] theorem State.sendMsi_running (s : State) : s.sendMsi.running = s.running := by unfold State.sendMsi; split <;> rfl
@[simp] theorem notified_running (b : Bool) (s : State) : (notified b s).running = s.running := by unfold notified; split <;> simp
@[simp] theorem State.sendMsi_irqEnable (s : State) : s.sendMsi.irqEnable = s.irqEnable := by unfold State.sendMsi; split <;> rfl
@[simp] theorem notified_irqEnable (b : Bool) (s : State) : (notified b s).irqEnable = s.irqEnable := by unfold notified; split <;> simp
@[simp] theorem State.sendMsi_attentionMask (s : State) : s.sendMsi.attentionMask = s.attentionMask := by unfold State.sendMsi; split <;> rfl
@[simp] theorem notified_attentionMask (b : Bool) (s : State) : (notified b s).attentionMask = s.attentionMask := by unfold notified; split <;> simp
@[simp] theorem State.sendMsi_stray (s : State) : s.sendMsi.stray = s.stray := by unfold State.sendMsi; split <;> rfl
@[simp] theorem notified_stray (b : Bool) (s : State) : (notified b s).stray = s.stray := by unfold notified; split <;> simp
@[simp] theorem State.sendMsi_started (s : State) : s.sendMsi.started = s.started := by unfold State.sendMsi; split <;> rfl
@[simp] theorem notified_started (b : Bool) (s : State) : (notified b s).started = s.started := by unfold notified; split <;> simp
@[simp] theorem State.sendMsi_strayWindow (s : State) : s.sendMsi.strayWindow = s.strayWindow := by unfold State.sendMsi; split <;> rfl
@[simp] theorem notified_strayWindow (b : Bool) (s : State) : (notified b s).strayWindow = s.strayWindow := by unfold notified; split <;> simp
@[simp] theorem State.sendMsi_strayOffset (s : State) : s.sendMsi.strayOffset = s.strayOffset := by unfold State.sendMsi; split <;> rfl
@[simp] theorem notified_strayOffset (b : Bool) (s : State) : (notified b s).strayOffset = s.strayOffset := by unfold notified; split <;> simp
@[simp] theorem State.sendMsi_cells (s : State) : s.sendMsi.cells = s.cells := by unfold State.sendMsi; split <;> rfl
@[simp] theorem notified_cells (b : Bool) (s : State) : (notified b s).cells = s.cells := by unfold notified; split <;> simp
@[simp] theorem State.sendMsi_intake (s : State) : s.sendMsi.intake = s.intake := by unfold State.sendMsi; split <;> rfl
@[simp] theorem notified_intake (b : Bool) (s : State) : (notified b s).intake = s.intake := by unfold notified; split <;> simp
@[simp] theorem State.sendMsi_marks (s : State) : s.sendMsi.marks = s.marks := by unfold State.sendMsi; split <;> rfl
@[simp] theorem notified_marks (b : Bool) (s : State) : (notified b s).marks = s.marks := by unfold notified; split <;> simp
@[simp] theorem State.sendMsi_orderMap (s : State) : s.sendMsi.orderMap = s.orderMap := by unfold State.sendMsi; split <;> rfl
@[simp] theorem notified_orderMap (b : Bool) (s : State) : (notified b s).orderMap = s.orderMap := by unfold notified; split <;> simp
@[simp] theorem State.sendMsi_revisions (s : State) : s.sendMsi.revisions = s.revisions := by unfold State.sendMsi; split <;> rfl
@[simp] theorem notified_revisions (b : Bool) (s : State) : (notified b s).revisions = s.revisions := by unfold notified; split <;> simp
@[simp] theorem State.sendMsi_msiAllowed (s : State) : s.sendMsi.msiAllowed = s.msiAllowed := by unfold State.sendMsi; split <;> rfl
@[simp] theorem notified_msiAllowed (b : Bool) (s : State) : (notified b s).msiAllowed = s.msiAllowed := by unfold notified; split <;> simp
@[simp] theorem State.sendMsi_extents (s : State) : s.sendMsi.extents = s.extents := by unfold State.sendMsi; split <;> rfl
@[simp] theorem notified_extents (b : Bool) (s : State) : (notified b s).extents = s.extents := by unfold notified; split <;> simp
@[simp] theorem State.sendMsi_freePages (s : State) : s.sendMsi.freePages = s.freePages := by unfold State.sendMsi; split <;> rfl
@[simp] theorem notified_freePages (b : Bool) (s : State) : (notified b s).freePages = s.freePages := by unfold notified; split <;> simp
@[simp] theorem State.sendMsi_pictures (s : State) : s.sendMsi.pictures = s.pictures := by unfold State.sendMsi; split <;> rfl
@[simp] theorem notified_pictures (b : Bool) (s : State) : (notified b s).pictures = s.pictures := by unfold notified; split <;> simp
@[simp] theorem State.sendMsi_dram (s : State) : s.sendMsi.dram = s.dram := by unfold State.sendMsi; split <;> rfl
@[simp] theorem notified_dram (b : Bool) (s : State) : (notified b s).dram = s.dram := by unfold notified; split <;> simp
@[simp] theorem State.sendMsi_port (s : State) : s.sendMsi.port = s.port := by unfold State.sendMsi; split <;> rfl
@[simp] theorem notified_port (b : Bool) (s : State) : (notified b s).port = s.port := by unfold notified; split <;> simp
@[simp] theorem State.sendMsi_slots (s : State) : s.sendMsi.slots = s.slots := by unfold State.sendMsi; split <;> rfl
@[simp] theorem notified_slots (b : Bool) (s : State) : (notified b s).slots = s.slots := by unfold notified; split <;> simp
@[simp] theorem State.sendMsi_channels (s : State) : s.sendMsi.channels = s.channels := by unfold State.sendMsi; split <;> rfl
@[simp] theorem notified_channels (b : Bool) (s : State) : (notified b s).channels = s.channels := by unfold notified; split <;> simp
@[simp] theorem State.sendMsi_chanWait (s : State) : s.sendMsi.chanWait = s.chanWait := by unfold State.sendMsi; split <;> rfl
@[simp] theorem notified_chanWait (b : Bool) (s : State) : (notified b s).chanWait = s.chanWait := by unfold notified; split <;> simp
@[simp] theorem State.sendMsi_orders (s : State) : s.sendMsi.orders = s.orders := by unfold State.sendMsi; split <;> rfl
@[simp] theorem notified_orders (b : Bool) (s : State) : (notified b s).orders = s.orders := by unfold notified; split <;> simp
@[simp] theorem State.sendMsi_pay (s : State) : s.sendMsi.pay = s.pay := by unfold State.sendMsi; split <;> rfl
@[simp] theorem notified_pay (b : Bool) (s : State) : (notified b s).pay = s.pay := by unfold notified; split <;> simp
@[simp] theorem State.sendMsi_stations (s : State) : s.sendMsi.stations = s.stations := by unfold State.sendMsi; split <;> rfl
@[simp] theorem notified_stations (b : Bool) (s : State) : (notified b s).stations = s.stations := by unfold notified; split <;> simp
@[simp] theorem State.sendMsi_reservations (s : State) : s.sendMsi.reservations = s.reservations := by unfold State.sendMsi; split <;> rfl
@[simp] theorem notified_reservations (b : Bool) (s : State) : (notified b s).reservations = s.reservations := by unfold notified; split <;> simp
@[simp] theorem State.sendMsi_heads (s : State) : s.sendMsi.heads = s.heads := by unfold State.sendMsi; split <;> rfl
@[simp] theorem notified_heads (b : Bool) (s : State) : (notified b s).heads = s.heads := by unfold notified; split <;> simp
@[simp] theorem State.sendMsi_job (s : State) : s.sendMsi.job = s.job := by unfold State.sendMsi; split <;> rfl
@[simp] theorem notified_job (b : Bool) (s : State) : (notified b s).job = s.job := by unfold notified; split <;> simp
@[simp] theorem State.sendMsi_settings (s : State) : s.sendMsi.settings = s.settings := by unfold State.sendMsi; split <;> rfl
@[simp] theorem notified_settings (b : Bool) (s : State) : (notified b s).settings = s.settings := by unfold notified; split <;> simp
@[simp] theorem State.sendMsi_source (s : State) : s.sendMsi.source = s.source := by unfold State.sendMsi; split <;> rfl
@[simp] theorem notified_source (b : Bool) (s : State) : (notified b s).source = s.source := by unfold notified; split <;> simp
@[simp] theorem State.sendMsi_autoload (s : State) : s.sendMsi.autoload = s.autoload := by unfold State.sendMsi; split <;> rfl
@[simp] theorem notified_autoload (b : Bool) (s : State) : (notified b s).autoload = s.autoload := by unfold notified; split <;> simp
@[simp] theorem State.sendMsi_store (s : State) : s.sendMsi.store = s.store := by unfold State.sendMsi; split <;> rfl
@[simp] theorem notified_store (b : Bool) (s : State) : (notified b s).store = s.store := by unfold notified; split <;> simp
@[simp] theorem State.sendMsi_eeprom (s : State) : s.sendMsi.eeprom = s.eeprom := by unfold State.sendMsi; split <;> rfl
@[simp] theorem notified_eeprom (b : Bool) (s : State) : (notified b s).eeprom = s.eeprom := by unfold notified; split <;> simp
@[simp] theorem State.sendMsi_cropChoices (s : State) : s.sendMsi.cropChoices = s.cropChoices := by unfold State.sendMsi; split <;> rfl
@[simp] theorem notified_cropChoices (b : Bool) (s : State) : (notified b s).cropChoices = s.cropChoices := by unfold notified; split <;> simp
@[simp] theorem State.sendMsi_stationChoices (s : State) : s.sendMsi.stationChoices = s.stationChoices := by unfold State.sendMsi; split <;> rfl
@[simp] theorem notified_stationChoices (b : Bool) (s : State) : (notified b s).stationChoices = s.stationChoices := by unfold notified; split <;> simp
@[simp] theorem State.sendMsi_resetChoices (s : State) : s.sendMsi.resetChoices = s.resetChoices := by unfold State.sendMsi; split <;> rfl
@[simp] theorem notified_resetChoices (b : Bool) (s : State) : (notified b s).resetChoices = s.resetChoices := by unfold notified; split <;> simp
@[simp] theorem finish_pending (s t : State) : (finish s t).pending = t.pending := by simp [finish, recordsMarked, boardMarked]
@[simp] theorem finish_clock (s t : State) : (finish s t).clock = t.clock := by simp [finish, recordsMarked, boardMarked]
@[simp] theorem finish_running (s t : State) : (finish s t).running = t.running := by simp [finish, recordsMarked, boardMarked]
@[simp] theorem finish_irqEnable (s t : State) : (finish s t).irqEnable = t.irqEnable := by simp [finish, recordsMarked, boardMarked]
@[simp] theorem finish_attentionMask (s t : State) : (finish s t).attentionMask = t.attentionMask := by simp [finish, recordsMarked, boardMarked]
@[simp] theorem finish_stray (s t : State) : (finish s t).stray = t.stray := by simp [finish, recordsMarked, boardMarked]
@[simp] theorem finish_started (s t : State) : (finish s t).started = t.started := by simp [finish, recordsMarked, boardMarked]
@[simp] theorem finish_strayWindow (s t : State) : (finish s t).strayWindow = t.strayWindow := by simp [finish, recordsMarked, boardMarked]
@[simp] theorem finish_strayOffset (s t : State) : (finish s t).strayOffset = t.strayOffset := by simp [finish, recordsMarked, boardMarked]
@[simp] theorem finish_cells (s t : State) : (finish s t).cells = t.cells := by simp [finish, recordsMarked, boardMarked]
@[simp] theorem finish_intake (s t : State) : (finish s t).intake = t.intake := by simp [finish, recordsMarked, boardMarked]
@[simp] theorem finish_msiAllowed (s t : State) : (finish s t).msiAllowed = t.msiAllowed := by simp [finish, recordsMarked, boardMarked]
@[simp] theorem finish_extents (s t : State) : (finish s t).extents = t.extents := by simp [finish, recordsMarked, boardMarked]
@[simp] theorem finish_freePages (s t : State) : (finish s t).freePages = t.freePages := by simp [finish, recordsMarked, boardMarked]
@[simp] theorem finish_pictures (s t : State) : (finish s t).pictures = t.pictures := by simp [finish, recordsMarked, boardMarked]
@[simp] theorem finish_dram (s t : State) : (finish s t).dram = t.dram := by simp [finish, recordsMarked, boardMarked]
@[simp] theorem finish_port (s t : State) : (finish s t).port = t.port := by simp [finish, recordsMarked, boardMarked]
@[simp] theorem finish_slots (s t : State) : (finish s t).slots = t.slots := by simp [finish, recordsMarked, boardMarked]
@[simp] theorem finish_channels (s t : State) : (finish s t).channels = t.channels := by simp [finish, recordsMarked, boardMarked]
@[simp] theorem finish_chanWait (s t : State) : (finish s t).chanWait = t.chanWait := by simp [finish, recordsMarked, boardMarked]
@[simp] theorem finish_orders (s t : State) : (finish s t).orders = t.orders := by simp [finish, recordsMarked, boardMarked]
@[simp] theorem finish_pay (s t : State) : (finish s t).pay = t.pay := by simp [finish, recordsMarked, boardMarked]
@[simp] theorem finish_stations (s t : State) : (finish s t).stations = t.stations := by simp [finish, recordsMarked, boardMarked]
@[simp] theorem finish_reservations (s t : State) : (finish s t).reservations = t.reservations := by simp [finish, recordsMarked, boardMarked]
@[simp] theorem finish_heads (s t : State) : (finish s t).heads = t.heads := by simp [finish, recordsMarked, boardMarked]
@[simp] theorem finish_job (s t : State) : (finish s t).job = t.job := by simp [finish, recordsMarked, boardMarked]
@[simp] theorem finish_settings (s t : State) : (finish s t).settings = t.settings := by simp [finish, recordsMarked, boardMarked]
@[simp] theorem finish_source (s t : State) : (finish s t).source = t.source := by simp [finish, recordsMarked, boardMarked]
@[simp] theorem finish_autoload (s t : State) : (finish s t).autoload = t.autoload := by simp [finish, recordsMarked, boardMarked]
@[simp] theorem finish_store (s t : State) : (finish s t).store = t.store := by simp [finish, recordsMarked, boardMarked]
@[simp] theorem finish_eeprom (s t : State) : (finish s t).eeprom = t.eeprom := by simp [finish, recordsMarked, boardMarked]
@[simp] theorem finish_cropChoices (s t : State) : (finish s t).cropChoices = t.cropChoices := by simp [finish, recordsMarked, boardMarked]
@[simp] theorem finish_stationChoices (s t : State) : (finish s t).stationChoices = t.stationChoices := by simp [finish, recordsMarked, boardMarked]
@[simp] theorem finish_resetChoices (s t : State) : (finish s t).resetChoices = t.resetChoices := by simp [finish, recordsMarked, boardMarked]

/-! ## Reading back -/

@[simp] theorem tab_get {α : Type} {n : Nat} (f : Fin n → α) (i : Fin n) : (tab f)[i] = f i := by simp [tab]

@[simp] theorem tab_getElem {α : Type} {n : Nat} (f : Fin n → α) (j : Nat) (h : j < n) : (tab f)[j] = f ⟨j, h⟩ := by
  simp [tab]

@[simp] theorem vector_set_get {α : Type} {n : Nat} (v : Vector α n) (i j : Fin n) (x : α) :
    (v.set i x)[j] = if i = j then x else v[j] := by simp [Vector.getElem_set, Fin.ext_iff]

/-- What the end of an event adds to what has been put out: an MSI when the condition rises and the endpoint allows it. -/
theorem notified_eq (b : Bool) (t : State) :
    notified b t = { t with sent := t.sent ++ if t.interrupt && !b && t.msiAllowed then [.msi] else [] } := by
  unfold notified State.sendMsi State.emit
  generalize t.interrupt = i
  cases t
  cases i <;> cases b <;> simp
  split <;> simp_all

end Sys2Proof.Machine
end

