-- ==== Sys2Proof/Laws/Requests.lean ====
section
/-! SUPPORT. Everything the shared operations over work cells can do: the head of a list, the take, the answer, a request
that is answered at its take, and an event. -/

namespace Sys2Proof.Machine

/-- A cell is at the head for a kind exactly when the part is RUNNING, it heads the list, and its kind is that one. -/
theorem headOf_eq_some {s : State} {l : Fin 11} {k : Kind} {c : Fin 64} :
    s.headOf l k = some c ↔ s.running = true ∧ s.intake[l].head? = some c ∧ s.cells[c].kind = some k := by
  unfold State.headOf
  cases h : s.intake[l] with
  | nil => simp
  | cons d t =>
    simp only [List.head?_cons, Option.some.injEq, Bool.and_eq_true, beq_iff_eq]
    constructor
    · intro hd
      split at hd
      · rename_i hc
        simp only [Option.some.injEq] at hd
        exact ⟨hc.1, hd, hd ▸ hc.2⟩
      · simp at hd
    · rintro ⟨hr, rfl, hk⟩
      simpa [hr] using hk

/-- A request answered at its take: nothing, or the take, the work and the answer in one event. -/
theorem serve_cases {s t : State} {l : Fin 11} {k : Kind} {f : State → Fin 64 → State × Answer}
    (h : serve s l k f = .next t) :
    (s.headOf l k = none ∧ t = s) ∨
    ∃ c, s.headOf l k = some c ∧ t = finish s ((f (s.take c) c).1.answer c (f (s.take c) c).2) := by
  unfold serve at h
  cases hc : s.headOf l k with
  | none => simp [hc] at h; exact .inl ⟨rfl, h.symm⟩
  | some c => simp [hc, event] at h; exact .inr ⟨c, rfl, h.symm⟩

theorem serve_some {s : State} {l : Fin 11} {k : Kind} {f : State → Fin 64 → State × Answer} {c : Fin 64}
    (h : s.headOf l k = some c) :
    serve s l k f = .next (finish s ((f (s.take c) c).1.answer c (f (s.take c) c).2)) := by
  simp [serve, h, event]

/-- A request answered at its take whose effect may bring a selection or a start. -/
theorem serveWork_some {s : State} {l : Fin 11} {k : Kind} {f : State → Fin 64 → State × Answer} {c : Fin 64}
    (h : s.headOf l k = some c) :
    serveWork s l k f = .next (afterWork s ((f (s.take c) c).1.answer c (f (s.take c) c).2)) := by
  simp [serveWork, h, workEvent]

/-- What a take changes: the lists and the one cell. -/
theorem take_eq (s : State) (c : Fin 64) :
    s.take c = { s with intake := tab fun l => s.intake[l].filter (· != c), cells := s.cells.set c s.cells[c].taken } := rfl

/-- What an answer changes: the one cell. -/
theorem answer_eq (s : State) (c : Fin 64) (a : Answer) :
    s.answer c a = { s with cells := s.cells.set c (s.cells[c].answered a) } := rfl

theorem taken_mem_wf {c : WorkCell} (w : c.mem.wf = true) : c.taken.mem.wf = true := Mem.writeBytes_wf w _ _

theorem answered_mem_wf {c : WorkCell} (w : c.mem.wf = true) (a : Answer) : (c.answered a).mem.wf = true :=
  Mem.writeBytes_wf (Mem.writeBytes_wf w _ _) _ _

/-- An event answers the finished state of its blocks. -/
theorem event_next {s t u : State} : event s t = .next u ↔ u = finish s t := by
  simp [event]
  exact ⟨Eq.symm, Eq.symm⟩

/-- The end of an event changes the marks, the board's bookkeeping and what has been put out, and nothing else. -/
theorem finish_eq (s t : State) :
    finish s t = { t with marks := (finish s t).marks, revisions := (finish s t).revisions,
                          orderMap := (finish s t).orderMap, sent := (finish s t).sent } := by
  unfold finish notified State.sendMsi State.emit
  split
  · split <;> rfl
  · rfl

/-- What has been put out grows at its end only, and by an MSI at most. -/
theorem finish_sent (s t : State) : (finish s t).sent = t.sent ∨ (finish s t).sent = t.sent ++ [.msi] := by
  unfold finish notified State.sendMsi State.emit
  split
  · split
    · right; rfl
    · left; rfl
  · left; rfl

end Sys2Proof.Machine
end

