-- ==== Sys2Proof/Laws/Frames.lean ====
section
/-! SUPPORT. Which parts of the state the shared operations of each block can change. Each lemma says it once for one
operation; the five relations compose, so a meaning's frame follows from those of the operations it is made of. -/

namespace Sys2Proof.Machine

/-! ## The relations -/

/-- Only the payment side changes, and what is put out. -/
def PayFrame (s t : State) : Prop := t = { s with pay := t.pay, sent := t.sent }

/-- Only slots, channels, card files and cells change, and what is put out. -/
def CardFrame (s t : State) : Prop :=
  t = { s with
    slots := t.slots, channels := t.channels, chanWait := t.chanWait, pictures := t.pictures
    cells := t.cells, sent := t.sent }

/-- Only orders, their references, reservations, queued actions and pay cells change. -/
def OrderFrame (s t : State) : Prop :=
  t = { s with
    orders := t.orders, pictures := t.pictures, extents := t.extents, freePages := t.freePages, pay := t.pay
    cells := t.cells, reservations := t.reservations, stations := t.stations }

/-- Only stations, the Render Engine, and what an order takes from them change, and what is put out. -/
def StationFrame (s t : State) : Prop :=
  t = { s with
    stations := t.stations, heads := t.heads, job := t.job, port := t.port, orders := t.orders, pictures := t.pictures
    extents := t.extents, freePages := t.freePages, pay := t.pay, cells := t.cells, reservations := t.reservations
    sent := t.sent }

/-- Only what the Dispatcher and the render arbiter keep or hand out changes: orders, reservations, stations, the Render
Engine, and what is put out. -/
def WorkFrame (s t : State) : Prop :=
  t = { s with
    orders := t.orders, reservations := t.reservations, stations := t.stations, heads := t.heads, job := t.job
    sent := t.sent, stationChoices := t.stationChoices }

/-- What events made of such work change: the same, and what the end of an event marks, counts and raises. -/
def EventFrame (s t : State) : Prop :=
  t = { s with
    orders := t.orders, reservations := t.reservations, stations := t.stations, heads := t.heads, job := t.job
    sent := t.sent, stationChoices := t.stationChoices
    marks := t.marks, revisions := t.revisions, orderMap := t.orderMap }

theorem PayFrame.refl (s : State) : PayFrame s s := rfl
theorem CardFrame.refl (s : State) : CardFrame s s := rfl
theorem OrderFrame.refl (s : State) : OrderFrame s s := rfl
theorem StationFrame.refl (s : State) : StationFrame s s := rfl
theorem WorkFrame.refl (s : State) : WorkFrame s s := rfl
theorem EventFrame.refl (s : State) : EventFrame s s := rfl

theorem PayFrame.trans {s t u : State} (h : PayFrame s t) (k : PayFrame t u) : PayFrame s u :=
  Eq.trans k (by rw [show t = _ from h])
theorem CardFrame.trans {s t u : State} (h : CardFrame s t) (k : CardFrame t u) : CardFrame s u :=
  Eq.trans k (by rw [show t = _ from h])
theorem OrderFrame.trans {s t u : State} (h : OrderFrame s t) (k : OrderFrame t u) : OrderFrame s u :=
  Eq.trans k (by rw [show t = _ from h])
theorem StationFrame.trans {s t u : State} (h : StationFrame s t) (k : StationFrame t u) : StationFrame s u :=
  Eq.trans k (by rw [show t = _ from h])
theorem WorkFrame.trans {s t u : State} (h : WorkFrame s t) (k : WorkFrame t u) : WorkFrame s u :=
  Eq.trans k (by rw [show t = _ from h])

theorem EventFrame.trans {s t u : State} (h : EventFrame s t) (k : EventFrame t u) : EventFrame s u :=
  Eq.trans k (by rw [show t = _ from h])

theorem WorkFrame.event {s t : State} (h : WorkFrame s t) : EventFrame s t := by
  unfold EventFrame
  rw [show t = _ from h]

/-- The end of an event. -/
theorem finish_frame (s t : State) : EventFrame t (finish s t) := by
  unfold EventFrame
  simpa using finish_eq s t

/-- The change of one part, then an operation with a frame. -/
theorem PayFrame.after {s t u : State} (k : PayFrame t u) (h : PayFrame s t := by exact rfl) : PayFrame s u := h.trans k
theorem CardFrame.after {s t u : State} (k : CardFrame t u) (h : CardFrame s t := by exact rfl) : CardFrame s u :=
  h.trans k
theorem OrderFrame.after {s t u : State} (k : OrderFrame t u) (h : OrderFrame s t := by exact rfl) : OrderFrame s u :=
  h.trans k
theorem StationFrame.after {s t u : State} (k : StationFrame t u) (h : StationFrame s t := by exact rfl) :
    StationFrame s u := h.trans k
theorem WorkFrame.after {s t u : State} (k : WorkFrame t u) (h : WorkFrame s t := by exact rfl) : WorkFrame s u :=
  h.trans k

theorem OrderFrame.station {s t : State} (h : OrderFrame s t) : StationFrame s t := by
  unfold StationFrame
  rw [show t = _ from h]

/-! ## The payment side -/

theorem startChar_frame (s : State) : PayFrame s (startChar s) := by
  unfold startChar
  dsimp only
  split
  · split <;> rfl
  · exact .refl s

theorem pumpTx_frame (s : State) : PayFrame s (pumpTx s) :=
  PayFrame.after (t := s.modPay Pay.fill) (.trans (startChar_frame _) rfl)

theorem sendFrame_frame (s : State) (body : List Byte) : PayFrame s (sendFrame s body) :=
  PayFrame.after (u := sendFrame s body) (pumpTx_frame _)

theorem sendCurrent_frame (s : State) (body : List Byte) : PayFrame s (sendCurrent s body) :=
  PayFrame.after (u := sendCurrent s body) (sendFrame_frame _ _)

theorem startAction_frame (s : State) (a : QueuedAction) (rest : List QueuedAction) : PayFrame s (startAction s a rest) :=
  PayFrame.after (u := startAction s a rest) (sendCurrent_frame _ _)

theorem doubtQuery_frame (s : State) (b : Bool) : PayFrame s (doubtQuery s b) := by
  unfold doubtQuery
  split
  · exact .refl s
  · exact PayFrame.after (sendCurrent_frame _ _)

theorem storeEntry_frame (s : State) (b : Byte) (p f k : Bool) : PayFrame s (storeEntry s b p f k) := rfl

theorem loopbackBegin_frame (s : State) (l : Loopback) : PayFrame s (loopbackBegin s l) :=
  PayFrame.after (u := loopbackBegin s l) (pumpTx_frame _)

theorem payIdle_frame (s : State) : PayFrame s (payIdle s) := by
  unfold payIdle
  split
  · split
    · exact .trans (loopbackBegin_frame s _) rfl
    · rfl
  · rfl

theorem queryOrDoubt_sends (s : State) (t : Txn) (h : t.attempts < s.pay.values.queryRetries) :
    PayFrame s (queryOrDoubt s t) := by
  unfold queryOrDoubt
  dsimp only [State.modPay]
  rw [if_pos h]
  exact PayFrame.after (sendCurrent_frame _ _)

/-! ## Orders -/

theorem putPicture_frame (s : State) (i : Fin 256) (p : Picture) : OrderFrame s (s.putPicture i p) := rfl

theorem freePicture_frame (s : State) (i : Fin 256) : OrderFrame s (s.freePicture i) := rfl

theorem dropRef_frame (s : State) (h : Handle) : OrderFrame s (s.dropRef h) := by
  unfold State.dropRef
  split
  · split <;> rfl
  · rfl

theorem dropRefs_frame (hs : List Handle) (s : State) : OrderFrame s (hs.foldl State.dropRef s) := by
  induction hs generalizing s with
  | nil => rfl
  | cons h t ih => exact (dropRef_frame s h).trans (ih _)

theorem putOrder_frame (s : State) (n : Fin 48) (o : Order) : OrderFrame s (s.putOrder n o) := rfl

theorem modOrder_frame (s : State) (h : Handle) (f : Order → Order) : OrderFrame s (s.modOrder h f) := by
  unfold State.modOrder
  split <;> rfl

theorem releaseReferences_frame (s : State) (n : Fin 48) (o : Order) : OrderFrame s (releaseReferences s n o) :=
  (dropRefs_frame _ s).trans rfl

theorem voidOrClose_frame (s : State) (n : Fin 48) (o : Order) : OrderFrame s (voidOrClose s n o) := by
  unfold voidOrClose
  split
  · exact (releaseReferences_frame s n _).trans rfl
  · exact releaseReferences_frame s n _

theorem releaseReservation_frame (s : State) (n : Fin 3) : OrderFrame s (releaseReservation s n) := by
  unfold releaseReservation
  split
  · rfl
  · exact OrderFrame.after (modOrder_frame _ _ _)

theorem releaseWhere_frame (s : State) (p : Reservation → Bool) : OrderFrame s (releaseWhere s p) := by
  unfold releaseWhere
  generalize List.finRange 3 = ns
  induction ns generalizing s with
  | nil => rfl
  | cons n t ih =>
    refine OrderFrame.trans ?_ (ih _)
    dsimp only
    split
    · split
      · exact releaseReservation_frame s n
      · rfl
    · rfl

theorem checkSettle_frame (s : State) (h : Handle) : OrderFrame s (checkSettle s h) := by
  unfold checkSettle
  split
  · rfl
  · split
    · dsimp only
      split
      · exact (releaseReferences_frame s _ _).trans rfl
      · exact voidOrClose_frame s _ _
    · rfl

theorem copyCompleted_frame (s : State) (h : Handle) (i : Nat) : OrderFrame s (copyCompleted s h i) :=
  (modOrder_frame s h _).trans (checkSettle_frame _ h)

theorem copyFailed_frame (s : State) (h : Handle) (i : Nat) : OrderFrame s (copyFailed s h i) := by
  unfold copyFailed
  dsimp only
  have k : ∀ (u : State) (c : Prop) [Decidable c] (p : Reservation → Bool),
      OrderFrame u (if c then releaseWhere u p else u) := by
    intro u c _ p
    split
    · exact releaseWhere_frame u p
    · rfl
  exact (modOrder_frame s h _).trans ((k _ _ _).trans (checkSettle_frame _ h))

theorem answerPay_frame (s : State) (n : Fin 48) (o : Order) (st : Status) (d : Nat) : OrderFrame s (answerPay s n o st d) := by
  unfold answerPay
  split <;> rfl

theorem answerPayAt_frame (s : State) (n : Fin 48) (st : Status) (d : Nat) : OrderFrame s (answerPayAt s n st d) := by
  unfold answerPayAt
  split
  · exact answerPay_frame s n _ st d
  · rfl

theorem applyApproval_frame (s : State) (n : Fin 48) (o : Order) (a : Nat) (c : List Byte) :
    OrderFrame s (applyApproval s n o a c) := by
  unfold applyApproval
  refine OrderFrame.trans ?_ (answerPayAt_frame _ n _ 0)
  dsimp only
  split
  · exact voidOrClose_frame s n _
  · split <;> rfl

theorem applyNoApproval_frame (s : State) (n : Fin 48) (o : Order) (r : Option Byte) (st : Status) (d : Nat) :
    OrderFrame s (applyNoApproval s n o r st d) := by
  unfold applyNoApproval
  refine OrderFrame.trans ?_ (answerPayAt_frame _ n st d)
  dsimp only
  split
  · exact releaseReferences_frame s n _
  · rfl

theorem authOutcome_frame (s : State) (h : Handle) (out : AuthOutcome) : OrderFrame s (authOutcome s h out) := by
  unfold authOutcome
  split
  · rfl
  · split
    · split
      · exact applyNoApproval_frame s _ _ _ _ _
      · exact applyApproval_frame s _ _ _ _
      · exact applyNoApproval_frame s _ _ _ _ _
      · exact (putOrder_frame s _ _).trans (answerPayAt_frame _ _ _ _)
      · exact applyNoApproval_frame s _ _ _ _ _
    · rfl

theorem settleOutcome_frame (s : State) (h : Handle) (a : PayAction) (r : Option Byte) :
    OrderFrame s (settleOutcome s h a r) := modOrder_frame s h _

theorem goToDoubt_frame (s : State) (t : Txn) : OrderFrame s (goToDoubt s t) := by
  unfold goToDoubt
  dsimp only
  split
  · exact OrderFrame.after (authOutcome_frame _ _ _)
  · rfl

/-! ## Stations -/

theorem answerStation_frame (s : State) (n : Fin 3) : StationFrame s (answerStation s n) := by
  unfold answerStation
  split <;> rfl

theorem sendAbility_frame (s : State) (n : Fin 3) : StationFrame s (sendAbility s n) := rfl

theorem sendLine_frame (s : State) (n : Fin 3) (b : Bank) : StationFrame s (sendLine s n b) := rfl

theorem sendFrom_frame (s : State) (n : Fin 3) (i : Fin 2) : StationFrame s (sendFrom s n i) := rfl

theorem renderEnd_frame (s : State) (n : Fin 3) : StationFrame s (renderEnd s n) := by
  unfold renderEnd
  dsimp only
  split
  · split <;> rfl
  · rfl

theorem startLine_frame (s : State) (n : Fin 3) : StationFrame s (startLine s n) := by
  unfold startLine
  split <;> rfl

theorem renderGrant_frame (s : State) : StationFrame s (renderGrant s) := by
  unfold renderGrant
  split
  · exact startLine_frame s _
  · rfl

theorem failCopy_frame (s : State) (n : Fin 3) (out : CopyOutcome) (r : Byte) : StationFrame s (failCopy s n out r) := by
  unfold failCopy
  split
  · rfl
  · exact (renderEnd_frame s n).trans (StationFrame.after (copyFailed_frame _ _ _).station)

theorem completeCopy_frame (s : State) (n : Fin 3) : StationFrame s (completeCopy s n) := by
  unfold completeCopy
  split
  · rfl
  · exact (renderEnd_frame s n).trans (StationFrame.after (copyCompleted_frame _ _ _).station)

theorem linkDown_frame (s : State) (n : Fin 3) (cause : DownCause) (out : CopyOutcome) :
    StationFrame s (linkDown s n cause out) := by
  unfold linkDown
  dsimp only
  refine (failCopy_frame s n out 0).trans (StationFrame.trans (releaseReservation_frame _ n).station ?_)
  split
  · exact StationFrame.after (answerStation_frame _ n)
  · rfl

theorem settleState_frame (s : State) (n : Fin 3) : StationFrame s (settleState s n) :=
  StationFrame.after (answerStation_frame _ n)

theorem abortCopy_frame (s : State) (n : Fin 3) (out : CopyOutcome) : StationFrame s (abortCopy s n out) := by
  unfold abortCopy
  split
  · rfl
  · exact StationFrame.after ((failCopy_frame _ n out 0).trans (settleState_frame _ n))

theorem loadEnd_frame (s : State) (n : Fin 3) (ident : Nat) (passed : List (List Byte)) :
    StationFrame s (loadEnd s n ident passed) := by
  unfold loadEnd
  dsimp only
  split
  · exact StationFrame.after (settleState_frame _ n)
  · rfl

theorem requestPage_frame (s : State) (n : Fin 3) (l : Load) : StationFrame s (requestPage s n l) := rfl

theorem pageMismatch_frame (s : State) (n : Fin 3) (l : Load) : StationFrame s (pageMismatch s n l) := by
  unfold pageMismatch
  split
  · exact linkDown_frame s n _ _
  · rfl

theorem countLink_frame (s : State) (n : Fin 3) (t e : Bool) : StationFrame s (countLink s n t e).1 := by
  unfold countLink
  dsimp only
  split
  · dsimp only
    exact StationFrame.after (linkDown_frame _ n _ _)
  · split <;> rfl

theorem damagedUp_frame (s : State) (n : Fin 3) : StationFrame s (damagedUp s n) :=
  StationFrame.after (countLink_frame _ n _ _)

theorem accountFollows_frame (s : State) (n : Fin 3) (w : EngineStatus) (first : Bool) :
    StationFrame s (accountFollows s n w first) := by
  unfold accountFollows
  dsimp only
  split
  · exact (releaseReservation_frame s n).station.trans rfl
  · split
    · rfl
    · split
      · exact StationFrame.after (releaseReservation_frame _ n).station
      · rfl

theorem enterPanel_frame (s : State) (n : Fin 3) (c : Copy) (th : Nat) : StationFrame s (enterPanel s n c th) := rfl

theorem startPanel_frame (s : State) (n : Fin 3) (c : Copy) : StationFrame s (startPanel s n c) := by
  unfold startPanel
  dsimp only
  split <;> rfl

theorem completeLine_frame (s : State) (j : RenderJob) : StationFrame s (completeLine s j) := by
  unfold completeLine
  split
  · dsimp only
    generalize hu : State.modHead _ j.station _ = u
    have h : StationFrame s u := hu ▸ rfl
    refine h.trans (StationFrame.trans ?_ (renderGrant_frame _))
    split
    · split <;> rfl
    · rfl
  · rfl

/-! ## The Dispatcher and the arbiter -/

theorem modOrder_work (s : State) (h : Handle) (f : Order → Order) : WorkFrame s (s.modOrder h f) := by
  unfold State.modOrder
  split <;> rfl

theorem startPanel_work (s : State) (n : Fin 3) (c : Copy) : WorkFrame s (startPanel s n c) := by
  unfold startPanel
  dsimp only
  split <;> rfl

theorem renderGrant_work (s : State) : WorkFrame s (renderGrant s) := by
  unfold renderGrant startLine
  split
  · split <;> rfl
  · rfl

theorem startCopy_work (s : State) (n : Fin 3) (r : Reservation) : WorkFrame s (startCopy s n r) :=
  WorkFrame.after (t := { s with reservations := s.reservations.set n none })
    ((modOrder_work _ r.order _).trans (WorkFrame.after (startPanel_work _ n _)))

theorem reserve_work (s : State) (n : Fin 3) (m : Fin 48) (i : Nat) (it : Item) : WorkFrame s (reserve s n m i it) :=
  WorkFrame.after (t := { s with reservations := s.reservations.set n (some ⟨s.orderHandle m, i, it.size, it.finish⟩) })
    (WorkFrame.after (modOrder_work _ _ _))

theorem selectCopy_work (s : State) (n : Fin 3) : WorkFrame s (selectCopy s n) := by
  unfold selectCopy
  dsimp only
  refine WorkFrame.trans (t := promoteAll s) rfl ?_
  split
  · split
    · exact reserve_work _ n _ _ _
    · rfl
  · rfl

theorem startIfDue_work (s : State) (n : Fin 3) : WorkFrame s (startIfDue s n) := by
  unfold startIfDue
  split
  · exact (startCopy_work s n _).trans (renderGrant_work _)
  · rfl

theorem serveStation_work (s : State) (n : Fin 3) : WorkFrame s (serveStation s n) :=
  (selectCopy_work s n).trans (startIfDue_work _ n)

/-- What follows in the event of another block changes orders, reservations, stations and the Render Engine, sends, and
nothing else. -/
theorem followUp_work (s : State) : WorkFrame s (followUp s) := by
  unfold followUp
  refine (renderGrant_work s).trans ?_
  generalize renderGrant s = u
  generalize List.finRange 3 = ns
  induction ns generalizing u with
  | nil => rfl
  | cons n t ih => exact (startIfDue_work u n).trans (ih _)

theorem selectionEvent_frame (s : State) (n : Fin 3) : EventFrame s (selectionEvent s n) :=
  (serveStation_work s n).event.trans (finish_frame s _)

theorem selectAll_frame (f : Nat) (s : State) : EventFrame s (selectAll f s) := by
  induction f generalizing s with
  | zero => rfl
  | succ f ih =>
    unfold selectAll
    split
    · rfl
    · exact (selectionEvent_frame s _).trans (ih _)
    · exact EventFrame.trans (t := { s with stationChoices := s.stationChoices + 1 }) rfl
        ((selectionEvent_frame _ _).trans (ih _))

/-- An event and the selections it brings about change, beside what its blocks changed, only what the Dispatcher and the
arbiter keep, and the marks, counts and revisions. -/
theorem afterWork_frame (s t : State) : EventFrame t (afterWork s t) :=
  (followUp_work t).event.trans ((finish_frame s _).trans (selectAll_frame 6 _))

/-- An event that leaves no selection due has none after it. -/
theorem afterWork_none {s t : State} (h : (finish s (followUp t)).dueStations = []) :
    afterWork s t = finish s (followUp t) := by simp [afterWork, selectAll, h]

/-- A station with nothing due for it is left alone. -/
theorem selectAll_none {s : State} (f : Nat) (h : s.dueStations = []) : selectAll f s = s := by
  cases f <;> simp [selectAll, h]

/-! ## Cards -/

theorem answerReset_frame (s : State) (k : Fin 4) : CardFrame s (answerReset s k) := by
  unfold answerReset
  dsimp only
  split <;> rfl

theorem toFault_frame (s : State) (k : Fin 4) (cause : SlotFault) : CardFrame s (toFault s k cause) :=
  CardFrame.after (answerReset_frame _ k)

theorem doRelease_frame (s : State) (k : Fin 4) (c : Fin 64) : CardFrame s (doRelease s k c) := rfl

theorem tryTier_frame (s : State) (k : Fin 4) (t : Tier) : CardFrame s (tryTier s k t) := rfl

theorem startSettle_frame (s : State) (k : Fin 4) : CardFrame s (startSettle s k) := by
  unfold startSettle
  dsimp only
  split
  · rfl
  · exact CardFrame.after (toFault_frame _ k _)

theorem goIssuing_frame (s : State) (k : Fin 4) : CardFrame s (goIssuing s k) := by
  unfold goIssuing
  split
  · rfl
  · split <;> rfl

theorem grantChannel_frame (s : State) (k : Fin 4) (c : Fin 2) : CardFrame s (grantChannel s k c) :=
  CardFrame.after (goIssuing_frame _ k)

theorem releaseChannel_frame (s : State) (c : Fin 2) : CardFrame s (releaseChannel s c) := by
  unfold releaseChannel
  dsimp only
  split
  · exact CardFrame.after (grantChannel_frame _ _ c)
  · rfl

theorem askChannel_frame (s : State) (k : Fin 4) : CardFrame s (askChannel s k) := by
  unfold askChannel
  dsimp only
  split
  · exact CardFrame.after (grantChannel_frame _ k 0)
  · split
    · exact CardFrame.after (grantChannel_frame _ k 1)
    · rfl

theorem putBlock_frame (s : State) (k : Fin 4) (d : Option (List Byte)) : CardFrame s (putBlock s k d) := by
  unfold putBlock
  split
  · split <;> rfl
  · rfl

theorem showRead_frame (s : State) (k : Fin 4) (a : Bool) : CardFrame s (showRead s k a) := rfl

theorem endFill_frame (s : State) (h : Handle) (p : PicState) : CardFrame s (s.endFill h p) := by
  unfold State.endFill
  split
  · split <;> rfl
  · rfl

theorem readEnd_frame (s : State) (k : Fin 4) : CardFrame s (readEnd s k) := by
  unfold readEnd
  split
  · rfl
  · rename_i r _
    dsimp only
    refine (endFill_frame s r.picture .complete).trans ?_
    generalize s.endFill r.picture .complete = v
    generalize hu : State.modSlot _ k _ = u
    have h : CardFrame v u := by
      rw [← hu]
      split
      · exact (releaseChannel_frame v _).trans rfl
      · rfl
    refine h.trans ?_
    split
    · exact doRelease_frame u k _
    · split
      · exact toFault_frame u k _
      · rfl

theorem runEnd_frame (s : State) (k : Fin 4) : CardFrame s (runEnd s k) := by
  unfold runEnd
  split
  · rfl
  · split
    · dsimp only
      split
      · split
        · exact CardFrame.after (goIssuing_frame _ k)
        · exact CardFrame.after ((releaseChannel_frame _ _).trans (askChannel_frame _ k))
      · rfl
    · exact readEnd_frame s k

theorem putMarker_frame (s : State) (k : Fin 4) : CardFrame s (putMarker s k) :=
  (putBlock_frame s k none).trans rfl

theorem stopAndIssue_frame (s : State) (k : Fin 4) : CardFrame s (stopAndIssue s k) :=
  CardFrame.after (goIssuing_frame _ k)

theorem afterPut_frame (s : State) (k : Fin 4) (next : State → State) (h : CardFrame s (next s)) :
    CardFrame s (afterPut s k next) := by
  unfold afterPut
  split
  · split
    · rfl
    · exact h
  · rfl

theorem pump_frame (s : State) (k : Fin 4) : CardFrame s (pump s k) := by
  unfold pump
  split
  · rfl
  · split
    · split
      · rfl
      · exact runEnd_frame s k
      · rfl
    · dsimp only
      split
      · exact (putMarker_frame s k).trans rfl
      · exact (putMarker_frame s k).trans (CardFrame.after (afterPut_frame _ k _ (stopAndIssue_frame _ k)))
    · exact (putMarker_frame s k).trans ((afterPut_frame _ k id (.refl _)).trans rfl)
    · split
      · refine CardFrame.trans ?_ (putMarker_frame _ k)
        split <;> rfl
      · exact readEnd_frame s k

theorem pumpIfEmpty_frame (s : State) (k : Fin 4) : CardFrame s (pumpIfEmpty s k) := by
  unfold pumpIfEmpty
  split
  · split
    · exact pump_frame s k
    · rfl
  · rfl

theorem cutRead_frame (s : State) (k : Fin 4) (st : Status) : CardFrame s (cutRead s k st) := by
  unfold cutRead
  split
  · rfl
  · rename_i r _
    dsimp only
    refine (endFill_frame s r.picture .torn).trans ?_
    split
    · exact (releaseChannel_frame _ _).trans rfl
    · rfl

theorem fallBackFrom_frame (s : State) (k : Fin 4) (n : Nat) : CardFrame s (fallBackFrom s k n) := by
  unfold fallBackFrom
  split
  · rfl
  · exact CardFrame.after (t := showRead (s.modSlot k fun x => x.setBus .t0 false) k true)
      (CardFrame.after (pumpIfEmpty_frame _ k))

theorem startFallBack_frame (s : State) (k : Fin 4) : CardFrame s (startFallBack s k) :=
  CardFrame.after (fallBackFrom_frame _ k _)

theorem resumeRead_frame (s : State) (k : Fin 4) : CardFrame s (resumeRead s k) := by
  unfold resumeRead
  dsimp only
  split
  · rfl
  · split
    · rfl
    · split
      · exact CardFrame.after (pumpIfEmpty_frame _ k)
      · exact CardFrame.after (goIssuing_frame _ k)

theorem attemptFails_frame (s : State) (k : Fin 4) (t c : Bool) : CardFrame s (attemptFails s k t c) := by
  unfold attemptFails
  dsimp only
  generalize hu : State.modRead _ k _ = u
  have h : CardFrame s u := hu ▸ rfl
  refine h.trans ?_
  split
  · rfl
  · split
    · split
      · exact startFallBack_frame u k
      · exact stopAndIssue_frame u k
    · refine CardFrame.trans ?_ (pumpIfEmpty_frame _ k)
      split
      · exact CardFrame.after (startFallBack_frame _ k)
      · rfl

theorem tierFails_frame (s : State) (k : Fin 4) : CardFrame s (tierFails s k) := by
  unfold tierFails
  dsimp only
  split
  · split
    · rfl
    · exact toFault_frame s k _
  · exact fallBackFrom_frame s k _

theorem tierConfirmed_frame (s : State) (k : Fin 4) : CardFrame s (tierConfirmed s k) := by
  unfold tierConfirmed
  dsimp only
  split
  · exact CardFrame.after (answerReset_frame _ k)
  · exact CardFrame.after (resumeRead_frame _ k)

end Sys2Proof.Machine
end

