-- ==== Sys2Proof/WellFormed.lean ====
section
/-! DEFINITION. Which commands a sender can form: offsets inside their window and word aligned, responses, blocks and
link words of the lengths the guide gives. -/

namespace Sys2Proof

/-- A word offset of a window of the given size in bytes (R1). -/
abbrev wordOffset (size offset : Nat) : Bool := offset % 4 == 0 && decide (offset < size)

/-- A link word is eight bytes (R197). -/
abbrev linkWordLength (word : List Byte) : Bool := word.length == 8

/-- The size of the exchange window in bytes (128 KiB). -/
abbrev exchangeBytes : Nat := 131072

/-- The size of the staging window in bytes (256 MiB, R22). -/
abbrev stagingBytes : Nat := 268435456

/-- A command that its sender can form. -/
def WellFormed (i : Instr) : Bool :=
  match i with
  | .exchangeWrite offset _ _ => wordOffset exchangeBytes offset
  | .stagingWrite offset words =>
    offset % 4 == 0 && !words.isEmpty && decide (offset + 4 * words.length ≤ stagingBytes)
  | .stagingRead offset count => offset % 4 == 0 && decide (0 < count) && decide (offset + 4 * count ≤ stagingBytes)
  | .identifyResponse _ bytes => bytes.length == 13
  | .setModeResponse _ bytes => bytes.length == 3
  | .statusResponse _ bytes => bytes.length == 3
  | .readBlocksResponse _ bytes => bytes.length == 3
  | .blockReceived _ data crcs => data.length == 512 && (crcs.length == 1 || crcs.length == 4)
  | .abilityWord _ w => linkWordLength w
  | .linkIdleWord _ w => linkWordLength w
  | .damagedWord _ w => linkWordLength w
  | .messageDrop _ w => linkWordLength w
  | .page _ w => linkWordLength w
  | .engineStatusWord _ w => linkWordLength w
  | .lineRequest _ w => linkWordLength w
  | .lineAck _ w => linkWordLength w
  | .lineNak _ w => linkWordLength w
  | .panelDone _ w => linkWordLength w
  | .copyOk _ w => linkWordLength w
  | .copyFault _ w => linkWordLength w
  | .linkMessageWord _ w => linkWordLength w
  | .clockTick | .controlReset _ | .controlIrqEnable _ | .attentionRead | .attentionMaskWrite _ _ => true
  | .post _ | .withdraw _ | .returnCell _ | .changeMaskClear _ _ _ | .orderChangeMapClear _ _ _ => true
  | .partReset _ | .autoloadEnd _ | .autoloadTimerExpiry _ | .portGrant | .pixelRunReturn => true
  | .cardRead _ | .cardRelease _ | .slotReset _ | .rasterOpen | .rasterSeal | .pictureFree | .pictureInfo => true
  | .orderOpen | .orderAmend | .orderPay | .orderCancel | .orderRetire => true
  | .stationPower _ | .stationRelink _ | .profileRead _ | .paymentReset | .paymentLoopback => true
  | .settingsRead | .settingsWrite | .settingsStore | .storePageAck | .storePollTimeout _ => true
  | .detectClose _ | .detectOpen _ | .removal _ | .writeProtectChange _ _ => true
  | .settleTimerExpiry _ | .offIntervalExpiry _ | .rampTimerExpiry _ | .identifyTimeout _ => true
  | .setModeTimeout _ | .statusTimeout _ | .readBlocksTimeout _ | .dataTimeout _ | .ledBlinkToggle _ => true
  | .rxCharacter _ _ _ | .breakDetected | .breakHoldEnd | .txCharacterDone => true
  | .terminalReadyChange _ | .alertChange _ | .loopbackEntryTake | .loopbackTimeout => true
  | .breakEntry | .frameDrop | .interByteTimeout | .accepted | .approved | .declined | .unknown => true
  | .completed | .refused | .pong | .actionStart | .authorizeNoTerminal | .answerTimeout => true
  | .customerLimitExpiry | .doubtQueryTimeout | .pingTimerExpiry => true
  | .energyLoss _ | .abilitySendTimer _ | .exchangeTimerExpiry _ | .restExpiry _ | .wakeSent _ => true
  | .pageTimeout _ | .lineAnswerTimeout _ | .lineHoldExpiry _ | .copyStart _ | .copySelection _ => true
  | .renderGrant | .rxStartEdge | .rxFalseStart | .allSpaceFramingError | .assemblyEntryTake => true
  | .overcoatLineCompletion => true

end Sys2Proof
end

