-- ==== Sys2Proof/Tests/Slice0.lean ====
section
/-! SUPPORT. Tests: an ill-formed term for each check of `WellFormed`, the guide's worked sequences and tables by hand, and
for each statement with hypotheses a state that meets them. Each comment names the place of the guide the values are
from. -/

namespace Sys2Proof.Tests
open Sys2Proof Sys2Proof.Machine

-- The theorems are checked one after another: each that is checked alongside others holds a thread's stack.
set_option Elab.async false

/-! ## Helpers -/

/-- The part after start-up, with nothing attached. -/
def on : State := { State.reset with running := true, autoload := none }

/-- The part with some work cells changed. -/
def withCells (f : Vector WorkCell 64 → Vector WorkCell 64) : State := { on with cells := f on.cells }

/-- A cell with a kind byte, a unit byte and a request body. -/
def cellWith (hand : Hand) (kind unit : Byte) (body : List Byte) : WorkCell :=
  ⟨hand, Mem.writeBytes (Mem.writeBytes [] 4 [kind, unit]) 32 body, false⟩

/-- Cell 0 stands FILLED at the head of a list with a request. -/
def ask (l : Fin 11) (kind : Byte) (body : List Byte) (s : State) : State :=
  { s with intake := s.intake.set l [0], cells := s.cells.set 0 (cellWith .filled kind 0 body) }

/-- The state after a command. -/
def run (c : Instr) (s : State) : State := match exec c s with
  | .next t => t
  | _ => State.reset

/-- What a block answered in cell 0: status, detail and the first bytes of the body. -/
def answer0 (s : State) (n : Nat) : Byte × List Byte × List Byte :=
  (cellByte s.cells[(0 : Fin 64)] 12, (List.range 4).map fun i => cellByte s.cells[(0 : Fin 64)] (16 + i),
   (List.range n).map fun i => cellByte s.cells[(0 : Fin 64)] (512 + i))

/-! ## Well-formedness: an ill-formed term for each check -/

theorem test_wf_exchange_misaligned : WellFormed (.exchangeWrite 0x4002 0 0xF) = false := by decide
theorem test_wf_exchange_outside : WellFormed (.exchangeWrite 131072 0 0xF) = false := by decide
theorem test_wf_staging_write_misaligned : WellFormed (.stagingWrite 2 [(0, 0xF)]) = false := by decide
theorem test_wf_staging_write_empty : WellFormed (.stagingWrite 0 []) = false := by decide
theorem test_wf_staging_write_outside : WellFormed (.stagingWrite 268435452 [(0, 0xF), (0, 0xF)]) = false := by decide
theorem test_wf_staging_read_misaligned : WellFormed (.stagingRead 1 1) = false := by decide
theorem test_wf_staging_read_empty : WellFormed (.stagingRead 0 0) = false := by decide
theorem test_wf_staging_read_outside : WellFormed (.stagingRead 268435452 2) = false := by decide
theorem test_wf_responses : WellFormed (.identifyResponse 0 [1]) = false ∧ WellFormed (.setModeResponse 0 [2]) = false ∧
    WellFormed (.statusResponse 0 [5]) = false ∧ WellFormed (.readBlocksResponse 0 [3]) = false := by decide
theorem test_wf_block_data : WellFormed (.blockReceived 0 [1] [0]) = false := by decide
theorem test_wf_block_crcs (data : List Byte) : WellFormed (.blockReceived 0 data [0, 0]) = false := by
  simp [WellFormed]
theorem test_wf_link_words : ([Instr.abilityWord 0 [], .linkIdleWord 0 [], .damagedWord 0 [], .messageDrop 0 [], .page 0 [],
    .engineStatusWord 0 [], .lineRequest 0 [], .lineAck 0 [], .lineNak 0 [], .panelDone 0 [], .copyOk 0 [],
    .copyFault 0 [], .linkMessageWord 0 []].all fun i => !WellFormed i) = true := by decide
theorem test_wf_accepts : WellFormed (.exchangeWrite 0x4000 1 0xF) = true ∧ WellFormed (.stagingRead 0 16) = true ∧
    WellFormed (.linkIdleWord 0 (List.replicate 8 0)) = true ∧ WellFormed .clockTick = true := by decide

/-! ## Decoding: the table gives no row any bits -/

theorem test_no_word_spells_a_command : decodeTableWord 32 0 = none ∧ on.withFetchWord 32 5 = on := ⟨rfl, rfl⟩

/-! ## Line rendering (spec/10_line_rendering.md, "Worked cases") -/

/-- The item of "An ordinary dot". -/
def dotItem : Item := ⟨⟨0, 0⟩, .s8, .gloss, 1, 100, 50, 2400, 1600, .r90, 0, .waiting, 0, 0, 0, 0, true⟩

theorem test_ordinary_dot_samples : samplePixel dotItem 2440 912 1220 = (1300, 849) := by decide
theorem test_ordinary_dot_density : density (-20) (-60) 1100 40 120 200 = 47 := by decide
theorem test_ordinary_dot_pulse : tempFactor 4 35 41 = 232 ∧ pulse 900 (scaled 232 (afterHistory 64 236 400)) = 123 ∧
    nextHistory 400 123 = 330 := by decide
theorem test_heavy_history : afterHistory 255 100 1000 = -896 ∧ scaled 232 (-896) = -812 ∧ pulse 900 (-812) = 0 ∧
    nextHistory 1000 0 = 750 := by decide
theorem test_factor_clamps : tempFactor 15 60 20 = 384 ∧ scaled 384 600 = 900 ∧ tempFactor 4 35 95 = 128 ∧
    scaled 128 136 = 68 := by decide
theorem test_matte_checkerboard :
    let p : Profile := ⟨0, [], [900, 64, 35, 4, 0, 700, 640], [], [], []⟩
    overcoatPulse p .matte 232 912 1220 = 634 ∧ overcoatPulse p .matte 232 913 1220 = 580 := by decide

/-! ## Orders (spec/05_orders_and_pricing.md, "Worked sequence") -/

/-- Section 2 of the worked sequence. -/
def priceTable : Settings := defaultSettings.set 2 [45, 35, 0, 0, 0, 0, 110, 0, 0, 0, 0, 0, 10, 0, 0]

/-- An item of the worked sequence: size, finish and copies. -/
def orderItem (z : Size) (f : Finish) (n : Nat) : Item :=
  ⟨⟨0, 1⟩, z, f, n, 0, 0, 16, 16, .r0, 0, .waiting, 0, 0, 0, 0, false⟩

theorem test_bulk_price :
    let items := priced priceTable [orderItem .s4 .gloss 6, orderItem .s4 .gloss 5, orderItem .s6 .matte 1]
    items.map (·.unitPrice) = [35, 35, 110] ∧ orderTotal items = 495 := by decide
theorem test_base_price_below_threshold :
    let items := priced priceTable [orderItem .s4 .gloss 6, orderItem .s4 .gloss 3, orderItem .s6 .matte 1]
    items.map (·.unitPrice) = [45, 45, 110] ∧ orderTotal items = 515 := by decide

/-- An order in a state, with its items, total and authorised amount. -/
def orderOf (st : OrderState) (items : List Item) (total authorised : Nat) : Order where
  tag := 7
  cls := .normal
  promoted := false
  state := st
  cancelPending := false
  items := items
  total := total
  authorised := authorised
  captured := 0
  code := some [0x41, 0x42, 0x43, 0x44, 0x45, 0x46]
  reason := none
  openTime := 0
  paidTime := none
  firstStart := none
  outcome := .none
  failureLimit := 3
  payCell := none

/-- Order 0, generation 1, in a state. -/
def withOrder (o : Order) (s : State) : State := { s with orders := s.orders.set 0 ⟨1, some o⟩ }

theorem test_short_approval : let t := authOutcome (withOrder (orderOf .authorizing [] 495 0) on) ⟨0, 1⟩ (.approved 450 [])
    t.orders[(0 : Fin 48)].order.map (fun o => (o.state, o.authorised)) = some (.short, 450) := by decide
theorem test_settlement_captures_done_copies : let t := checkSettle (withOrder (orderOf .cancelling
      [{ orderItem .s4 .gloss 2 with unitPrice := 45, state := .done, done := 2 },
       { orderItem .s4 .gloss 3 with unitPrice := 45, state := .cancelled, done := 2 },
       { orderItem .s6 .matte 1 with unitPrice := 110, state := .cancelled }] 335 450) on) ⟨0, 1⟩
    t.orders[(0 : Fin 48)].order.map (fun o => (o.state, o.captured)) = some (.settling, 180) ∧
    t.pay.queue.map (fun a => (a.action, a.amount)) = [(.capture, 180)] := by decide

/-! ## Staging (spec/02_staging_memory_and_pictures.md, "Worked sequence") -/

theorem test_pages_of_rasters : strideFor 3000 = 9024 ∧ pagesFor (9024 * 2000) = 276 ∧ strideFor 1200 = 3648 ∧
    pagesFor (3648 * 1800) = 101 ∧ pagesFor (264 * 512) = 3 := by decide
theorem test_first_fit : let es : List Extent := [⟨0, 101, 0⟩, ⟨205, 3, 1⟩, ⟨208, 276, 2⟩]
    firstFit 150 0 es = some 484 ∧ firstFit 100 0 es = some 101 := by decide

/-! ## Formats (spec/12_formats.md, R195, R196, R197) -/

theorem test_status_command : statusCommand = [5, 0, 0, 0, 0, 0, 0, 0xFB] := by decide
theorem test_ping_frame : frameBytes pingBody = [0xC3, 2, 5, 0, 7, 0] := by decide
theorem test_record_read : (cardRecordOf [0, 0, 1, 0, 3, 0x0E, 0x78, 0x56, 0x34, 0x12, 0xDA]).map
    (fun r => (r.capacity, r.wide, r.t1, r.t2, r.t3, r.cardId)) = some (65536, true, true, true, true, 0x12345678) := by decide
theorem test_record_with_a_wrong_sum : cardRecordOf [0, 0, 1, 0, 3, 0x0E, 0x78, 0x56, 0x34, 0x12, 0xDB] = none := by decide
theorem test_messages : termMsgOf [0x82, 17, 0xD8, 4, 0, 0, 65, 66, 67, 68, 69, 70] =
    some (17, .approved 1240 [65, 66, 67, 68, 69, 70]) ∧ termMsgOf [0x83, 16, 9] = some (16, .declined 9) ∧
    termMsgOf [0x81, 1, 0] = none := by decide
theorem test_own_word_is_whole : linkWordOf (partAbilityWord true) = .ability [0x83, 0, 0, 0, 0, 1] := by decide +kernel

/-! ## Registers and cells (R3, R5, R7, R19) -/

theorem test_clock_wraps : (run .clockTick { on with clock := 0xFFFFFFFF }).clock = 0 := by
  show (0xFFFFFFFF#32 + 1 : Word) = 0
  decide
theorem test_post_joins_list : (run (.post 3) { on with cells := on.cells.set 3 (cellWith .free 0x60 0 []) }).intake[(10 : Fin 11)] =
    [3] := by decide
theorem test_unlisted_kind_is_answered :
    (run (.post 3) { on with cells := on.cells.set 3 (cellWith .free 0x66 0 []) }).cells[(3 : Fin 64)].hand = .answered := by
  decide

/-! ## Witnesses: states that meet the hypotheses of the statements -/

/-- Invariants hold of the part after start-up with nothing attached, and it can step. -/
theorem step_on : step on = .next on := by
  simp [step, show on.pending = [] by decide]
theorem witness_memories : MemoriesCanonical on ∧ step on = .next on := ⟨⟨by decide, by decide, by decide⟩, step_on⟩
theorem witness_staging : StagingSound on ∧ step on = .next on := by
  refine ⟨⟨?_, rfl, by decide +kernel⟩, step_on⟩
  simp [on, State.reset, extentsFrom]
theorem witness_cells : CellsAccounted on ∧ step on = .next on := by
  refine ⟨⟨by decide, by decide, by decide, ?_, ?_, rfl, by decide⟩, step_on⟩
  · intro k; simp [on, State.reset, resetSlot, Slot.holdsByState]
  · intro n o h; simp [on, State.reset] at h
theorem witness_bounds : WithinBounds on ∧ ReservationsAgree on ∧ step on = .next on := by
  refine ⟨⟨by decide, by decide, by decide, by decide, by decide, by decide⟩, ?_, step_on⟩
  unfold ReservationsAgree; decide
theorem witness_power : PowerFollowsState on := ⟨by decide, by decide, by decide, by decide⟩
theorem part_default (p : Fin 11) : PartInRange p defaultSettings[p] :=
  ⟨by revert p; decide +kernel, by revert p; decide +kernel, by revert p; decide +kernel⟩
theorem witness_settings : SettingsInRange on :=
  ⟨part_default, fun st h => by simp [on, State.reset] at h⟩

theorem witness_ClockTick : ({ on with clock := 0xFFFFFFFF } : State).clock = 0xFFFFFFFF#32 ∧
    ({ on with strayWindow := .staging, strayOffset := 268435452 } : State).strayOffset < 268435456 := by decide
theorem witness_WhichCommands : exec .rasterSeal on = .next on ∧ resets .rasterSeal = false ∧
    writesControl .rasterSeal = false ∧ endsAutoload .rasterSeal = false ∧ stepsStore .rasterSeal = false := by
  refine ⟨?_, by decide, by decide, by decide, by decide⟩
  simp [exec, execRasterSeal, show on.hostWritesWait = false by decide +kernel, serve, show on.headOf 4 .rasterSeal = none by decide +kernel]
theorem witness_EventEnd : State.reset.running = false ∧ (0 : Fin 9) ≠ 8 ∧ on.running = true ∧
    ({ on with source := some 4, freePages := 4095 } : State).running = true := by decide

/-! ### Work cells -/

theorem witness_Post : let s := withCells fun v => (v.set 3 (cellWith .free 0x12 3 [])).set 4 (cellWith .free 0x12 4 [])
    s.cells[(3 : Fin 64)].hand = .free ∧ s.cells[(3 : Fin 64)].kind = some .slotReset ∧
    intakeOf .slotReset s.cells[(3 : Fin 64)].unit = some 3 ∧
    s.cells[(4 : Fin 64)].hand = .free ∧ (s.cells[(4 : Fin 64)].kind.bind fun k => intakeOf k s.cells[(4 : Fin 64)].unit) = none ∧
    s.cells[(4 : Fin 64)].mem.wf = true ∧ ∀ l : Fin 11, (4 : Fin 64) ∉ s.intake[l] := by decide
theorem witness_FreeWritten : 
    let s := withCells fun v => ((v.set 1 (cellWith .filled 0x60 0 [])).set 2 (cellWith .answered 0x60 0 [])).set 63
      (cellWith .taken 0x60 0 [])
    s.cells[(1 : Fin 64)].hand = .filled ∧ s.cells[(2 : Fin 64)].hand = .answered ∧ s.cells[(63 : Fin 64)].hand = .taken ∧
    s.cells[(0 : Fin 64)].hand = .free ∧ s.cells[(1 : Fin 64)].hand ≠ .free ∧ (0x7#4) ≠ 0xF#4 ∧ (2 : Word) ≠ 0 ∧
    (2 : Word) ≠ 1 := by decide
theorem witness_TakeAndAnswer : (ask 10 0x60 [1, 0] on).cells[(0 : Fin 64)].mem.wf = true := by decide
theorem witness_Served :
    ([(Instr.rasterOpen, (0x20 : Byte)), (.rasterSeal, 0x21), (.pictureFree, 0x22), (.pictureInfo, 0x23), (.orderOpen, 0x30),
      (.orderAmend, 0x31), (.orderCancel, 0x33), (.orderRetire, 0x34), (.profileRead 2, 0x42), (.settingsRead, 0x60),
      (.settingsWrite, 0x61)].all fun q => match servedAt q.1 with
        | some (l, k) => let s := ask l q.2 [] on
          s.running && s.intake[l].head? == some 0 && s.cells[(0 : Fin 64)].kind == some k && !s.hostWritesWait &&
          s.stations[(2 : Fin 3)].takenCell.isNone
        | none => false) = true := by decide +kernel
theorem witness_Served_able : ableToServe on .rasterOpen ∧ ableToServe on (.profileRead 2) ∧ ableToServe on .orderOpen ∧
    (ask 4 0x20 [] on).asks 4 .rasterOpen 0 := by
  refine ⟨by unfold ableToServe; decide, by unfold ableToServe; decide, trivial, by unfold State.asks; decide⟩
/-- Region 4, no profile, and the last tone table (`profile` and `station` stand below). -/
theorem witness_ProfileRead :
    (let s := ask 8 0x42 [4] on
     s.stations[(2 : Fin 3)].takenCell = none ∧ s.asks (stationList 2) .profileRead 0 ∧ 3 < (s.take 0).cells[(0 : Fin 64)].req 0 1) ∧
    (let s := ask 8 0x42 [3] on
     (s.take 0).cells[(0 : Fin 64)].req 0 1 = 3 ∧ s.stations[(2 : Fin 3)].profile = none) ∧
    (let q : Profile := ⟨0, [true, false, false, false], [], [], [], []⟩
     let s := ask 8 0x42 [0] { on with stations := on.stations.set 2 { resetStation with profile := some q } }
     (s.take 0).cells[(0 : Fin 64)].req 0 1 = 0 ∧ s.stations[(2 : Fin 3)].profile = some q) := by
  unfold State.asks; decide +kernel
theorem witness_ExchangeWrites : 
    let s := withCells fun v => (v.set 1 (cellWith .filled 0x60 0 [])).set 2 (cellWith .taken 0x60 0 [])
    (4 % 4 = 0 ∧ 4 ≤ 4 ∧ 508 % 4 = 0 ∧ 508 < 512) ∧ s.cells[(0 : Fin 64)].mem.wf = true ∧ s.cells[(0 : Fin 64)].hand = .free ∧
    s.cells[(1 : Fin 64)].hand = .filled ∧ s.cells[(1 : Fin 64)].mem.wf = true ∧ s.cells[(2 : Fin 64)].hand = .taken ∧
    (512 % 4 = 0 ∧ 512 ≤ 512 ∧ 1020 % 4 = 0 ∧ 1020 < 1024) ∧ (0x1000 % 4 = 0 ∧ 0x3FFC % 4 = 0 ∧ 0x3FFC < 0x4000) ∧
    131072 ≤ 131072 ∧ ([0, 8, 0xFC, 0x104, 0x1FC, 0x90C, 0x918, 0x9FC, 0xA00, 0x3FFC, 0x14000, 131068].all fun a =>
      decide (a % 4 = 0 ∧ ((a < 0x100 ∧ a ≠ 4 ∧ a ≠ 12) ∨ (0x100 ≤ a ∧ a < 0xA00 ∧ a % 256 ≠ 0 ∧ a ≠ 0x910 ∧ a ≠ 0x914) ∨
        (0xA00 ≤ a ∧ a < 0x4000) ∨ (0x14000 ≤ a ∧ a < 131072)))) = true := by decide
theorem witness_MaskAndMap : (0xF : BitVec 4).getLsbD 0 = true ∧ (0xE : BitVec 4).getLsbD 0 = false ∧ (8 : Fin 9) ≠ 7 ∧
    on.marks[(7 : Fin 9)].count ≤ 255 := by decide
theorem witness_StartUp : State.reset.autoload = some ⟨0, 100⟩ ∧ State.reset.running = false ∧
    (⟨0, 100⟩ : Timer).due 100 = true ∧ ∀ k : Fin 4, State.reset.slots[k].state = .empty ∧ State.reset.slots[k].timer = none := by
  decide

/-- A store stands at its first page of 28 bytes when the part is reset. -/
theorem witness_PartReset : let st : Store := ⟨6, defaultSettings, 4, false, ⟨4990, 10⟩⟩
    ({ on with store := some st } : State).store = some st ∧ on.store = none ∧ st.pageBytes.length = 28 := by decide +kernel

/-! ### Staging -/

/-- A raster of 16 by 16 pixels in a state, with its references. -/
def raster (st : PicState) (refs : Nat) : Picture := ⟨.raster, st, 0, 0, 0, 0, 0, 16, 16, 64, refs⟩

/-- Picture 0, generation 1, in page 0. -/
def withPicture (p : Picture) (s : State) : State :=
  { s with pictures := s.pictures.set 0 ⟨1, some p⟩, extents := [⟨0, 1, 0⟩], freePages := 4095 }

theorem witness_RasterOpen :
    (ask 4 0x20 [15, 0, 16, 0] on).asks 4 .rasterOpen 0 ∧ (ask 4 0x20 [15, 0, 16, 0] on).hostWritesWait = false ∧
    (let s := ask 4 0x20 [15, 0, 16, 0] on; (s.take 0).cells[(0 : Fin 64)].req 0 2 < 16) ∧
    (let s := ask 4 0x20 [0, 32, 1, 32] on
     16 ≤ (s.take 0).cells[(0 : Fin 64)].req 0 2 ∧ (s.take 0).cells[(0 : Fin 64)].req 0 2 ≤ 8192 ∧
     8192 < (s.take 0).cells[(0 : Fin 64)].req 2 2) ∧
    (let s := ask 4 0x20 [0, 32, 0, 32] on
     let w := (s.take 0).cells[(0 : Fin 64)].req 0 2
     let h := (s.take 0).cells[(0 : Fin 64)].req 2 2
     16 ≤ w ∧ w ≤ 8192 ∧ 16 ≤ h ∧ h ≤ 8192 ∧ 1024 < ((3 * w + 63) / 64 * 64 * h + 65535) / 65536) ∧
    (let s := ask 4 0x20 [16, 0, 16, 0] on
     let w := (s.take 0).cells[(0 : Fin 64)].req 0 2
     let h := (s.take 0).cells[(0 : Fin 64)].req 2 2
     16 ≤ w ∧ w ≤ 8192 ∧ 16 ≤ h ∧ h ≤ 8192 ∧ ((3 * w + 63) / 64 * 64 * h + 65535) / 65536 = 1 ∧
     s.pictures[(0 : Fin 256)].pic = none ∧ (∀ j : Fin 256, j < 0 → s.pictures[j].pic.isSome) ∧ firstFit 1 0 s.extents = some 0) ∧
    (let s := { ask 4 0x20 [16, 0, 16, 0] on with extents := [⟨0, 4096, 0⟩] }
     (s.take 0).cells[(0 : Fin 64)].req 0 2 = 16 ∧ firstFit 1 0 s.extents = none) ∧
    (let s := { ask 4 0x20 [16, 0, 16, 0] on with pictures := Vector.replicate 256 ⟨1, some (raster .sealed 0)⟩ }
     ∀ i : Fin 256, s.pictures[i].pic.isSome) := by
  refine ⟨by unfold State.asks; decide, by decide, by decide, by decide, by decide +kernel, by decide +kernel,
    by decide +kernel, fun i => ?_⟩
  exact (congrArg (fun e : PicEntry => e.pic.isSome) (Vector.getElem_replicate i.isLt)).trans rfl
theorem witness_FirstFit : 1 ≤ 1 ∧ extentsFrom 0 [⟨0, 101, 0⟩, ⟨205, 3, 1⟩] ∧ firstFit 100 0 [⟨0, 101, 0⟩, ⟨205, 3, 1⟩] = some 101 ∧
    firstFit 1024 0 [⟨0, 4096, 0⟩] = none ∧ extentsFrom 0 [⟨0, 4096, 0⟩] := by
  refine ⟨by decide, ?_, by decide, by decide, ?_⟩ <;> simp [extentsFrom]
theorem witness_PictureRequests :
    (ask 4 0x21 [0, 1] on).asks 4 .rasterSeal 0 ∧ (ask 4 0x22 [0, 1] on).asks 4 .pictureFree 0 ∧
    (ask 4 0x23 [0, 1] on).asks 4 .pictureInfo 0 ∧ (ask 4 0x21 [0, 1] on).hostWritesWait = false ∧
    (let s := ask 4 0x21 [0, 1] on; s.pictureAt ((s.take 0).cells[(0 : Fin 64)].reqHandle 0) = none) ∧
    (let s := withPicture (raster .hostFill 0) (ask 4 0x21 [0, 1] on)
     s.pictureAt ((s.take 0).cells[(0 : Fin 64)].reqHandle 0) = some (0, raster .hostFill 0)) ∧
    (let s := withPicture (raster .sealed 1) (ask 4 0x22 [0, 1] on)
     s.pictureAt ((s.take 0).cells[(0 : Fin 64)].reqHandle 0) = some (0, raster .sealed 1)) ∧
    (let p : Picture := ⟨.cardFile, .cardFill, 0, 7, 512, 0, 0, 0, 0, 0, 0⟩
     let s := withPicture p (ask 4 0x22 [0, 1] on)
     s.pictureAt ((s.take 0).cells[(0 : Fin 64)].reqHandle 0) = some (0, p)) := by
  refine ⟨?_, ?_, ?_, by decide, by decide, by decide, by decide, by decide⟩ <;> (unfold State.asks; decide)
theorem witness_StagingAccesses : 268435452 % 4 = 0 ∧ 268435452 + 4 * [((0 : Word), (0xF : BitVec 4))].length ≤ 268435456 ∧
    268435456 < 268435452 + 4 * 2 ∧
    (let s := withPicture (raster .hostFill 0) on
     (hostWords 0xFFFC [(0, 0xF), (0, 0xF)]).filter (fun w => s.hostMayWrite w.offset) = [⟨0xFFFC, 0, 0xF⟩] ∧
     (s.extentAt 0).isSome ∧ s.extentAt 1 = none) := by decide
theorem witness_PortGrants :
    (let s : State := { on with port := ⟨none, 8, 0, [.read 0 1]⟩, chanWait := [], channels := on.channels.set 0 ⟨some 0, .hold, some ⟨⟨0, 1⟩, 0, none⟩⟩ }
     s.port.inFlight = none ∧ s.port.hostQueue = [.read 0 1] ∧ 8 ≤ s.port.hostWait) ∧
    (let s : State := { on with port := ⟨none, 0, 0, [.read 0 1]⟩ }
     s.renderWaits = false ∧ ∀ c : Fin 2, s.channels[c].buffer = none) ∧
    (let s : State := { on with port := ⟨none, 7, 0, [.read 0 1]⟩, job := some ⟨0, 1, .y, 0, 0, [⟨0, 0, 21, 0⟩], []⟩ }
     s.job = some ⟨0, 1, .y, 0, 0, [⟨0, 0, 21, 0⟩], []⟩ ∧ s.port.hostWait < 8) ∧
    (let s : State := { on with port := ⟨none, 7, 1, [.read 0 1]⟩, channels := #v[⟨some 0, .hold, some ⟨⟨0, 1⟩, 0, none⟩⟩, ⟨some 1, .hold, some ⟨⟨1, 1⟩, 0, none⟩⟩] }
     (1 : Fin 2) ≠ 0 ∧ s.channels[(1 : Fin 2)].buffer.isSome ∧ s.port.turn = 1 ∧ s.renderWaits = false ∧ s.port.hostWait < 8) := by
  decide
theorem witness_BlockWrite : let p : Picture := ⟨.cardFile, .cardFill, 0, 7, 512, 0, 0, 0, 0, 0, 0⟩
    (withPicture p on).dram.wf = true ∧ (withPicture p on).pictureAt ⟨0, 1⟩ = some (0, p) ∧
    (List.replicate 512 (1 : Byte)).length = 512 ∧
    (withPicture { p with state := .torn } on).pictureAt ⟨0, 1⟩ = some (0, { p with state := .torn }) ∧
    (⟨⟨0, 1⟩, 0, none⟩ : BlockBuf).data = none := by
  refine ⟨by decide, by decide, List.length_replicate, by decide, rfl⟩
theorem witness_PixelRuns : let g : RunGrant := ⟨⟨0, 0, 1, 0⟩, [1, 2, 3], true⟩
    let s : State := { on with port := ⟨some g, 0, 0, []⟩, job := some ⟨0, 1, .y, 0, 0, [⟨0, 0, 1, 0⟩], []⟩ }
    s.port.inFlight = some g ∧ g.live = true ∧ s.job = some ⟨0, 1, .y, 0, 0, [⟨0, 0, 1, 0⟩], []⟩ ∧
    ({ g with live := false } : RunGrant).live = false ∧
    ({ s with job := some ⟨0, 1, .y, 0, 0, [⟨0, 0, 1, 0⟩, ⟨0, 1, 1, 3⟩], []⟩ } : State).job =
      some ⟨0, 1, .y, 0, 0, [⟨0, 0, 1, 0⟩, ⟨0, 1, 1, 3⟩], []⟩ := by decide

/-! ### Card slots -/

/-- Slot 0 as given, at 5,000 ms. -/
def withSlot (x : Slot) : State := { on with slots := on.slots.set 0 x, clock := 5000 }

/-- A card of 1,000 blocks, 4-bit, with T1 and T3. -/
def aCard : CardRecord := ⟨1000, true, true, false, true, 0x12345678⟩

/-- A slot with a card in a powered state, its timer 250 ms old. -/
def powered (st : SlotState) (w : SlotWait) : Slot := { resetSlot true false with
  state := st
  power := true
  timer := some ⟨w, ⟨4750, 250⟩⟩
  record := some aCard
  settleLimit := .t3
  chosenWide := true
  tryTier := .t3
  threshold := 8
  retries := 2 }

/-- A response's bytes: the code, the contents and the check byte. -/
def response (code : Byte) (c : List Byte) : List Byte := code :: c ++ [checkByte (code :: c)]

theorem witness_CardInsertion :
    on.slots[(0 : Fin 4)].state = .empty ∧ on.slots[(0 : Fin 4)].detectClosed = false ∧ on.running = true ∧
    (let s := withSlot (powered .settling .settle)
     let x := s.slots[(0 : Fin 4)]
     x.state = .settling ∧ x.detectClosed = true ∧ x.timer = some ⟨.settle, ⟨4750, 250⟩⟩ ∧ (⟨4750, 250⟩ : Timer).due s.clock = true) ∧
    (withSlot (powered .ready .data)).slots[(0 : Fin 4)].detectClosed = true ∧
    (withSlot (powered .ready .data)).slots[(0 : Fin 4)].state = .ready ∧
    (let x := (withSlot (powered .powering .offInterval)).slots[(0 : Fin 4)]
     x.state = .powering ∧ x.timer = some ⟨.offInterval, ⟨4750, 250⟩⟩) ∧
    (let x := (withSlot (powered .powering .ramp)).slots[(0 : Fin 4)]
     x.state = .powering ∧ x.timer = some ⟨.ramp, ⟨4750, 250⟩⟩) ∧
    (withSlot { powered .fault .ramp with ledTimer := some ⟨4500, 500⟩ }).slots[(0 : Fin 4)].ledTimer = some ⟨4500, 500⟩ ∧
    (⟨4500, 500⟩ : Timer).due (withSlot (resetSlot true false)).clock = true := by decide +kernel
/-- The record of `test_record_read` is good, and one with a wrong sum in a response with a right one is bad. -/
theorem witness_Identification : let s := withSlot { powered .identifying .identify with attempts := 3 }
    let x := s.slots[(0 : Fin 4)]
    x.state = .identifying ∧ x.timer = some ⟨.identify, ⟨4750, 250⟩⟩ ∧ x.otherCell = none ∧ (⟨4750, 250⟩ : Timer).due s.clock = true ∧
    (responseContents 11 (response 0x01 [0, 0, 1, 0, 3, 0x0E, 0x78, 0x56, 0x34, 0x12, 0xDA])).isSome ∧
    (cardRecordOf [0, 0, 1, 0, 3, 0x0E, 0x78, 0x56, 0x34, 0x12, 0xDA]).isSome ∧
    responseContents 11 (response 0x01 [0, 0, 1, 0, 3, 0x0E, 0x78, 0x56, 0x34, 0x12, 0xDB]) =
      some [0, 0, 1, 0, 3, 0x0E, 0x78, 0x56, 0x34, 0x12, 0xDB] ∧
    (let bytes : List Byte := [1, 0, 0, 1, 0, 3, 0x0E, 0x78, 0x56, 0x34, 0x12, 0xDB, 0]
     bytes.length = 13 ∧ sumBytes ((bytes.drop 1).take 11) % 256 ≠ 0) ∧
    (let bytes : List Byte := [1, 0, 0, 0, 0, 3, 0x0E, 0x78, 0x56, 0x34, 0x12, 0xDB, 0xFF]
     bytes.length = 13 ∧ sumBytes ((bytes.drop 1).take 11) % 256 = 0 ∧ sumBytes bytes % 256 = 0 ∧ fieldLe bytes 1 4 = 0) ∧
    (let bytes : List Byte := [1, 0, 0, 1, 0, 3, 0x0E, 0x78, 0x56, 0x34, 0x12, 0xDA, 0]
     bytes.length = 13 ∧ sumBytes ((bytes.drop 1).take 11) % 256 = 0 ∧ sumBytes bytes % 256 ≠ 0) := by decide +kernel
theorem witness_TierSettle : 
    (let x := (withSlot (powered .tierSettle .setMode)).slots[(0 : Fin 4)]
     x.state = .tierSettle ∧ x.otherCell = none ∧ x.timer = some ⟨.setMode, ⟨4750, 250⟩⟩ ∧ x.openBelow x.tryTier.code = some .t1) ∧
    (let x := (withSlot { powered .tierSettle .status with tryTier := .t1 }).slots[(0 : Fin 4)]
     x.timer = some ⟨.status, ⟨4750, 250⟩⟩ ∧ x.openBelow x.tryTier.code = none) ∧
    responseContents 1 (response 0x02 [0]) = some [0] ∧ responseContents 1 (response 0x02 [1]) = some [1] ∧
    responseContents 1 (response 0x05 [1]) = some [1] ∧ responseContents 1 (response 0x05 [2]) = some [2] := by
  decide +kernel

/-- A read of 3 blocks from block 997 on, on Channel A, in a phase. -/
def aRead (ph : ReadPhase) : ReadRec where
  cell := 9
  runs := [⟨997, 3⟩]
  curRun := 0
  nextBlock := 997
  nextPos := 0
  attempts := 0
  picture := ⟨0, 1⟩
  basePage := 0
  placed := 0
  failedList := []
  failedTotal := 0
  startTier := .t3
  channel := some 0
  phase := ph
  cause := .command
  owed := .none
  crcErrs := 0
  timeouts := 0

/-- A slot that reads. -/
def readingSlot (w : SlotWait) (r : ReadRec) : Slot := { powered .reading w with read := some r, workTier := .t3 }

theorem witness_Removal :
    let s := { withSlot { readingSlot .data (aRead .receiving) with
        state := .releasing, openTimer := some ⟨4999, 1⟩, otherCell := some (.release 8), removalCount := 65535 } with
      intake := on.intake.set 0 [7] }
    let x := s.slots[(0 : Fin 4)]
    x.state ≠ .empty ∧ x.state ≠ .settling ∧ x.openTimer = some ⟨4999, 1⟩ ∧ (⟨4999, 1⟩ : Timer).due s.clock = true ∧
    7 ∈ s.intake[slotList 0] ∧ x.read = some (aRead .receiving) ∧ x.otherCell = some (.release 8) := by decide +kernel
/-- The picture of a read that is cut, its channel with and without another slot that waits, and a read without one. -/
theorem witness_Cut : let p : Picture := ⟨.cardFile, .cardFill, 0, 7, 1536, 0, 0, 0, 0, 0, 0⟩
    let s := withPicture p (withSlot (readingSlot .data (aRead .receiving)))
    s.pictureAt (aRead .receiving).picture = some (0, p) ∧ p.state = .cardFill ∧ (aRead .receiving).channel = some 0 ∧
    s.chanWait = [] ∧ ({ s with chanWait := [2, 1] } : State).chanWait = 2 :: [1] ∧
    ({ aRead .waitChannel with channel := none } : ReadRec).channel = none := by decide +kernel
theorem witness_CardRelease :
    (let s := ask 0 0x11 [] (withSlot (powered .ready .data)); s.asks (slotList 0) .cardRelease 0 ∧ s.slots[(0 : Fin 4)].state = .ready) ∧
    (let s := ask 0 0x11 [] (withSlot (readingSlot .data (aRead .receiving)))
     s.asks (slotList 0) .cardRelease 0 ∧ s.slots[(0 : Fin 4)].state = .reading) ∧
    (let s := ask 0 0x11 [] on; s.asks (slotList 0) .cardRelease 0 ∧ s.slots[(0 : Fin 4)].state = .empty) := by
  unfold State.asks; decide +kernel
theorem witness_SlotReset :
    (let s := ask 0 0x12 [] on; s.asks (slotList 0) .slotReset 0 ∧ s.slots[(0 : Fin 4)].state = .empty) ∧
    (let s := ask 0 0x12 [] (withSlot { readingSlot .data (aRead .receiving) with state := .releasing, otherCell := some (.release 8) })
     let x := s.slots[(0 : Fin 4)]
     s.asks (slotList 0) .slotReset 0 ∧ x.state = .releasing ∧ x.read = some (aRead .receiving) ∧ (aRead .receiving).cell ≠ 0 ∧
     x.otherCell = some (.release 8) ∧ (OtherCell.release 8).cell ≠ 0) ∧
    (let x := (withSlot { powered .tierSettle .status with otherCell := some (.reset 63) }).slots[(0 : Fin 4)]
     x.state = .tierSettle ∧ x.otherCell = some (.reset 63) ∧ x.timer = some ⟨.status, ⟨4750, 250⟩⟩) := by
  unfold State.asks; decide +kernel
/-- The three ends of a reset: no other SLOT_RESET waits, and the last tier, or the last attempt, is the one that fails. -/
theorem witness_SlotResetEnds :
    (let s := withSlot { powered .tierSettle .status with otherCell := some (.reset 63), tryTier := .t1 }
     let x := s.slots[(0 : Fin 4)]
     s.intake[slotList 0] = [] ∧ x.state = .tierSettle ∧ x.otherCell = some (.reset 63) ∧ x.timer = some ⟨.status, ⟨4750, 250⟩⟩ ∧
     x.openBelow x.tryTier.code = none ∧ (⟨4750, 250⟩ : Timer).due s.clock = true ∧
     responseContents 1 (response 0x05 [1]) = some [1] ∧ responseContents 1 (response 0x05 [2]) = some [2]) ∧
    (let s := withSlot { powered .tierSettle .setMode with otherCell := some (.reset 63), tryTier := .t1 }
     s.slots[(0 : Fin 4)].timer = some ⟨.setMode, ⟨4750, 250⟩⟩ ∧ responseContents 1 (response 0x02 [1]) = some [1]) ∧
    (let s := withSlot { powered .identifying .identify with otherCell := some (.reset 63), attempts := 3 }
     let x := s.slots[(0 : Fin 4)]
     x.state = .identifying ∧ x.timer = some ⟨.identify, ⟨4750, 250⟩⟩ ∧ x.otherCell = some (.reset 63) ∧ 3 ≤ x.attempts ∧
     identifyOutcome [1, 0, 0, 1, 0, 3, 0x0E, 0x78, 0x56, 0x34, 0x12, 0xDB, 0] = some none) ∧
    (let c : CardRecord := ⟨65536, true, false, false, false, 1⟩
     identifyOutcome (response 1 [0, 0, 1, 0, 3, 0, 1, 0, 0, 0, 0xFB]) = some (some c) ∧
     openBelow c (advertised on.settings 0) 4 = none) := by decide +kernel

/-! ### Card reading -/

/-- CARD_READ of one run of 3 blocks from block 997: runs start at byte 4 of the body (R60). -/
def readBytes : List Byte := [1, 0, 0, 0, 0xE5, 3, 0, 0, 3, 0, 0, 0]

theorem witness_CardRead :
    (let s := ask 0 0x10 readBytes (withSlot (powered .ready .data))
     let x := s.slots[(0 : Fin 4)]
     let u := s.take 0
     let n := u.cells[(0 : Fin 64)].req 0 1
     let runs := runsOf u.cells[(0 : Fin 64)] n
     s.asks (slotList 0) .cardRead 0 ∧ x.state = .ready ∧ x.record = some aCard ∧ 1 ≤ n ∧ n ≤ 32 ∧ runs = [⟨997, 3⟩] ∧
     badRun aCard.capacity 0 runs = none ∧ totalBlocks runs ≤ 131072 ∧
     (u.createCardFile 0 aCard.cardId (totalBlocks runs)).isSome ∧
     s.chanWait = [] ∧ s.channels[(0 : Fin 2)].owner = none) ∧
    (let s := ask 0 0x10 [33] (withSlot (powered .ready .data))
     32 < (s.take 0).cells[(0 : Fin 64)].req 0 1) ∧
    (let s := { ask 0 0x10 readBytes (withSlot (powered .ready .data)) with
       channels := on.channels.set 0 ⟨some 2, .hold, none⟩ }
     s.channels[(0 : Fin 2)].owner.isSome ∧ s.channels[(1 : Fin 2)].owner = none) ∧
    (let s := { ask 0 0x10 readBytes (withSlot (powered .ready .data)) with
       channels := #v[⟨some 2, .hold, none⟩, ⟨some 3, .share, none⟩] }
     ∀ ch : Fin 2, s.channels[ch].owner.isSome) ∧
    (ask 0 0x10 [] on).asks (slotList 0) .cardRead 0 := by
  unfold State.asks; decide +kernel
/-- One block beyond the card, a start beyond it, a count of 0, 131,073 blocks, and a full Extent Table. -/
theorem witness_CardRead_refused :
    (let inside (q : BlockRun) : Bool := 1 ≤ q.count && q.start < aCard.capacity && q.start + q.count ≤ aCard.capacity
     inside ⟨997, 3⟩ = true ∧ inside ⟨997, 4⟩ = false ∧ inside ⟨1000, 1⟩ = false ∧ inside ⟨0, 0⟩ = false) ∧
    131072 < totalBlocks [⟨0, 65535⟩, ⟨0, 65535⟩, ⟨0, 3⟩] ∧
    (let s := { ask 0 0x10 readBytes (withSlot (powered .ready .data)) with extents := [⟨0, 4096, 0⟩] }
     runsOf (s.take 0).cells[(0 : Fin 64)] 1 = [⟨997, 3⟩] ∧
     firstFit ((totalBlocks [⟨997, 3⟩] * 512 + 65535) / 65536) 0 s.extents = none) := by decide +kernel
theorem witness_ReadBlocks : let s := withSlot (readingSlot .readBlocks (aRead .issuing))
    let x := s.slots[(0 : Fin 4)]
    x.timer = some ⟨.readBlocks, ⟨4750, 250⟩⟩ ∧ x.read = some (aRead .issuing) ∧ (aRead .issuing).channel = some 0 ∧
    (aRead .issuing).owed = .none ∧ (⟨4750, 250⟩ : Timer).due s.clock = true ∧
    responseContents 1 (response 0x03 [0]) = some [0] ∧ responseContents 1 (response 0x03 [1]) = some [1] := by
  decide +kernel
/-- The boundary: the block that is counted as the 256th transfer, and a failed one with one attempt left. -/
theorem witness_Blocks : let r := { aRead .receiving with attempts := 1, nextBlock := 999 }
    let s := withSlot { readingSlot .data r with winTransfers := 255, winErrors := 6 }
    let x := s.slots[(0 : Fin 4)]
    x.timer = some ⟨.data, ⟨4750, 250⟩⟩ ∧ x.read = some r ∧ r.channel = some 0 ∧ r.runs[r.curRun]? = some ⟨997, 3⟩ ∧
    x.state = .reading ∧ x.winErrors < x.threshold ∧ x.winErrors + 1 < x.threshold ∧ r.attempts < x.retries ∧ (⟨4750, 250⟩ : Timer).due s.clock = true ∧
    blockGood x.workWide [] [] = false := by decide +kernel
/-- A failed block: the seventh error and the eighth, the attempts used up, a lower open tier and none, the buffer EMPTY and
not, the last block of its run and one before it. -/
theorem witness_FailedBlocks :
    let slot (r : ReadRec) (errors : Nat) : Slot := { readingSlot .data r with winErrors := errors }
    let r := { aRead .receiving with attempts := 2 }
    let x := slot r 7
    let s := withSlot x
    s.slots[(0 : Fin 4)] = x ∧ x.timer = some ⟨.data, ⟨4750, 250⟩⟩ ∧ x.read = some r ∧ r.channel = some 0 ∧
    r.runs[r.curRun]? = some ⟨997, 3⟩ ∧ x.state = .reading ∧ x.winErrors < x.threshold ∧ x.threshold ≤ x.winErrors + 1 ∧
    (slot r 6).winErrors + 1 < (slot r 6).threshold ∧ x.retries ≤ r.attempts ∧
    x.openBelow x.workTier.code = some .t1 ∧ ({ x with workTier := .t1 } : Slot).openBelow 1 = none ∧
    s.channels[(0 : Fin 2)].buffer = none ∧ ({ s.channels[(0 : Fin 2)] with buffer := some ⟨⟨0, 1⟩, 0, none⟩ } : Channel).buffer.isSome ∧
    r.nextBlock + 1 < 997 + 3 ∧ 997 + 3 ≤ ({ r with nextBlock := 999 } : ReadRec).nextBlock + 1 := by decide +kernel
/-- A block is good with the checks of its own bits. -/
theorem witness_good_block (wide : Bool) : blockGood wide (List.replicate 512 0)
    ((List.range (if wide then 4 else 1)).map fun j => crc16 (lineBits wide j (List.replicate 512 0))) = true := by
  simp only [blockGood, List.length_replicate, BEq.rfl, Bool.and_self]
theorem witness_Checking :
    let r := { aRead .checking with attempts := 1, nextBlock := 998 }
    let x := (withSlot { readingSlot .status r with winErrors := 6 }).slots[(0 : Fin 4)]
    let y := (withSlot { readingSlot .status { r with attempts := 2 } with winErrors := 6 }).slots[(0 : Fin 4)]
    let z := (withSlot { readingSlot .status r with winErrors := 7, workWide := true }).slots[(0 : Fin 4)]
    x.timer = some ⟨.status, ⟨4750, 250⟩⟩ ∧ x.state = .reading ∧ x.read = some r ∧ r.owed = .none ∧ r.channel = some 0 ∧
    r.runs[r.curRun]? = some ⟨997, 3⟩ ∧ r.nextBlock < 997 + 3 ∧ r.nextBlock + 1 < 997 + 3 ∧
    x.winErrors + 1 < x.threshold ∧ r.attempts < x.retries ∧ x.winTransfers < 255 ∧
    y.retries ≤ 2 ∧ y.read = some { r with attempts := 2 } ∧ on.channels[(0 : Fin 2)].buffer = none ∧
    z.threshold ≤ z.winErrors + 1 ∧ z.openBelow z.workTier.code = some .t1 ∧
    responseContents 1 (response 0x05 [0]) = some [0] ∧
    (withSlot { readingSlot .status (aRead .fallingBack) with tryTier := .t1 }).slots[(0 : Fin 4)].read = some (aRead .fallingBack) ∧
    (readingSlot .status (aRead .fallingBack)).openBelow (readingSlot .status (aRead .fallingBack)).tryTier.code = some .t1 ∧
    ({ readingSlot .status (aRead .fallingBack) with tryTier := .t1 } : Slot).openBelow 1 = none ∧
    (aRead .fallingBack).nextPos < totalBlocks (aRead .fallingBack).runs := by
  decide +kernel
theorem witness_LastGrant :
    let p : Picture := ⟨.cardFile, .cardFill, 0, 7, 1536, 1024, 0, 0, 0, 0, 0⟩
    let b : BlockBuf := ⟨⟨0, 1⟩, 2, some (List.replicate 512 1)⟩
    let r := { aRead .draining with nextBlock := 1000, nextPos := 3, placed := 2 }
    let s := withPicture p { withSlot (readingSlot .data r) with channels := on.channels.set 0 ⟨some 0, .hold, some b⟩ }
    s.channels[(0 : Fin 2)] = ⟨some 0, .hold, some b⟩ ∧ s.slots[(0 : Fin 4)].read = some r ∧ r.channel = some 0 ∧
    r.phase = .draining ∧ r.owed = .none ∧ r.runs.length ≤ r.curRun + 1 ∧ s.slots[(0 : Fin 4)].otherCell = none ∧
    b.picture = r.picture ∧ s.pictureAt r.picture = some (0, p) ∧ p.state = .cardFill ∧ s.chanWait = [] ∧
    s.cells[r.cell].mem.wf = true := by decide +kernel
/-- The last marker of a failing read, with a release that waits, and one whose picture was freed on the way. -/
theorem witness_FailingEnd : let r := { aRead .failing with owed := .rest, nextPos := 3, nextBlock := 1000, placed := 2 }
    r.phase = .failing ∧ r.owed = .rest ∧ totalBlocks r.runs ≤ r.nextPos ∧
    ({ readingSlot .data r with otherCell := some (.release 8) } : Slot).otherCell = some (.release 8) ∧ (8 : Fin 64) ≠ r.cell := by
  decide +kernel
/-- A read of two runs at the end of its first: in HOLD, in SHARE with Channel A its own, with Channel B and A free, with a
slot that waits, and failing. -/
theorem witness_RunStep :
    let r := { aRead .draining with runs := [⟨997, 3⟩, ⟨5, 2⟩], nextBlock := 1000, nextPos := 3, placed := 2 }
    let f := { r with phase := .failing, owed := .rest }
    r.runs[r.curRun + 1]? = some ⟨5, 2⟩ ∧ r.owed = .none ∧ f.runs[f.curRun]? = some ⟨997, 3⟩ ∧ 997 + 3 ≤ f.nextBlock ∧
    f.nextPos < totalBlocks f.runs ∧
    (let b : BlockBuf := ⟨⟨0, 1⟩, 2, none⟩
     let s (c : Fin 2) (m : ChanMode) : State := { withSlot (readingSlot .data { r with channel := some c }) with
       channels := on.channels.set c ⟨some 0, m, some b⟩ }
     (s 0 .hold).channels[(0 : Fin 2)] = ⟨some 0, .hold, some b⟩ ∧ (s 0 .share).chanWait = [] ∧
     (s 1 .share).channels[(1 : Fin 2)] = ⟨some 0, .share, some b⟩ ∧ (s 1 .share).channels[(0 : Fin 2)].owner = none ∧
     (let u := { s 1 .share with chanWait := [2, 3], channels := (s 1 .share).channels.set 0 ⟨some 1, .hold, none⟩ }
      u.chanWait = 2 :: [3] ∧ (2 : Fin 4) ≠ 0 ∧ ∀ d : Fin 2, d ≠ 1 → u.channels[d].owner.isSome)) := by decide +kernel
/-- The grant of a block with nothing that follows: a failed block of a picture in CARD_FILL, and of one that left it. -/
theorem witness_GrantBlock : let p : Picture := ⟨.cardFile, .cardFill, 0, 7, 1536, 1024, 0, 0, 0, 0, 0⟩
    let b : BlockBuf := ⟨⟨0, 1⟩, 1, none⟩
    let s := withPicture p { withSlot (readingSlot .data (aRead .issuing)) with channels := on.channels.set 0 ⟨some 0, .hold, some b⟩ }
    s.channels[(0 : Fin 2)] = ⟨some 0, .hold, some b⟩ ∧ s.pictureAt b.picture = some (0, p) ∧ p.state = .cardFill ∧
    s.slots[(0 : Fin 4)].read = some (aRead .issuing) ∧ (aRead .issuing).owed = .none ∧ (aRead .issuing).phase ≠ .draining ∧
    (withPicture { p with state := .torn } s).pictureAt b.picture = some (0, { p with state := .torn }) := by decide +kernel

/-! ### Orders -/

/-- The entry of an ORDER_OPEN for `n` copies of the 16 by 16 raster of picture 0, S4, GLOSS, r0. -/
def entryBytes (n : Byte) : List Byte := [0, 1, 0, 0, n, 0, 0, 0, 0, 0, 16, 0, 16, 0, 0, 0]

/-- ORDER_OPEN with a class, a count byte and entries. -/
def openBytes (cls count : Byte) (entries : List (List Byte)) : List Byte := [7, 0, 0, 0, cls, count, 0, 0] ++ entries.flatten

/-- A state in which ORDER_OPEN stands at the head, with a SEALED raster. -/
def opening (prices : Settings) (body : List Byte) : State :=
  { withPicture (raster .sealed 0) (ask 5 0x30 body on) with settings := prices }

/-- Base prices of 999,999 for S4. -/
def dear : Settings := defaultSettings.set 2 [999999, 999999, 0, 0, 0, 0, 110, 0, 0, 0, 0, 0, 0, 0, 0]

theorem witness_OrderOpen_fields :
    (opening defaultSettings (openBytes 2 1 [])).asks 5 .orderOpen 0 ∧
    1 < ((opening defaultSettings (openBytes 2 1 [])).take 0).cells[(0 : Fin 64)].req 4 1 ∧
    ((opening defaultSettings (openBytes 1 25 [])).take 0).cells[(0 : Fin 64)].req 5 1 = 25 ∧
    ((opening defaultSettings (openBytes 1 0 [])).take 0).cells[(0 : Fin 64)].req 5 1 = 0 := by
  unfold State.asks; decide +kernel
theorem witness_OrderOpen : let s := opening defaultSettings (openBytes 1 2 [entryBytes 1, entryBytes 99])
    let cell := (s.take 0).cells[(0 : Fin 64)]
    let entries := (List.range (cell.req 5 1)).map (itemEntry cell)
    cell.req 4 1 = 1 ∧ cell.req 5 1 = 2 ∧
    (∀ e ∈ entries, e.size ≤ 2 ∧ e.finish ≤ 1 ∧ e.rotation ≤ 3 ∧ 1 ≤ e.copies ∧ e.copies ≤ 99 ∧ 1 ≤ e.cw ∧ 1 ≤ e.ch ∧
      s.pictureAt e.raster = some (0, raster .sealed 0) ∧ (raster .sealed 0).kind = .raster ∧ (raster .sealed 0).state = .sealed ∧
      e.x0 + e.cw ≤ (raster .sealed 0).width ∧ e.y0 + e.ch ≤ (raster .sealed 0).height) ∧
    orderTotal (priced s.settings (entries.filterMap ItemEntry.toItem)) ≤ 99999999 ∧ s.orders[(0 : Fin 48)].order = none ∧
    ∀ k : Fin 48, ¬ k < 0 := by decide +kernel
theorem witness_OrderOpen_over : let s := opening dear (openBytes 0 2 [entryBytes 99, entryBytes 99])
    let cell := (s.take 0).cells[(0 : Fin 64)]
    let items := priced s.settings (((List.range (cell.req 5 1)).map (itemEntry cell)).filterMap ItemEntry.toItem)
    firstOver 0 0 items = some 1 := by decide +kernel
/-- The second item with 100 copies, with the handle of no picture, and with a crop one pixel too wide; a full table. -/
theorem witness_OrderOpen_items :
    let bad : List Byte := [0, 1, 0, 0, 100, 0, 0, 0, 0, 0, 16, 0, 16, 0, 0, 0]
    let lost : List Byte := [9, 1, 0, 0, 1, 0, 0, 0, 0, 0, 16, 0, 16, 0, 0, 0]
    let wide : List Byte := [0, 1, 0, 0, 1, 0, 1, 0, 0, 0, 16, 0, 16, 0, 0, 0]
    let second (e : List Byte) : ItemEntry :=
      itemEntry ((opening defaultSettings (openBytes 0 2 [entryBytes 1, e])).take 0).cells[(0 : Fin 64)] 1
    let s := opening defaultSettings []
    (second bad).copies = 100 ∧ (second (entryBytes 99)).copies = 99 ∧ s.pictureAt (second lost).raster = none ∧
    (second lost).copies = 1 ∧ s.pictureAt (second wide).raster = some (0, raster .sealed 0) ∧
    16 < (second wide).x0 + (second wide).cw ∧ (second (entryBytes 1)).x0 + (second (entryBytes 1)).cw = 16 ∧
    ({ s with orders := tab fun _ => ⟨1, some (orderOf .opened [] 0 0)⟩ } : State).orders[(47 : Fin 48)].order.isSome := by
  decide +kernel
theorem witness_pricing : ([orderItem .s4 .gloss 6] : List Item)[0]? = some (orderItem .s4 .gloss 6) ∧
    (0 : Nat) < [orderItem .s4 .gloss 6].length := by decide

/-- ORDER_AMEND of order 0 with a list length and changes. -/
def amendBytes (len : Byte) (changes : List Byte) : List Byte := [0, 1, len, 0] ++ changes

/-- Two items of 99 copies each: above the limit at the prices of `dear`, even with a copy less. -/
def dearItems : List Item := [orderItem .s4 .gloss 99, orderItem .s4 .gloss 99]

theorem witness_Amend :
    (let o := orderOf .short [orderItem .s4 .gloss 6, orderItem .s6 .matte 1] 380 200
     let s := withOrder o (ask 5 0x31 (amendBytes 2 [0, 5, 1, 0]) on)
     let cell := (s.take 0).cells[(0 : Fin 64)]
     let changes := (List.range (cell.req 2 1)).map fun i => (cell.req (4 + 2 * i) 1, cell.req (5 + 2 * i) 1)
     s.asks 5 .orderAmend 0 ∧ s.orderAt (cell.reqHandle 0) = some (0, o) ∧ s.cells[(0 : Fin 64)].mem.wf = true ∧
     cell.req 2 1 = 2 ∧ (changes.map (·.1)).Nodup ∧ changes = [(0, 5), (1, 0)] ∧
     o.items[0]? = some (orderItem .s4 .gloss 6) ∧ o.items[1]? = some (orderItem .s6 .matte 1) ∧
     (orderItem .s4 .gloss 6).state ≠ .cancelled ∧ (orderItem .s6 .matte 1).state ≠ .cancelled ∧
     5 ≤ (orderItem .s4 .gloss 6).copies ∧ 0 ≤ (orderItem .s6 .matte 1).copies) ∧
    (let s := withOrder (orderOf .printing [] 380 200) (ask 5 0x31 (amendBytes 25 []) on)
     let cell := (s.take 0).cells[(0 : Fin 64)]
     s.asks 5 .orderAmend 0 ∧ cell.req 2 1 = 25 ∧ s.orderAt (cell.reqHandle 0) = some (0, orderOf .printing [] 380 200)) ∧
    (let s := { withOrder (orderOf .opened dearItems 0 0) (ask 5 0x31 (amendBytes 1 [0, 98]) on) with settings := dear }
     let cell := (s.take 0).cells[(0 : Fin 64)]
     (List.range (cell.req 2 1)).map (fun i => (cell.req (4 + 2 * i) 1, cell.req (5 + 2 * i) 1)) = [(0, 98)] ∧
     firstOver 0 0 (priced s.settings (dearItems.modify 0 fun it => { it with copies := 98 })) = some 1) := by
  unfold State.asks; decide +kernel

/-- The first change that fails: an item index out of range, one that came before, a CANCELLED item, and more copies; and a
handle that is not current. -/
theorem witness_Amend_refused :
    let o := orderOf .opened [orderItem .s4 .gloss 6, { orderItem .s6 .matte 0 with state := .cancelled }] 380 0
    let changes (b : List Byte) : List (Nat × Nat) :=
      let cell := ((withOrder o (ask 5 0x31 (amendBytes 2 b) on)).take 0).cells[(0 : Fin 64)]
      (List.range (cell.req 2 1)).map fun i => (cell.req (4 + 2 * i) 1, cell.req (5 + 2 * i) 1)
    (withOrder o (ask 5 0x31 (amendBytes 2 [0, 5, 2, 0]) on)).asks 5 .orderAmend 0 ∧ o.items.length = 2 ∧
    changes [0, 5, 2, 0] = [(0, 5), (2, 0)] ∧ changes [0, 5, 0, 4] = [(0, 5), (0, 4)] ∧ changes [0, 5, 1, 0] = [(0, 5), (1, 0)] ∧
    changes [0, 7, 1, 0] = [(0, 7), (1, 0)] ∧ o.items[0]? = some (orderItem .s4 .gloss 6) ∧
    (o.items[1]?.map fun it => (it.state, it.copies)) = some (.cancelled, 0) ∧ (orderItem .s4 .gloss 6).state = .waiting ∧
    5 ≤ (orderItem .s4 .gloss 6).copies ∧ (orderItem .s4 .gloss 6).copies < 7 ∧
    (ask 5 0x31 [0, 9, 1, 0, 0, 1] on).asks 5 .orderAmend 0 ∧
    on.orderAt (((ask 5 0x31 [0, 9, 1, 0, 0, 1] on).take 0).cells[(0 : Fin 64)].reqHandle 0) = none := by
  unfold State.asks; decide +kernel

/-- A state in which a request with the handle of order 0 stands at the head of the Accountant's list. -/
def asking (kind : Byte) (o : Order) : State := withOrder o (ask 5 kind [0, 1] on)

theorem witness_Pay_Retire :
    (let s := asking 0x32 (orderOf .opened [] 495 0)
     s.asks 5 .orderPay 0 ∧ s.orderAt ((s.take 0).cells[(0 : Fin 64)].reqHandle 0) = some (0, orderOf .opened [] 495 0)) ∧
    (let s := asking 0x32 (orderOf .opened [] 0 0)
     s.orderAt ((s.take 0).cells[(0 : Fin 64)].reqHandle 0) = some (0, orderOf .opened [] 0 0)) ∧
    (let s := ask 5 0x34 [0, 0] on
     s.asks 5 .orderRetire 0 ∧ s.orderAt ((s.take 0).cells[(0 : Fin 64)].reqHandle 0) = none) ∧
    (let s := ask 5 0x33 [0, 0] on
     s.asks 5 .orderCancel 0 ∧ s.orderAt ((s.take 0).cells[(0 : Fin 64)].reqHandle 0) = none) ∧
    (let s := asking 0x34 (orderOf .closed [] 0 0)
     s.asks 5 .orderRetire 0 ∧ s.orderAt ((s.take 0).cells[(0 : Fin 64)].reqHandle 0) = some (0, orderOf .closed [] 0 0)) := by
  unfold State.asks; decide +kernel
theorem witness_Cancel :
    (let o := orderOf .printing [{ orderItem .s4 .gloss 2 with done := 1, inFlight := 1 }] 90 90
     (asking 0x33 o).asks 5 .orderCancel 0 ∧
     (asking 0x33 o).orderAt (((asking 0x33 o).take 0).cells[(0 : Fin 64)].reqHandle 0) = some (0, o)) ∧
    (let o := orderOf .doubt [] 90 0
     (asking 0x33 o).orderAt (((asking 0x33 o).take 0).cells[(0 : Fin 64)].reqHandle 0) = some (0, o)) ∧
    (let o := orderOf .paid [orderItem .s4 .gloss 2] 90 90
     (asking 0x33 o).orderAt (((asking 0x33 o).take 0).cells[(0 : Fin 64)].reqHandle 0) = some (0, o)) ∧
    (let o := orderOf .closed [] 90 90
     (asking 0x33 o).orderAt (((asking 0x33 o).take 0).cells[(0 : Fin 64)].reqHandle 0) = some (0, o)) := by
  unfold State.asks; decide +kernel
theorem witness_Outcomes :
    (let o := { orderOf .authorizing [orderItem .s4 .gloss 6] 495 0 with payCell := some 5 }
     (withOrder o on).orderAt ⟨0, 1⟩ = some (0, o) ∧ (withOrder o on).cells[(5 : Fin 64)].mem.wf = true ∧
     o.total ≤ 495 ∧ 494 < o.total ∧ o.cancelPending = false) ∧
    (let o := { orderOf .doubt [orderItem .s4 .gloss 6] 495 0 with cancelPending := true }
     (withOrder o on).orderAt ⟨0, 1⟩ = some (0, o) ∧ 0 < o.total) ∧
    (let o := orderOf .printing [{ orderItem .s4 .gloss 2 with state := .done, done := 2, unitPrice := 45 }] 90 90
     (withOrder o on).orderAt ⟨0, 1⟩ = some (0, o) ∧ ∀ it ∈ o.items, it.state = .done ∧ it.inFlight = 0) ∧
    (let o := orderOf .printing [orderItem .s4 .gloss 2] 90 90
     (withOrder o on).orderAt ⟨0, 1⟩ = some (0, o) ∧ ¬ ∀ it ∈ o.items, it.state ≠ .waiting) ∧
    (withOrder (orderOf .settling [] 90 90) on).orderAt ⟨0, 1⟩ = some (0, orderOf .settling [] 90 90) := by
  decide +kernel

/-! ### The payment line -/

/-- A payment side in CONNECTED with the terminal present. -/
def line : Pay := { resetPay true false with
  line := .connected
  present := true }

/-- The part with a payment side, at 5,000 ms. -/
def withPay (p : Pay) : State := { on with pay := p, clock := 5000 }

/-- An entry of a byte that arrived at 4,999 ms. -/
def entry (b : Byte) : RxEntry := ⟨b, false, false, false, 4999⟩

theorem witness_Receiver :
    line.line ≠ .off ∧ line.rx = .idle ∧ ({ line with rx := .receiving 4990 false false } : Pay).fmt.toStopMs false ≤ elapsed 5000 4990 ∧
    line.fmt.toStopMs false = 0 ∧ (16 * line.fmt.charBits - 0) * line.fmt.divisor * 10 / 294912 = 1 ∧
    8 * line.fmt.divisor * 10 / 294912 = 0 ∧ line.line = .connected ∧
    ({ line with rx := .receiving 4999 false true } : Pay).rx = .receiving 4999 false true ∧ elapsed 5000 4999 = 1 ∧
    elapsed 5000 4998 = 1 + 1 ∧
    (let p := { line with line := .loopback, rx := .receiving 4999 false false, txChar := some ⟨7, 0, false, false⟩ }
     p.line = .loopback ∧ p.txChar = some ⟨7, 0, false, false⟩ ∧ (7 : Byte) = (if p.fmt.dataBits = 7 then 7 &&& 0x7F else 7)) ∧
    line.fmt.parity = .none ∧ (1 : Byte) ≠ 0 ∧
    ({ line with rx := .breakHold } : Pay).rx = .breakHold ∧ ({ line with line := .loopback } : Pay).line = .loopback ∧
    line.rxFifo.length < 16 ∧ 16 ≤ ({ line with rxFifo := List.replicate 16 (entry 0) } : Pay).rxFifo.length := by
  decide +kernel
theorem witness_Transmitter :
    (let b : TxByte := ⟨0xC3, 1, true, false⟩
     let p := { line with txChar := some b, txStart := 4990 }
     p.txChar = some b ∧ 16 * p.fmt.charBits * p.fmt.divisor * 10 / 294912 ≤ elapsed 5000 4990) ∧
    (let p := { line with txFifo := [⟨0xC3, 1, true, false⟩] }
     p.txFifo.length ≤ 16 ∧ p.txChar = none ∧ p.line ≠ .off ∧ p.txFifo ++ p.outBytes = [⟨0xC3, 1, true, false⟩]) ∧
    (let p := { line with line := .loopback, rx := .receiving 4990 false false, txChar := some ⟨7, 0, false, false⟩ }
     p.line = .loopback ∧ p.rx = .receiving 4990 false false ∧ ({ p with rx := .idle } : Pay).rx = .idle) ∧
    (resetPay false false).line ≠ .connected ∧ line.present = true ∧ line.present ≠ false ∧ line.alertLevel = false ∧
    ({ line with alertLevel := true } : Pay).alertLevel = true := by decide +kernel
theorem witness_Deferred :
    (let p := { line with pendingFmt := some ⟨96, 7, .odd, 2⟩, pendingValues := some defaultPayValues }
     p.loop = none ∧ p.pendingFmt = some ⟨96, 7, .odd, 2⟩ ∧ p.pendingValues = some defaultPayValues ∧ p.current = none ∧
     p.txFifo = [] ∧ p.txChar = none ∧ p.rx = .idle) ∧
    (let l : Loopback := ⟨7, 64, false, 0, 0, 0, 0, 4000⟩
     let p := { line with loop := some l }
     p.loop = some l ∧ l.begun = false ∧ p.txFifo = [] ∧ p.txChar = none) := by decide +kernel
theorem witness_Loopback :
    (let s := ask 9 0x51 [64] (withPay line)
     s.asks 9 .paymentLoopback 0 ∧ s.pay.line = .connected ∧ s.pay.loop = none ∧ (s.take 0).cells[(0 : Fin 64)].req 0 1 = 64 ∧
     s.pay.current = none ∧ s.pay.queue = []) ∧
    (let s := ask 9 0x51 [65] (withPay line); 64 < (s.take 0).cells[(0 : Fin 64)].req 0 1) ∧
    (let s := ask 9 0x51 [0] (withPay line); (s.take 0).cells[(0 : Fin 64)].req 0 1 < 1) ∧
    ({ line with queue := [⟨⟨0, 1⟩, .void, 1, []⟩] } : Pay).queue ≠ [] ∧
    (let l : Loopback := ⟨7, 64, true, 64, 63, 0, 0, 4000⟩
     let p := { line with line := .loopback, loop := some l, rxFifo := [entry 63] }
     p.loop = some l ∧ l.begun = true ∧ p.rxFifo = [entry 63]) ∧
    (let l : Loopback := ⟨7, 64, true, 64, 63, 0, 0, 4997⟩
     let p := { line with line := .loopback, loop := some l }
     l.sentCount = l.length ∧ p.txFifo = [] ∧ p.txChar = none ∧
     32 * p.fmt.charBits * p.fmt.divisor * 10 / 294912 ≤ elapsed 5000 l.lastSent) := by
  unfold State.asks; decide +kernel

/-- A transaction of the queue with number 9, for an authorisation of 495 by order 0. -/
def txn (ph : TxnPhase) : Txn := ⟨9, ⟨0, 1⟩, .authorize, 495, [], .queue, ph, 0, false, true, 3, 3, false, some ⟨4900, 100⟩, none, false⟩

/-- R113, R118: the frame that started the transaction still waits, with room for one byte, when a QUERY follows it:
its first byte, and not the QUERY's, sets the sent flag. -/
theorem test_sent_by_the_first_frame :
    let t := { txn .querying with sent := false, firstFrame := 2, frame := 3 }
    let full : List TxByte := List.replicate 15 ⟨0, 1, false, false⟩
    let at_ (bs : List TxByte) : Pay := Pay.fill { line with txFifo := full, outBytes := bs, current := some t }
    (at_ [⟨0xC3, 2, true, false⟩, ⟨0xC3, 3, true, false⟩]).current.map Txn.sent = some true ∧
    (at_ [⟨0xC3, 3, true, false⟩]).current.map Txn.sent = some false := by decide +kernel

/-- A doubt record with number 9. -/
def doubtRec : DoubtRec := ⟨9, ⟨0, 1⟩, .authorize, 495, []⟩

theorem witness_PaymentReset : let s := ask 9 0x50 [] (withPay line)
    s.asks 9 .paymentReset 0 ∧ s.pay.line = .connected ∧ s.pay.loop = none ∧ s.pay.current = none ∧
    (ask 9 0x50 [] (withPay { line with current := some (txn .sent) })).pay.current = some (txn .sent) ∧
    (txn .sent).origin = .queue ∧ (txn .sent).sent = true ∧ ({ txn .sent with sent := false } : Txn).sent = false ∧
    ({ txn .querying with origin := .doubt } : Txn).origin = .doubt := by
  unfold State.asks; decide +kernel

/-! ### Payment transactions -/

/-- A frame in assembly at a step, its last entry taken at 4,980 ms. -/
def asm (st : AsmStep) (len : Nat) (body : List Byte) (low : Byte) : Assembly := ⟨st, len, body, low, 4980, 20⟩

/-- A payment side with a frame in assembly and an entry to take. -/
def taking (a : Assembly) (e : RxEntry) : Pay := { line with
  asm := a
  rxFifo := [e] }

/-- The entry comes one millisecond before the inter-byte limit. -/
theorem witness_Assembly :
    line.line = .connected ∧ line.framesDropped ≤ 65535 ∧
    ((asm .body 2 [] 0).step ≠ .hunt ∧ (asm .body 2 [] 0).limit ≤ elapsed 5000 4980) ∧
    (taking asmHunt (entry 0xC3)).rxFifo = [entry 0xC3] ∧ asmHunt.step = .hunt ∧ (entry 0xC3).byte = 0xC3 ∧ (entry 0xC4).byte ≠ 0xC3 ∧
    elapsed (entry 0).arrival (asm .length 0 [] 0).last < (asm .length 0 [] 0).limit ∧
    (asm .length 0 [] 0).step = .length ∧ (entry 64).byte.toNat = 64 ∧ 64 < (entry 65).byte.toNat ∧ (entry 0).byte.toNat < 1 ∧
    (asm .body 2 [0x81] 0).body.length + 1 = 2 ∧ (asm .checkLow 2 [0x81, 9] 0).step = .checkLow ∧
    (let a := asm .checkHigh 2 [0x81, 9] 0x8C
     (a.len + sumBytes a.body) % 65536 = a.low.toNat + 256 * (entry 0).byte.toNat ∧ termMsgOf a.body = some (9, .accepted) ∧
     (a.len + sumBytes a.body) % 65536 ≠ a.low.toNat + 256 * (entry 1).byte.toNat) ∧
    ({ entry 0 with framing := true } : RxEntry).framing = true ∧ ({ entry 0 with brk := true } : RxEntry).brk = true ∧
    (txn .sent).origin = .queue ∧ (txn .sent).sent = true := by decide +kernel

/-- A payment side whose next entry completes a frame with a body. -/
def hearing (body : List Byte) : Pay :=
  taking { asm .checkHigh body.length body (byteAt (le 2 (body.length + sumBytes body)) 0) with last := 4981 }
    (entry (byteAt (le 2 (body.length + sumBytes body)) 1))

/-- Each message of the terminal with number 9 (R196), the last a PONG with number 0. -/
theorem witness_Answers_messages :
    (hearing [0x81, 9]).headTake 5000 = some (.message 9 .accepted) ∧
    (hearing [0x82, 9, 0xEF, 1, 0, 0, 65, 66, 67, 68, 69, 70]).headTake 5000 =
      some (.message 9 (.approved 495 [65, 66, 67, 68, 69, 70])) ∧
    (hearing [0x83, 9, 4]).headTake 5000 = some (.message 9 (.declined 4)) ∧
    (hearing [0x84, 9]).headTake 5000 = some (.message 9 .unknown) ∧
    (hearing [0x85, 9]).headTake 5000 = some (.message 9 .completed) ∧
    (hearing [0x86, 9, 4]).headTake 5000 = some (.message 9 (.refused 4)) ∧
    (hearing [0x87, 0]).headTake 5000 = some (.message 0 .pong) := by decide +kernel
theorem witness_Answers :
    (let s := withPay { hearing [0x81, 9] with current := some (txn .customer) }
     s.pay.headTake s.clock = some (.message 9 .accepted) ∧ s.pay.current = some (txn .customer) ∧ (txn .customer).number = 9 ∧
     (txn .customer).origin = .queue ∧ (txn .customer).phase = .customer ∧ (txn .customer).action = .authorize) ∧
    (txn .querying).restartUsed = false ∧
    (let s := withPay { hearing [0x84, 9] with doubts := [doubtRec] }
     s.pay.current = none ∧ (s.pay.doubts.find? fun d => d.number == 9) = some doubtRec) ∧
    (let s := withPay (hearing [0x85, 9]); ∀ d ∈ s.pay.doubts, d.number ≠ 9) ∧
    (let t := { txn .querying with origin := .doubt, forAction := true }
     let s := withPay { hearing [0x84, 9] with current := some t, doubts := [doubtRec] }
     s.pay.current = some t ∧ t.number = 9 ∧ t.origin = .doubt ∧
     (s.pay.doubts.find? fun d => d.number == 9) = some doubtRec) := by decide +kernel

/-- An action of the queue. -/
def act (a : PayAction) : QueuedAction := ⟨⟨0, 1⟩, a, 495, [65, 66, 67, 68, 69, 70]⟩

theorem witness_ActionStart :
    (let s := withPay { line with queue := [act .capture], nextNumber := 255 }
     s.pay.queue = [act .capture] ∧ s.running = true ∧ s.pay.line = .connected ∧ s.pay.loop = none ∧ s.pay.current = none ∧
     s.pay.doubts.length < 4 ∧ s.pay.present = true ∧ s.pay.doubts = []) ∧
    (let s := withPay { line with queue := [act .void], doubts := [doubtRec, doubtRec, doubtRec] }
     s.pay.doubts.length < 4 ∧ s.pay.doubts = doubtRec :: [doubtRec, doubtRec] ∧ s.pay.preQuery = false) ∧
    (let s := withPay { line with queue := [act .authorize], present := false, absentSince := some 3499 }
     (act .authorize).action = .authorize ∧ s.pay.present = false ∧ s.pay.values.answerTimeout < elapsed s.clock 3499) := by
  decide +kernel
theorem witness_PaymentTimers : (⟨4900, 100⟩ : Timer).due (withPay line).clock = true ∧
    (txn .sent).phase ≠ .customer ∧ (txn .sent).answerTimer = some ⟨4900, 100⟩ ∧
    ({ txn .customer with customerTimer := some ⟨4900, 100⟩ } : Txn).customerTimer = some ⟨4900, 100⟩ ∧
    line.values.queryRetries ≤ ({ txn .querying with attempts := 3 } : Txn).attempts ∧
    (txn .sent).attempts < line.values.queryRetries ∧ line.loop = none ∧
    ({ txn .querying with origin := .doubt } : Txn).answerTimer = some ⟨4900, 100⟩ ∧
    (let p := { line with doubts := [doubtRec], pingTimer := some ⟨4900, 100⟩ }
     p.doubts ≠ [] ∧ p.pingTimer = some ⟨4900, 100⟩ ∧ p.current = none ∧ p.line = .connected) := by decide +kernel

/-! ### Print stations and the station link -/

/-- Station 0 as given, at 5,000 ms. -/
def withStation (x : Station) : State := { on with stations := on.stations.set 0 x, clock := 5000 }

/-- A status word of an engine at a temperature, in a condition. -/
def engine (temp : Nat) (cond : EngineCond) : EngineStatus := ⟨temp, true, true, .panel4, 100, 100, 1, cond⟩

/-- A head profile with all tone entries 400. -/
def profile : Profile := ⟨0, [false, false, false, false], [900, 64, 35, 4, 500, 700, 640, 1024, 0, 0, 0, 1024, 0, 0, 0, 1024],
  List.replicate 256 400, List.replicate 256 400, List.replicate 256 400⟩

/-- A station with the link up, in a state. -/
def station (st : StationState) : Station := { resetStation with
  state := st
  rate := .lrB
  lastWord := some 4995
  abilities := some ⟨0x0F, 7, 0, 300⟩
  profile := some profile
  status := some (engine 30 .idle)
  statusSeen := true
  account := ⟨100, 100, .panel4, 1, none⟩ }

/-- An engine's ability word with flags (R197): the third equal one when `flags` without ACK came twice. -/
def abilityOf (flags : Byte) : List Byte := linkWord 0x5A [flags, 7, 0, 0x2C, 1, 1]

/-- A station that has seen a word's value a number of times. -/
def linking (flags : Byte) (n : Nat) : Station := { resetStation with
  state := .linking
  settleCount := n
  prevWord := some [flags, 7, 0, 0x2C, 1, 1] }

/-- A station's message in progress and the word that completes a message (R197). -/
def arriving (type : Byte) (body : List Byte) : Option (List Byte) × List Byte :=
  let bytes := type :: le 2 body.length ++ body
  let k := (bytes.length - 1) / 6 * 6
  (if k = 0 then none else some (bytes.take k), linkWord (if k = 0 then 0x10 else 0x13) (bytes.drop k))

/-- Station 0 in a state in which a message is about to be complete. -/
def hears (x : Station) (type : Byte) (body : List Byte) : State := withStation { x with msg := (arriving type body).1 }

/-- A STATUS body: temperature, cover and paper, a 4-panel ribbon, 100 panels and sheets, the media counter, the condition
(R197). -/
def statusBody (temp media cond : Byte) : List Byte := [temp, 3, 1, 100, 0, 100, 0, media, 0, cond]

theorem witness_ability_words :
    (withStation resetStation).wordFor 0 (abilityOf 0x93) = some (.ability [0x93, 7, 0, 0x2C, 1, 1]) ∧
    (withStation (linking 0x13 2)).wordFor 0 (abilityOf 0x93) = some (.ability [0x93, 7, 0, 0x2C, 1, 1]) ∧
    (withStation (station .ready)).wordFor 0 (abilityOf 0x13) = some (.ability [0x13, 7, 0, 0x2C, 1, 1]) ∧
    (station .ready).rate ≠ .none ∧ resetStation.rate = .none ∧ resetStation.rest = none ∧ resetStation.state = .absent ∧
    ((0x93 : Byte) &&& 0x7F) = 0x13 ∧ (linking 0x13 2).prevWord = some [0x13, 7, 0, 0x2C, 1, 1] ∧
    min 3 ((linking 0x13 2).settleCount + 1) = 3 ∧ min 3 ((linking 0x13 1).settleCount + 1) < 3 ∧
    (0x93 : Byte).getLsbD 0 = true ∧ (0x90 : Byte).getLsbD 0 = false ∧ (0x90 : Byte).getLsbD 1 = false ∧
    (0x93 : Byte).getLsbD 7 = true ∧ (0x13 : Byte).getLsbD 7 = false ∧ (0x93 : Byte).getLsbD 4 = true := by decide +kernel
theorem witness_other_words :
    (withStation resetStation).wordFor 0 (linkWord 0 []) = some .idle ∧
    (withStation resetStation).wordFor 0 (List.replicate 8 0) = some .damaged ∧
    (List.replicate 8 (0 : Byte)).length = 8 ∧ crc8 ((List.replicate 8 (0 : Byte)).take 7) ≠ byteAt (List.replicate 8 0) 7 ∧
    (withStation (linking 0 2)).wordFor 0 (linkWord 0x11 [0x41]) = some (.part [0x41, 0, 0, 0, 0, 0]) ∧
    (withStation (station .ready)).wordFor 0 (linkWord 0 []) = some .idle ∧
    (withStation (station .ready)).wordFor 0 (linkWord 0x11 [0x41]) = some (.part [0x41, 0, 0, 0, 0, 0]) ∧
    (withStation (station .ready)).wordFor 0 (linkWord 0x10 [0x99]) = some .dropped ∧
    linkThreshold on.settings ≤ ({ station .ready with winErrors := 7 } : Station).winErrors + 1 ∧
    (station .ready).winErrors + 1 < linkThreshold on.settings ∧ (station .ready).winTransfers < linkWindow on.settings ∧
    ({ resetStation with rest := some ⟨4800, 500⟩ } : Station).rest.isSome ∧ (station .profiling).state ≠ .linking := by
  decide +kernel
/-- A word of each kind, one of an unlisted kind, and the messages that ONLY and LAST words complete. -/
theorem witness_word_kinds :
    ([0x00, 0x5A, 0x10, 0x11, 0x12, 0x13, 0x14].all fun k =>
      let w := linkWord k [0x46, 2, 0, 7, 0]
      w.length == 8 && crc8 (w.take 7) == byteAt w 7 && byteAt w 0 == k && (w.drop 1).take 6 == [0x46, 2, 0, 7, 0, 0]) = true ∧
    (0x14 : Byte).toNat ∉ [0x00, 0x5A, 0x10, 0x11, 0x12, 0x13] ∧
    engineMsgOf [0x46, 2, 0, 7, 0, 0] = some (.copyOk 7) ∧ engineMsgOf [0x48, 2, 0, 7, 0, 0] = none ∧
    resetStation.msg = none ∧ (hears (linking 0 2) 0x40 (statusBody 30 1 0)).stations[(0 : Fin 3)].msg.isSome := by
  decide +kernel
/-- While the link is not up: the rests of ABSENT, LINKING and FAULT, and a message of each kind completed there. -/
theorem witness_words_while_down :
    let resting (st : StationState) : Station := { resetStation with state := st, rest := some ⟨4800, 500⟩ }
    (∀ st ∈ [StationState.absent, .linking, .fault], (resting st).rate = .none ∧ (resting st).rest.isSome ∧
      (withStation (resting st)).wordFor 0 (linkWord 0x12 []) = some .damaged ∧
      (withStation (resting st)).wordFor 0 (linkWord 0x10 [0x99]) = some .dropped ∧
      (withStation (resting st)).messageFor 0 (linkWord 0x10 [0x46, 2, 0, 7, 0]) = some (.copyOk 7)) ∧
    (let page := [3, 1] ++ List.replicate 32 2
     let hear (type : Byte) (body : List Byte) : Option EngineMsg :=
       (hears (linking 0 2) type body).messageFor 0 (arriving type body).2
     hear 0x40 (statusBody 30 1 0) = some (.status (engine 30 .idle)) ∧
     hear 0x41 page = some (.page 3 1 (List.replicate 32 2) 0) ∧ hear 0x42 [7, 0, 2, 9, 0] = some (.lineRequest 7 2 9) ∧
     hear 0x43 [7, 0, 2, 9, 0] = some (.lineAck 7 2 9) ∧ hear 0x44 [7, 0, 2, 9, 0] = some (.lineNak 7 2 9) ∧
     hear 0x45 [7, 0, 2] = some (.panelDone 7 2) ∧ hear 0x47 [7, 0, 4] = some (.copyFault 7 4)) ∧
    ∀ st : StationState, (station st).rate ≠ .none := by
  refine ⟨by decide +kernel, by decide +kernel, fun st => ?_⟩
  cases st <;> decide
/-- R133, R197: a dropped message is one damaged word in the rest of LINKING and of FAULT, and nothing in that of ABSENT. -/
theorem test_rest_counts :
    [StationState.absent, .linking, .fault].map (fun st => (run (.messageDrop 0 (linkWord 0x10 [0x99]))
      (withStation { resetStation with state := st, rest := some ⟨4800, 500⟩ })).stations[(0 : Fin 3)].damaged) = [0, 1, 1] := by
  decide +kernel
theorem witness_LinkTimers :
    (let s := withStation { station .printing with lastWord := some 4990 }
     s.stations[(0 : Fin 3)].lastWord = some 4990 ∧ 10 ≤ elapsed s.clock 4990 ∧ s.stations[(0 : Fin 3)].rate ≠ .none) ∧
    (let x := { linking 0 1 with lastWord := some 4990 }
     x.lastWord = some 4990 ∧ x.rate = .none ∧ x.state = .linking ∧ x.rest = none) ∧
    (let x := { linking 0 1 with exchangeTimer := some ⟨4500, 500⟩, sendTimer := some ⟨4999, 1⟩ }
     x.state = .linking ∧ (⟨4500, 500⟩ : Timer).due 5000 = true ∧ (⟨4999, 1⟩ : Timer).due 5000 = true) ∧
    (let x := { station .ready with sendTimer := some ⟨4999, 1⟩ }
     x.sendTimer = some ⟨4999, 1⟩ ∧ x.rate ≠ .none) ∧
    (let x := { resetStation with rest := some ⟨4500, 500⟩, lastWord := some 4991, takenCell := some 3 }
     x.rest = some ⟨4500, 500⟩ ∧ x.takenCell = some 3 ∧ x.lastWord = some 4991 ∧ elapsed 5000 4991 < 10) ∧
    (DownCause.energy ≠ .none ∧ DownCause.linkErrors ≠ .none) := by decide +kernel
theorem witness_Power_Relink :
    (let s := ask 6 0x40 [2] (withStation (station .ready))
     s.stations[(0 : Fin 3)].takenCell = none ∧ s.asks (stationList 0) .stationPower 0 ∧
     (s.take 0).cells[(0 : Fin 64)].req 0 1 = 2 ∧ s.stations[(0 : Fin 3)].state = .ready ∧
     s.stations[(0 : Fin 3)].account.reservation = none ∧ (⟨0x0F, 7, 0, 300⟩ : Abilities).flags.getLsbD 3 = true ∧
     (⟨7, 7, 0, 300⟩ : Abilities).flags.getLsbD 3 = false) ∧
    ((ask 6 0x40 [3] (withStation (station .ready))).take 0).cells[(0 : Fin 64)].req 0 1 = 3 ∧
    ((ask 6 0x40 [1] (withStation (station .standby))).take 0).cells[(0 : Fin 64)].req 0 1 = 1 ∧
    (ask 6 0x40 [1] (withStation (station .standby))).stations[(0 : Fin 3)].state = .standby ∧
    (ask 6 0x41 [] (withStation (station .standby))).asks (stationList 0) .stationRelink 0 ∧
    (ask 6 0x41 [] (withStation (station .ready))).asks (stationList 0) .stationRelink 0 ∧
    ({ station .standby with wake := some .relink } : Station).wake = some .relink := by
  unfold State.asks; decide +kernel

/-- A profile load that waits for a page. -/
def load (page : Nat) (toggle : Bool) (gathered : List Byte) (passed : List (List Byte)) : Load :=
  ⟨page, toggle, false, ⟨4950, 50⟩, 4, 77, gathered, passed⟩

/-- The header page (R139): identifier 77, four regions. -/
def header (regions : Byte) : List Byte := [0x21, 0x9E, regions, 0, 77, 0, 0, 0] ++ List.replicate 24 0

theorem witness_ProfileLoad :
    (let x := { station .profiling with load := some (load 0 false [] []) }
     let b := [0, 0] ++ header 4
     (hears x 0x41 b).messageFor 0 (arriving 0x41 b).2 = some (.page 0 0 (header 4) 0) ∧
     fieldLe (header 4) 0 2 = 0x9E21 ∧ (byteAt (header 4) 2).toNat = 4 ∧ (byteAt (header 5) 2).toNat = 5 ∧
     (byteAt (header 0) 2).toNat = 0 ∧ (0 : Byte).toNat = flag (load 0 false [] []).toggle) ∧
    (let x := { station .profiling with load := some (load 50 true [] [[], [], []]) }
     let b := [50, 1] ++ List.replicate 32 2 ++ [64, 0]
     (hears x 0x41 b).messageFor 0 (arriving 0x41 b).2 = some (.page 50 1 (List.replicate 32 2) 64) ∧
     sumBytes ([] ++ List.replicate 32 (2 : Byte)) % 65536 = 64 ∧ 4 ≤ [[], [], ([] : List Byte)].length + 1) ∧
    (load 2 true [] []).passed.length + 1 < (load 2 true [] []).regions ∧
    (let x := { station .profiling with load := some (load 3 false [] []) }
     let b := [3, 1] ++ List.replicate 32 2
     (hears x 0x41 b).messageFor 0 (arriving 0x41 b).2 = some (.page 3 1 (List.replicate 32 2) 0) ∧
     (1 : Byte).toNat ≠ flag (load 3 false [] []).toggle) ∧
    (load 3 false [] []).timer.due 5000 = true ∧ ({ load 3 false [] [] with mismatch := true } : Load).mismatch = true ∧
    (station .ready).load = none := by decide +kernel
theorem witness_profile_values (p : Fin 11) : PartInRange p on.settings[p] := part_default p

/-- A copy with sequence number 5 in a panel, its first line to come. -/
def aCopy (p : Panel) (ph : PanelPhase) : Copy := ⟨5, ⟨0, 1⟩, 0, .s4, .gloss, 1240, p, ph, 0, 0, none⟩

/-- A station that prints a copy. -/
def printing (c : Copy) : Station := { station .printing with copy := some c }

theorem witness_StatusWord :
    (hears (station .ready) 0x40 (statusBody 30 2 0)).messageFor 0 (arriving 0x40 (statusBody 30 2 0)).2 =
      some (.status { engine 30 .idle with mediaCounter := 2 }) ∧
    (hears (station .ready) 0x40 (statusBody 30 2 0)).reservations[(0 : Fin 3)] = (station .ready).account.reservation ∧
    (hears (printing (aCopy .m .inPanel)) 0x40 (statusBody 30 1 2)).messageFor 0 (arriving 0x40 (statusBody 30 1 2)).2 =
      some (.status (engine 30 .jam)) ∧ (engine 30 .jam).pauses = true ∧ (engine 30 .idle).pauses = false ∧
    (let x := { printing (aCopy .m .waitStart) with state := .paused, pauseCause := .hot }
     x.copy = some (aCopy .m .waitStart) ∧ x.statusSeen = true ∧ x.state = .paused ∧
     (hears x 0x40 (statusBody 55 1 0)).messageFor 0 (arriving 0x40 (statusBody 55 1 0)).2 = some (.status (engine 55 .idle))) ∧
    55 ≤ hotLimit on.settings - 3 ∧ hotLimit on.settings - 3 < 56 := by decide +kernel

/-- A bank of a station's head that holds a line of panel C. -/
def bank (st : BankState) (line : Nat) : Bank := ⟨st, 5, .c, line, List.replicate 1824 0⟩

theorem witness_CopyMessages :
    (let c := { aCopy .c .inPanel with nextLine := 1239 }
     let b := [5, 0, 2, 0xD7, 4]
     let h := { resetHead with banks := #v[bank .ready 1239, emptyBank] }
     let s := { hears (printing c) 0x42 b with heads := on.heads.set 0 h }
     s.messageFor 0 (arriving 0x42 b).2 = some (.lineRequest 5 2 1239) ∧ s.stations[(0 : Fin 3)].copy = some c ∧
     c.phase = .inPanel ∧ c.panel.code = 2 ∧ c.nextLine = 1239 ∧ 1239 < c.lines ∧ c.answer = none ∧ h.held = none ∧
     h.banks[(0 : Fin 2)].state = .ready ∧ h.banks[(0 : Fin 2)].line = 1239) ∧
    (let c := { aCopy .c .inPanel with answer := some ⟨4980, 20⟩ }
     let b := [5, 0, 2, 0, 0]
     (hears (printing c) 0x43 b).messageFor 0 (arriving 0x43 b).2 = some (.lineAck 5 2 0) ∧ c.answer.isSome ∧ c.panel.code = 2 ∧
     (printing c).winErrors < linkThreshold on.settings ∧
     (hears (printing c) 0x44 [5, 0, 1, 0, 0]).messageFor 0 (arriving 0x44 [5, 0, 1, 0, 0]).2 = some (.lineNak 5 1 0) ∧
     1 ≠ c.panel.code) ∧
    (let c := { aCopy .c .inPanel with nextLine := 1240 }
     (hears (printing c) 0x45 [5, 0, 2]).messageFor 0 (arriving 0x45 [5, 0, 2]).2 = some (.panelDone 5 2) ∧
     c.nextLine = c.lines ∧ c.panel.next = some .o ∧ (printing c).status = some (engine 30 .idle) ∧
     30 ≤ hotLimit on.settings ∧ hotLimit on.settings < 59) ∧
    (aCopy .o .inPanel).panel = .o ∧
    (hears (printing (aCopy .o .waitOk)) 0x46 [5, 0]).messageFor 0 (arriving 0x46 [5, 0]).2 = some (.copyOk 5) ∧
    (hears (printing (aCopy .o .waitOk)) 0x46 [6, 0]).messageFor 0 (arriving 0x46 [6, 0]).2 = some (.copyOk 6) ∧
    (aCopy .o .waitOk).phase = .waitOk := by decide +kernel
/-- The last copy of an order: completed, and failed for the third time. -/
theorem witness_CopyEnds :
    let it := { orderItem .s4 .gloss 3 with state := .active, inFlight := 1, done := 2, failures := 2, unitPrice := 45 }
    let o := orderOf .printing [it] 135 135
    let c := aCopy .o .waitOk
    let s := withOrder o (hears (printing c) 0x46 [5, 0])
    s.messageFor 0 (arriving 0x46 [5, 0]).2 = some (.copyOk 5) ∧ s.stations[(0 : Fin 3)].copy = some c ∧ c.phase = .waitOk ∧
    s.orderAt c.order = some (0, o) ∧ o.items[c.item]? = some it ∧ it.done + 1 = it.copies ∧ it.failures + 1 = o.failureLimit ∧
    (copyCompleted s c.order 0).orders[(0 : Fin 48)].order.map (fun p => (p.state, p.captured)) = some (.settling, 135) ∧
    (copyFailed s c.order 0).orders[(0 : Fin 48)].order.map (fun p => (p.state, p.captured)) = some (.settling, 90) := by
  decide +kernel
theorem witness_CopyFailures :
    let it := { orderItem .s4 .gloss 3 with state := .active, inFlight := 2, failures := 2 }
    let o := orderOf .printing [it] 135 135
    let c := { aCopy .c .inPanel with failedAnswers := 2, answer := some ⟨4980, 20⟩ }
    let s := withOrder o (hears (printing c) 0x47 [5, 0, 9])
    s.messageFor 0 (arriving 0x47 [5, 0, 9]).2 = some (.copyFault 5 9) ∧ s.stations[(0 : Fin 3)].copy = some c ∧
    s.orderAt c.order = some (0, o) ∧ o.items[c.item]? = some it ∧
    (⟨1, 4800, ⟨4800, 150⟩⟩ : HeldRequest).timer.due s.clock = true ∧ (printing c).winErrors + 1 < linkThreshold s.settings ∧
    c.answer = some ⟨4980, 20⟩ ∧ (⟨4980, 20⟩ : Timer).due s.clock = true ∧
    (hears (printing c) 0x44 [5, 0, 2, 0, 0]).messageFor 0 (arriving 0x44 [5, 0, 2, 0, 0]).2 = some (.lineNak 5 2 0) ∧
    ({ resetHead with banks := #v[bank .sending 0, emptyBank] } : Head).banks[(0 : Fin 2)].state = .sending := by
  decide +kernel

/-! ### Copy dispatch and line rendering -/

/-- A PAID order of class NORMAL in entry 0 and one of class EXPRESS, opened later, in entry 1; station 0 READY. -/
def twoOrders : State := { withStation (station .ready) with
  orders := (on.orders.set 0 ⟨1, some (orderOf .paid [orderItem .s4 .gloss 2] 90 90)⟩).set 1
    ⟨1, some { orderOf .paid [orderItem .s4 .gloss 1] 45 45 with cls := .express, openTime := 4000 }⟩ }

/-- Entry 1 is ahead of entry 0 by its class, and no other entry holds an order. -/
theorem witness_CopySelection :
    let x := twoOrders.stations[(0 : Fin 3)]
    twoOrders.running = true ∧ x.state = .ready ∧ twoOrders.reservations[(0 : Fin 3)] = none ∧
    1 ≤ x.account.ribbonLeft ∧ 1 ≤ x.account.paperLeft ∧ x.account.ribbon.takes .s4 = true ∧
    (∀ m : Fin 48, ∀ o ∈ twoOrders.orders[m].order, elapsed twoOrders.clock o.openTime < 2147483648 ∧ o.state = .paid ∧
      o.promoted = false ∧ o.paidTime = none ∧ ((m = 0 ∧ o.cls = .normal) ∨ (m = 1 ∧ o.cls = .express)) ∧
      ∀ it ∈ o.items, it.finish = .gloss ∧ it.state = .waiting ∧ 1 ≤ it.copies - it.done - it.inFlight - it.reserved) ∧
    (twoOrders.orders[(1 : Fin 48)].order.map fun o => o.items) = some [orderItem .s4 .gloss 1] := by decide +kernel
theorem witness_CopyStart :
    let r : Reservation := ⟨⟨0, 1⟩, 0, .s4, .gloss⟩
    let it := { orderItem .s4 .gloss 2 with state := .active, reserved := 1 }
    let o := orderOf .paid [it] 90 90
    let s := withOrder o { withStation { station .ready with account := ⟨100, 100, .panel4, 1, some r⟩, nextSeq := 65535 } with
      reservations := on.reservations.set 0 (some r) }
    let x := s.stations[(0 : Fin 3)]
    s.reservations[(0 : Fin 3)] = some r ∧ x.state = .ready ∧ x.copy = none ∧ x.status = some (engine 30 .idle) ∧
    s.orderAt r.order = some (0, o) ∧ o.items[r.item]? = some it ∧ x.nextSeq = 65535 ∧
    (engine 58 .idle).temp ≤ hotLimit s.settings ∧ hotLimit s.settings < (engine 59 .idle).temp := by decide +kernel

/-- What follows serves both orders on station 0: the EXPRESS one starts and the other is reserved; where nothing could be
made, nothing changes. -/
theorem test_afterWork : (let t := afterWork twoOrders twoOrders
     t.stations[(0 : Fin 3)].state = .printing ∧ t.stations[(0 : Fin 3)].copy.map (fun c => c.order.index) = some 1 ∧
     t.reservations[(0 : Fin 3)].map (fun r => r.order.index) = some 0 ∧ t.job.map (fun j => j.line) = some 0) ∧
    (∀ n : Fin 3, on.stationOpen n = false ∧ on.startDue n = none ∧ on.waitsToRender n = false) := by decide +kernel
/-- R155, R18: two selections from one order are two events, and each raises its revision. -/
theorem test_selections_are_events :
    let s := { twoOrders with orders := on.orders.set 0 twoOrders.orders[(0 : Fin 48)] }
    (afterWork s s).revisions[(0 : Fin 48)] = s.revisions[(0 : Fin 48)] + 2 := by decide +kernel
/-- Two stations with a held request each and as many READY banks; the one of station 1 came first. -/
theorem witness_RenderTie :
    let h (t : Word) : Head := { resetHead with cursor := some 5, held := some ⟨7, t, ⟨t, 150⟩⟩ }
    let s := { on with
      clock := 5000
      stations := (on.stations.set 0 (printing (aCopy .y .inPanel))).set 1 (printing (aCopy .y .inPanel))
      heads := (on.heads.set 0 (h 4995)).set 1 (h 4990) }
    s.renderChoice = some 1 ∧ s.waitsToRender 0 = true ∧ s.heads[(0 : Fin 3)].readyBanks = s.heads[(1 : Fin 3)].readyBanks ∧
    (∀ (j : Fin 3), ∀ p ∈ s.heads[j].held, elapsed s.clock p.arrival < 2147483648) := by decide +kernel

/-- A head in the middle of a panel, with room in bank 1. -/
def head (line : Nat) : Head := { resetHead with
  cursor := some line
  factor := 256
  temp := 30
  banks := #v[⟨.ready, 5, .y, 0, []⟩, emptyBank] }

theorem witness_Render :
    (let s := { withStation (printing (aCopy .y .inPanel)) with heads := on.heads.set 0 (head 1239) }
     s.job = none ∧ s.renderChoice = some 0 ∧ s.waitsToRender 0 = true ∧ s.stations[(0 : Fin 3)].copy = some (aCopy .y .inPanel) ∧
     s.heads[(0 : Fin 3)].cursor = some 1239 ∧ s.heads[(0 : Fin 3)].banks[(1 : Fin 2)].state = .empty ∧
     s.heads[(0 : Fin 3)].banks[(0 : Fin 2)].state ≠ .empty) ∧
    (let j : RenderJob := ⟨0, 5, .o, 7, 1, [], []⟩
     let s := { withStation (printing (aCopy .o .inPanel)) with job := some j, heads := on.heads.set 0 (head 8) }
     s.job = some j ∧ j.panel = .o ∧ s.stations[j.station].copy = some (aCopy .o .inPanel) ∧
     s.stations[j.station].profile = some profile ∧ s.heads[j.station].held = none ∧
     (⟨7, 4990, ⟨4990, 100⟩⟩ : HeldRequest).line = j.line) ∧
    ((1823 : Nat) < 1824 ∧ (1239 : Nat) < 1240 ∧ 1 ≤ dotItem.cw ∧ 1 ≤ dotItem.ch) ∧
    (let it := { orderItem .s4 .gloss 1 with state := .active, inFlight := 1 }
     let j : RenderJob := ⟨0, 5, .y, 7, 1, [], [⟨(samplePixel it 1240 3 7).1, (samplePixel it 1240 3 7).2, 40, 120, 200⟩]⟩
     let s := withOrder (orderOf .printing [it] 45 45) { withStation (printing (aCopy .y .inPanel)) with heads := on.heads.set 0 (head 8) }
     s.stations[j.station].copy = some (aCopy .y .inPanel) ∧ s.stations[j.station].profile = some profile ∧
     s.itemOf (aCopy .y .inPanel) = some it ∧ j.panel ≠ .o ∧ s.heads[j.station].held = none ∧
     (j.fetched.find? fun q => decide ((q.x, q.y) = samplePixel it 1240 3 j.line)).isSome) := by decide +kernel
theorem witness_Density : (-2048 : Int) ≤ 2047 ∧ 0 ≤ profile.scalar 1 ∧ profile.scalar 1 ≤ 255 ∧ (1023 : Nat) ≤ 1023 ∧
    ∀ e ∈ profile.tone .m, 0 ≤ e ∧ e ≤ 1023 := by decide +kernel

/-! ### Settings -/

theorem witness_Settings :
    (let s := ask 10 0x60 [5, 0] on
     s.asks 10 .settingsRead 0 ∧ (s.take 0).cells[(0 : Fin 64)].req 0 1 = 5) ∧
    (let s := ask 10 0x61 [4, 7] on
     s.asks 10 .settingsWrite 0 ∧ (s.take 0).cells[(0 : Fin 64)].req 0 1 = 4 ∧ (s.take 0).cells[(0 : Fin 64)].req 1 1 = 7) ∧
    partOf 4 7 = none ∧ partOf 4 6 = some 10 ∧ partOf 0 1 = none ∧ partOf 1 0 = some 1 ∧
    (let s := ask 10 0x61 ([0, 0, 0, 0] ++ (partBytes 0 defaultSettings[(0 : Fin 11)]).set 4 2) on
     let u := s.take 0
     firstBadEnum (partSpec 0) (readFields (partSpec 0) (u.cells[(0 : Fin 64)].reqBytes 4 (partLength 0))) = some 4) ∧
    (let s := ask 10 0x61 ([1, 0, 0, 0] ++ partBytes 1 defaultSettings[(1 : Fin 11)]) on
     let u := s.take 0
     s.asks 10 .settingsWrite 0 ∧ partOf (u.cells[(0 : Fin 64)].req 0 1) (u.cells[(0 : Fin 64)].req 1 1) = some 1 ∧
     firstBadEnum (partSpec 1) (readFields (partSpec 1) (u.cells[(0 : Fin 64)].reqBytes 4 (partLength 1))) = none) := by
  unfold State.asks; decide +kernel

/-- A store in progress at a page. -/
def storing (page : Nat) (header : Bool) : Store := ⟨6, defaultSettings, page, header, ⟨4990, 10⟩⟩

/-- The first page, the last one, and the header's: 28, 13 and 4 bytes. -/
theorem witness_Store :
    (ask 10 0x62 [] on).asks 10 .settingsStore 0 ∧ on.store = none ∧
    (storing 4 false).header = false ∧ min ((4 / 32 + 1) * 32) 1677 = 32 ∧
    (((sectionsImage defaultSettings).drop (4 - 4)).take (32 - 4)).length = 28 ∧
    min ((1664 / 32 + 1) * 32) 1677 = 1677 ∧ 1664 < 1677 ∧
    (((sectionsImage defaultSettings).drop (1664 - 4)).take (1677 - 1664)).length = 13 ∧
    (storing 4 false).poll.due 5000 = true ∧ (storing 0 true).header = true ∧ (storing 0 true).page = 0 := by
  unfold State.asks; decide +kernel
theorem witness_Autoload : (∀ p : Fin 11, PartInRange p defaultSettings[p]) ∧ Mem.wf [] = true ∧ 1677 ≤ 1677 :=
  ⟨part_default, by decide, by decide⟩

end Sys2Proof.Tests
end

