-- ==== Sys2Proof/Proofs/Control.lean ====
section
/-! CONTROL (R4): its two fields as they read, its write as a register write, and the part reset that can follow it. -/

namespace Sys2Proof.Machine

/-- The MSI that a write of CONTROL sends: only one that sets IRQ_ENABLE while it was clear can send it. -/
def controlMsi (s : State) (e : Bool) : List Output :=
  if e && !s.irqEnable && (s.attention &&& s.attentionMask) != 0 && s.msiAllowed then [.msi] else []

/-- Of the interrupt condition, a write of IRQ_ENABLE replaces the enable only: the twelve bits of ATTENTION and its mask
do not depend on it. -/
theorem interrupt_set_irqEnable (s : State) (e : Bool) :
    State.interrupt { s with irqEnable := e } = (e && (s.attention &&& s.attentionMask) != 0) := rfl

/-- The condition begins to hold by a write of IRQ_ENABLE exactly when the write sets what was clear and the masked
ATTENTION is not zero. -/
theorem interrupt_rises_set_irqEnable (s : State) (e : Bool) :
    (State.interrupt { s with irqEnable := e } && !s.interrupt) =
      (e && !s.irqEnable && (s.attention &&& s.attentionMask) != 0) := by
  rw [interrupt_set_irqEnable, State.interrupt]
  cases e <;> cases s.irqEnable <;> simp

theorem controlWrite_register (s : State) (e : Bool) :
    controlWrite s false e = { s with irqEnable := e, sent := s.sent ++ controlMsi s e } := by
  have write : controlWrite s false e = notified s.interrupt { s with irqEnable := e } := rfl
  rw [write, notified_eq, interrupt_rises_set_irqEnable, controlMsi]

/-- A part reset keeps nothing of IRQ_ENABLE, and all of what has been put out already. -/
theorem partReset_set_irqEnable_sent (s : State) (powerOn e : Bool) (out : List Output) :
    partReset { s with irqEnable := e, sent := out } powerOn = { partReset s powerOn with sent := out } := rfl

/-- A write with RESET set is the register write, then the part reset (R4). -/
theorem controlWrite_reset_eq (s : State) (e : Bool) :
    controlWrite s true e = partReset (controlWrite s false e) false := rfl

theorem controlWrite_reset (s : State) (e : Bool) :
    controlWrite s true e = { partReset s false with sent := s.sent ++ controlMsi s e } := by
  rw [controlWrite_reset_eq, controlWrite_register, partReset_set_irqEnable_sent]

@[simp] theorem partReset_irqEnable (s : State) (powerOn : Bool) : (partReset s powerOn).irqEnable = false := rfl
@[simp] theorem partReset_running (s : State) (powerOn : Bool) : (partReset s powerOn).running = false := rfl
@[simp] theorem partReset_autoload (s : State) (powerOn : Bool) : (partReset s powerOn).autoload = some ⟨0, 100⟩ := rfl

/-- The low byte of CONTROL holds IRQ_ENABLE in bit 1 and nothing else (R191). -/
theorem exchangeByte_control (s : State) : exchangeByte s 4 = if s.irqEnable then 2 else 0 := by
  have byte : exchangeByte s 4 = wordByte (BitVec.ofNat 32 (2 * flag s.irqEnable)) 0 := rfl
  rw [byte]
  cases s.irqEnable <;> rfl

theorem control_reads_reset_clear (s : State) : (exchangeByte s 4).getLsbD 0 = false := by
  rw [exchangeByte_control]
  cases s.irqEnable <;> rfl

theorem control_reads_irqEnable (s : State) : (exchangeByte s 4).getLsbD 1 = s.irqEnable := by
  rw [exchangeByte_control]
  cases s.irqEnable <;> rfl

theorem exec_controlIrqEnable (s : State) (e : Bool) :
    exec (.controlIrqEnable e) s = .next (controlWrite s false e) := rfl

theorem exec_controlReset (s : State) (e : Bool) : exec (.controlReset e) s = .next (controlWrite s true e) := rfl

theorem exec_partReset (s : State) (powerOn : Bool) : exec (.partReset powerOn) s = .next (partReset s powerOn) := rfl

/-- Settles O9: a write of CONTROL is the register write with its MSI, after which RESET starts the part reset that a
function reset is too. -/
theorem controlWritesSetIrqEnable : Obligations.ControlWritesSetIrqEnable := by
  unfold Obligations.ControlWritesSetIrqEnable
  intro s e
  refine ⟨?irqEnable, ?reset, exec_partReset s false, partReset_irqEnable s false, partReset_running s false,
    partReset_autoload s false, control_reads_reset_clear s, control_reads_irqEnable s⟩
  case irqEnable => rw [exec_controlIrqEnable, controlWrite_register, controlMsi]
  case reset => rw [exec_controlReset, controlWrite_reset, controlMsi]

end Sys2Proof.Machine
end

