-- ==== Sys2Proof/Proofs/Density.lean ====
section
/-! Stages 2 to 4 of a colour line: the density of a dye (R169), the tone entry and the allowance for heat (R170). -/

namespace Sys2Proof.Machine

/-! ## The density of a dye (R169) -/

/-- The sum that the engine computes for one dye before it divides by 1,024 (R169). -/
def densitySum (a1 a2 a3 : Int) (r g b : Byte) : Int :=
  a1 * (255 - r.toNat : Int) + a2 * (255 - g.toNat : Int) + a3 * (255 - b.toNat : Int) + 512

theorem density_eq_clampTo (a1 a2 a3 : Int) (r g b : Byte) :
    density a1 a2 a3 r g b = clampTo 0 255 (densitySum a1 a2 a3 r g b / 1024) := rfl

/-- The divisor is positive, so the division of the model is the one toward minus infinity. -/
theorem density_eq_fdiv (a1 a2 a3 : Int) (r g b : Byte) :
    density a1 a2 a3 r g b = max 0 (min 255 (Int.fdiv (densitySum a1 a2 a3 r g b) 1024)) := by
  rw [density_eq_clampTo, clampTo, Int.fdiv_eq_ediv_of_nonneg _ (by decide)]

theorem density_eq_zero_of_sum_neg {a1 a2 a3 : Int} {r g b : Byte} (neg : densitySum a1 a2 a3 r g b < 0) :
    density a1 a2 a3 r g b = 0 := by
  rw [density_eq_clampTo, clampTo]
  omega

/-- A sum of 1,024 times an input in range, with the 512 of the rounding, gives that input back. -/
theorem density_eq_of_sum_eq {a1 a2 a3 c : Int} {r g b : Byte} (lo : 0 ≤ c) (hi : c ≤ 255)
    (sum : densitySum a1 a2 a3 r g b = 1024 * c + 512) : density a1 a2 a3 r g b = c := by
  rw [density_eq_clampTo, clampTo, sum]
  omega

theorem inverted_bounds (x : Byte) : (0 : Int) ≤ 255 - x.toNat ∧ (255 - x.toNat : Int) ≤ 255 := by
  have := x.isLt
  omega

theorem density_identity_c (r g b : Byte) : density 1024 0 0 r g b = 255 - r.toNat :=
  density_eq_of_sum_eq (inverted_bounds r).1 (inverted_bounds r).2 (by simp [densitySum])

theorem density_identity_m (r g b : Byte) : density 0 1024 0 r g b = 255 - g.toNat :=
  density_eq_of_sum_eq (inverted_bounds g).1 (inverted_bounds g).2 (by simp [densitySum])

theorem density_identity_y (r g b : Byte) : density 0 0 1024 r g b = 255 - b.toNat :=
  density_eq_of_sum_eq (inverted_bounds b).1 (inverted_bounds b).2 (by simp [densitySum])

/-- The density of a pixel is that of the panel's own row of the matrix (R167, R198). -/
theorem pixelDensity_eq_row (p : Profile) (panel : Panel) (px : Pixel) :
    px.density p panel =
      density (p.scalar panel.row) (p.scalar (panel.row + 1)) (p.scalar (panel.row + 2)) px.r px.g px.b := rfl

theorem coefficient_mul_inverted_bounds {a : Int} (lo : -2048 ≤ a) (hi : a ≤ 2047) (x : Byte) :
    -522240 ≤ a * (255 - x.toNat : Int) ∧ a * (255 - x.toNat : Int) ≤ 522240 := by
  obtain ⟨nonneg, le⟩ := inverted_bounds x
  constructor <;> nlinarith only [lo, hi, nonneg, le]

theorem densitySum_bounds {a1 a2 a3 : Int} (lo1 : -2048 ≤ a1) (hi1 : a1 ≤ 2047) (lo2 : -2048 ≤ a2) (hi2 : a2 ≤ 2047)
    (lo3 : -2048 ≤ a3) (hi3 : a3 ≤ 2047) (r g b : Byte) :
    -1600000 ≤ densitySum a1 a2 a3 r g b ∧ densitySum a1 a2 a3 r g b ≤ 1600000 := by
  have dye1 := coefficient_mul_inverted_bounds lo1 hi1 r
  have dye2 := coefficient_mul_inverted_bounds lo2 hi2 g
  have dye3 := coefficient_mul_inverted_bounds lo3 hi3 b
  rw [densitySum]
  omega

/-! ## The allowance for heat (R170) -/

theorem afterHistory_eq_fdiv (gain e0 h : Int) : afterHistory gain e0 h = e0 - Int.fdiv (gain * h) 256 := by
  rw [afterHistory, Int.fdiv_eq_ediv_of_nonneg _ (by decide)]

theorem afterHistory_zero (gain e0 : Int) : afterHistory gain e0 0 = e0 := by simp [afterHistory]

/-- The greatest product is 255 × 1,023, which 256 divides into 1,019. -/
theorem allowance_bounds {gain : Int} (lo : 0 ≤ gain) (hi : gain ≤ 255) {h : Nat} (history : h ≤ 1023) :
    0 ≤ Int.fdiv (gain * h) 256 ∧ Int.fdiv (gain * h) 256 ≤ 1019 := by
  have nonneg : 0 ≤ gain * h := Int.mul_nonneg lo (Int.natCast_nonneg h)
  have le : gain * h ≤ 255 * 1023 :=
    Int.mul_le_mul hi (by exact_mod_cast history) (Int.natCast_nonneg h) (by decide)
  rw [Int.fdiv_eq_ediv_of_nonneg _ (by decide)]
  omega

/-- An entry beyond a table's end reads 0, which is in the range of every entry too. -/
theorem toneEntry_bounds {tone : List Int} (entries : ∀ e ∈ tone, 0 ≤ e ∧ e ≤ 1023) (i : Nat) :
    0 ≤ tone.getD i 0 ∧ tone.getD i 0 ≤ 1023 := by
  by_cases inside : i < tone.length
  · rw [List.getD_eq_getElem _ _ inside]
    exact entries _ (List.getElem_mem inside)
  · rw [List.getD_eq_default _ _ (Nat.le_of_not_lt inside)]
    decide

theorem afterHistory_bounds {gain e0 : Int} (lo : 0 ≤ gain) (hi : gain ≤ 255) (entry : 0 ≤ e0 ∧ e0 ≤ 1023) {h : Nat}
    (history : h ≤ 1023) : -1019 ≤ afterHistory gain e0 h ∧ afterHistory gain e0 h ≤ 1023 := by
  have allowance := allowance_bounds lo hi history
  rw [afterHistory_eq_fdiv]
  omega

theorem colourPulse_eq (p : Profile) (panel : Panel) (factor dens : Int) (h : Nat) :
    colourPulse p panel factor dens h =
      pulse (p.scalar 0) (scaled factor (afterHistory (p.scalar 1) ((p.tone panel).getD dens.toNat 0) h)) := rfl

@[simp] theorem panelHead_history (p : Option Profile) (th : Nat) (hd : Head) :
    (panelHead p th hd).history = clearHistory := rfl

theorem clearHistory_getD (d : Nat) : clearHistory.getD d 0 = 0 := by
  rw [clearHistory, List.getD_eq_getElem?_getD, List.getElem?_getD_replicate_default_eq]

/-- Settles O57: the sum of a dye has its bounds from those of its three products, the division by a positive number
rounds toward minus infinity, and the allowance for heat is bounded by its greatest product. -/
theorem densityAndHeatAllowance : Obligations.DensityAndHeatAllowance := by
  unfold Obligations.DensityAndHeatAllowance
  refine ⟨?density, fun p panel px =>
    ⟨pixelDensity_eq_row p .c px, pixelDensity_eq_row p .m px, pixelDensity_eq_row p .y px, ?heat, ?lineZero⟩⟩
  case density =>
    intro a1 a2 a3 r g b lo1 hi1 lo2 hi2 lo3 hi3
    exact ⟨density_eq_fdiv a1 a2 a3 r g b, density_eq_zero_of_sum_neg,
      densitySum_bounds lo1 hi1 lo2 hi2 lo3 hi3 r g b,
      density_identity_c r g b, density_identity_m r g b, density_identity_y r g b⟩
  case heat =>
    intro factor dens h _ _ gainLo gainHi history entries
    have entry := toneEntry_bounds entries dens.toNat
    refine ⟨afterHistory_eq_fdiv _ _ h, allowance_bounds gainLo gainHi history,
      afterHistory_bounds gainLo gainHi entry history, ?noHistory, colourPulse_eq p panel factor dens h⟩
    rintro rfl
    exact afterHistory_zero _ _
  case lineZero =>
    intro th hd d
    rw [panelHead_history, clearHistory_getD]

end Sys2Proof.Machine
end

