-- ==== Sys2Proof/Proofs/Registers.lean ====
section
/-! The registers of the exchange window (R191) as 4-byte little-endian words, and the tick of CLOCK (R3). -/

namespace Sys2Proof.Machine

/-! ## A word and its bytes -/

theorem wordByte_toNat (w : Word) (i : Nat) : (wordByte w i).toNat = w.toNat / 256 ^ i % 256 := by
  have shifted : w.toNat >>> (8 * i) = w.toNat / 256 ^ i := by rw [Nat.shiftRight_eq_div_pow, Nat.pow_mul]
  rw [wordByte, BitVec.toNat_setWidth, BitVec.toNat_ushiftRight, shifted]

/-- The lowest `k` bytes of a number, least significant first, spell it modulo 256 to the power `k`. -/
theorem sum_low_bytes (n k : Nat) : ((List.range k).map fun i => n / 256 ^ i % 256 * 256 ^ i).sum = n % 256 ^ k := by
  induction k with
  | zero => simp [Nat.mod_one]
  | succ k ih =>
    rw [List.range_succ, List.map_append, List.sum_append, ih, Nat.mod_pow_succ]
    simp [Nat.mul_comm]

theorem sum_wordByte (w : Word) : ((List.range 4).map fun i => (wordByte w i).toNat * 256 ^ i).sum = w.toNat := by
  simp only [wordByte_toNat, sum_low_bytes]
  exact Nat.mod_eq_of_lt w.isLt

/-! ## The registers as words -/

/-- The 4-byte little-endian word that the host reads at an offset of the exchange window (R191). -/
def exchangeWord (s : State) (o : Nat) : Nat :=
  ((List.range 4).map fun i => (exchangeByte s (o + i)).toNat * 256 ^ i).sum

theorem exchangeByte_of_register {o i : Nat} (s : State) (aligned : o % 4 = 0) (inRange : o < 0x100) (inWord : i < 4) :
    exchangeByte s (o + i) = wordByte (s.register o) i := by
  have inside : o + i < 0x100 := by omega
  have word : (o + i) / 4 * 4 = o := by omega
  have byte : (o + i) % 4 = i := by omega
  rw [exchangeByte, if_pos inside, word, byte]

theorem exchangeWord_of_register {o : Nat} (s : State) (aligned : o % 4 = 0) (inRange : o < 0x100) :
    exchangeWord s o = (s.register o).toNat := by
  have bytes : ∀ i ∈ List.range 4,
      (exchangeByte s (o + i)).toNat * 256 ^ i = (wordByte (s.register o) i).toNat * 256 ^ i := fun i inWord => by
    rw [exchangeByte_of_register s aligned inRange (List.mem_range.mp inWord)]
  rw [exchangeWord, List.map_congr_left bytes, sum_wordByte]

theorem exchangeWord_partId (s : State) : exchangeWord s 0 = 0x024606D3 :=
  exchangeWord_of_register s (by decide) (by decide)

/-- The vendor code, the part code and the revision (R191). -/
theorem exchangeWord_partId_codes (s : State) :
    exchangeWord s 0 % 4096 = 0x6D3 ∧ exchangeWord s 0 / 4096 % 4096 = 0x460 ∧ exchangeWord s 0 / 16777216 = 2 := by
  rw [exchangeWord_partId]
  decide

theorem exchangeWord_control (s : State) : exchangeWord s 4 = if s.irqEnable then 2 else 0 := by
  have register : s.register 4 = BitVec.ofNat 32 (2 * flag s.irqEnable) := rfl
  rw [exchangeWord_of_register s (by decide) (by decide), register]
  cases s.irqEnable <;> rfl

theorem exchangeWord_attention (s : State) : exchangeWord s 8 = s.attention.toNat :=
  (exchangeWord_of_register s (by decide) (by decide)).trans (BitVec.toNat_setWidth_of_le (by decide))

theorem exchangeWord_attentionMask (s : State) : exchangeWord s 12 = s.attentionMask.toNat :=
  (exchangeWord_of_register s (by decide) (by decide)).trans (BitVec.toNat_setWidth_of_le (by decide))

theorem Window.code_le_two (w : Window) : w.code ≤ 2 := by cases w <;> decide

/-- An offset of a window takes bits 0 to 27 and the window's code, at most 2, bits 30 and 31: the sum fits the word. -/
theorem exchangeWord_strayAddress (s : State) (inWindow : s.strayOffset < 268435456) :
    exchangeWord s 16 = s.strayOffset + 1073741824 * s.strayWindow.code := by
  have code := Window.code_le_two s.strayWindow
  have register : s.register 16 = BitVec.ofNat 32 (s.strayOffset + 1073741824 * s.strayWindow.code) := rfl
  rw [exchangeWord_of_register s (by decide) (by decide), register, BitVec.toNat_ofNat]
  omega

theorem exchangeWord_strayAddress_fields (s : State) (inWindow : s.strayOffset < 268435456) :
    exchangeWord s 16 % 268435456 = s.strayOffset ∧ exchangeWord s 16 / 268435456 % 4 = 0 ∧
      exchangeWord s 16 / 1073741824 = s.strayWindow.code := by
  rw [exchangeWord_strayAddress s inWindow]
  omega

theorem exchangeWord_clock (s : State) : exchangeWord s 20 = s.clock.toNat :=
  exchangeWord_of_register s (by decide) (by decide)

/-! ## The tick -/

theorem exec_clockTick (s : State) : exec .clockTick s = .next { s with clock := s.clock + 1 } := rfl

theorem exec_clockTick_wraps {s : State} (largest : s.clock = 0xFFFFFFFF#32) :
    exec .clockTick s = .next { s with clock := 0 } := by
  rw [exec_clockTick, largest]
  rfl

/-- Settles O2: the four bytes read at a register's offset spell the register's word, whose fields are apart; the tick
is the addition of words of 32 bits. -/
theorem clockTicksAndRegistersReadTheirLayout : Obligations.ClockTicksAndRegistersReadTheirLayout := by
  unfold Obligations.ClockTicksAndRegistersReadTheirLayout
  intro s
  obtain ⟨vendor, part, revision⟩ := exchangeWord_partId_codes s
  refine ⟨⟨exec_clockTick s, exec_clockTick_wraps⟩, exchangeWord_partId s, vendor, part, revision,
    exchangeWord_control s, exchangeWord_attention s, exchangeWord_attentionMask s, ?strayAddress,
    exchangeWord_clock s⟩
  case strayAddress =>
    intro inWindow
    obtain ⟨offset, unused, window⟩ := exchangeWord_strayAddress_fields s inWindow
    refine ⟨offset, unused, window.trans ?_⟩
    cases s.strayWindow <;> rfl

end Sys2Proof.Machine
end

