-- ==== Sys2Proof/Proofs/Cells.lean ====
section
/-! Work cells: the bytes that a take and an answer write (R10, R12), the post (R7), and what a host write to the window
does by where it lands and by the hand (R1, R5, R6, R11, R13).

Here and in the files after this one the bound of an index is written out (`v[i]'i.isLt`): the term is the one that `v[i]`
stands for, and Lean need not search for the bound at every occurrence. -/

namespace Sys2Proof.Machine

-- Checked one after another, as in the tests: a theorem checked alongside others holds its memory.
set_option Elab.async false

/-! ## The bytes of a cell -/

theorem cellByte_of_ge_four (c : WorkCell) {o : Nat} (h : 4 ≤ o) : cellByte c o = c.mem.read o := by
  rw [cellByte, if_neg (by omega), if_neg (by omega)]

@[simp] theorem le_length (n v : Nat) : (le n v).length = n := by
  induction n generalizing v with
  | zero => rfl
  | succ n ih => simp [le, ih]

theorem le_getD (n v i : Nat) (h : i < n) : (le n v).getD i 0 = BitVec.ofNat 8 (v / 256 ^ i) := by
  induction n generalizing v i with
  | zero => omega
  | succ n ih =>
    cases i with
    | zero => simp [le]
    | succ i =>
      have := ih (v / 256) i (by omega)
      simpa [le, Nat.pow_succ', Nat.div_div_eq_div_mul] using this

/-- The eight bytes of the answer fields of a cell's header (R192), which a take clears and an answer writes. -/
def Answer.header (a : Answer) (late : Bool) : List Byte :=
  [BitVec.ofNat 8 a.status.code, BitVec.ofNat 8 (flag late)] ++ le 2 a.body.length ++ le 4 a.detail

@[simp] theorem Answer.header_length (a : Answer) (late : Bool) : (a.header late).length = 8 := by simp [Answer.header]

theorem Answer.header_length_byte (a : Answer) (late : Bool) {i : Nat} (h : i < 2) :
    (a.header late).getD (2 + i) 0 = BitVec.ofNat 8 (a.body.length / 256 ^ i) := by
  have in2 : i < (le 2 a.body.length).length := by simpa using h
  rw [← le_getD 2 _ i h, Answer.header, List.append_assoc, List.getD_append_right _ _ _ _ (by simp),
    show 2 + i - _ = i from by simp, List.getD_append _ _ _ _ in2]

theorem Answer.header_detail_byte (a : Answer) (late : Bool) {i : Nat} (h : i < 4) :
    (a.header late).getD (4 + i) 0 = BitVec.ofNat 8 (a.detail / 256 ^ i) := by
  rw [← le_getD 4 _ i h, Answer.header, List.getD_append_right _ _ _ _ (by simp)]
  simp

theorem answered_mem_read {c : WorkCell} (w : c.mem.wf = true) (a : Answer) (o : Nat) :
    (c.answered a).mem.read o =
      if 12 ≤ o ∧ o < 20 then (a.header c.withdrawNoted).getD (o - 12) 0
      else if 512 ≤ o ∧ o < 512 + a.body.length then a.body.getD (o - 512) 0 else c.mem.read o := by
  have bytes : (c.answered a).mem = (c.mem.writeBytes 512 a.body).writeBytes 12 (a.header c.withdrawNoted) := rfl
  rw [bytes, Mem.read_writeBytes (Mem.writeBytes_wf w _ _), Mem.read_writeBytes w, Answer.header_length]

theorem taken_mem_read {c : WorkCell} (w : c.mem.wf = true) (o : Nat) :
    c.taken.mem.read o = if 12 ≤ o ∧ o < 20 then 0 else c.mem.read o := by
  have bytes : c.taken.mem = c.mem.writeBytes 12 (List.replicate 8 0) := rfl
  rw [bytes, Mem.read_writeBytes w]
  simp only [List.length_replicate]
  by_cases h : 12 ≤ o ∧ o < 20
  · rw [if_pos h, if_pos (by omega)]
    have inside : o - 12 < (List.replicate 8 (0 : Byte)).length := by simpa using (by omega : o - 12 < 8)
    rw [List.getD_eq_getElem _ _ inside, List.getElem_replicate]
  · rw [if_neg h, if_neg (by omega)]

theorem answered_cellByte_header {c : WorkCell} (w : c.mem.wf = true) (a : Answer) {i : Nat} (h : i < 8) :
    cellByte (c.answered a) (12 + i) = (a.header c.withdrawNoted).getD i 0 := by
  rw [cellByte_of_ge_four _ (by omega), answered_mem_read w, if_pos (by omega)]
  simp

theorem answered_cellByte_body {c : WorkCell} (w : c.mem.wf = true) (a : Answer) {i : Nat} (h : i < a.body.length) :
    cellByte (c.answered a) (512 + i) = a.body.getD i 0 := by
  rw [cellByte_of_ge_four _ (by omega), answered_mem_read w, if_neg (by omega), if_pos (by omega)]
  simp

theorem answered_cellByte_other {c : WorkCell} (w : c.mem.wf = true) (a : Answer) {o : Nat} (h4 : 4 ≤ o)
    (h : o < 12 ∨ (20 ≤ o ∧ o < 512) ∨ 512 + a.body.length ≤ o) :
    cellByte (c.answered a) o = cellByte c o := by
  rw [cellByte_of_ge_four _ h4, cellByte_of_ge_four _ h4, answered_mem_read w, if_neg (by omega), if_neg (by omega)]

theorem taken_cellByte_cleared {c : WorkCell} (w : c.mem.wf = true) {o : Nat} (h : 12 ≤ o) (h' : o < 20) :
    cellByte c.taken o = 0 := by
  rw [cellByte_of_ge_four _ (by omega), taken_mem_read w, if_pos ⟨h, h'⟩]

theorem taken_cellByte_other {c : WorkCell} (w : c.mem.wf = true) {o : Nat} (h4 : 4 ≤ o) (h : o < 12 ∨ 20 ≤ o) :
    cellByte c.taken o = cellByte c o := by
  rw [cellByte_of_ge_four _ h4, cellByte_of_ge_four _ h4, taken_mem_read w, if_neg (by omega)]

/-! ## The cells of a state -/

@[simp] theorem take_intake (s : State) (c : Fin 64) (l : Fin 11) :
    ((s.take c).intake[l]'l.isLt) = (s.intake[l]'l.isLt).filter (· != c) := by simp [State.take, State.unlist]

@[simp] theorem take_cell_self (s : State) (c : Fin 64) : ((s.take c).cells[c]'c.isLt) = (s.cells[c]'c.isLt).taken := by
  simp [State.take, State.unlist]

theorem take_cell_other (s : State) {c d : Fin 64} (h : d ≠ c) : ((s.take c).cells[d]'d.isLt) = (s.cells[d]'d.isLt) := by
  rw [take_eq, vector_set_get, if_neg (Ne.symm h)]

@[simp] theorem answer_cell_self (s : State) (c : Fin 64) (a : Answer) :
    ((s.answer c a).cells[c]'c.isLt) = (s.cells[c]'c.isLt).answered a := by simp [State.answer]

theorem answer_cell_other (s : State) (a : Answer) {c d : Fin 64} (h : d ≠ c) :
    ((s.answer c a).cells[d]'d.isLt) = (s.cells[d]'d.isLt) := by
  rw [answer_eq, vector_set_get, if_neg (Ne.symm h)]

/-- Settles O14: a take and an answer each write one cell, at the bytes of the answer fields and of the body. -/
theorem takeAndAnswerWriteTheAnswerFields : Obligations.TakeAndAnswerWriteTheAnswerFields := by
  unfold Obligations.TakeAndAnswerWriteTheAnswerFields
  refine ⟨fun s c w => ?take, fun s c a w => ?answer⟩
  case take =>
    refine ⟨rfl, take_intake s c, fun d h => take_cell_other s h, ?_⟩
    rw [take_cell_self]
    exact ⟨rfl, rfl, fun o h h' => taken_cellByte_cleared w h h', fun o h h' => taken_cellByte_other w h h'⟩
  case answer =>
    refine ⟨rfl, fun d h => answer_cell_other s a h, ?_⟩
    rw [answer_cell_self]
    refine ⟨rfl, rfl, answered_cellByte_header w a (i := 0) (by decide), answered_cellByte_header w a (i := 1) (by decide),
      fun i h => ?length, fun i h => ?detail, fun i h => answered_cellByte_body w a h,
      fun o h h' => answered_cellByte_other w a h h'⟩
    case length =>
      rw [← a.header_length_byte (s.cells[c]'c.isLt).withdrawNoted h, ← answered_cellByte_header w a (by omega)]
      congr 1; omega
    case detail =>
      rw [← a.header_detail_byte (s.cells[c]'c.isLt).withdrawNoted h, ← answered_cellByte_header w a (by omega)]
      congr 1; omega

/-! ## The interrupt condition -/

/-- The bits of ATTENTION look at nothing of a cell but whether its hand is ANSWERED. -/
theorem interrupt_set_cells {s : State} {cells : Vector WorkCell 64}
    (h : cells.toList.any (fun c => c.hand == .answered) = s.someAnswered) :
    State.interrupt { s with cells := cells } = s.interrupt := by
  have bits : State.attentionBits { s with cells := cells } = s.attentionBits := by
    unfold State.attentionBits
    rw [show State.someAnswered { s with cells := cells } = s.someAnswered from h]
    rfl
  unfold State.interrupt State.attention
  rw [bits]

theorem interrupt_set_intake (s : State) (lists : Vector (List (Fin 64)) 11) :
    State.interrupt { s with intake := lists } = s.interrupt := rfl

theorem someAnswered_iff (s : State) : s.someAnswered = true ↔ ∃ c : Fin 64, (s.cells[c]'c.isLt).hand = .answered := by
  simp only [State.someAnswered, List.any_eq_true, Vector.mem_toList_iff, Vector.mem_iff_getElem, beq_iff_eq]
  constructor
  · rintro ⟨_, ⟨i, hi, rfl⟩, h⟩
    exact ⟨⟨i, hi⟩, h⟩
  · rintro ⟨c, h⟩
    exact ⟨_, ⟨c.val, c.isLt, rfl⟩, h⟩

/-- A cell replaced by one whose hand is ANSWERED as much as the old one's leaves the interrupt condition. -/
theorem interrupt_set_cell {s : State} {c : Fin 64} {x : WorkCell}
    (h : x.hand = .answered ↔ (s.cells[c]'c.isLt).hand = .answered) :
    State.interrupt { s with cells := s.cells.set c x } = s.interrupt := by
  apply interrupt_set_cells
  have iff : State.someAnswered { s with cells := s.cells.set c x } = true ↔ s.someAnswered = true := by
    rw [someAnswered_iff, someAnswered_iff]
    refine exists_congr fun d => ?_
    rw [vector_set_get]
    split
    · rename_i same
      rw [h, same]
    · rfl
  exact Bool.eq_iff_iff.mpr iff

theorem notified_same {s t : State} (h : t.interrupt = s.interrupt) : notified s.interrupt t = t := by
  rw [notified, h]
  cases s.interrupt <;> rfl

/-! ## Host writes to a hand (R5, R7, R11, R13) -/

theorem exec_post (s : State) (c : Fin 64) : exec (.post c) s = .next (notified s.interrupt (handWrite s c 1 0xF)) := rfl

theorem exec_withdraw (s : State) (c : Fin 64) :
    exec (.withdraw c) s = .next (notified s.interrupt (handWrite s c 0 0xF)) := rfl

theorem exec_returnCell (s : State) (c : Fin 64) :
    exec (.returnCell c) s = .next (notified s.interrupt (handWrite s c 0 0xF)) := rfl

section hand
variable {s : State} {c : Fin 64}

theorem handWrite_post (h : (s.cells[c]'c.isLt).hand = .free) : handWrite s c 1 0xF = postCell s c := by
  simp [handWrite, h, -Fin.getElem_fin]

theorem handWrite_withdraw (h : (s.cells[c]'c.isLt).hand = .filled) :
    handWrite s c 0 0xF = (s.unlist c).setCell c { (s.cells[c]'c.isLt) with hand := .free } := by
  simp [handWrite, h, -Fin.getElem_fin]

theorem handWrite_late (h : (s.cells[c]'c.isLt).hand = .taken) :
    handWrite s c 0 0xF = (s.strayAt .exchange (handOffset c)).setCell c { (s.cells[c]'c.isLt) with withdrawNoted := true } := by
  simp [handWrite, h, -Fin.getElem_fin]

theorem handWrite_return (h : (s.cells[c]'c.isLt).hand = .answered) :
    handWrite s c 0 0xF = s.setCell c { (s.cells[c]'c.isLt) with hand := .free } := by
  simp [handWrite, h, -Fin.getElem_fin]

theorem handWrite_stray_enables {v : Word} {en : BitVec 4} (h : en ≠ 0xF#4) :
    handWrite s c v en = s.strayAt .exchange (handOffset c) := by
  simp [handWrite, h, -Fin.getElem_fin]

theorem handWrite_stray_value {v : Word} {en : BitVec 4} (h0 : v ≠ 0) (h1 : v ≠ 1) :
    handWrite s c v en = s.strayAt .exchange (handOffset c) := by
  have h0' : v.toNat ≠ 0 := fun h => h0 (BitVec.eq_of_toNat_eq h)
  have h1' : v.toNat ≠ 1 := fun h => h1 (BitVec.eq_of_toNat_eq h)
  unfold handWrite
  dsimp only
  split
  · rfl
  · split
    case h_5 => rfl
    all_goals contradiction

theorem handWrite_stray_post (h : (s.cells[c]'c.isLt).hand ≠ .free) :
    handWrite s c 1 0xF = s.strayAt .exchange (handOffset c) := by
  unfold handWrite
  dsimp only
  split
  · rfl
  · split <;> simp_all

theorem handWrite_stray_withdraw (h : (s.cells[c]'c.isLt).hand = .free) :
    handWrite s c 0 0xF = s.strayAt .exchange (handOffset c) := by
  simp [handWrite, h, -Fin.getElem_fin]

theorem postCell_listed {k : Kind} {l : Fin 11} (kind : (s.cells[c]'c.isLt).kind = some k)
    (list : intakeOf k (s.cells[c]'c.isLt).unit = some l) :
    postCell s c = { s with
      intake := s.intake.set l ((s.intake[l]'l.isLt) ++ [c])
      cells := s.cells.set c { (s.cells[c]'c.isLt) with hand := .filled } } := by
  have found : ((s.cells[c]'c.isLt).kind.bind fun k => intakeOf k (s.cells[c]'c.isLt).unit) = some l := by
    rw [kind, Option.bind_some, list]
  unfold postCell
  simp only [found]
  rfl

/-- A list that does not hold the cell keeps all it has when the cell leaves. -/
theorem unlist_of_not_mem (h : ∀ l : Fin 11, c ∉ (s.intake[l]'l.isLt)) : s.unlist c = s := by
  have lists : (tab fun l => (s.intake[l]'l.isLt).filter (· != c) : Vector (List (Fin 64)) 11) = s.intake := by
    ext1 l hl
    rw [tab_getElem]
    apply List.filter_eq_self.mpr
    intro d hd
    have : d ≠ c := fun e => h ⟨l, hl⟩ (e ▸ hd)
    simpa using this
  rw [State.unlist, lists]

theorem postCell_badKind (kind : ((s.cells[c]'c.isLt).kind.bind fun k => intakeOf k (s.cells[c]'c.isLt).unit) = none)
    (away : ∀ l : Fin 11, c ∉ (s.intake[l]'l.isLt)) :
    postCell s c = { s with cells := s.cells.set c ((s.cells[c]'c.isLt).taken.answered (refuse .badKind)) } := by
  unfold postCell
  simp only [kind]
  rw [State.takeAnswer, answer_eq, State.take, unlist_of_not_mem away]
  simp [State.setCell]

end hand

/-- Settles O12: the kind and unit name the list whose tail the cell joins, or the cell passes to ANSWERED at once. -/
theorem postJoinsItsListOrIsABadKind : Obligations.PostJoinsItsListOrIsABadKind := by
  unfold Obligations.PostJoinsItsListOrIsABadKind
  refine ⟨fun s c k l free kind list => ?listed, fun s c free kind w away => ?badKind⟩
  case listed =>
    rw [exec_post, handWrite_post free, postCell_listed kind list]
    congr 1
    exact notified_same ((interrupt_set_cell (s := { s with intake := _ }) (by simp [free, -Fin.getElem_fin])).trans
      (interrupt_set_intake s _))
  case badKind =>
    have tw := taken_mem_wf w
    refine ⟨_, by rw [exec_post, handWrite_post free, postCell_badKind kind away], rfl, rfl,
      answered_cellByte_header tw _ (i := 0) (by decide), fun o h h' => ?fields, fun o h h' => ?other⟩
    case fields =>
      obtain ⟨i, rfl⟩ : ∃ i, o = 12 + i := ⟨o - 12, by omega⟩
      rw [answered_cellByte_header tw _ (by omega)]
      have cleared : ∀ j, 1 ≤ j → j < 8 → ((refuse .badKind).header false).getD j 0 = 0#8 := by decide
      exact cleared i (by omega) (by omega)
    case other =>
      rw [answered_cellByte_other tw _ h (by simp [refuse]; omega), taken_cellByte_other w h h']

/-! ## Host writes to the window, by where they land (R1) -/

section write
variable (s : State) (v : Word) (en : BitVec 4)

theorem exec_exchangeWrite {a : Nat} (aligned : a % 4 = 0) (inside : a < 131072) (control : a ≠ 4) :
    exec (.exchangeWrite a v en) s = .next (notified s.interrupt (wordWrite s a v en)) := by
  have word : a / 4 * 4 = a := by omega
  show execExchangeWrite a v en s = _
  simp [execExchangeWrite, inside, word, control, eventUnmarked]

theorem wordWrite_cell (c : Fin 64) {o : Nat} (h : o < 1024) :
    wordWrite s (0x4000 + c.val * 1024 + o) v en = cellWrite s c o v en := by
  have bound := c.isLt
  have index : (⟨(0x4000 + c.val * 1024 + o) / 1024 - 16, by omega⟩ : Fin 64) = c := Fin.ext (by simp only; omega)
  have offset : (0x4000 + c.val * 1024 + o) % 1024 = o := by omega
  unfold wordWrite
  rw [if_neg (by omega), if_neg (by omega), dif_neg (by omega), dif_pos (by omega), index, offset]

theorem exec_write_cell (c : Fin 64) {o : Nat} (aligned : o % 4 = 0) (h : o < 1024) :
    exec (.exchangeWrite (0x4000 + c.val * 1024 + o) v en) s =
      .next (notified s.interrupt (cellWrite s c o v en)) := by
  have bound := c.isLt
  rw [exec_exchangeWrite s v en (by omega) (by omega) (by omega), wordWrite_cell s v en c h]

theorem exec_write_hand (c : Fin 64) :
    exec (.exchangeWrite (0x4000 + c.val * 1024) v en) s = .next (notified s.interrupt (handWrite s c v en)) := by
  have write := exec_write_cell s v en c (o := 0) rfl (by decide)
  rwa [cellWrite, if_pos rfl] at write

theorem wordWrite_stray {a : Nat} (aligned : a % 4 = 0)
    (h : (a < 0x100 ∧ a ≠ 4 ∧ a ≠ 12) ∨ (0x100 ≤ a ∧ a < 0xA00 ∧ a % 256 ≠ 0 ∧ a ≠ 0x910 ∧ a ≠ 0x914) ∨
      (0xA00 ≤ a ∧ a < 0x4000) ∨ (0x14000 ≤ a ∧ a < 131072)) :
    wordWrite s a v en = s.strayAt .exchange a := by
  unfold wordWrite
  rw [if_neg (by omega), if_neg (by omega)]
  split
  · rw [if_neg (by omega), if_neg (by omega), if_neg (by omega)]
  · rw [dif_neg (by omega)]

end write

/-- Settles O13: the hand's value and the value written pick the case; every other pair is stray. -/
theorem freeWrittenToAHand : Obligations.FreeWrittenToAHand := by
  unfold Obligations.FreeWrittenToAHand
  refine ⟨fun s c => ⟨fun h => ?withdraw, fun h => ?answered, fun h => ?late⟩,
    fun s c => ⟨fun h => ?post, fun h => ?free, fun v en h => ?other, ?one, ?zero⟩⟩
  case withdraw =>
    rw [exec_withdraw, handWrite_withdraw h]
    congr 1
    exact notified_same ((interrupt_set_cell (s := s.unlist c) (by simp [State.unlist, h, -Fin.getElem_fin])).trans
      (interrupt_set_intake s _))
  case answered => rw [exec_returnCell, handWrite_return h]; rfl
  case late => rw [exec_withdraw, handWrite_late h]; rfl
  case post => rw [exec_post, handWrite_stray_post h]; rfl
  case free => rw [exec_withdraw, exec_returnCell, handWrite_stray_withdraw h]; exact ⟨rfl, rfl⟩
  case other =>
    rw [exec_write_hand]
    obtain enables | ⟨h0, h1⟩ := h
    · rw [handWrite_stray_enables enables]; rfl
    · rw [handWrite_stray_value h0 h1]; rfl
  case one => rw [exec_write_hand, exec_post]
  case zero => rw [exec_write_hand, exec_withdraw]

/-! ## The enabled bytes of a word (R1) -/

theorem Mem.read_writeEnabled {m : Mem} (w : m.wf = true) (a : Nat) (v : Word) (en : BitVec 4) (x : Nat) :
    (m.writeEnabled a v en).read x =
      if a ≤ x ∧ x < a + 4 ∧ en.getLsbD (x - a) then wordByte v (x - a) else m.read x := by
  have upTo : ∀ k, ((List.range k).foldl
      (fun m i => if en.getLsbD i then m.write (a + i) (wordByte v i) else m) m).wf = true ∧
      ((List.range k).foldl (fun m i => if en.getLsbD i then m.write (a + i) (wordByte v i) else m) m).read x =
        if a ≤ x ∧ x < a + k ∧ en.getLsbD (x - a) then wordByte v (x - a) else m.read x := by
    intro k
    induction k with
    | zero => exact ⟨w, by rw [if_neg (by omega)]; rfl⟩
    | succ k ih =>
      obtain ⟨kept, reads⟩ := ih
      simp only [List.range_succ, List.foldl_append, List.foldl_cons, List.foldl_nil]
      by_cases hk : en.getLsbD k
      · simp only [hk, if_true]
        refine ⟨Mem.write_wf kept _ _, ?_⟩
        rw [Mem.read_write kept, reads]
        by_cases hx : x = a + k
        · subst hx; simp [hk]
        · rw [if_neg hx]
          congr 1
          simp only [eq_iff_iff]
          constructor <;> (rintro ⟨h1, h2, h3⟩; exact ⟨h1, by omega, h3⟩)
      · simp only [hk, if_false, Bool.false_eq_true]
        refine ⟨kept, reads.trans ?_⟩
        congr 1
        simp only [eq_iff_iff]
        constructor
        · rintro ⟨h1, h2, h3⟩; exact ⟨h1, by omega, h3⟩
        · rintro ⟨h1, h2, h3⟩
          refine ⟨h1, ?_, h3⟩
          by_contra far
          have : x - a = k := by omega
          exact hk (this ▸ h3)
  exact (upTo 4).2

/-- Settles O16: a cell's words land by the hand, and each other word of the window is either a row of its own or
stray. -/
theorem exchangeWritesLandByTheHand : Obligations.ExchangeWritesLandByTheHand := by
  unfold Obligations.ExchangeWritesLandByTheHand
  refine fun s v en => ⟨fun c o aligned h4 h w hand => ?lands, fun c o aligned h4 h stray => ?strayCell,
    fun a aligned h => ?stray, fun a h => ?outside⟩
  case lands =>
    refine ⟨(s.cells[c]'c.isLt).mem.writeEnabled o v en, ?_, fun a => Mem.read_writeEnabled w o v en a⟩
    rw [exec_write_cell s v en c aligned (by omega), cellWrite, if_neg (by omega), if_pos ⟨h, hand⟩]
    congr 1
    exact notified_same (interrupt_set_cell Iff.rfl)
  case strayCell =>
    have refused : ¬ (o < 512 ∧ ((s.cells[c]'c.isLt).hand = .free ∨ (s.cells[c]'c.isLt).hand = .filled)) := by
      rintro ⟨below, hand⟩
      obtain above | taken | answered := stray
      · omega
      · simp [taken, -Fin.getElem_fin] at hand
      · simp [answered, -Fin.getElem_fin] at hand
    rw [exec_write_cell s v en c aligned h, cellWrite, if_neg (by omega), if_neg refused]
    rfl
  case stray =>
    rw [exec_exchangeWrite s v en aligned (by omega) (by omega), wordWrite_stray s v en aligned h]
    rfl
  case outside =>
    show execExchangeWrite a v en s = _
    rw [execExchangeWrite, if_neg (by omega)]

end Sys2Proof.Machine
end

