-- ==== Sys2Proof/Proofs/Attention.lean ====
section
/-! ATTENTION (R19), its mask (R20), the change masks and the order change map (R16, R18), and the end of an event
(R15, R18, R20). -/

namespace Sys2Proof.Machine

-- Checked one after another, as in the tests: a theorem checked alongside others holds its memory.
set_option Elab.async false

/-! ## Bits -/

theorem bitsNat_testBit (bs : List Bool) (i : Nat) : (bitsNat bs).testBit i = bs.getD i false := by
  induction bs generalizing i with
  | nil => simp [bitsNat]
  | cons b t ih =>
    cases i with
    | zero => cases b <;> simp [bitsNat, flag, Nat.testBit_zero]
    | succ i =>
      have half : (flag b + 2 * bitsNat t) / 2 = bitsNat t := by cases b <;> simp [flag]; omega
      rw [bitsNat, Nat.testBit_succ, half, ih]
      rfl

theorem attention_getLsbD (s : State) {i : Nat} (h : i < 12) :
    s.attention.getLsbD i = s.attentionBits.getD i false := by
  rw [State.attention, BitVec.getLsbD_ofNat, bitsNat_testBit]
  simp [h]

theorem Marks.any_eq (m : Marks) : m.any = decide (∃ g : Fin 8, (m.mask[g]'g.isLt) = true) := by
  rw [Bool.eq_iff_iff, decide_eq_true_iff, Marks.any, List.any_eq_true]
  simp only [Vector.mem_toList_iff, Vector.mem_iff_getElem, id]
  constructor
  · rintro ⟨_, ⟨g, hg, rfl⟩, h⟩
    exact ⟨⟨g, hg⟩, h⟩
  · rintro ⟨g, h⟩
    exact ⟨_, ⟨g.val, g.isLt, rfl⟩, h⟩

theorem State.mapAny_eq (s : State) : s.mapAny = decide (∃ n : Fin 48, (s.orderMap[n]'n.isLt) = true) := by
  rw [Bool.eq_iff_iff, decide_eq_true_iff, State.mapAny, List.any_eq_true]
  simp only [Vector.mem_toList_iff, Vector.mem_iff_getElem, id]
  constructor
  · rintro ⟨_, ⟨n, hn, rfl⟩, h⟩
    exact ⟨⟨n, hn⟩, h⟩
  · rintro ⟨n, h⟩
    exact ⟨_, ⟨n.val, n.isLt, rfl⟩, h⟩

/-- The bit of a status record in ATTENTION (R19). -/
theorem attentionBits_record (s : State) (r : Fin 9) :
    s.attentionBits.getD r.val false = ((s.marks[r]'r.isLt).any || (decide (r = 8) && s.mapAny)) := by
  fin_cases r <;> simp [State.attentionBits]

theorem enabledMask_getLsbD (en : BitVec 4) (i : Nat) :
    ((List.range 4).foldl (fun m i => if en.getLsbD i then m ||| (0xFF#32 <<< (8 * i)) else m) 0#32).getLsbD i =
      (decide (i < 32) && en.getLsbD (i / 8)) := by
  by_cases h : i < 32
  · have all : ∀ (en : BitVec 4) (i : Fin 32),
        ((List.range 4).foldl (fun m i => if en.getLsbD i then m ||| (0xFF#32 <<< (8 * i)) else m) 0#32).getLsbD i.val =
          en.getLsbD (i.val / 8) := by decide
    simpa [h] using all en ⟨i, h⟩
  · simp [BitVec.getLsbD_of_ge _ i (by omega : 32 ≤ i), h]

theorem enabledBits_getLsbD (v : Word) (en : BitVec 4) (i : Nat) :
    (enabledBits v en).getLsbD i = (v.getLsbD i && en.getLsbD (i / 8)) := by
  rw [enabledBits, BitVec.getLsbD_and, enabledMask_getLsbD]
  by_cases h : i < 32
  · simp [h]
  · simp [BitVec.getLsbD_of_ge v i (by omega)]

theorem mergeBytes_getLsbD (old v : Word) (en : BitVec 4) {i : Nat} (h : i < 32) :
    (mergeBytes old v en).getLsbD i = if en.getLsbD (i / 8) then v.getLsbD i else old.getLsbD i := by
  have ones : (0xFFFFFFFF#32).getLsbD i = true := by
    have : ∀ i : Fin 32, (0xFFFFFFFF#32).getLsbD i.val = true := by decide
    exact this ⟨i, h⟩
  rw [mergeBytes, BitVec.getLsbD_or, BitVec.getLsbD_and, BitVec.getLsbD_not, enabledBits_getLsbD, enabledBits_getLsbD,
    ones]
  cases en.getLsbD (i / 8) <;> simp [h]

/-! ## ATTENTION and its mask -/

theorem exec_attentionRead (s : State) : exec .attentionRead s =
    .next (notified false { s.emit (.attention s.attention) with stray := false, started := false }) := rfl

theorem exec_attentionMaskWrite (s : State) (v : Word) (en : BitVec 4) : exec (.attentionMaskWrite v en) s =
    .next (notified s.interrupt (attentionMaskWrite s v en)) := rfl

/-- Settles O10: the twelve bits are a list of conditions; the read and the mask's write are read off their rows. -/
theorem attentionFollowsItsConditions : Obligations.AttentionFollowsItsConditions := by
  unfold Obligations.AttentionFollowsItsConditions
  refine ⟨fun s => ⟨fun r => ?record, ?answered, attention_getLsbD s (by decide), attention_getLsbD s (by decide),
    fun v en => ?write⟩, fun s => ?read, fun s v en => ?mask⟩
  case record =>
    rw [attention_getLsbD s (by omega), attentionBits_record, Marks.any_eq, State.mapAny_eq, Bool.decide_and]
  case answered =>
    rw [attention_getLsbD s (by decide), Bool.eq_iff_iff, decide_eq_true_iff, ← someAnswered_iff]
    rfl
  case write => rw [exec_exchangeWrite s v en rfl (by decide) (by decide), wordWrite_stray s v en rfl (by decide)]; rfl
  case read =>
    rw [exec_attentionRead, notified_eq]
    simp only [Bool.not_false, Bool.and_true]
    rfl
  case mask =>
    refine ⟨_, exec_attentionMaskWrite s v en, fun i h => ?_⟩
    rw [BitVec.getLsbD_setWidth, mergeBytes_getLsbD _ _ _ (by omega), BitVec.getLsbD_setWidth]
    simp [h, show i < 32 by omega]

/-! ## Write-1-to-clear (R16, R18) -/

theorem exec_changeMaskClear (s : State) (r : Fin 9) (v : Word) (en : BitVec 4) :
    exec (.changeMaskClear r v en) s = .next (notified s.interrupt (maskClear s r v en)) := rfl

theorem exec_orderChangeMapClear (s : State) (high : Bool) (v : Word) (en : BitVec 4) :
    exec (.orderChangeMapClear high v en) s = .next (notified s.interrupt (mapClear s high v en)) := rfl

theorem clearedMask_get (m : Marks) (bits : Word) (g : Fin 8) :
    ((clearedMask m bits).mask[g]'g.isLt) = ((m.mask[g]'g.isLt) && !bits.getLsbD g.val) := by rw [clearedMask, tab_get]

/-- In the mask's byte, the enabled bits are the bits written when the byte is enabled. -/
theorem enabledBits_low (v : Word) {en : BitVec 4} (enabled : en.getLsbD 0 = true) {g : Nat} (h : g < 8) :
    (enabledBits v en).getLsbD g = v.getLsbD g := by
  rw [enabledBits_getLsbD, Nat.div_eq_of_lt h, enabled, Bool.and_true]

theorem enabledBits_low_disabled (v : Word) {en : BitVec 4} (disabled : en.getLsbD 0 = false) {g : Nat} (h : g < 8) :
    (enabledBits v en).getLsbD g = false := by
  rw [enabledBits_getLsbD, Nat.div_eq_of_lt h, disabled, Bool.and_false]

theorem clearedMask_disabled (m : Marks) (v : Word) {en : BitVec 4} (disabled : en.getLsbD 0 = false) :
    clearedMask m (enabledBits v en) = m := by
  have mask : (clearedMask m (enabledBits v en)).mask = m.mask := by
    ext1 g hg
    have := clearedMask_get m (enabledBits v en) ⟨g, hg⟩
    rw [enabledBits_low_disabled v disabled hg] at this
    simpa using this
  exact congrArg (fun x => ({ m with mask := x } : Marks)) mask

theorem vector_set_self {α : Type} {n : Nat} (v : Vector α n) (i : Fin n) : v.set i v[i] = v := by
  ext1 j hj
  rw [Vector.getElem_set]
  split
  · rename_i h; subst h; rfl
  · rfl

theorem maskClear_disabled (s : State) (r : Fin 9) (v : Word) {en : BitVec 4} (disabled : en.getLsbD 0 = false) :
    maskClear s r v en = s := by
  unfold maskClear
  simp only [clearedMask_disabled _ v disabled, enabledBits_low_disabled v disabled (show 1 < 8 by decide),
    enabledBits_low_disabled v disabled (show 2 < 8 by decide)]
  simp [vector_set_self, -Fin.getElem_fin]

theorem maskClear_plain (s : State) {r : Fin 9} (h : r ≠ 7) (v : Word) (en : BitVec 4) :
    maskClear s r v en = { s with marks := s.marks.set r (clearedMask (s.marks[r]'r.isLt) (enabledBits v en)) } := by
  simp [maskClear, h]

/-- The latches of SR7 as a write of bit 1 leaves them. -/
def Pay.latchesCleared (p : Pay) (b : Bool) : Pay :=
  { p with changeLatch := p.changeLatch && !b, alertLatch := p.alertLatch && !b }

/-- The sticky errors as a write of bit 2 leaves them. -/
def Pay.errorsCleared (p : Pay) (b : Bool) : Pay :=
  { p with overrun := p.overrun && !b, parityErr := p.parityErr && !b, framingErr := p.framingErr && !b,
           breakErr := p.breakErr && !b }

/-- A latch stands. -/
def Pay.anyLatch (p : Pay) : Bool := p.changeLatch || p.alertLatch

/-- A sticky error stands. -/
def Pay.anyError (p : Pay) : Bool := p.overrun || p.parityErr || p.framingErr || p.breakErr

theorem Pay.latchesCleared_eq_self {p : Pay} {b : Bool} (h : (b && p.anyLatch) = false) : p.latchesCleared b = p := by
  cases p
  cases b <;> simp_all [Pay.latchesCleared, Pay.anyLatch]

theorem Pay.errorsCleared_eq_self {p : Pay} {b : Bool} (h : (b && p.anyError) = false) : p.errorsCleared b = p := by
  cases p
  cases b <;> simp_all [Pay.errorsCleared, Pay.anyError]

/-- More changes counted, at most 255. -/
def Marks.addCount (m : Marks) (k : Nat) : Marks := { m with count := min 255 (m.count + k) }

theorem Marks.addCount_zero {m : Marks} (bounded : m.count ≤ 255) : m.addCount 0 = m := by
  rw [Marks.addCount, Nat.add_zero, Nat.min_eq_right bounded]

theorem Marks.addCount_addCount (m : Marks) (j k : Nat) : (m.addCount j).addCount k = m.addCount (j + k) := by
  have : min 255 (min 255 (m.count + j) + k) = min 255 (m.count + (j + k)) := by omega
  exact congrArg (fun n => ({ m with count := n } : Marks)) this

/-- A change of the payment side with its count in SR7. -/
def State.countedSr7 (s : State) (p : Pay) (k : Nat) : State :=
  { s with pay := p, marks := s.marks.set 7 ((s.marks[(7 : Fin 9)]'(Fin.isLt _)).addCount k) }

theorem State.countedSr7_self {s : State} (bounded : (s.marks[(7 : Fin 9)]'(Fin.isLt _)).count ≤ 255) :
    s.countedSr7 s.pay 0 = s := by
  have kept : s.marks.set 7 (s.marks[(7 : Fin 9)]'(Fin.isLt _)) = s.marks := vector_set_self s.marks 7
  rw [State.countedSr7, Marks.addCount_zero bounded, kept]

theorem clearInputLatches_eq {s : State} (b : Bool) (bounded : (s.marks[(7 : Fin 9)]'(Fin.isLt _)).count ≤ 255) :
    (if b then clearInputLatches s else s) = s.countedSr7 (s.pay.latchesCleared b) (flag (b && s.pay.anyLatch)) := by
  cases h : b && s.pay.anyLatch with
  | true =>
    obtain ⟨rfl, latch⟩ := Bool.and_eq_true_iff.mp h
    rw [if_pos rfl, clearInputLatches, if_pos (show (s.pay.changeLatch || s.pay.alertLatch) = true from latch)]
    simp [State.countedSr7, Pay.latchesCleared, Marks.addCount, Marks.countOne, flag]
  | false =>
    rw [Pay.latchesCleared_eq_self h]
    refine Eq.trans ?_ (State.countedSr7_self bounded).symm
    cases b with
    | false => rfl
    | true => rw [if_pos rfl, clearInputLatches, if_neg (by simpa [Pay.anyLatch] using h)]

theorem clearStickyErrors_eq {s : State} (b : Bool) (bounded : (s.marks[(7 : Fin 9)]'(Fin.isLt _)).count ≤ 255) :
    (if b then clearStickyErrors s else s) = s.countedSr7 (s.pay.errorsCleared b) (flag (b && s.pay.anyError)) := by
  cases h : b && s.pay.anyError with
  | true =>
    obtain ⟨rfl, error⟩ := Bool.and_eq_true_iff.mp h
    rw [if_pos rfl, clearStickyErrors,
      if_pos (show (s.pay.overrun || s.pay.parityErr || s.pay.framingErr || s.pay.breakErr) = true from error)]
    simp [State.countedSr7, Pay.errorsCleared, Pay.clearSticky, Marks.addCount, Marks.countOne, flag]
  | false =>
    rw [Pay.errorsCleared_eq_self h]
    refine Eq.trans ?_ (State.countedSr7_self bounded).symm
    cases b with
    | false => rfl
    | true => rw [if_pos rfl, clearStickyErrors, if_neg (by simpa [Pay.anyError, and_assoc] using h)]

theorem maskClear_sr7 (s : State) (v : Word) {en : BitVec 4} (enabled : en.getLsbD 0 = true)
    (bounded : (s.marks[(7 : Fin 9)]'(Fin.isLt _)).count ≤ 255) :
    maskClear s 7 v en = { s with
      marks := s.marks.set 7 ((clearedMask (s.marks[(7 : Fin 9)]'(Fin.isLt _)) (enabledBits v en)).addCount
        (flag (v.getLsbD 1 && s.pay.anyLatch) + flag (v.getLsbD 2 && s.pay.anyError)))
      pay := (s.pay.latchesCleared (v.getLsbD 1)).errorsCleared (v.getLsbD 2) } := by
  unfold maskClear
  simp only [true_and, enabledBits_low v enabled (show 1 < 8 by decide),
    enabledBits_low v enabled (show 2 < 8 by decide)]
  generalize hm : clearedMask (s.marks[(7 : Fin 9)]'(Fin.isLt _)) (enabledBits v en) = m
  have count : m.count ≤ 255 := hm ▸ bounded
  rw [clearInputLatches_eq _ (by simpa using count),
    clearStickyErrors_eq _ (by simp [State.countedSr7, Marks.addCount])]
  simp [State.countedSr7, Marks.addCount_addCount]
  rfl

theorem mapClear_eq (s : State) (high : Bool) (v : Word) (en : BitVec 4) (n : Fin 48) :
    ((mapClear s high v en).orderMap[n]'n.isLt) = ((s.orderMap[n]'n.isLt) &&
      !(if high then decide (32 ≤ n.val) && v.getLsbD (n.val - 32) && en.getLsbD ((n.val - 32) / 8)
        else decide (n.val < 32) && v.getLsbD n.val && en.getLsbD (n.val / 8))) := by
  simp only [mapClear, tab_get, enabledBits_getLsbD, Bool.and_assoc]

/-- Settles O17: the mask's byte decides; in SR7 the two clears each count once, and the counts add. -/
theorem maskAndMapWritesClear : Obligations.MaskAndMapWritesClear := by
  unfold Obligations.MaskAndMapWritesClear
  refine ⟨fun s v en => ⟨fun r disabled => ?disabled, fun enabled => ⟨fun r other => ?plain, ?sr7⟩⟩,
    fun s high v en => ⟨_, exec_orderChangeMapClear s high v en, mapClear_eq s high v en⟩⟩
  case disabled => rw [exec_changeMaskClear, maskClear_disabled s r v disabled]
  case plain =>
    refine ⟨(clearedMask (s.marks[r]'r.isLt) (enabledBits v en)).mask, fun g => ?_, ?_⟩
    · rw [clearedMask_get, enabledBits_low v enabled g.isLt]
    · rw [exec_changeMaskClear, maskClear_plain s other]
      rfl
  case sr7 =>
    refine ⟨(clearedMask (s.marks[(7 : Fin 9)]'(Fin.isLt _)) (enabledBits v en)).mask, fun g => ?_, fun bounded => ?_⟩
    · rw [clearedMask_get, enabledBits_low v enabled g.isLt]
    · rw [exec_changeMaskClear, maskClear_sr7 s v enabled bounded, Nat.add_assoc]
      rfl

/-! ## The end of an event (R15, R18, R20) -/

theorem finish_revisions_get (s t : State) (n : Fin 48) :
    ((finish s t).revisions[n]'n.isLt) = if orderChanged s t n then (t.revisions[n]'n.isLt) + 1 else (t.revisions[n]'n.isLt) := by
  rw [finish, notified_revisions]
  exact tab_get _ n

theorem finish_orderMap_get (s t : State) (n : Fin 48) :
    ((finish s t).orderMap[n]'n.isLt) = ((t.orderMap[n]'n.isLt) || orderChanged s t n) := by
  rw [finish, notified_orderMap]
  exact tab_get _ n

theorem finish_marks_get (s t : State) (r : Fin 9) :
    ((finish s t).marks[r]'r.isLt) = (t.marks[r]'r.isLt).raise fun g => groupChanged s (boardMarked s t) r g.val := by
  rw [finish, notified_marks]
  exact tab_get _ r

theorem Marks.raise_mask (m : Marks) (ch : Fin 8 → Bool) (g : Fin 8) : ((m.raise ch).mask[g]'g.isLt) = ((m.mask[g]'g.isLt) || ch g) := by
  rw [Marks.raise, tab_get]

theorem length_filter_finRange {n : Nat} (p : Nat → Bool) :
    ((List.finRange n).filter fun g => p g.val).length = ((List.range n).filter p).length := by
  have names : (List.finRange n).map Fin.val = List.range n := List.map_coe_finRange_eq_range
  rw [← names, List.filter_map, List.length_map]
  rfl

theorem Marks.raise_count (m : Marks) (ch : Nat → Bool) :
    (m.raise fun g => ch g.val).count = min 255 (m.count + ((List.range 8).filter ch).length) := by
  rw [← length_filter_finRange]
  rfl

/-- The board's bookkeeping shows in no record but SR8. -/
theorem recordGroups_boardMarked (s t : State) {r : Fin 9} (h : r ≠ 8) :
    recordGroups (boardMarked s t) r = recordGroups t r := by
  fin_cases r
  on_goal 9 => exact absurd rfl h
  all_goals rfl

/-- What the end of an event leaves after the board shows in no record's groups. -/
theorem recordGroups_finish (s t : State) (r : Fin 9) :
    recordGroups (finish s t) r = recordGroups (boardMarked s t) r := by
  rw [show finish s t = notified s.interrupt (recordsMarked s (boardMarked s t)) from rfl, notified_eq]
  fin_cases r <;> rfl

theorem mapAny_finish (s t : State) : (finish s t).mapAny = (boardMarked s t).mapAny := by
  rw [State.mapAny, finish, notified_orderMap]
  rfl

theorem groupChanged_finish (s t : State) (r : Fin 9) (g : Nat) :
    groupChanged s (finish s t) r g = groupChanged s (boardMarked s t) r g := by
  rw [groupChanged, recordGroups_finish, mapAny_finish, finish_running]
  rfl

theorem groupChanged_plain (s t : State) {r : Fin 9} (h : r ≠ 8) (g : Nat) :
    groupChanged s (boardMarked s t) r g = decide ((recordGroups s r)[g]? ≠ (recordGroups t r)[g]?) := by
  simp [groupChanged, h, recordGroups_boardMarked]

theorem recordGroups_part (s : State) : recordGroups s 8 =
    [[⟨8, 1, if s.running then flag s.running else 0⟩], [⟨9, 1, if s.running then sourceCode s.source else 0⟩],
     [⟨10, 2, if s.running then s.freePages else 0⟩], [⟨12, 1, if s.running then flag s.mapAny else 0⟩]] := by
  unfold recordGroups
  split <;> rfl

theorem groupChanged_partState (s t : State) : groupChanged s t 8 0 = (s.running != t.running) := by
  rw [groupChanged, recordGroups_part, recordGroups_part]
  cases s.running <;> cases t.running <;> simp [flag]

theorem sourceCode_inj {a b : Option (Fin 5)} : sourceCode a = sourceCode b ↔ a = b := by
  match a, b with
  | none, none => exact ⟨fun _ => rfl, fun _ => rfl⟩
  | none, some n => exact ⟨fun h => absurd h.symm (Nat.succ_ne_zero _), fun h => nomatch h⟩
  | some m, none => exact ⟨fun h => absurd h (Nat.succ_ne_zero _), fun h => nomatch h⟩
  | some m, some n =>
    exact ⟨fun h => congrArg some (Fin.ext (Nat.succ.inj h)), fun h => congrArg sourceCode h⟩

theorem groupChanged_source (s t : State) (before : s.running = true) (after : t.running = true) :
    groupChanged s t 8 1 = decide (s.source ≠ t.source) := by
  rw [groupChanged, recordGroups_part, recordGroups_part]
  simp [before, after, sourceCode_inj]

theorem groupChanged_freePages (s t : State) (before : s.running = true) (after : t.running = true) :
    groupChanged s t 8 2 = decide (s.freePages ≠ t.freePages) := by
  rw [groupChanged, recordGroups_part, recordGroups_part]
  simp [before, after]

theorem groupChanged_starting {s t : State} (before : s.running = false) {g : Nat} (h : g = 1 ∨ g = 2) :
    groupChanged s t 8 g = false := by
  simp [groupChanged, h, before]

theorem groupChanged_map (s t : State) : groupChanged s t 8 3 = (t.running && !s.mapAny && t.mapAny) := by
  simp [groupChanged]

/-- Settles O11: each mark, count, revision and map bit of the finished state is read back from the tables that the end of
an event writes. -/
theorem eventEndMarksEveryChange : Obligations.EventEndMarksEveryChange := by
  unfold Obligations.EventEndMarksEveryChange
  refine ⟨fun s t => ⟨fun n => ⟨finish_revisions_get s t n, finish_orderMap_get s t n⟩, fun r g h => ?mask, ?partState,
    ?map, fun starting => ⟨?source0, ?free0⟩, fun before after => ⟨?source, ?free⟩, ?count8, fun r h => ?count, ?rest⟩,
    fun before t => notified_eq before t⟩
  case mask => rw [finish_marks_get, Marks.raise_mask, groupChanged_plain s t h]
  case partState => rw [finish_marks_get, Marks.raise_mask]; exact congrArg _ (groupChanged_partState s _)
  case map =>
    rw [finish_marks_get, Marks.raise_mask, mapAny_finish]
    exact congrArg _ (groupChanged_map s _)
  case source0 =>
    rw [finish_marks_get, Marks.raise_mask, groupChanged_starting starting (.inl rfl : ((1 : Fin 8).val = 1 ∨ _)),
      Bool.or_false]
  case free0 =>
    rw [finish_marks_get, Marks.raise_mask, groupChanged_starting starting (.inr rfl : (_ ∨ (2 : Fin 8).val = 2)),
      Bool.or_false]
  case source => rw [finish_marks_get, Marks.raise_mask]; exact congrArg _ (groupChanged_source s _ before after)
  case free => rw [finish_marks_get, Marks.raise_mask]; exact congrArg _ (groupChanged_freePages s _ before after)
  case count8 =>
    rw [finish_marks_get, Marks.raise_count, show groupChanged s (boardMarked s t) 8 = groupChanged s (finish s t) 8 from
      funext fun g => (groupChanged_finish s t 8 g).symm]
  case count =>
    rw [finish_marks_get, Marks.raise_count, funext (groupChanged_plain s t h)]
  case rest =>
    have marks : (finish s t).marks = (recordsMarked s (boardMarked s t)).marks := notified_marks _ _
    have revisions : (finish s t).revisions = (boardMarked s t).revisions := notified_revisions _ _
    have orderMap : (finish s t).orderMap = (boardMarked s t).orderMap := notified_orderMap _ _
    rw [marks, revisions, orderMap]
    rfl

end Sys2Proof.Machine
end

