-- ==== Sys2Proof/Proofs/Reset.lean ====
section
/-! The queue, the state after reset, what a part reset leaves (R21) and the end of start-up (R184, R189). -/

namespace Sys2Proof.Machine

-- Checked one after another, as in the tests: a theorem checked alongside others holds its memory.
set_option Elab.async false

/-- Settles O1: `step` is read off the head of the queue. -/
theorem stepTakesTheFrontCommand : Obligations.StepTakesTheFrontCommand := by
  unfold Obligations.StepTakesTheFrontCommand
  exact fun s c rest => ⟨rfl, rfl⟩

/-! ## The state after reset -/

theorem defaultSettings_inRange (p : Fin 11) : PartInRange p defaultSettings[p] :=
  ⟨by revert p; decide +kernel, by revert p; decide +kernel, by revert p; decide +kernel⟩

@[simp] theorem replicate_get {α : Type} {n : Nat} (x : α) (i : Fin n) : (Vector.replicate n x)[i] = x :=
  Vector.getElem_replicate i.isLt

theorem reset_memoriesCanonical : MemoriesCanonical State.reset := by
  obtain ⟨dram, eeprom, cells⟩ := reset_memories
  exact ⟨dram, eeprom, cells⟩

theorem reset_stagingSound : StagingSound State.reset := by
  refine ⟨Nat.zero_le _, rfl, fun i => ?_⟩
  have free : (State.reset.pictures[i]'i.isLt).pic = none := congrArg PicEntry.pic (replicate_get _ i)
  rw [free]
  rfl

theorem reset_listed : State.reset.listed = [] := rfl

theorem reset_held : State.reset.held = [] := by decide +kernel

theorem reset_cellsAccounted : CellsAccounted State.reset where
  once := by rw [reset_listed, reset_held]; exact List.nodup_nil
  filled c := by
    rw [reset_listed, show (State.reset.cells[c]'c.isLt) = clearCell from replicate_get _ c]
    exact ⟨(fun h => nomatch h), (fun h => nomatch h)⟩
  taken c := by
    rw [reset_held, show (State.reset.cells[c]'c.isLt) = clearCell from replicate_get _ c]
    exact ⟨(fun h => nomatch h), (fun h => nomatch h)⟩
  slots k := by
    rw [show (State.reset.slots[k]'k.isLt) = resetSlot false false from replicate_get _ k]
    exact ⟨(fun h => nomatch h), trivial⟩
  orders n o h := by
    rw [show (State.reset.orders[n]'n.isLt) = ⟨0, none⟩ from replicate_get _ n] at h
    exact nomatch h
  starting := rfl
  resting _ k := congrArg Slot.state (replicate_get _ k)

theorem reset_withinBounds : WithinBounds State.reset where
  txFifo := Nat.zero_le _
  rxFifo := Nat.zero_le _
  number := by decide
  doubts := by decide
  sequence n := by
    rw [show (State.reset.stations[n]'n.isLt) = resetStation from replicate_get _ n]
    decide
  counts r := by
    rw [show (State.reset.marks[r]'r.isLt) = clearMarks from replicate_get _ r]
    exact Nat.zero_le _

theorem reset_reservationsAgree : ReservationsAgree State.reset := fun n =>
  (replicate_get _ n).trans (congrArg (fun x => x.account.reservation) (replicate_get resetStation n)).symm

theorem reset_powerFollowsState : PowerFollowsState State.reset where
  off k := by
    rw [show (State.reset.slots[k]'k.isLt) = resetSlot false false from replicate_get _ k]
    exact fun _ => ⟨rfl, rfl, rfl⟩
  reads k h := by
    rw [show (State.reset.slots[k]'k.isLt) = resetSlot false false from replicate_get _ k] at h
    exact nomatch h
  starting _ := rfl
  resting _ k := congrArg Slot.state (replicate_get _ k)

theorem reset_settingsInRange : SettingsInRange State.reset :=
  ⟨defaultSettings_inRange, fun _ h => nomatch h⟩

/-- Settles O8: every table of the state after reset holds one value in all its entries. -/
theorem resetIsSound : Obligations.ResetIsSound := by
  unfold Obligations.ResetIsSound
  exact ⟨reset_memoriesCanonical, reset_stagingSound, reset_cellsAccounted, reset_withinBounds, reset_reservationsAgree,
    reset_powerFollowsState, reset_settingsInRange⟩

/-! ## What a part reset leaves (R21) -/

theorem fieldByte_zero {fs : List Field} (h : ∀ f ∈ fs, f.val = 0) (o : Nat) : fieldByte fs o = 0 := by
  induction fs with
  | nil => rfl
  | cons f t ih =>
    rw [fieldByte, h f List.mem_cons_self, Nat.zero_div]
    split
    · rfl
    · exact ih fun g hg => h g (List.mem_cons_of_mem _ hg)

theorem recordGroups_starting {s : State} (h : s.running = false) (r : Fin 9) :
    ∀ f ∈ (recordGroups s r).flatten, f.val = 0 := by
  rw [recordGroups, h]
  intro f hf
  simp only [Bool.false_eq_true, if_false, List.mem_flatten, List.mem_map] at hf
  obtain ⟨_, ⟨g, _, rfl⟩, hf⟩ := hf
  obtain ⟨_, _, rfl⟩ := List.mem_map.mp hf
  rfl

theorem bitsNat_replicate_false (n : Nat) : bitsNat (List.replicate n false) = 0 := by
  induction n with
  | zero => rfl
  | succ n ih => rw [List.replicate_succ, bitsNat, ih]; rfl

section partReset
variable (s : State) (powerOn : Bool)

theorem partReset_cell (c : Fin 64) : ((partReset s powerOn).cells[c]'c.isLt) = clearCell := replicate_get _ c
theorem partReset_marks (r : Fin 9) : ((partReset s powerOn).marks[r]'r.isLt) = clearMarks := replicate_get _ r
theorem partReset_order (n : Fin 48) : ((partReset s powerOn).orders[n]'n.isLt) = ⟨0, none⟩ := replicate_get _ n
theorem partReset_slot (k : Fin 4) :
    ((partReset s powerOn).slots[k]'k.isLt) = resetSlot (s.slots[k]'k.isLt).detectClosed (s.slots[k]'k.isLt).protectPin := tab_get _ k
theorem partReset_channel (c : Fin 2) : ((partReset s powerOn).channels[c]'c.isLt) = freeChannel := replicate_get _ c
theorem partReset_station (n : Fin 3) : ((partReset s powerOn).stations[n]'n.isLt) = resetStation := replicate_get _ n
theorem partReset_head (n : Fin 3) : ((partReset s powerOn).heads[n]'n.isLt) = resetHead := replicate_get _ n

theorem any_replicate {α : Type} (p : α → Bool) {x : α} (h : p x = false) (n : Nat) :
    (List.replicate n x).any p = false := by
  rw [List.any_eq_false]
  intro y hy
  rw [List.eq_of_mem_replicate hy, h]
  exact Bool.false_ne_true

theorem partReset_mapAny : (partReset s powerOn).mapAny = false := by
  rw [State.mapAny, show (partReset s powerOn).orderMap = Vector.replicate 48 false from rfl, Vector.toList_replicate]
  exact any_replicate id rfl 48

theorem partReset_someAnswered : (partReset s powerOn).someAnswered = false := by
  rw [State.someAnswered, show (partReset s powerOn).cells = Vector.replicate 64 clearCell from rfl,
    Vector.toList_replicate]
  exact any_replicate _ rfl 64

theorem clearMarks_any : clearMarks.any = false := by decide

theorem partReset_attention : (partReset s powerOn).attention = 0 := by
  have marks (r : Fin 9) : ((partReset s powerOn).marks[r]'r.isLt).any = false := by
    rw [partReset_marks, clearMarks_any]
  have bits : (partReset s powerOn).attentionBits = List.replicate 12 false := by
    unfold State.attentionBits
    rw [partReset_mapAny, partReset_someAnswered]
    have := marks
    simp only [Fin.forall_fin_succ] at this
    simp_all
    exact ⟨rfl, rfl⟩
  rw [State.attention, bits, bitsNat_replicate_false]
  rfl

theorem partReset_recordByte (r : Fin 9) (o : Nat) : recordByte (partReset s powerOn) r o = 0 := by
  unfold recordByte
  rw [partReset_marks]
  dsimp only
  split
  · rfl
  · split
    · rfl
    · split
      · rw [show (partReset s powerOn).orderMap = Vector.replicate 48 false from rfl, Vector.toList_replicate,
          List.drop_replicate, List.take_replicate, bitsNat_replicate_false]
        rfl
      · exact fieldByte_zero (recordGroups_starting rfl r) o

theorem partReset_orderByte (n : Fin 48) (o : Nat) : orderByte (partReset s powerOn) n o = 0 := by
  unfold orderByte
  rw [partReset_order, show ((partReset s powerOn).revisions[n]'n.isLt) = 0 from replicate_get _ n]
  split
  · rw [show (0 : Half).toNat = 0 from rfl, Nat.zero_div]
    rfl
  · rfl

theorem clearCell_byte (o : Nat) : cellByte clearCell o = 0 := by
  unfold cellByte
  split
  · rfl
  · split <;> rfl

theorem partReset_eeprom_idle (h : s.store = none) : (partReset s powerOn).eeprom = s.eeprom := by
  rw [show (partReset s powerOn).eeprom = s.eepromAtReset from rfl, State.eepromAtReset, h]

/-- Of the page in progress any number of bytes stands, up to the whole page (R188; log 44). -/
theorem partReset_eeprom_storing {st : Store} (h : s.store = some st) :
    ∃ n, n ≤ st.pageBytes.length ∧
      (partReset s powerOn).eeprom = s.eeprom.writeBytes st.page (st.pageBytes.take n) := by
  refine ⟨min (Config.pageBytesAtReset s.resetChoices) st.pageBytes.length, Nat.min_le_right _ _, ?_⟩
  rw [show (partReset s powerOn).eeprom = s.eepromAtReset from rfl, State.eepromAtReset, h, ← List.take_take,
    List.take_length]

end partReset

/-- Settles O18: each part of the state left is read off the reset values. -/
theorem partResetClearsThePart : Obligations.PartResetClearsThePart := by
  unfold Obligations.PartResetClearsThePart
  intro s powerOn
  refine ⟨partReset s powerOn, exec_partReset s powerOn, rfl, rfl, rfl, rfl, partReset_attention s powerOn, rfl, rfl,
    fun c => ?cell, fun l => replicate_get _ l, partReset_recordByte s powerOn,
    fun n o => ⟨partReset_order s powerOn n, partReset_orderByte s powerOn n o⟩, fun i => replicate_get _ i, rfl, rfl, rfl,
    fun k => ?slot, fun c => ?channel, rfl, rfl, rfl, rfl, rfl, rfl, rfl, rfl, rfl, rfl, rfl, rfl, fun n => ?station, rfl,
    rfl, rfl, rfl, partReset_eeprom_idle s powerOn, fun st h => partReset_eeprom_storing s powerOn h, ?kept⟩
  case cell => rw [partReset_cell]; exact ⟨rfl, rfl, clearCell_byte⟩
  case slot =>
    rw [partReset_slot]
    exact ⟨rfl, rfl, rfl, rfl, rfl, rfl, rfl, rfl, rfl, rfl, rfl, rfl⟩
  case channel => rw [partReset_channel]; exact ⟨rfl, rfl⟩
  case station =>
    rw [partReset_station, partReset_head, show ((partReset s powerOn).reservations[n]'n.isLt) = none from replicate_get _ n]
    exact ⟨rfl, rfl, rfl, rfl, rfl, rfl, rfl, rfl, rfl, rfl, rfl⟩
  case kept => rintro rfl; exact ⟨rfl, rfl⟩

/-! ## The end of start-up (R184, R189) -/

/-- A slot at the end of start-up: a closed switch starts the settle (R57). -/
def Slot.begins (x : Slot) (now : Word) : Slot :=
  if x.detectClosed then { x.enter now .settling with timer := some ⟨.settle, ⟨now, 50⟩⟩ } else x

@[simp] theorem modSlot_get (s : State) (k j : Fin 4) (f : Slot → Slot) :
    ((s.modSlot k f).slots[j]'j.isLt) = if k = j then f (s.slots[k]'k.isLt) else (s.slots[j]'j.isLt) := vector_set_get s.slots k j _

@[simp] theorem modStation_get (s : State) (n m : Fin 3) (f : Station → Station) :
    ((s.modStation n f).stations[m]'m.isLt) = if n = m then f (s.stations[n]'n.isLt) else (s.stations[m]'m.isLt) :=
  vector_set_get s.stations n m _

theorem modSlot_modSlot (s : State) (k : Fin 4) (f g : Slot → Slot) :
    (s.modSlot k f).modSlot k g = s.modSlot k (g ∘ f) := by
  have twice : (s.slots.set k (f (s.slots[k]'k.isLt))).set k (g ((s.modSlot k f).slots[k]'k.isLt)) = s.slots.set k (g (f (s.slots[k]'k.isLt))) := by
    rw [modSlot_get, if_pos rfl, Vector.set_set]
  exact congrArg (fun v => ({ s with slots := v } : State)) twice

theorem modSlot_id {s : State} {k : Fin 4} {f : Slot → Slot} (h : f (s.slots[k]'k.isLt) = (s.slots[k]'k.isLt)) : s.modSlot k f = s := by
  rw [State.modSlot, h, State.setSlot, vector_set_self]

theorem begins_eq_modSlot (s : State) (k : Fin 4) :
    (if (s.slots[k]'k.isLt).detectClosed then startSettling s k else s) = s.modSlot k (·.begins s.clock) := by
  split
  · rename_i closed
    rw [startSettling, State.slotWait, modSlot_modSlot]
    exact congrArg (s.setSlot k) (if_pos closed).symm
  · rename_i opened
    exact (modSlot_id (if_neg opened)).symm

/-- Turns that each take one slot to what `Slot.begins` makes of it act on each slot of the list once. -/
theorem foldl_begins (ks : List (Fin 4)) (nodup : ks.Nodup) (s : State) :
    ks.foldl (fun t k => if (t.slots[k]'k.isLt).detectClosed then startSettling t k else t) s =
      { s with slots := tab fun k => if k ∈ ks then (s.slots[k]'k.isLt).begins s.clock else (s.slots[k]'k.isLt) } := by
  induction ks generalizing s with
  | nil =>
    have same : (tab fun k => if k ∈ ([] : List (Fin 4)) then (s.slots[k]'k.isLt).begins s.clock else (s.slots[k]'k.isLt)) = s.slots := by
      ext1 j hj
      rw [tab_getElem]
      rfl
    rw [same]
    rfl
  | cons k ks ih =>
    obtain ⟨fresh, nodup⟩ := List.nodup_cons.mp nodup
    rw [List.foldl_cons, begins_eq_modSlot, ih nodup]
    refine congrArg (fun v => ({ s with slots := v } : State)) ?_
    ext1 j hj
    rw [tab_getElem, tab_getElem, modSlot_get, State.modSlot_clock]
    by_cases h : k = ⟨j, hj⟩
    · subst h
      simp [fresh]
    · simp [h, List.mem_cons, Ne.symm h]

theorem slotsBegin_eq (s : State) : slotsBegin s = { s with slots := tab fun k => (s.slots[k]'k.isLt).begins s.clock } := by
  rw [slotsBegin, foldl_begins _ (List.nodup_finRange 4)]
  simp [List.mem_finRange]

theorem sendAbility_station (s : State) (n m : Fin 3) :
    ((sendAbility s n).stations[m]'m.isLt) =
      if n = m then { (s.stations[n]'n.isLt) with sendTimer := some ⟨s.clock, 1⟩ } else (s.stations[m]'m.isLt) := modStation_get _ n m _

theorem sendAbility_eq (s : State) (n : Fin 3) : sendAbility s n = { s with
    stations := s.stations.set n { (s.stations[n]'n.isLt) with sendTimer := some ⟨s.clock, 1⟩ }
    sent := s.sent ++ [.link n [partAbilityWord (s.stations[n]'n.isLt).ack]] } := rfl

theorem stationsBegin_station (s : State) (n : Fin 3) :
    ((stationsBegin s).stations[n]'n.isLt) = { (s.stations[n]'n.isLt) with sendTimer := some ⟨s.clock, 1⟩ } := by
  have clock (u : State) (m : Fin 3) : (sendAbility u m).clock = u.clock := rfl
  rw [show stationsBegin s = sendAbility (sendAbility (sendAbility s 0) 1) 2 from rfl]
  simp only [sendAbility_station, clock]
  fin_cases n <;> rfl

theorem stationsBegin_sent (s : State) : (stationsBegin s).sent =
    s.sent ++ (List.finRange 3).map fun n => .link n [partAbilityWord (s.stations[n]'n.isLt).ack] := by
  rw [show stationsBegin s = sendAbility (sendAbility (sendAbility s 0) 1) 2 from rfl]
  have sends (u : State) (n : Fin 3) :
      (sendAbility u n).sent = u.sent ++ [.link n [partAbilityWord (u.stations[n]'n.isLt).ack]] := rfl
  have finRange : List.finRange 3 = [0, 1, 2] := rfl
  rw [sends, sends, sends, finRange]
  simp [sendAbility_station, -Fin.getElem_fin]

/-- Only stations and what has been put out change as the stations begin. -/
theorem stationsBegin_frame (s : State) : stationsBegin s =
    { s with stations := (stationsBegin s).stations, sent := (stationsBegin s).sent } := by
  rw [show stationsBegin s = sendAbility (sendAbility (sendAbility s 0) 1) 2 from rfl]
  simp only [sendAbility_eq]

/-- The state of start-up's end before its marks and its MSI. -/
theorem autoloadEnd_eq (s : State) (acked : Nat) : autoloadEnd s acked =
    stationsBegin (lineBegins (slotsBegin { s with
      settings := (autoloaded s.eeprom acked).1, source := (autoloaded s.eeprom acked).2, autoload := none,
      running := true, started := true })) := rfl

theorem mem_finish_sent {s t : State} {o : Output} (h : o ∈ t.sent) : o ∈ (finish s t).sent := by
  obtain same | msi := finish_sent s t
  · rwa [same]
  · rw [msi]; exact List.mem_append_left _ h

theorem begins_of_closed {x : Slot} {now : Word} (h : x.detectClosed = true) :
    (x.begins now).state = .settling ∧ (x.begins now).timer = some ⟨.settle, ⟨now, 50⟩⟩ := by
  rw [Slot.begins, if_pos h, Slot.enter]
  split <;> exact ⟨rfl, rfl⟩

/-- Settles O19: the blocks begin one after another, each changing its own part of the state. -/
theorem startUpEndsWithAutoload : Obligations.StartUpEndsWithAutoload := by
  unfold Obligations.StartUpEndsWithAutoload
  intro s acked tm loading starting slots
  have finished : exec (.autoloadEnd acked) s = .next (finish s (autoloadEnd s acked)) := by
    show execAutoloadEnd acked s = _
    rw [execAutoloadEnd, loading]
    rfl
  have frame := stationsBegin_frame (lineBegins (slotsBegin { s with
    settings := (autoloaded s.eeprom acked).1, source := (autoloaded s.eeprom acked).2, autoload := none,
    running := true, started := true }))
  rw [← autoloadEnd_eq, slotsBegin_eq] at frame
  refine ⟨_, finished, fun due => ?timer, ?running, ?started, ?autoload, ?settings, ?source, fun k => ?slot, ?line, ?ready,
    ?format, ?present, ?latch, ?alert, ?absent, fun n => ⟨?station, ?word⟩, ?mark⟩
  case timer =>
    show execAutoloadTimerExpiry acked s = _
    rw [execAutoloadTimerExpiry, loading]
    exact if_pos due
  case running => rw [finish_running, frame]; rfl
  case started => rw [finish_started, frame]; rfl
  case autoload => rw [finish_autoload, frame]; rfl
  case settings => rw [finish_settings, frame]; rfl
  case source => rw [finish_source, frame]; rfl
  case slot =>
    have slot : ((finish s (autoloadEnd s acked)).slots[k]'k.isLt) = (s.slots[k]'k.isLt).begins s.clock := by
      rw [finish_slots, frame]
      exact tab_get _ k
    rw [slot]
    split
    · rename_i closed
      exact begins_of_closed closed
    · rename_i opened
      exact if_neg opened
  case line => rw [finish_pay, frame]; rfl
  case ready => rw [finish_pay, frame]; rfl
  case format => rw [finish_pay, finish_settings, frame]; rfl
  case present => rw [finish_pay, frame]; rfl
  case latch => rw [finish_pay, frame]; rfl
  case alert => rw [finish_pay, frame]; rfl
  case absent => rw [finish_pay, frame]; rfl
  case station =>
    rw [finish_stations, autoloadEnd_eq, stationsBegin_station, slotsBegin_eq]
    rfl
  case word =>
    apply mem_finish_sent
    rw [autoloadEnd_eq, stationsBegin_sent, slotsBegin_eq]
    exact List.mem_append_right _ (List.mem_map.mpr ⟨n, List.mem_finRange n, rfl⟩)
  case mark =>
    have running : (boardMarked s (autoloadEnd s acked)).running = true := by rw [frame]; rfl
    have changed : groupChanged s (boardMarked s (autoloadEnd s acked)) 8 (0 : Fin 8).val = true := by
      rw [show (0 : Fin 8).val = 0 from rfl, groupChanged_partState, starting, running]
      rfl
    rw [finish_marks_get, Marks.raise_mask, changed, Bool.or_true]

end Sys2Proof.Machine
end

