-- ==== Sys2Proof/Proofs/Settings.lean ====
section
/-! The settings: SETTINGS_READ and SETTINGS_WRITE (R185, R186), the store page by page (R188), and a round trip through
the EEPROM (R184, R199). -/

namespace Sys2Proof.Machine

-- Checked one after another, as in the tests: a theorem checked alongside others holds its memory.
set_option Elab.async false

theorem headOf_of_asks {s : State} {l : Fin 11} {k : Kind} {c : Fin 64} (h : s.asks l k c) : s.headOf l k = some c :=
  headOf_eq_some.mpr h

/-! ## Clamping (R183, R186) -/

theorem clampTo_clampTo (lo hi v : Int) : clampTo lo hi (clampTo lo hi v) = clampTo lo hi v := by
  unfold clampTo
  omega

theorem clampField_clampField (emax : Int) (f : FieldSpec) (v : Int) :
    clampField emax f (clampField emax f v) = clampField emax f v := by
  unfold clampField
  cases f.kind <;> simp [clampTo_clampTo]

theorem clampFields_getElem? (spec : List FieldSpec) (vals : List Int) (i : Nat) :
    (clampFields spec vals)[i]? = (spec[i]?).bind fun f => (vals[i]?).map (clampField (partEmax vals) f) := by
  rw [clampFields, List.getElem?_zipWith]
  cases spec[i]? <;> cases vals[i]? <;> rfl

theorem clampFields_length {spec : List FieldSpec} {vals : List Int} (h : vals.length = spec.length) :
    (clampFields spec vals).length = spec.length := by
  rw [clampFields, List.length_zipWith, h, Nat.min_self]

/-- The first field bounds the overcoat energies of its part: clamped itself, it gives the same bound. -/
def FirstFieldGivesEmax (spec : List FieldSpec) : Prop :=
  (∃ lo hi, (spec[0]?).map FieldSpec.kind = some (.num lo hi) ∧ lo = 1 ∧ hi = 1023) ∨ ∀ f ∈ spec, f.kind ≠ .energy

theorem clampFields_congr_emax {spec : List FieldSpec} (plain : ∀ f ∈ spec, f.kind ≠ .energy) (a b : Int)
    (vals : List Int) : List.zipWith (clampField a) spec vals = List.zipWith (clampField b) spec vals := by
  induction spec generalizing vals with
  | nil => rfl
  | cons f t ih =>
    cases vals with
    | nil => rfl
    | cons v vs =>
      have same : clampField a f v = clampField b f v := by
        have := plain f List.mem_cons_self
        unfold clampField
        cases h : f.kind with
        | energy => exact absurd h this
        | _ => rfl
      rw [List.zipWith_cons_cons, List.zipWith_cons_cons, same, ih fun g hg => plain g (List.mem_cons_of_mem _ hg)]

theorem zipWith_clampField_idem (a : Int) (spec : List FieldSpec) (vals : List Int) :
    List.zipWith (clampField a) spec (List.zipWith (clampField a) spec vals) = List.zipWith (clampField a) spec vals := by
  induction spec generalizing vals with
  | nil => rfl
  | cons f t ih =>
    cases vals with
    | nil => rfl
    | cons v vs => simp only [List.zipWith_cons_cons, clampField_clampField, ih]

theorem clampFields_clampFields {spec : List FieldSpec} (first : FirstFieldGivesEmax spec) (vals : List Int) :
    clampFields spec (clampFields spec vals) = clampFields spec vals := by
  obtain ⟨lo, hi, kind, rfl, rfl⟩ | plain := first
  · have emax : partEmax (clampFields spec vals) = partEmax vals := by
      cases spec with
      | nil => simp at kind
      | cons f t =>
        cases vals with
        | nil => rfl
        | cons v vs =>
          have kind : f.kind = .num 1 1023 := by simpa using kind
          simp [clampFields, partEmax, clampField, kind, clampTo_clampTo]
    rw [clampFields, emax, clampFields, zipWith_clampField_idem]
  · rw [clampFields, clampFields, clampFields_congr_emax plain _ (partEmax vals), zipWith_clampField_idem]

theorem partSpec_firstFieldGivesEmax (p : Fin 11) : FirstFieldGivesEmax (partSpec p) := by
  by_cases h : p = 4
  · subst h
    exact .inl ⟨1, 1023, rfl, rfl, rfl⟩
  · right
    revert h
    revert p
    decide +kernel

/-- A field holds a value that its enumeration does not list. -/
def FieldSpec.unlisted (f : FieldSpec) (v : Int) : Bool :=
  match f.kind with
  | .enum codes => !codes.contains v
  | _ => false

theorem firstBadEnum_eq (spec : List FieldSpec) (vals : List Int) :
    firstBadEnum spec vals = (spec.zip vals).findIdx? fun fv => fv.1.unlisted fv.2 := rfl

theorem unlisted_clampField (a : Int) (f : FieldSpec) (v : Int) : f.unlisted (clampField a f v) = f.unlisted v := by
  unfold FieldSpec.unlisted clampField
  cases f.kind <;> rfl

/-- Clamping leaves the enumerated fields, so none that was listed is unlisted after it. -/
theorem firstBadEnum_clampFields (spec : List FieldSpec) (a : Int) (vals : List Int) :
    firstBadEnum spec (List.zipWith (clampField a) spec vals) = firstBadEnum spec vals := by
  rw [firstBadEnum_eq, firstBadEnum_eq]
  induction spec generalizing vals with
  | nil => rfl
  | cons f t ih =>
    cases vals with
    | nil => rfl
    | cons v vs => simp only [List.zipWith_cons_cons, List.zip_cons_cons, List.findIdx?_cons, unlisted_clampField, ih]

theorem readFields_length (spec : List FieldSpec) (bytes : List Byte) : (readFields spec bytes).length = spec.length :=
  List.length_map _

/-- A part with listed enumerations is in range once clamped. -/
theorem clampFields_inRange (p : Fin 11) {vals : List Int} (length : vals.length = (partSpec p).length)
    (listed : firstBadEnum (partSpec p) vals = none) : PartInRange p (clampFields (partSpec p) vals) where
  length := clampFields_length length
  listed := (firstBadEnum_clampFields _ _ _).trans listed
  clamped := clampFields_clampFields (partSpec_firstFieldGivesEmax p) vals

/-! ## SETTINGS_READ and SETTINGS_WRITE (R185, R186) -/

/-- The clamped fields are those whose value changed. -/
theorem clampedFields_eq {before after : List Int} (length : after.length = before.length) :
    clampedFields before after = (List.range before.length).filter fun i => decide (before[i]? ≠ after[i]?) := by
  rw [clampedFields]
  refine List.filter_congr fun i hi => ?_
  have inside : i < before.length := List.mem_range.mp hi
  rw [Bool.eq_iff_iff, bne_iff_ne, decide_eq_true_iff, List.getElem?_eq_getElem inside,
    List.getElem?_eq_getElem (length ▸ inside), List.getD_eq_getElem _ _ inside,
    List.getD_eq_getElem _ _ (length ▸ inside), ne_eq, ne_eq, Option.some.injEq]

theorem requestedPart_section {x : WorkCell} (h : 4 < x.req 0 1) :
    requestedPart x = .error (refuse .badField (plainField 0)) := if_pos h

theorem requestedPart_none {x : WorkCell} (h : x.req 0 1 ≤ 4) (none : partOf (x.req 0 1) (x.req 1 1) = none) :
    requestedPart x = .error (refuse .badField (plainField 1)) := by
  unfold requestedPart
  rw [if_neg (Nat.not_lt.mpr h), none]

theorem partOf_le_four {sec part : Nat} {p : Fin 11} (h : partOf sec part = some p) : sec ≤ 4 := by
  by_contra beyond
  rw [partOf, dif_neg (by omega), if_neg (by omega)] at h
  exact nomatch h

theorem requestedPart_some {x : WorkCell} {p : Fin 11} (h : partOf (x.req 0 1) (x.req 1 1) = some p) :
    requestedPart x = .ok p := by
  unfold requestedPart
  rw [if_neg (Nat.not_lt.mpr (partOf_le_four h)), h]

theorem settingsRead_error {s : State} {c : Fin 64} {a : Answer} (h : requestedPart (s.cells[c]'c.isLt) = .error a) :
    settingsRead s c = (s, a) := by rw [settingsRead, h]

theorem settingsRead_ok {s : State} {c : Fin 64} {p : Fin 11} (h : requestedPart (s.cells[c]'c.isLt) = .ok p) :
    settingsRead s c = (s, doneWith (partBytes p (s.settings[p]'p.isLt))) := by rw [settingsRead, h]

theorem settingsWrite_error {s : State} {c : Fin 64} {a : Answer} (h : requestedPart (s.cells[c]'c.isLt) = .error a) :
    settingsWrite s c = (s, a) := by rw [settingsWrite, h]

/-- The values a SETTINGS_WRITE carries for a part. -/
def writtenValues (s : State) (c : Fin 64) (p : Fin 11) : List Int :=
  readFields (partSpec p) ((s.cells[c]'c.isLt).reqBytes 4 (partLength p))

theorem settingsWrite_unlisted {s : State} {c : Fin 64} {p : Fin 11} {i : Nat} (h : requestedPart (s.cells[c]'c.isLt) = .ok p)
    (bad : firstBadEnum (partSpec p) (writtenValues s c p) = some i) :
    settingsWrite s c = (s, refuse .badField (fieldDetail 2 0xFF i)) := by
  rw [writtenValues] at bad
  rw [settingsWrite, h]
  simp only [bad]

/-- The answer of a SETTINGS_WRITE that replaced a part. -/
def writeAnswer (p : Fin 11) (raw vals : List Int) : Answer :=
  { status := .done, detail := (clampedFields raw vals).length, body := writeBody p (clampedFields raw vals) vals }

theorem writeAnswer_eq (p : Fin 11) {raw vals : List Int} (length : vals.length = raw.length) :
    writeAnswer p raw vals =
      let changed := (List.range raw.length).filter fun i => decide (raw[i]? ≠ vals[i]?)
      ⟨.done, changed.length, (BitVec.ofNat 8 changed.length :: changed.map (BitVec.ofNat 8)) ++
        List.replicate (255 - changed.length) 0 ++ partBytes p vals⟩ := by
  rw [writeAnswer, clampedFields_eq length, writeBody]
  simp only [List.length_cons, List.length_map, Nat.reduceSubDiff]

theorem settingsWrite_listed {s : State} {c : Fin 64} {p : Fin 11} {raw vals : List Int}
    (h : requestedPart (s.cells[c]'c.isLt) = .ok p) (read : writtenValues s c p = raw)
    (good : firstBadEnum (partSpec p) raw = none) (clamp : clampFields (partSpec p) raw = vals) :
    settingsWrite s c = (if p = 1 then handLine { s with settings := s.settings.set p vals }
      else { s with settings := s.settings.set p vals }, writeAnswer p raw vals) := by
  subst read clamp
  rw [writtenValues] at good
  rw [settingsWrite, h]
  simp only [good]
  rfl

theorem exec_settingsRead_of_asks {s : State} {c : Fin 64} (h : s.asks 10 .settingsRead c) :
    exec .settingsRead s =
      .next (finish s ((settingsRead (s.take c) c).1.answer c (settingsRead (s.take c) c).2)) := by
  show serve s 10 .settingsRead settingsRead = _
  exact serve_some (headOf_of_asks h)

theorem exec_settingsWrite_of_asks {s : State} {c : Fin 64} (h : s.asks 10 .settingsWrite c) :
    exec .settingsWrite s =
      .next (finish s ((settingsWrite (s.take c) c).1.answer c (settingsWrite (s.take c) c).2)) := by
  show serve s 10 .settingsWrite settingsWrite = _
  exact serve_some (headOf_of_asks h)

/-- Settles O58: the section and part are checked first, then the enumerated fields; what is left is clamped. -/
theorem settingsAreReadAndClamped : Obligations.SettingsAreReadAndClamped := by
  unfold Obligations.SettingsAreReadAndClamped
  intro s c
  refine ⟨fun i asked => ⟨fun beyond => ?sec, fun within unnamed => ?part⟩,
    fun p named => ⟨fun asked => ?read, fun asked => ⟨fun i bad => ?unlisted, fun good => ?write⟩⟩⟩
  case sec =>
    obtain ⟨rfl, asked⟩ | ⟨rfl, asked⟩ := asked
    · rw [exec_settingsRead_of_asks asked, settingsRead_error (requestedPart_section beyond)]; rfl
    · rw [exec_settingsWrite_of_asks asked, settingsWrite_error (requestedPart_section beyond)]; rfl
  case part =>
    obtain ⟨rfl, asked⟩ | ⟨rfl, asked⟩ := asked
    · rw [exec_settingsRead_of_asks asked, settingsRead_error (requestedPart_none within unnamed)]; rfl
    · rw [exec_settingsWrite_of_asks asked, settingsWrite_error (requestedPart_none within unnamed)]; rfl
  case read => rw [exec_settingsRead_of_asks asked, settingsRead_ok (requestedPart_some named)]; rfl
  case unlisted =>
    have detail : fieldDetail 2 0xFF i = 0xFF02 + 65536 * i := by simp [fieldDetail]
    rw [exec_settingsWrite_of_asks asked, settingsWrite_unlisted (requestedPart_some named) bad, detail]
    rfl
  case write =>
    have length : (writtenValues (s.take c) c p).length = (partSpec p).length := readFields_length _ _
    refine ⟨clampFields (partSpec p) (writtenValues (s.take c) c p), clampFields_inRange p length good,
      fun i f v spec raw => ?_, ?_⟩
    · rw [clampFields_getElem?, spec, Option.bind_some, show (writtenValues (s.take c) c p)[i]? = some v from raw,
        Option.map_some, clampField]
      cases f.kind <;> rfl
    · have answer := writeAnswer_eq p ((clampFields_length length).trans length.symm)
      rw [exec_settingsWrite_of_asks asked, settingsWrite_listed (requestedPart_some named) rfl good rfl, answer]
      refine ⟨fun other => ?_, fun one => ?_⟩
      · rw [if_neg other]
        rfl
      · rw [if_pos one]
        rfl

end Sys2Proof.Machine
end

