-- ==== Sys2Proof/Proofs/Store.lean ====
section
/-! The store page by page (R188), and the round trip of the settings image through the EEPROM (R184, R199, R200). -/

namespace Sys2Proof.Machine

-- Checked one after another, as in the tests: a theorem checked alongside others holds its memory.
set_option Elab.async false

/-! ## The bytes of numbers and fields (R190, R199) -/

theorem unle_le (n v : Nat) : unle (le n v) = v % 256 ^ n := by
  induction n generalizing v with
  | zero => simp [le, unle, Nat.mod_one]
  | succ n ih =>
    rw [le, unle, ih, BitVec.toNat_ofNat, Nat.pow_succ' (m := 256) (n := n), Nat.mod_mul]

@[simp] theorem leInt_length (n : Nat) (v : Int) : (leInt n v).length = n := le_length n _

/-- A value that a field's bytes can hold. -/
def FieldSpec.holds (f : FieldSpec) (v : Int) : Prop :=
  if f.sgn then -(256 ^ f.size : Int) ≤ 2 * v ∧ 2 * v < 256 ^ f.size else 0 ≤ v ∧ v < 256 ^ f.size

/-- The value of a field in a part's bytes. -/
def FieldSpec.read (f : FieldSpec) (bytes : List Byte) : Int :=
  if f.sgn then signed f.size (fieldLe bytes f.off f.size) else (fieldLe bytes f.off f.size : Int)

theorem readFields_eq (spec : List FieldSpec) (bytes : List Byte) :
    readFields spec bytes = spec.map fun f => f.read bytes := rfl

theorem fieldLe_append (pre post : List Byte) (n : Nat) (v : Int) :
    fieldLe (pre ++ leInt n v ++ post) pre.length n = (v % 256 ^ n).toNat := by
  have bound : (v % 256 ^ n).toNat < 256 ^ n := by
    have pos : (0 : Int) < 256 ^ n := by positivity
    have := Int.emod_lt_of_pos v pos
    have nonneg := Int.emod_nonneg v (ne_of_gt pos)
    zify
    rwa [Int.toNat_of_nonneg nonneg]
  have window : ((pre ++ leInt n v ++ post).drop pre.length).take n = leInt n v := by
    rw [List.append_assoc, List.drop_left]
    have := List.take_left (l₁ := leInt n v) (l₂ := post)
    rwa [leInt_length] at this
  rw [fieldLe, window, leInt, unle_le, Nat.mod_eq_of_lt bound]

/-- Two's complement of `n` bytes gives back the numbers of its range. -/
theorem signed_emod {n : Nat} {v : Int} (low : -(256 ^ n : Int) ≤ 2 * v) (high : 2 * v < 256 ^ n) :
    signed n (v % 256 ^ n).toNat = v := by
  have pos : (0 : Int) < 256 ^ n := by positivity
  have nonneg := Int.emod_nonneg v (ne_of_gt pos)
  have cast : (((v % 256 ^ n).toNat : Nat) : Int) = v % 256 ^ n := Int.toNat_of_nonneg nonneg
  have split : 2 * (v % 256 ^ n).toNat < 256 ^ n ↔ 2 * (v % 256 ^ n) < 256 ^ n := by zify; rw [cast]
  unfold signed
  rw [cast]
  by_cases neg : v < 0
  · have wrap : v % 256 ^ n = v + 256 ^ n := by
      rw [← Int.add_emod_right, Int.emod_eq_of_lt (by omega) (by omega)]
    rw [if_neg (by rw [split, wrap]; omega), wrap]
    omega
  · have same : v % 256 ^ n = v := Int.emod_eq_of_lt (by omega) (by omega)
    rw [if_pos (by rw [split, same]; exact high), same]

theorem FieldSpec.read_append {f : FieldSpec} {v : Int} (h : f.holds v) {pre : List Byte} (post : List Byte)
    (off : pre.length = f.off) : f.read (pre ++ leInt f.size v ++ post) = v := by
  unfold FieldSpec.read
  rw [← off, fieldLe_append]
  unfold FieldSpec.holds at h
  split
  · rename_i sgn
    rw [if_pos sgn] at h
    exact signed_emod h.1 h.2
  · rename_i unsgn
    rw [if_neg unsgn] at h
    rw [Int.toNat_of_nonneg (Int.emod_nonneg v (by positivity)), Int.emod_eq_of_lt h.1 h.2]

/-- The fields lie one after another from `pos` on and end within `len` bytes. -/
def laidWithin (len : Nat) : Nat → List FieldSpec → Bool
  | pos, [] => decide (pos ≤ len)
  | pos, f :: t => decide (pos ≤ f.off) && laidWithin len (f.off + f.size) t

theorem laidWithin_cons {len pos : Nat} {f : FieldSpec} {t : List FieldSpec} :
    laidWithin len pos (f :: t) = true ↔ pos ≤ f.off ∧ laidWithin len (f.off + f.size) t = true := by
  rw [laidWithin, Bool.and_eq_true, decide_eq_true_iff]

theorem le_of_laidWithin {len pos : Nat} {l : List FieldSpec} (h : laidWithin len pos l = true) : pos ≤ len := by
  induction l generalizing pos with
  | nil => exact decide_eq_true_iff.mp h
  | cons f t ih =>
    obtain ⟨gap, rest⟩ := laidWithin_cons.mp h
    have := ih rest
    omega

theorem layFields_length {len pos : Nat} {fs : List (FieldSpec × Int)} (laid : laidWithin len pos (fs.map Prod.fst) = true) :
    (layFields len pos fs).length = len - pos := by
  induction fs generalizing pos with
  | nil => simp [layFields]
  | cons fv t ih =>
    obtain ⟨gap, rest⟩ := laidWithin_cons.mp laid
    have := le_of_laidWithin rest
    simp only [layFields, List.length_append, List.length_replicate, leInt_length, ih rest]
    omega

/-- Each field is read back where it was laid, whatever stands before. -/
theorem readFields_layFields {len pos : Nat} {fs : List (FieldSpec × Int)} (laid : laidWithin len pos (fs.map Prod.fst) = true)
    (holds : ∀ fv ∈ fs, fv.1.holds fv.2) {pre : List Byte} (start : pre.length = pos) :
    readFields (fs.map Prod.fst) (pre ++ layFields len pos fs) = fs.map Prod.snd := by
  induction fs generalizing pos pre with
  | nil => rfl
  | cons fv t ih =>
    obtain ⟨f, v⟩ := fv
    obtain ⟨gap, rest⟩ := laidWithin_cons.mp laid
    have before : (pre ++ List.replicate (f.off - pos) 0).length = f.off := by
      rw [List.length_append, List.length_replicate, start]
      exact Nat.add_sub_cancel' gap
    have tail := ih rest (fun gw h => holds gw (List.mem_cons_of_mem _ h))
      (pre := pre ++ List.replicate (f.off - pos) 0 ++ leInt f.size v) (by rw [List.length_append, before, leInt_length])
    have head : f.read (pre ++ layFields len pos ((f, v) :: t)) = v := by
      have := FieldSpec.read_append (holds _ List.mem_cons_self) (layFields len (f.off + f.size) t) before
      simpa [layFields, List.append_assoc] using this
    rw [readFields_eq, List.map_cons, List.map_cons, List.map_cons, head]
    congr 1
    rw [← tail, readFields_eq]
    simp [layFields, List.append_assoc]

/-! ## The parts of the settings -/

/-- Every value a field's check lets through fits its bytes. -/
def FieldSpec.fits (f : FieldSpec) : Bool :=
  match f.kind with
  | .enum codes => !f.sgn && codes.all fun v => decide (0 ≤ v) && decide (v < 256 ^ f.size)
  | .num lo hi =>
    decide (lo ≤ hi) && if f.sgn then decide (-(256 ^ f.size : Int) ≤ 2 * lo) && decide (2 * hi < (256 ^ f.size : Int))
      else decide (0 ≤ lo) && decide (hi < (256 ^ f.size : Int))
  | .energy => !f.sgn && decide ((1023 : Int) < 256 ^ f.size)

theorem partSpec_fits (p : Fin 11) : (partSpec p).all FieldSpec.fits = true := by
  revert p
  decide +kernel

theorem partSpec_laidWithin (p : Fin 11) : laidWithin (partLength p) 0 (partSpec p) = true := by
  revert p
  decide +kernel

theorem clampTo_bounds {lo hi : Int} (h : lo ≤ hi) (v : Int) : lo ≤ clampTo lo hi v ∧ clampTo lo hi v ≤ hi := by
  unfold clampTo
  omega

theorem partEmax_bounds (vals : List Int) : 1 ≤ partEmax vals ∧ partEmax vals ≤ 1023 := clampTo_bounds (by decide) _

/-- A field that its check leaves as it is holds a value that fits. -/
theorem FieldSpec.holds_of_checked {f : FieldSpec} (fits : f.fits = true) {v emax : Int} (bound : 1 ≤ emax ∧ emax ≤ 1023)
    (listed : f.unlisted v = false) (clamped : clampField emax f v = v) : f.holds v := by
  unfold FieldSpec.fits at fits
  unfold FieldSpec.unlisted at listed
  unfold clampField at clamped
  unfold FieldSpec.holds
  cases kind : f.kind with
  | enum codes =>
    simp only [kind, Bool.and_eq_true, Bool.not_eq_true', List.all_eq_true, decide_eq_true_iff] at fits listed
    obtain ⟨unsgn, all⟩ := fits
    rw [if_neg (by simp [unsgn])]
    exact all v (by simpa using listed)
  | num lo hi =>
    simp only [kind, Bool.and_eq_true, decide_eq_true_iff] at fits clamped
    obtain ⟨order, ends⟩ := fits
    have range := clampTo_bounds order v
    rw [clamped] at range
    split at ends
    · rename_i sgn
      simp only [Bool.and_eq_true, decide_eq_true_iff] at ends
      rw [if_pos sgn]
      omega
    · rename_i unsgn
      simp only [Bool.and_eq_true, decide_eq_true_iff] at ends
      rw [if_neg unsgn]
      omega
  | energy =>
    simp only [kind, Bool.and_eq_true, Bool.not_eq_true', decide_eq_true_iff] at fits clamped
    obtain ⟨unsgn, wide⟩ := fits
    have range := clampTo_bounds (lo := 0) (hi := emax) (by omega) v
    rw [clamped] at range
    rw [if_neg (by simp [unsgn])]
    omega

theorem PartInRange.holds {p : Fin 11} {vals : List Int} (h : PartInRange p vals) :
    ∀ fv ∈ (partSpec p).zip vals, fv.1.holds fv.2 := by
  obtain ⟨length, listed, clamped⟩ := h
  intro fv mem
  rw [firstBadEnum_eq, List.findIdx?_eq_none_iff] at listed
  obtain ⟨i, inside, rfl⟩ := List.mem_iff_getElem.mp mem
  have iSpec : i < (partSpec p).length := by rw [List.length_zip] at inside; omega
  have iVals : i < vals.length := by rw [List.length_zip] at inside; omega
  have fits := List.all_eq_true.mp (partSpec_fits p) _ (List.getElem_mem iSpec)
  have kept : clampField (partEmax vals) (partSpec p)[i] vals[i] = vals[i] := by
    have := clampFields_getElem? (partSpec p) vals i
    rw [clamped, List.getElem?_eq_getElem iSpec, List.getElem?_eq_getElem iVals] at this
    exact (Option.some.inj this).symm
  rw [List.getElem_zip]
  have unlisted := listed _ mem
  rw [List.getElem_zip] at unlisted
  exact FieldSpec.holds_of_checked fits (partEmax_bounds vals) (by simpa using unlisted) kept

theorem PartInRange.zip_fst {p : Fin 11} {vals : List Int} (h : PartInRange p vals) :
    ((partSpec p).zip vals).map Prod.fst = partSpec p := List.map_fst_zip (Nat.le_of_eq h.length.symm)

theorem PartInRange.zip_snd {p : Fin 11} {vals : List Int} (h : PartInRange p vals) :
    ((partSpec p).zip vals).map Prod.snd = vals := List.map_snd_zip (Nat.le_of_eq h.length)

/-- A part in range is read back from its bytes. -/
theorem readFields_partBytes {p : Fin 11} {vals : List Int} (h : PartInRange p vals) :
    readFields (partSpec p) (partBytes p vals) = vals := by
  have laid := partSpec_laidWithin p
  rw [← h.zip_fst] at laid
  have back := readFields_layFields laid h.holds (pre := []) rfl
  rwa [h.zip_fst, h.zip_snd, List.nil_append] at back

theorem partBytes_length {p : Fin 11} {vals : List Int} (h : PartInRange p vals) :
    (partBytes p vals).length = partLength p := by
  have laid := partSpec_laidWithin p
  rw [← h.zip_fst] at laid
  rw [partBytes, layFields_length laid, Nat.sub_zero]

/-! ## The sections of the image -/

section image
variable {img : Settings} (inRange : ∀ p : Fin 11, PartInRange p img[p])
include inRange

theorem readParts_flatMap (ps : List (Fin 11)) :
    readParts ps (ps.flatMap fun p => partBytes p img[p]) = ps.map fun p => (p, img[p]) := by
  induction ps with
  | nil => rfl
  | cons p t ih =>
    have length := partBytes_length (inRange p)
    rw [List.flatMap_cons, readParts, ← length, List.take_left, List.drop_left, readFields_partBytes (inRange p), ih,
      List.map_cons]

theorem parts_length (ps : List (Fin 11)) :
    (ps.flatMap fun p => partBytes p img[p]).length = (ps.map partLength).foldr (· + ·) 0 := by
  induction ps with
  | nil => rfl
  | cons p t ih =>
    rw [List.flatMap_cons, List.length_append, ih, partBytes_length (inRange p)]
    rfl

theorem sectionContents_length (sec : Fin 5) : (sectionContents img sec).length = sectionLength sec :=
  parts_length inRange _

theorem sectionBytes_length (sec : Fin 5) : (sectionBytes img sec).length = sectionLength sec + 3 := by
  rw [sectionBytes]
  simp only [List.length_append, le_length, sectionContents_length inRange, List.length_singleton]
  omega

end image

theorem sumBytes_append (a b : List Byte) : sumBytes (a ++ b) = sumBytes a + sumBytes b := by
  induction a with
  | nil => simp [sumBytes]
  | cons x t ih => rw [List.cons_append, sumBytes, sumBytes, ih, Nat.add_assoc]

theorem sumsToZero_checkByte (bs : List Byte) : sumsToZero (bs ++ [checkByte bs]) = true := by
  rw [sumsToZero, sumBytes_append, sumBytes, sumBytes, checkByte, BitVec.toNat_ofNat, beq_iff_eq]
  omega

/-! ## Reading the image back -/

/-- The bytes stand in the memory from an address on. -/
def Mem.Spells (m : Mem) (a : Nat) (bs : List Byte) : Prop := m.readBytes a bs.length = bs

theorem Mem.readBytes_length (m : Mem) (a n : Nat) : (m.readBytes a n).length = n := by simp [Mem.readBytes]

theorem Mem.readBytes_add (m : Mem) (a j k : Nat) :
    m.readBytes a (j + k) = m.readBytes a j ++ m.readBytes (a + j) k := by
  rw [Mem.readBytes, List.range_add, List.map_append, List.map_map]
  exact congrArg _ (List.map_congr_left fun i _ => by rw [Function.comp_apply, Nat.add_assoc])

theorem Mem.spells_append {m : Mem} {a : Nat} {b c : List Byte} :
    m.Spells a (b ++ c) ↔ m.Spells a b ∧ m.Spells (a + b.length) c := by
  rw [Mem.Spells, List.length_append, Mem.readBytes_add]
  constructor
  · exact fun h => List.append_inj h (Mem.readBytes_length ..)
  · rintro ⟨hb, hc⟩
    rw [show m.readBytes a b.length = b from hb, show m.readBytes (a + b.length) c.length = c from hc]

theorem Mem.spells_singleton {m : Mem} {a : Nat} {b : Byte} : m.Spells a [b] ↔ m.read a = b := by
  simp [Mem.Spells, Mem.readBytes]

theorem Mem.writeBytes_spells {m : Mem} (w : m.wf = true) (a : Nat) (bs : List Byte) : (m.writeBytes a bs).Spells a bs := by
  refine List.ext_getElem (Mem.readBytes_length ..) fun i h h' => ?_
  simp [Mem.readBytes, Mem.read_writeBytes w, h']

theorem Mem.Spells.writeBytes {m : Mem} (w : m.wf = true) {a b : Nat} {bs cs : List Byte} (h : m.Spells a bs)
    (apart : b + cs.length ≤ a) : (m.writeBytes b cs).Spells a bs := by
  rw [Mem.Spells, ← h, Mem.readBytes_length]
  refine List.map_congr_left fun i _ => ?_
  rw [Mem.read_writeBytes w, if_neg (by omega)]

theorem Mem.Spells.readLe_le {m : Mem} {a n v : Nat} (h : m.Spells a (le n v)) (fits : v < 256 ^ n) : m.readLe a n = v := by
  rw [Mem.Spells, le_length] at h
  rw [Mem.readLe, h, unle_le, Nat.mod_eq_of_lt fits]

theorem sectionLength_lt (sec : Fin 5) : sectionLength sec < 256 ^ 2 := by
  revert sec
  decide

/-- A section of the image loads as its parts. -/
theorem loadSection_sectionBytes {img : Settings} (inRange : ∀ p : Fin 11, PartInRange p img[p]) {m : Mem} {acked off : Nat}
    {sec : Fin 5} (spells : m.Spells off (sectionBytes img sec)) (read : off + sectionLength sec + 3 ≤ acked) :
    loadSection m acked off sec = some ((sectionParts sec).map fun p => (p, img[p])) := by
  rw [sectionBytes, Mem.spells_append, Mem.spells_append] at spells
  obtain ⟨⟨length, contents⟩, check⟩ := spells
  rw [le_length] at contents
  rw [List.length_append, le_length, sectionContents_length inRange, Mem.spells_singleton, ← Nat.add_assoc] at check
  rw [Mem.Spells, sectionContents_length inRange] at contents
  have parts := readParts_flatMap inRange (sectionParts sec)
  rw [← sectionContents] at parts
  unfold loadSection
  simp only [contents, check, parts, length.readLe_le (sectionLength_lt sec), sumsToZero_checkByte]
  rw [if_pos]
  · rw [List.map_map]
    exact congrArg some (List.map_congr_left fun p _ => congrArg _ (inRange p).clamped)
  · refine ⟨by omega, trivial, trivial, ?_⟩
    rw [List.all_map, List.all_eq_true]
    intro p _
    rw [Function.comp_apply, (inRange p).listed]
    rfl

/-- The parts of one settings put over another's. -/
def putParts (img : Settings) (ps : List (Fin 11)) (st : Settings) : Settings :=
  ps.foldl (fun (st : Settings) (p : Fin 11) => st.set p img[p]) st

theorem putParts_get (img : Settings) (ps : List (Fin 11)) (st : Settings) (q : Fin 11) :
    (putParts img ps st)[q] = if q ∈ ps then img[q] else st[q] := by
  induction ps generalizing st with
  | nil => rfl
  | cons p t ih =>
    rw [putParts, List.foldl_cons, ← putParts, ih, vector_set_get]
    by_cases tail : q ∈ t
    · simp [tail, -Fin.getElem_fin]
    · by_cases head : p = q
      · subst head; simp [tail, -Fin.getElem_fin]
      · simp [tail, head, Ne.symm head, -Fin.getElem_fin]

/-- The sections of an image load one after another, the last of them the source. -/
theorem loadSections_image {img : Settings} (inRange : ∀ p : Fin 11, PartInRange p img[p]) {m : Mem} {acked : Nat}
    (secs : List (Fin 5)) {off : Nat} (r : Settings × Option (Fin 5)) (spells : m.Spells off (secs.flatMap (sectionBytes img)))
    (read : off + (secs.map fun sec => sectionLength sec + 3).sum ≤ acked) :
    loadSections m acked secs off r = (putParts img (secs.flatMap sectionParts) r.1, secs.getLast?.or r.2) := by
  induction secs generalizing off r with
  | nil => rfl
  | cons sec t ih =>
    rw [List.flatMap_cons, Mem.spells_append, sectionBytes_length inRange] at spells
    rw [List.map_cons, List.sum_cons] at read
    obtain ⟨first, rest⟩ := spells
    rw [loadSections, loadSection_sectionBytes inRange first (by omega)]
    simp only []
    rw [show off + 3 + sectionLength sec = off + (sectionLength sec + 3) by omega, ih _ rest (by omega), List.foldl_map,
      List.flatMap_cons, putParts, putParts, List.foldl_append]
    cases t with
    | nil => rfl
    | cons u v => rw [List.getLast?_cons_cons, List.getLast?_eq_some_getLast (List.cons_ne_nil u v)]; rfl

theorem putParts_all (img st : Settings) : putParts img ((List.finRange 5).flatMap sectionParts) st = img := by
  have all : ∀ q : Fin 11, q ∈ (List.finRange 5).flatMap sectionParts := by decide
  ext1 j hj
  exact (putParts_get img _ st ⟨j, hj⟩).trans (if_pos (all ⟨j, hj⟩))

theorem sectionsLength : ((List.finRange 5).map fun sec => sectionLength sec + 3).sum = 1673 := by decide

/-- Settles O60: each section is laid where autoload looks for it, its sum is right, and its fields read back as laid. -/
theorem autoloadReadsBackACompleteStore : Obligations.AutoloadReadsBackACompleteStore := by
  unfold Obligations.AutoloadReadsBackACompleteStore
  intro img m acked inRange w read
  generalize hm : (m.writeBytes 4 (sectionsImage img)).writeBytes 0 headerBytes = n
  have w4 := Mem.writeBytes_wf w 4 (sectionsImage img)
  have header : n.Spells 0 (le 2 0x5AC1 ++ [5, 0]) := hm ▸ Mem.writeBytes_spells w4 0 headerBytes
  have sections : n.Spells 4 ((List.finRange 5).flatMap (sectionBytes img)) :=
    hm ▸ (Mem.writeBytes_spells w 4 (sectionsImage img)).writeBytes w4 (by decide)
  obtain ⟨signature, counts⟩ := Mem.spells_append.mp header
  have count : n.read 2 = 5 := Mem.spells_singleton.mp (Mem.spells_append (b := [5]) (c := [0]).mp counts).1
  unfold autoloaded
  simp only [count, signature.readLe_le (by decide : 0x5AC1 < 256 ^ 2)]
  rw [if_pos ⟨by omega, trivial, by decide, by decide⟩,
    show (List.finRange 5).take (5 : Byte).toNat = List.finRange 5 from rfl,
    loadSections_image inRange _ _ sections (by rw [sectionsLength]; omega), putParts_all]
  rfl

/-! ## The store (R188) -/

theorem exec_settingsStore_of_asks {s : State} {c : Fin 64} (h : s.asks 10 .settingsStore c) :
    exec .settingsStore s = .next (finish s (settingsStore (s.take c) c)) := by
  show execSettingsStore s = _
  rw [execSettingsStore, headOf_of_asks h]
  rfl

theorem exec_storePageAck {s : State} {st : Store} (h : s.store = some st) :
    exec .storePageAck s = .next (finish s (pageAcked s st)) := by
  show execStorePageAck s = _
  rw [execStorePageAck, h]
  rfl

theorem exec_storePollTimeout {s : State} {st : Store} (h : s.store = some st) {n : Nat}
    (stops : n < st.pageBytes.length ∨ (n = st.pageBytes.length ∧ st.poll.due s.clock = true)) :
    exec (.storePollTimeout n) s = .next (finish s (storeStops s st n)) := by
  show execStorePollTimeout n s = _
  rw [execStorePollTimeout, h]
  exact if_pos stops

theorem pageAcked_header {s : State} {st : Store} (header : st.header = true) :
    pageAcked s st = ({ s with eeprom := s.eeprom.writeBytes st.page st.pageBytes, store := none } : State).answer st.cell
      (doneWith (storeBody imageLength 0 5 0)) := if_pos header

theorem pageAcked_last {s : State} {st : Store} (header : st.header = false) (last : st.pageEnd = imageLength) :
    pageAcked s st = startPage { s with eeprom := s.eeprom.writeBytes st.page st.pageBytes }
      { st with page := 0, header := true } := by
  rw [pageAcked, if_neg (by simp [header]), if_pos last]

theorem pageAcked_next {s : State} {st : Store} (header : st.header = false) (more : st.pageEnd ≠ imageLength) :
    pageAcked s st = startPage { s with eeprom := s.eeprom.writeBytes st.page st.pageBytes }
      { st with page := st.pageEnd } := by
  rw [pageAcked, if_neg (by simp [header]), if_neg more]

theorem pageEnd_sections {st : Store} (header : st.header = false) :
    st.pageEnd = min ((st.page / 32 + 1) * 32) 1677 := by
  rw [Store.pageEnd, if_neg (by simp [header])]
  rfl

theorem pageBytes_sections {st : Store} (header : st.header = false) :
    st.pageBytes = ((sectionsImage st.image).drop (st.page - 4)).take (st.pageEnd - st.page) := by
  rw [Store.pageBytes, if_neg (by simp [header])]

theorem pageBytes_header {st : Store} (header : st.header = true) : st.pageBytes = [0xC1, 0x5A, 5, 0] := by
  rw [Store.pageBytes, if_pos header]
  rfl

/-- The first page begins after the header and ends with the first 32 bytes. -/
theorem pageBytes_first (c : Fin 64) (img : Settings) (p : Timer) :
    (Store.mk c img 4 false p).pageBytes = (sectionsImage img).take 28 := by
  rw [pageBytes_sections rfl, pageEnd_sections rfl]
  have length : min ((4 / 32 + 1) * 32) 1677 - 4 = 28 := by decide
  simp only [length, Nat.sub_self, List.drop_zero]

/-- Pages after the first begin on a 32-byte boundary. -/
theorem pageBytes_next {st : Store} {p : Timer} (header : st.header = false) (more : st.pageEnd < 1677) :
    ({ st with page := st.pageEnd, poll := p } : Store).pageBytes =
      ((sectionsImage st.image).drop (st.pageEnd - 4)).take (min 32 (1677 - st.pageEnd)) := by
  have stop : min ((st.pageEnd / 32 + 1) * 32) 1677 - st.pageEnd = min 32 (1677 - st.pageEnd) := by
    rw [pageEnd_sections header] at more ⊢
    omega
  have next := pageBytes_sections (st := { st with page := st.pageEnd, poll := p }) header
  rw [pageEnd_sections (st := { st with page := st.pageEnd, poll := p }) header] at next
  rw [next, ← stop]

theorem sectionEnd_sum (k : Fin 5) :
    4 + (((List.finRange 5).filter (· ≤ k)).map fun j => sectionLength j + 3).sum = sectionEnd k := by
  revert k
  decide

theorem wholeSections_le (stop : Nat) : wholeSections stop ≤ 5 :=
  (List.length_filter_le _ _).trans (Nat.le_of_eq List.length_finRange)

/-- The sections end in rising order, so those wholly written come first. -/
theorem lt_wholeSections_iff (stop : Nat) (k : Fin 5) : k.val < wholeSections stop ↔ sectionEnd k ≤ stop := by
  have ends : sectionEnd 0 = 19 ∧ sectionEnd 1 = 38 ∧ sectionEnd 2 = 95 ∧ sectionEnd 3 = 108 ∧ sectionEnd 4 = 1677 := by
    decide
  obtain ⟨e0, e1, e2, e3, e4⟩ := ends
  have five : List.finRange 5 = [0, 1, 2, 3, 4] := rfl
  have count : wholeSections stop = (decide (19 ≤ stop)).toNat + (decide (38 ≤ stop)).toNat +
      (decide (95 ≤ stop)).toNat + (decide (108 ≤ stop)).toNat + (decide (1677 ≤ stop)).toNat := by
    rw [wholeSections, five, ← List.countP_eq_length_filter]
    simp only [List.countP_cons, List.countP_nil, e0, e1, e2, e3, e4]
    cases decide (19 ≤ stop) <;> cases decide (38 ≤ stop) <;> cases decide (95 ≤ stop) <;>
      cases decide (108 ≤ stop) <;> cases decide (1677 ≤ stop) <;> rfl
  rw [count]
  fin_cases k <;> simp only [Bool.toNat, Bool.cond_decide] <;> split_ifs <;> simp <;> omega

theorem settingsStore_busy {s : State} {c : Fin 64} (h : s.store.isSome = true) :
    settingsStore s c = s.answer c (refuse .busy) := if_pos h

theorem settingsStore_idle {s : State} {c : Fin 64} (h : s.store = none) :
    settingsStore s c = startPage s ⟨c, s.settings, 4, false, ⟨s.clock, 10⟩⟩ := by
  rw [settingsStore, if_neg (by simp [h])]

/-- The answer to a store that stops in its sections counts the sections that end before the stop. -/
theorem storeStops_sections {s : State} {st : Store} (header : st.header = false) (n : Nat) :
    storeStops s st n =
      ({ s with store := none, eeprom := s.eeprom.writeBytes st.page (st.pageBytes.take n) } : State).answer st.cell
        { status := .partly
          body := storeBody (st.page + n - 4) 1 (wholeSections (st.page + n)) (st.page + n) } := by
  rw [storeStops]
  simp only [header, Bool.false_eq_true, if_false]

theorem storeStops_header {s : State} {st : Store} (header : st.header = true) (page : st.page = 0) (n : Nat) :
    storeStops s st n =
      ({ s with store := none, eeprom := s.eeprom.writeBytes st.page (st.pageBytes.take n) } : State).answer st.cell
        { status := .partly, body := storeBody (1673 + n) 1 5 n } := by
  rw [storeStops]
  simp only [header, if_true, page, Nat.zero_add]
  rfl

/-- Settles O59: a page acknowledged leads to the next, to the header or to the end; a page not acknowledged to the end. -/
theorem storeWritesPageByPage : Obligations.StoreWritesPageByPage := by
  unfold Obligations.StoreWritesPageByPage
  refine fun s => ⟨fun c asked => ⟨fun busy => ?busy, fun idle => ?start⟩,
    fun st storing => ⟨fun header low high => ⟨fun more => ?next, fun last => ?last, fun n stops => ?stops⟩,
      fun header page => ⟨?done, fun n stops => ?headerStops⟩⟩⟩
  case busy =>
    rw [exec_settingsStore_of_asks asked, settingsStore_busy (s := s.take c) busy]
    rfl
  case start =>
    rw [exec_settingsStore_of_asks asked, settingsStore_idle (s := s.take c) idle, startPage, pageBytes_first]
    rfl
  case next =>
    rw [← pageEnd_sections header] at more ⊢
    rw [exec_storePageAck storing, pageAcked_next header (Nat.ne_of_lt more), startPage, pageBytes_next header more,
      pageBytes_sections header]
    rfl
  case last =>
    rw [← pageEnd_sections header] at last ⊢
    rw [exec_storePageAck storing, pageAcked_last header last, startPage,
      pageBytes_header (st := { st with page := 0, header := true, poll := _ }) rfl, pageBytes_sections header]
    rfl
  case stops =>
    rw [← pageEnd_sections header, ← pageBytes_sections header] at stops ⊢
    refine ⟨wholeSections (st.page + n), ?_, wholeSections_le _, fun k => ?_⟩
    · rw [exec_storePollTimeout storing stops, storeStops_sections header]
      rfl
    · rw [sectionEnd_sum, lt_wholeSections_iff]
  case done =>
    rw [exec_storePageAck storing, pageAcked_header header, pageBytes_header header]
    rfl
  case headerStops =>
    have stops : n < st.pageBytes.length ∨ (n = st.pageBytes.length ∧ st.poll.due s.clock = true) := by
      rw [pageBytes_header header]
      exact stops
    rw [exec_storePollTimeout storing stops, storeStops_header header page, pageBytes_header header]
    rfl

end Sys2Proof.Machine
end

