-- ==== Sys2Proof/Proofs/Pictures.lean ====
section
/-! Extents and pictures: the first fit (R24), the requests of intake list 4 (R29 to R32), and what keeps the Extent Table,
the free page count and the Picture Table consistent (R23 to R26). -/

namespace Sys2Proof.Machine

-- Checked one after another, as in the tests: a theorem checked alongside others holds its memory.
set_option Elab.async false

/-! ## Rising extents and the first fit (R23, R24) -/

/-- `n` pages from page `b` on lie below page 4,096 and clear of every extent. -/
def Fits (n : Nat) (es : List Extent) (b : Nat) : Prop :=
  b + n ≤ 4096 ∧ ∀ e ∈ es, b + n ≤ e.base ∨ e.base + e.pages ≤ b

theorem pagesUsed_le {lo : Nat} {es : List Extent} (h : extentsFrom lo es) : lo + pagesUsed es ≤ 4096 := by
  induction es generalizing lo with
  | nil => exact h
  | cons e t ih =>
    obtain ⟨start, _, rest⟩ := h
    have := ih rest
    rw [pagesUsed]
    omega

theorem extentsFrom_base_ge {lo : Nat} {es : List Extent} (h : extentsFrom lo es) : ∀ e ∈ es, lo ≤ e.base := by
  induction es generalizing lo with
  | nil => exact fun _ he => nomatch he
  | cons e t ih =>
    obtain ⟨start, _, rest⟩ := h
    intro x hx
    obtain rfl | hx := List.mem_cons.mp hx
    · exact start
    · have := ih rest x hx
      omega

theorem firstFit_some {n lo b : Nat} {es : List Extent} (rising : extentsFrom lo es) (h : firstFit n lo es = some b) :
    lo ≤ b ∧ Fits n es b := by
  induction es generalizing lo with
  | nil =>
    rw [firstFit] at h
    split at h
    · obtain rfl := Option.some.inj h
      exact ⟨Nat.le_refl _, by assumption, fun _ he => nomatch he⟩
    · exact nomatch h
  | cons e t ih =>
    obtain ⟨start, pages, rest⟩ := rising
    rw [firstFit] at h
    split at h
    · rename_i gap
      obtain rfl := Option.some.inj h
      have bases := extentsFrom_base_ge rest
      have total := pagesUsed_le rest
      refine ⟨Nat.le_refl _, by omega, fun x hx => ?_⟩
      obtain rfl | hx := List.mem_cons.mp hx
      · exact .inl gap
      · have := bases x hx
        left
        omega
    · obtain ⟨above, inside, clear⟩ := ih rest h
      refine ⟨by omega, inside, fun x hx => ?_⟩
      obtain rfl | hx := List.mem_cons.mp hx
      · exact .inr above
      · exact clear x hx

/-- Nothing fits below the first fit, or anywhere when there is none. -/
theorem firstFit_least {n lo : Nat} {es : List Extent} (rising : extentsFrom lo es) {a : Nat} (from_ : lo ≤ a)
    (below : ∀ b, firstFit n lo es = some b → a < b) : ¬ Fits n es a := by
  induction es generalizing lo with
  | nil =>
    rintro ⟨inside, _⟩
    have := below lo (by rw [firstFit, if_pos (by omega)])
    omega
  | cons e t ih =>
    obtain ⟨start, pages, rest⟩ := rising
    rintro ⟨inside, clear⟩
    rw [firstFit] at below
    split at below
    · have := below lo rfl
      omega
    · rename_i small
      obtain before | after := clear e List.mem_cons_self
      · omega
      · exact ih rest after below ⟨inside, fun x hx => clear x (List.mem_cons_of_mem _ hx)⟩

/-! ## The requests of intake list 4 -/

section requests
variable {s : State} {c : Fin 64}

theorem exec_rasterOpen (idle : s.hostWritesWait = false) (h : s.asks 4 .rasterOpen c) :
    exec .rasterOpen s = .next (finish s ((rasterOpen (s.take c) c).1.answer c (rasterOpen (s.take c) c).2)) := by
  show execRasterOpen s = _
  rw [execRasterOpen, if_neg (by simp [idle]), serve_some (headOf_of_asks h)]

theorem exec_rasterSeal (idle : s.hostWritesWait = false) (h : s.asks 4 .rasterSeal c) :
    exec .rasterSeal s = .next (finish s ((rasterSeal (s.take c) c).1.answer c (rasterSeal (s.take c) c).2)) := by
  show execRasterSeal s = _
  rw [execRasterSeal, if_neg (by simp [idle]), serve_some (headOf_of_asks h)]

theorem exec_pictureFree (idle : s.hostWritesWait = false) (h : s.asks 4 .pictureFree c) :
    exec .pictureFree s = .next (finish s ((pictureFree (s.take c) c).1.answer c (pictureFree (s.take c) c).2)) := by
  show execPictureFree s = _
  rw [execPictureFree, if_neg (by simp [idle]), serve_some (headOf_of_asks h)]

theorem exec_pictureInfo (idle : s.hostWritesWait = false) (h : s.asks 4 .pictureInfo c) :
    exec .pictureInfo s = .next (finish s ((pictureInfo (s.take c) c).1.answer c (pictureInfo (s.take c) c).2)) := by
  show execPictureInfo s = _
  rw [execPictureInfo, if_neg (by simp [idle]), serve_some (headOf_of_asks h)]

/-- What RASTER_OPEN allocates. -/
def openedRaster (w h : Nat) : Picture :=
  { kind := .raster, state := .hostFill, slot := 0, cardId := 0, byteLen := 0, valid := 0, failed := 0, width := w,
    height := h, stride := strideFor w, refs := 0 }

theorem rasterOpen_width (h : (s.cells[c]'c.isLt).req 0 2 < 16 ∨ 8192 < (s.cells[c]'c.isLt).req 0 2) :
    rasterOpen s c = (s, refuse .badField (plainField 0)) := if_pos h

theorem rasterOpen_height (w : ¬ ((s.cells[c]'c.isLt).req 0 2 < 16 ∨ 8192 < (s.cells[c]'c.isLt).req 0 2))
    (h : (s.cells[c]'c.isLt).req 2 2 < 16 ∨ 8192 < (s.cells[c]'c.isLt).req 2 2) :
    rasterOpen s c = (s, refuse .badField (plainField 1)) := (if_neg w).trans (if_pos h)

/-- Both sizes are in range. -/
def WorkCell.sizesFit (x : WorkCell) : Prop :=
  ¬ (x.req 0 2 < 16 ∨ 8192 < x.req 0 2) ∧ ¬ (x.req 2 2 < 16 ∨ 8192 < x.req 2 2)

/-- The pages a raster of the sizes asked for takes (R22, R29). -/
def WorkCell.rasterPages (x : WorkCell) : Nat := pagesFor (strideFor (x.req 0 2) * x.req 2 2)

theorem rasterOpen_overLimit (sizes : (s.cells[c]'c.isLt).sizesFit) (h : 1024 < (s.cells[c]'c.isLt).rasterPages) :
    rasterOpen s c = (s, refuse .overLimit (plainField 1)) :=
  (if_neg sizes.1).trans ((if_neg sizes.2).trans (if_pos h))

theorem rasterOpen_noRoom (sizes : (s.cells[c]'c.isLt).sizesFit) (h : ¬ 1024 < (s.cells[c]'c.isLt).rasterPages)
    (full : s.allocate (s.cells[c]'c.isLt).rasterPages (openedRaster ((s.cells[c]'c.isLt).req 0 2) ((s.cells[c]'c.isLt).req 2 2)) = none) :
    rasterOpen s c = (s, refuse .noRoom) := by
  refine (if_neg sizes.1).trans ((if_neg sizes.2).trans ((if_neg h).trans ?_))
  simp only [WorkCell.rasterPages, openedRaster] at full
  rw [full]

theorem rasterOpen_done (sizes : (s.cells[c]'c.isLt).sizesFit) (h : ¬ 1024 < (s.cells[c]'c.isLt).rasterPages) {t : State} {hd : Handle}
    {base : Nat} (room : s.allocate (s.cells[c]'c.isLt).rasterPages (openedRaster ((s.cells[c]'c.isLt).req 0 2) ((s.cells[c]'c.isLt).req 2 2)) =
      some (t, hd, base)) :
    rasterOpen s c = (t, doneWith (hd.bytes ++ le 2 base ++ le 2 (s.cells[c]'c.isLt).rasterPages ++ [0, 0] ++
      le 4 (strideFor ((s.cells[c]'c.isLt).req 0 2)))) := by
  refine (if_neg sizes.1).trans ((if_neg sizes.2).trans ((if_neg h).trans ?_))
  simp only [WorkCell.rasterPages, openedRaster] at room
  rw [room]
  rfl

end requests

theorem freeEntry_some {s : State} {i : Fin 256} (free : (s.pictures[i]'i.isLt).pic = none)
    (used : ∀ j : Fin 256, j < i → (s.pictures[j]'j.isLt).pic.isSome = true) : s.freeEntry = some i := by
  have split : List.finRange 256 = (List.finRange 256).take i.val ++ i :: (List.finRange 256).drop (i.val + 1) := by
    have inside : i.val < (List.finRange 256).length := by rw [List.length_finRange]; exact i.isLt
    have here : (List.finRange 256)[i.val] = i := by rw [List.getElem_finRange]; rfl
    conv_lhs => rw [← List.take_append_drop i.val (List.finRange 256), List.drop_eq_getElem_cons inside, here]
  rw [State.freeEntry, split, List.find?_append, List.find?_eq_none.mpr, Option.none_or, List.find?_cons_of_pos (by simp [free, -Fin.getElem_fin])]
  intro j hj
  obtain ⟨k, hk, rfl⟩ := List.mem_iff_getElem.mp hj
  rw [List.length_take, List.length_finRange] at hk
  have before : (List.finRange 256)[k]'(by rw [List.length_finRange]; omega) < i := by
    rw [List.getElem_finRange]
    exact Fin.mk_lt_of_lt_val (by simp; omega)
  rw [List.getElem_take]
  have := used _ before
  simpa [-Fin.getElem_fin, ← Option.isSome_iff_ne_none] using this

theorem freeEntry_none {s : State} (used : ∀ i : Fin 256, (s.pictures[i]'i.isLt).pic.isSome = true) : s.freeEntry = none := by
  rw [State.freeEntry, List.find?_eq_none]
  intro i _
  have := used i
  simpa [-Fin.getElem_fin, ← Option.isSome_iff_ne_none] using this

theorem freeEntry_spec {s : State} {i : Fin 256} (h : s.freeEntry = some i) : (s.pictures[i]'i.isLt).pic = none := by
  have := List.find?_some h
  simpa [-Fin.getElem_fin] using this

/-- What an allocation makes of the state: the entry's next generation and the extent at the first fit. -/
def State.allocated (s : State) (pages : Nat) (p : Picture) (i : Fin 256) (base : Nat) : State :=
  { s with extents := insertExtent ⟨base, pages, i⟩ s.extents
           freePages := s.freePages - pages
           pictures := s.pictures.set i ⟨(s.pictures[i]'i.isLt).gen + 1, some p⟩ }

theorem allocate_some {s : State} {i : Fin 256} {pages base : Nat} (entry : s.freeEntry = some i)
    (room : firstFit pages 0 s.extents = some base) (p : Picture) :
    s.allocate pages p =
      some (s.allocated pages p i base, ⟨BitVec.ofNat 8 i.val, (s.pictures[i]'i.isLt).gen + 1⟩, base) := by
  rw [State.allocate, entry, room]
  rfl

theorem allocate_none {s : State} {pages : Nat} (full : s.freeEntry = none ∨ firstFit pages 0 s.extents = none)
    (p : Picture) : s.allocate pages p = none := by
  unfold State.allocate
  obtain h | h := full
  · rw [h]
  · rw [h]
    cases s.freeEntry <;> rfl

/-- What an allocation can be. -/
theorem allocate_cases {s t : State} {pages : Nat} {p : Picture} {hd : Handle} {base : Nat}
    (h : s.allocate pages p = some (t, hd, base)) :
    ∃ i, s.freeEntry = some i ∧ firstFit pages 0 s.extents = some base ∧ t = s.allocated pages p i base ∧
      hd = ⟨BitVec.ofNat 8 i.val, (s.pictures[i]'i.isLt).gen + 1⟩ := by
  cases entry : s.freeEntry with
  | none => rw [allocate_none (.inl entry)] at h; exact nomatch h
  | some i =>
    cases room : firstFit pages 0 s.extents with
    | none => rw [allocate_none (.inr room)] at h; exact nomatch h
    | some b =>
      rw [allocate_some entry room] at h
      simp only [Option.some.injEq, Prod.mk.injEq] at h
      obtain ⟨rfl, rfl, rfl⟩ := h
      exact ⟨i, rfl, rfl, rfl, rfl⟩

/-- Settles O20: the first fit against its own meaning; RASTER_OPEN's checks in their order. -/
theorem rasterOpenAllocatesTheFirstFit : Obligations.RasterOpenAllocatesTheFirstFit := by
  unfold Obligations.RasterOpenAllocatesTheFirstFit
  refine ⟨fun n es _ rising => ⟨fun b found => ⟨(firstFit_some rising found).2, fun a below => ?least⟩,
    fun none a => ?nowhere⟩, fun s c asked idle => ⟨fun w => ?width, fun w w' h => ?height, fun w w' h h' large => ?large,
      fun w w' h h' within full => ?full, fun i b w w' h h' within free used room => ?done⟩⟩
  case least =>
    exact firstFit_least rising (Nat.zero_le a) fun b' found' => by
      rw [found] at found'
      exact Option.some.inj found' ▸ below
  case nowhere => exact firstFit_least rising (Nat.zero_le a) fun b' found' => by rw [none] at found'; exact nomatch found'
  case width => rw [exec_rasterOpen idle asked, rasterOpen_width w]; rfl
  case height => rw [exec_rasterOpen idle asked, rasterOpen_height (by omega) h]; rfl
  case large =>
    have sizes : ((s.take c).cells[c]'c.isLt).sizesFit := ⟨by omega, by omega⟩
    rw [exec_rasterOpen idle asked, rasterOpen_overLimit sizes large]
    rfl
  case full =>
    have sizes : ((s.take c).cells[c]'c.isLt).sizesFit := ⟨by omega, by omega⟩
    have none := allocate_none (s := s.take c) (full.imp_left fun used => freeEntry_none (s := s.take c) used)
      (openedRaster (((s.take c).cells[c]'c.isLt).req 0 2) (((s.take c).cells[c]'c.isLt).req 2 2))
    rw [exec_rasterOpen idle asked, rasterOpen_noRoom sizes (Nat.not_lt.mpr within) none]
    rfl
  case done =>
    have sizes : ((s.take c).cells[c]'c.isLt).sizesFit := ⟨by omega, by omega⟩
    have some := allocate_some (s := s.take c) (freeEntry_some (s := s.take c) free used) room
      (openedRaster (((s.take c).cells[c]'c.isLt).req 0 2) (((s.take c).cells[c]'c.isLt).req 2 2))
    rw [exec_rasterOpen idle asked, rasterOpen_done sizes (Nat.not_lt.mpr within) some]
    rfl

/-! ## The requests that name a picture (R26, R30 to R32) -/

theorem pictureAt_some {s : State} {h : Handle} {i : Fin 256} {p : Picture} (found : s.pictureAt h = some (i, p)) :
    i = h.index.toFin ∧ (s.pictures[i]'i.isLt).pic = some p ∧ (s.pictures[i]'i.isLt).gen = h.gen := by
  unfold State.pictureAt at found
  dsimp only at found
  split at found
  · rename_i q hq
    split at found
    · rename_i gen
      obtain ⟨rfl, rfl⟩ := by simpa using found
      exact ⟨rfl, hq, gen⟩
    · exact nomatch found
  · exact nomatch found

/-- The bytes of a current handle are its entry's index and generation. -/
theorem handle_bytes {s : State} {h : Handle} {i : Fin 256} {p : Picture} (found : s.pictureAt h = some (i, p)) :
    h.bytes = [BitVec.ofNat 8 i.val, (s.pictures[i]'i.isLt).gen] := by
  obtain ⟨rfl, _, gen⟩ := pictureAt_some found
  have index : BitVec.ofNat 8 (h.index.toFin : Fin (2 ^ 8)).val = h.index := BitVec.ofNat_toNat ..
  rw [Handle.bytes, gen]
  exact congrArg (fun b => [b, h.gen]) index.symm

section requests
variable {s : State} {c : Fin 64}

theorem rasterSeal_none (h : s.pictureAt ((s.cells[c]'c.isLt).reqHandle 0) = none) :
    rasterSeal s c = (s, refuse .notFound (plainField 0)) := by rw [rasterSeal, h]

theorem rasterSeal_some {i : Fin 256} {p : Picture} (h : s.pictureAt ((s.cells[c]'c.isLt).reqHandle 0) = some (i, p)) :
    rasterSeal s c = if p.state = .hostFill then (s.putPicture i { p with state := .sealed }, doneWith [])
      else (s, refuse .wrongState p.state.code) := by rw [rasterSeal, h]

theorem pictureFree_none (h : s.pictureAt ((s.cells[c]'c.isLt).reqHandle 0) = none) :
    pictureFree s c = (s, refuse .notFound (plainField 0)) := by rw [pictureFree, h]

theorem pictureFree_some {i : Fin 256} {p : Picture} (h : s.pictureAt ((s.cells[c]'c.isLt).reqHandle 0) = some (i, p)) :
    pictureFree s c = if p.state = .cardFill then (s, refuse .wrongState p.state.code)
      else if p.refs = 0 then (s.freePicture i, doneWith [])
      else (s.putPicture i { p with state := .doomed }, { status := .done, detail := 1 }) := by rw [pictureFree, h]

theorem pictureInfo_none (h : s.pictureAt ((s.cells[c]'c.isLt).reqHandle 0) = none) :
    pictureInfo s c = (s, refuse .notFound (plainField 0)) := by rw [pictureInfo]; simp only [h]

theorem pictureInfo_some {i : Fin 256} {p : Picture} (h : s.pictureAt ((s.cells[c]'c.isLt).reqHandle 0) = some (i, p)) :
    pictureInfo s c = (s, doneWith (pictureInfoBody s ((s.cells[c]'c.isLt).reqHandle 0) i p)) := by
  rw [pictureInfo]; simp only [h]

end requests

/-- Settles O21: each request looks its handle up and then goes by the picture's state, references or kind. -/
theorem pictureRequestsFollowTheirTables : Obligations.PictureRequestsFollowTheirTables := by
  unfold Obligations.PictureRequestsFollowTheirTables
  refine fun s c idle =>
    ⟨fun asked => ⟨fun none => ?sealNone, fun i p found => ⟨fun fill => ?sealDone, fun other => ?sealWrong⟩⟩,
      fun asked => ⟨fun none => ?freeNone, fun i p found => ⟨fun fill => ?freeWrong, fun other refs => ?freeDoomed,
        fun other refs => ?free⟩⟩,
      fun asked => ⟨fun none => ?infoNone, fun i p found => ⟨fun kind => ?infoFile, fun kind => ?infoRaster⟩⟩⟩
  case sealNone => rw [exec_rasterSeal idle asked, rasterSeal_none (s := s.take c) none]; rfl
  case sealDone => rw [exec_rasterSeal idle asked, rasterSeal_some (s := s.take c) found, if_pos fill]; rfl
  case sealWrong => rw [exec_rasterSeal idle asked, rasterSeal_some (s := s.take c) found, if_neg other]; rfl
  case freeNone => rw [exec_pictureFree idle asked, pictureFree_none (s := s.take c) none]; rfl
  case freeWrong =>
    rw [exec_pictureFree idle asked, pictureFree_some (s := s.take c) found, if_pos fill, fill]; rfl
  case freeDoomed =>
    rw [exec_pictureFree idle asked, pictureFree_some (s := s.take c) found, if_neg other, if_neg (by omega)]; rfl
  case free =>
    rw [exec_pictureFree idle asked, pictureFree_some (s := s.take c) found, if_neg other, if_pos refs]; rfl
  case infoNone => rw [exec_pictureInfo idle asked, pictureInfo_none (s := s.take c) none]; rfl
  case infoFile =>
    rw [exec_pictureInfo idle asked, pictureInfo_some (s := s.take c) found, pictureInfoBody, handle_bytes found, kind]
    simp only [List.append_assoc]
    rfl
  case infoRaster =>
    rw [exec_pictureInfo idle asked, pictureInfo_some (s := s.take c) found, pictureInfoBody, handle_bytes found, kind]
    simp only [List.append_assoc]
    rfl

end Sys2Proof.Machine
end

