-- ==== Sys2Proof/Proofs/Port.lean ====
section
/-! The staging window and the staging port: host accesses cut into spans (R36 to R38), the grants (R39), the block write
(R28, R65, R66) and the pixel runs that come back (R40, R176). -/

namespace Sys2Proof.Machine

-- Checked one after another, as in the tests: a theorem checked alongside others holds its memory.
set_option Elab.async false

/-! ## Host writes (R36, R38) -/

/-- The offsets rise strictly along the words. -/
def RisingWords (ws : List HostWord) : Prop := ws.Pairwise fun x y => x.offset < y.offset

theorem hostWords_offset_ge {o : Nat} {ws : List StagingWord} : ∀ w ∈ hostWords o ws, o ≤ w.offset := by
  induction ws generalizing o with
  | nil => exact fun _ h => nomatch h
  | cons x t ih =>
    intro w hw
    obtain rfl | hw := List.mem_cons.mp hw
    · exact Nat.le_refl _
    · have := ih w hw
      omega

theorem hostWords_rising (o : Nat) (ws : List StagingWord) : RisingWords (hostWords o ws) := by
  induction ws generalizing o with
  | nil => exact List.Pairwise.nil
  | cons x t ih =>
    refine List.Pairwise.cons (fun w hw => ?_) (ih _)
    have := hostWords_offset_ge w hw
    simp only
    omega

/-- What the cut of a word before others' spans can be: it joins the first of them or begins its own. -/
theorem spans_cons (w : HostWord) (t : List HostWord) :
    (∃ v vs rest, spans t = (v :: vs) :: rest ∧ w.offset / 64 = v.offset / 64 ∧ spans (w :: t) = (w :: v :: vs) :: rest) ∨
    ((∀ v vs rest, spans t = (v :: vs) :: rest → w.offset / 64 ≠ v.offset / 64) ∧ spans (w :: t) = [w] :: spans t) := by
  rw [spans]
  split
  · rename_i v vs rest h
    split
    · rename_i same
      exact .inl ⟨v, vs, rest, h, same, rfl⟩
    · rename_i other
      right
      refine ⟨fun v' vs' rest' h' => ?_, by rw [h]⟩
      rw [h] at h'
      simp only [List.cons.injEq] at h'
      obtain ⟨⟨rfl, _⟩, _⟩ := h'
      exact other
  · rename_i h
    exact .inr ⟨fun v vs rest h' => absurd h' (h v vs rest), rfl⟩

theorem spans_flatten (ws : List HostWord) : (spans ws).flatten = ws := by
  induction ws with
  | nil => rfl
  | cons w t ih =>
    obtain ⟨v, vs, rest, h, _, cut⟩ | ⟨_, cut⟩ := spans_cons w t
    · rw [cut, ← ih, h]
      rfl
    · rw [cut, List.flatten_cons, ih]
      rfl

theorem mem_of_mem_spans {ws a : List HostWord} {x : HostWord} (ha : a ∈ spans ws) (hx : x ∈ a) : x ∈ ws := by
  rw [← spans_flatten ws]
  exact List.mem_flatten_of_mem ha hx

/-- Each access holds words, all of one span. -/
theorem spans_one_span (ws : List HostWord) :
    ∀ a ∈ spans ws, a ≠ [] ∧ ∀ x ∈ a, ∀ y ∈ a, x.offset / 64 = y.offset / 64 := by
  induction ws with
  | nil => exact fun _ h => nomatch h
  | cons w t ih =>
    intro a ha
    obtain ⟨v, vs, rest, h, same, cut⟩ | ⟨_, cut⟩ := spans_cons w t
    · rw [cut] at ha
      obtain rfl | ha := List.mem_cons.mp ha
      · have old := (ih (v :: vs) (h ▸ List.mem_cons_self)).2
        have all : ∀ x ∈ w :: v :: vs, x.offset / 64 = v.offset / 64 := by
          intro x hx
          obtain rfl | hx := List.mem_cons.mp hx
          · exact same
          · exact old x hx v List.mem_cons_self
        exact ⟨List.cons_ne_nil _ _, fun x hx y hy => (all x hx).trans (all y hy).symm⟩
      · exact ih a (h ▸ List.mem_cons_of_mem _ ha)
    · rw [cut] at ha
      obtain rfl | ha := List.mem_cons.mp ha
      · refine ⟨List.cons_ne_nil _ _, fun x hx y hy => ?_⟩
        rw [List.mem_singleton.mp hx, List.mem_singleton.mp hy]
      · exact ih a ha

/-- The accesses of rising words stand in ascending order of their spans. -/
theorem spans_ascending {ws : List HostWord} (rising : RisingWords ws) :
    (spans ws).Pairwise fun a b => ∀ x ∈ a, ∀ y ∈ b, x.offset / 64 < y.offset / 64 := by
  induction ws with
  | nil => exact List.Pairwise.nil
  | cons w t ih =>
    obtain ⟨first, rising⟩ := List.pairwise_cons.mp rising
    have below := ih rising
    obtain ⟨v, vs, rest, h, same, cut⟩ | ⟨other, cut⟩ := spans_cons w t
    · rw [h] at below
      obtain ⟨head, tail⟩ := List.pairwise_cons.mp below
      rw [cut]
      refine List.Pairwise.cons (fun b hb x hx y hy => ?_) tail
      obtain rfl | hx := List.mem_cons.mp hx
      · rw [same]
        exact head b hb v List.mem_cons_self y hy
      · exact head b hb x hx y hy
    · rw [cut]
      refine List.Pairwise.cons (fun b hb x hx y hy => ?_) below
      obtain rfl := List.mem_singleton.mp hx
      have after := first y (mem_of_mem_spans hb hy)
      cases hs : spans t with
      | nil => rw [hs] at hb; exact nomatch hb
      | cons a rest =>
        have nonempty := (spans_one_span t a (hs ▸ List.mem_cons_self)).1
        obtain ⟨v, vs, rfl⟩ := List.exists_cons_of_ne_nil nonempty
        have apart := other v vs rest hs
        have start := first v (mem_of_mem_spans (hs ▸ List.mem_cons_self) List.mem_cons_self)
        have reached : v.offset / 64 ≤ y.offset / 64 := by
          rw [hs] at hb below
          obtain rfl | hb := List.mem_cons.mp hb
          · exact Nat.le_of_eq ((spans_one_span t _ (hs ▸ List.mem_cons_self)).2 v List.mem_cons_self y hy)
          · exact Nat.le_of_lt ((List.pairwise_cons.mp below).1 b hb v List.mem_cons_self y hy)
        omega

/-- Stray words leave the last of them in STRAY_ADDRESS. -/
theorem foldl_strayAt (s : State) (ws : List HostWord) :
    ws.foldl (fun t w => t.strayAt .staging w.offset) s = match ws.getLast? with
      | none => s
      | some w => s.strayAt .staging w.offset := by
  induction ws generalizing s with
  | nil => rfl
  | cons w t ih =>
    rw [List.foldl_cons, ih]
    cases t with
    | nil => rfl
    | cons v u =>
      rw [List.getLast?_cons_cons, List.getLast?_eq_some_getLast (List.cons_ne_nil v u)]
      rfl

theorem exec_stagingWrite {s : State} {o : Nat} {ws : List StagingWord} (aligned : o % 4 = 0) :
    exec (.stagingWrite o ws) s =
      if o + 4 * ws.length ≤ 268435456 then .next (finish s (stagingWrite s o ws)) else .fault .outsideStagingWindow := by
  show execStagingWrite o ws s = _
  rw [execStagingWrite, show o / 4 * 4 = o by omega]
  rfl

theorem exec_stagingRead {s : State} {o n : Nat} (aligned : o % 4 = 0) :
    exec (.stagingRead o n) s =
      if o + 4 * n ≤ 268435456 then .next (finish s (stagingRead s o n)) else .fault .outsideStagingWindow := by
  show execStagingRead o n s = _
  rw [execStagingRead, show o / 4 * 4 = o by omega]
  rfl

theorem stagingWrite_eq (s : State) (o : Nat) (ws : List StagingWord) :
    stagingWrite s o ws = ((match ((hostWords o ws).filter fun (w : HostWord) => !s.hostMayWrite w.offset).getLast? with
      | none => s
      | some w => s.strayAt .staging w.offset).queueHost
        ((spans ((hostWords o ws).filter fun w => s.hostMayWrite w.offset)).map .write)) := by
  rw [stagingWrite]
  simp only [foldl_strayAt]

/-! ## Host reads (R37, R38) -/

/-- One access of a host read: its offset and its words. -/
def cutSpans : Nat → Nat → Nat → List (Nat × Nat)
  | 0, _, _ => []
  | f + 1, offset, count =>
    if count = 0 then []
    else
      let n := min count ((64 - offset % 64) / 4)
      (offset, n) :: cutSpans f (offset + 4 * n) (count - n)

theorem readSpans_eq (f o n : Nat) : readSpans f o n = (cutSpans f o n).map fun q => .read q.1 q.2 := by
  induction f generalizing o n with
  | zero => rfl
  | succ f ih =>
    rw [readSpans, cutSpans]
    split
    · rfl
    · simp only [ih, List.map_cons]

theorem cutSpans_offset_ge {f o n : Nat} : ∀ q ∈ cutSpans f o n, o ≤ q.1 := by
  induction f generalizing o n with
  | zero => exact fun _ h => nomatch h
  | succ f ih =>
    intro q hq
    rw [cutSpans] at hq
    split at hq
    · exact nomatch hq
    · obtain rfl | hq := List.mem_cons.mp hq
      · exact Nat.le_refl _
      · have := ih q hq
        omega

theorem cutSpans_inside {f o n : Nat} (aligned : o % 4 = 0) : ∀ q ∈ cutSpans f o n, 1 ≤ q.2 ∧ q.1 % 64 + 4 * q.2 ≤ 64 := by
  induction f generalizing o n with
  | zero => exact fun _ h => nomatch h
  | succ f ih =>
    intro q hq
    rw [cutSpans] at hq
    split at hq
    · exact nomatch hq
    · obtain rfl | hq := List.mem_cons.mp hq
      · simp only
        omega
      · exact ih (by omega) q hq

/-- A cut that does not end the read ends at the end of its span. -/
theorem cutSpans_ascending {f o n : Nat} (aligned : o % 4 = 0) :
    (cutSpans f o n).Pairwise fun q p => q.1 / 64 < p.1 / 64 := by
  induction f generalizing o n with
  | zero => exact List.Pairwise.nil
  | succ f ih =>
    rw [cutSpans]
    split
    · exact List.Pairwise.nil
    · refine List.Pairwise.cons (fun p hp => ?_) (ih (by omega))
      have after := cutSpans_offset_ge p hp
      have more : n - min n ((64 - o % 64) / 4) ≠ 0 := by
        intro done
        rw [done] at hp
        cases f with
        | zero => exact nomatch hp
        | succ f => rw [cutSpans, if_pos rfl] at hp; exact nomatch hp
      simp only
      omega

theorem cutSpans_words {f o n : Nat} (aligned : o % 4 = 0) (fuel : n ≤ f) :
    (cutSpans f o n).flatMap (fun q => (List.range q.2).map fun i => q.1 + 4 * i) =
      (List.range n).map fun i => o + 4 * i := by
  induction f generalizing o n with
  | zero =>
    obtain rfl : n = 0 := by omega
    rfl
  | succ f ih =>
    rw [cutSpans]
    split
    · rename_i none
      rw [none]
      rfl
    · generalize hk : min n ((64 - o % 64) / 4) = k
      have rest := ih (o := o + 4 * k) (n := n - k) (by omega) (by omega)
      simp only [List.flatMap_cons, rest]
      conv_rhs => rw [show n = k + (n - k) by omega, List.range_add, List.map_append, List.map_map]
      congr 1
      exact List.map_congr_left fun i _ => by simp only [Function.comp_apply]; omega

theorem takeWhile_readsFree (s : State) (as : List HostAccess) :
    ∃ zeros : List (Nat × Nat), as.takeWhile s.readsFree = zeros.map (fun q => .read q.1 q.2) ∧
      ∀ q ∈ zeros, s.extentAt (q.1 / 65536) = none := by
  induction as with
  | nil => exact ⟨[], rfl, fun _ h => nomatch h⟩
  | cons a t ih =>
    obtain ⟨zeros, same, free⟩ := ih
    rw [List.takeWhile_cons]
    split
    · rename_i h
      match a, h with
      | .read o n, h =>
        refine ⟨(o, n) :: zeros, by rw [same]; rfl, fun q hq => ?_⟩
        obtain rfl | hq := List.mem_cons.mp hq
        · simpa [State.readsFree] using h
        · exact free q hq
    · exact ⟨[], rfl, fun _ h => nomatch h⟩

theorem foldl_answerZeros (s : State) (zeros : List (Nat × Nat)) :
    (zeros.map fun q => HostAccess.read q.1 q.2).foldl answerZeros s =
      { s with sent := s.sent ++ zeros.map fun q => .stagingData q.1 (List.replicate (4 * q.2) 0) } := by
  induction zeros generalizing s with
  | nil => rw [List.map_nil, List.map_nil, List.append_nil]; rfl
  | cons q t ih =>
    rw [List.map_cons, List.foldl_cons, ih]
    simp [answerZeros, State.emit]

/-- Settles O22: the words of a write and the cuts of a read, by induction along them; the drain answers the reads of free
pages that stand first. -/
theorem stagingAccessesAreCheckedWordByWord : Obligations.StagingAccessesAreCheckedWordByWord := by
  unfold Obligations.StagingAccessesAreCheckedWordByWord
  refine ⟨fun s o ws aligned => ⟨fun inside => ?write, fun outside => ?writeOutside⟩,
    fun s o n aligned => ⟨fun inside => ?read, fun outside => ?readOutside⟩, fun s => ?drain⟩
  case write =>
    have rising : RisingWords ((hostWords o ws).filter fun w => s.hostMayWrite w.offset) :=
      (hostWords_rising o ws).filter _
    refine ⟨_, _, by rw [exec_stagingWrite aligned, if_pos inside], spans_flatten _, spans_one_span _,
      spans_ascending rising, ?_, ?_⟩
    · rw [stagingWrite_eq]
      split <;> rfl
    · rw [stagingWrite_eq]
      generalize ((hostWords o ws).filter fun (w : HostWord) => !s.hostMayWrite w.offset).getLast? = last
      cases last <;> exact ⟨rfl, rfl, rfl⟩
  case writeOutside => rw [exec_stagingWrite aligned, if_neg (by omega)]
  case read =>
    refine ⟨cutSpans n o n, cutSpans_inside aligned, cutSpans_ascending aligned, cutSpans_words aligned (Nat.le_refl n), ?_⟩
    rw [exec_stagingRead aligned, if_pos inside, stagingRead, readSpans_eq]
    rfl
  case readOutside => rw [exec_stagingRead aligned, if_neg (by omega)]
  case drain =>
    obtain ⟨zeros, same, free⟩ := takeWhile_readsFree s s.port.hostQueue
    refine ⟨zeros, s.port.hostQueue.dropWhile s.readsFree, ?_, free, fun o n head => ?_, ?_⟩
    · rw [← same, List.takeWhile_append_dropWhile]
    · have stays := List.head?_dropWhile_not s.readsFree s.port.hostQueue
      rw [head] at stays
      simpa [State.readsFree, Option.isSome_iff_ne_none] using stays
    · rw [drainHost]
      simp only [same, foldl_answerZeros]

/-! ## The port's grants (R39) -/

theorem exec_portGrant {s : State} (idle : s.port.inFlight = none) : exec .portGrant s = match s.portChoice with
    | some .host => .next (finish s (grantHost s))
    | some .render => .next (finish s (grantRun s))
    | some (.channel c) => .next (finish s (grantChannelWrite s c))
    | none => .next s := by
  show execPortGrant s = _
  rw [execPortGrant, if_pos idle]
  rfl

theorem hostWaits_eq_false_iff {s : State} : s.hostWaits = false ↔ s.port.hostQueue = [] := by
  simp [State.hostWaits]

theorem channelWaits_eq_false_iff {s : State} {c : Fin 2} : s.channelWaits c = false ↔ (s.channels[c]'c.isLt).buffer = none := by
  simp [State.channelWaits]

/-- The host window is not due for a grant before the others. -/
theorem host_not_due {s : State} (h : s.port.hostQueue = [] ∨ s.port.hostWait < 8) :
    (s.hostWaits && decide (8 ≤ s.port.hostWait)) = false := by
  obtain empty | few := h
  · rw [hostWaits_eq_false_iff.mpr empty, Bool.false_and]
  · rw [decide_eq_false (by omega), Bool.and_false]

theorem portChoice_host {s : State} (waits : s.hostWaits = true)
    (h : 8 ≤ s.port.hostWait ∨ (s.renderWaits = false ∧ ∀ c : Fin 2, (s.channels[c]'c.isLt).buffer = none)) :
    s.portChoice = some .host := by
  unfold State.portChoice
  obtain due | ⟨render, channels⟩ := h
  · rw [if_pos (by simp [waits, due])]
  · have none (c : Fin 2) : s.channelWaits c = false := channelWaits_eq_false_iff.mpr (channels c)
    simp only [State.channelChoice, none, render, waits]
    split <;> rfl

theorem portChoice_render {s : State} (waits : s.renderWaits = true) (h : s.port.hostQueue = [] ∨ s.port.hostWait < 8) :
    s.portChoice = some .render := by
  rw [State.portChoice, host_not_due h, if_neg Bool.false_ne_true, if_pos waits]

theorem otherChannel_eq {c d : Fin 2} (h : c ≠ d) : otherChannel c = d := by
  revert h
  revert c d
  decide

theorem channelChoice_eq {s : State} {c d : Fin 2} (apart : c ≠ d) (waits : s.channelWaits c = true)
    (turn : s.channelWaits d = false ∨ s.port.turn = c) : s.channelChoice = some c := by
  have both : ∀ c d : Fin 2, c ≠ d → (c = 0 ∧ d = 1) ∨ (c = 1 ∧ d = 0) := by decide
  unfold State.channelChoice
  obtain ⟨rfl, rfl⟩ | ⟨rfl, rfl⟩ := both c d apart <;> obtain other | turn := turn <;> simp [*]

theorem portChoice_channel {s : State} {c : Fin 2} (render : s.renderWaits = false)
    (h : s.port.hostQueue = [] ∨ s.port.hostWait < 8) (choice : s.channelChoice = some c) :
    s.portChoice = some (.channel c) := by
  rw [State.portChoice, host_not_due h, if_neg Bool.false_ne_true, render, if_neg Bool.false_ne_true, choice]

theorem hostWait_counted (s : State) :
    (if s.hostWaits then s.port.hostWait + 1 else 0) = if s.port.hostQueue = [] then 0 else s.port.hostWait + 1 := by
  by_cases h : s.port.hostQueue = []
  · rw [if_pos h, hostWaits_eq_false_iff.mpr h, if_neg Bool.false_ne_true]
  · rw [if_neg h, if_pos (by simpa [State.hostWaits] using h)]

/-- Settles O23: the arbiter's choice in each case, and the grant to the client chosen. -/
theorem portGrantsByPriority : Obligations.PortGrantsByPriority := by
  unfold Obligations.PortGrantsByPriority
  refine fun s idle => ⟨fun a rest queue h => ?host, fun j run rest job runs h => ?render,
    fun c d apart waits turn render h => ?channel⟩
  case host =>
    rw [exec_portGrant idle, portChoice_host (by simp [State.hostWaits, queue]) h]
    simp only [grantHost, queue]
    cases a <;> rfl
  case render =>
    rw [exec_portGrant idle, portChoice_render (by simp [State.renderWaits, job, runs]) h]
    simp only [grantRun, job, runs, State.countHostWait, hostWait_counted]
  case channel =>
    have choice := channelChoice_eq apart waits (turn.imp_left channelWaits_eq_false_iff.mpr)
    rw [exec_portGrant idle, portChoice_channel render h choice]
    simp only [grantChannelWrite, State.countHostWait, hostWait_counted, otherChannel_eq apart]

/-! ## The block write (R28, R65, R66) -/

theorem writeBlock_fills {s : State} {b : BlockBuf} {i : Fin 256} {p : Picture}
    (found : s.pictureAt b.picture = some (i, p)) (fill : p.state = .cardFill) :
    s.writeBlock b = (({ s with
      dram := s.dram.writeBytes (s.baseOf i * 65536 + b.pos * 512) (b.data.getD (List.replicate 512 0)) } : State).putPicture i
        { p with valid := if b.data.isSome then p.valid + 512 else p.valid
                 failed := if b.data.isSome then p.failed else p.failed + 1 }, true) := by
  unfold State.writeBlock
  rw [found]
  simp only [fill, if_true]
  cases b.data <;> rfl

theorem writeBlock_left {s : State} {b : BlockBuf} {i : Fin 256} {p : Picture}
    (found : s.pictureAt b.picture = some (i, p)) (left : p.state ≠ .cardFill) : s.writeBlock b = (s, false) := by
  unfold State.writeBlock
  rw [found]
  exact if_neg left

/-- A block write changes the memory and its picture only. -/
theorem writeBlock_frame (s : State) (b : BlockBuf) :
    (s.writeBlock b).1 = { s with dram := (s.writeBlock b).1.dram, pictures := (s.writeBlock b).1.pictures } := by
  unfold State.writeBlock
  split
  · dsimp only
    split <;> rfl
  · rfl

/-- A read counted once more, with a failed block's position (R66). -/
def ReadRec.counted (r : ReadRec) (b : BlockBuf) : ReadRec :=
  { r with placed := r.placed + 1
           failedList := if b.data = none ∧ r.failedList.length < 16 then r.failedList ++ [b.pos] else r.failedList
           failedTotal := if b.data = none then r.failedTotal + 1 else r.failedTotal }

@[simp] theorem modRead_read (s : State) (k : Fin 4) (f : ReadRec → ReadRec) :
    ((s.modRead k f).slots[k]'k.isLt).read = (s.slots[k]'k.isLt).read.map f := by
  rw [State.modRead, modSlot_get, if_pos rfl]

@[simp] theorem showRead_read (s : State) (k : Fin 4) (a : Bool) : ((showRead s k a).slots[k]'k.isLt).read = (s.slots[k]'k.isLt).read := by
  rw [showRead, modSlot_get, if_pos rfl]
  split <;> rename_i h
  · rfl
  · exact h.symm ▸ rfl

/-- Counting a placed block changes the read of the slot, and group 4 at every 256th. -/
theorem countPlaced_read {s : State} {k : Fin 4} {b : BlockBuf} {r : ReadRec} (reading : (s.slots[k]'k.isLt).read = some r) :
    ((countPlaced s k b).slots[k]'k.isLt).read = some (r.counted b) := by
  have counted : ((s.modRead k fun r =>
      let r := { r with placed := r.placed + 1 }
      if b.data.isSome then r
      else { r with failedList := if r.failedList.length < 16 then r.failedList ++ [b.pos] else r.failedList,
                    failedTotal := r.failedTotal + 1 }).slots[k]'k.isLt).read = some (r.counted b) := by
    rw [modRead_read, reading, Option.map_some, ReadRec.counted]
    cases b.data <;> simp
  unfold countPlaced
  simp only [counted]
  split
  · rw [showRead_read]
    exact counted
  · exact counted

/-- Only slots differ. -/
theorem countPlaced_frame (s : State) (k : Fin 4) (b : BlockBuf) :
    countPlaced s k b = { s with slots := (countPlaced s k b).slots } := by
  unfold countPlaced
  dsimp only
  split
  · split <;> rfl
  · rfl

/-- With nothing owed and the run not complete, an EMPTY buffer at most starts the data wait. -/
theorem pump_waits {s : State} {k : Fin 4} {r : ReadRec} (reading : (s.slots[k]'k.isLt).read = some r) (owed : r.owed = .none)
    (phase : r.phase ≠ .draining) :
    pump s k = { s with slots := (pump s k).slots } ∧ ((pump s k).slots[k]'k.isLt).read = some r := by
  have what : pump s k = s.slotWait k .data 100 ∨ pump s k = s := by
    unfold pump
    simp only [reading, owed]
    cases h : r.phase with
    | receiving => exact .inl rfl
    | draining => exact absurd h phase
    | _ => exact .inr rfl
  obtain waits | same := what
  · rw [waits, State.slotWait, modSlot_get, if_pos rfl]
    exact ⟨rfl, reading⟩
  · rw [same]
    exact ⟨rfl, reading⟩

/-- A grant of a channel whose slot's read owes nothing and has blocks to come. -/
theorem grantBlock_plain {s : State} {c : Fin 2} {k : Fin 4} {m : ChanMode} {b : BlockBuf} {r : ReadRec}
    (channel : (s.channels[c]'c.isLt) = ⟨some k, m, some b⟩) (reading : (s.slots[k]'k.isLt).read = some r) (owed : r.owed = .none)
    (phase : r.phase ≠ .draining) :
    grantBlock s c = { (s.writeBlock b).1 with
      channels := s.channels.set c ⟨some k, m, none⟩
      slots := (grantBlock s c).slots } ∧
    ((grantBlock s c).slots[k]'k.isLt).read = some (if (s.writeBlock b).2 then r.counted b else r) := by
  generalize hw : s.writeBlock b = w
  obtain ⟨t, written⟩ := w
  have frame := writeBlock_frame s b
  rw [hw] at frame
  have slots : t.slots = s.slots := by rw [show t = _ from frame]
  have channels : t.channels = s.channels := by rw [show t = _ from frame]
  have grant : grantBlock s c = pump (if written then countPlaced (t.setChannel c ⟨some k, m, none⟩) k b
      else t.setChannel c ⟨some k, m, none⟩) k := by
    rw [grantBlock, channel]
    simp only [hw, channels, channel]
  have emptied : ((t.setChannel c ⟨some k, m, none⟩).slots[k]'k.isLt).read = some r := by
    rw [State.setChannel_slots, slots, reading]
  rw [grant]
  cases written with
  | true =>
    have counted := countPlaced_read (b := b) emptied
    obtain ⟨same, read⟩ := pump_waits counted owed phase
    refine ⟨?_, read⟩
    rw [if_pos rfl, same, countPlaced_frame, ← channels]
    rfl
  | false =>
    obtain ⟨same, read⟩ := pump_waits emptied owed phase
    refine ⟨?_, read⟩
    rw [if_neg Bool.false_ne_true, same, ← channels]
    rfl

/-- Settles O24: the block lies at its position, and the grant empties the buffer and counts the block. -/
theorem blockWriteFillsThePicture : Obligations.BlockWriteFillsThePicture := by
  unfold Obligations.BlockWriteFillsThePicture
  refine ⟨fun s b i p w found => ⟨fun fill whole => ?fills, writeBlock_left found⟩,
    fun s c k m b i p r channel found reading owed phase => ?grant⟩
  case fills =>
    have length : (b.data.getD (List.replicate 512 0)).length = 512 := by
      cases data : b.data with
      | none => exact List.length_replicate
      | some bytes => exact whole bytes data
    refine ⟨_, writeBlock_fills found fill, rfl, fun n h => ?_, fun a h => ?_⟩
    · rw [State.putPicture, State.setPicture_dram, Mem.read_writeBytes w, if_pos (by omega), Nat.add_sub_cancel_left]
      cases b.data with
      | none => exact (List.getD_eq_getElem _ _ (List.length_replicate.symm ▸ h)).trans (List.getElem_replicate _)
      | some bytes => rfl
    · rw [State.putPicture, State.setPicture_dram, Mem.read_writeBytes w, if_neg (by omega)]
  case grant =>
    obtain ⟨same, read⟩ := grantBlock_plain channel reading owed phase
    refine ⟨by rw [same], by rw [same], by rw [same], fun left => ?_, fun fill => ?_⟩
    · rw [read, writeBlock_left found left]
      rfl
    · rw [read, writeBlock_fills found fill]
      rfl

/-! ## Pixel runs (R40, R176) -/

theorem exec_pixelRunReturn {s : State} {g : RunGrant} (h : s.port.inFlight = some g) :
    exec .pixelRunReturn s = .next (finish s (if g.live then
      runArrives { s with port := { s.port with inFlight := none } } g
      else { s with port := { s.port with inFlight := none } })) := by
  show execPixelRunReturn s = _
  rw [execPixelRunReturn, h]
  rfl

/-- Settles O25: a run is discarded, joins the line, or completes it. -/
theorem pixelRunsComeBack : Obligations.PixelRunsComeBack := by
  unfold Obligations.PixelRunsComeBack
  refine fun s g granted => ⟨fun dead => ?dead, fun j run next rest live job runs => ?more,
    fun j run live job runs => ?last⟩
  case dead => rw [exec_pixelRunReturn granted, dead]; rfl
  case more =>
    rw [exec_pixelRunReturn granted, live, if_pos rfl, runArrives]
    simp only [job, runs]
    rfl
  case last =>
    rw [exec_pixelRunReturn granted, live, if_pos rfl, runArrives]
    simp only [job, runs]
    rfl

end Sys2Proof.Machine
end

