-- ==== Sys2Proof/Proofs/Slots.lean ====
section
/-! The Card Slot Controllers outside a read: insertion (R44 to R46), identification (R46, R47), tier settle (R48) and
CARD_RELEASE (R51, R52). -/

namespace Sys2Proof.Machine

-- Checked one after another, as in the tests: a theorem checked alongside others holds its memory.
set_option Elab.async false

/-! ## One slot changed -/

theorem modSlot_eq_setSlot {s : State} {k : Fin 4} {f : Slot → Slot} {y : Slot} (h : f (s.slots[k]'k.isLt) = y) :
    s.modSlot k f = s.setSlot k y := congrArg (s.setSlot k) h

@[simp] theorem setSlot_get (s : State) (k j : Fin 4) (x : Slot) :
    ((s.setSlot k x).slots[j]'j.isLt) = if k = j then x else (s.slots[j]'j.isLt) := vector_set_get s.slots k j x

theorem setSlot_setSlot (s : State) (k : Fin 4) (x y : Slot) : (s.setSlot k x).setSlot k y = s.setSlot k y :=
  congrArg (fun v => ({ s with slots := v } : State)) (Vector.set_set ..)

theorem modSlot_setSlot (s : State) (k : Fin 4) (x : Slot) (f : Slot → Slot) :
    (s.setSlot k x).modSlot k f = s.setSlot k (f x) := by
  rw [State.modSlot, setSlot_setSlot, setSlot_get, if_pos rfl]

theorem slotWait_setSlot (s : State) (k : Fin 4) (x : Slot) (w : SlotWait) (d : Nat) :
    (s.setSlot k x).slotWait k w d = s.setSlot k { x with timer := some ⟨w, ⟨s.clock, d⟩⟩ } := modSlot_setSlot s k x _

theorem emit_modSlot (s : State) (o : Output) (k : Fin 4) (f : Slot → Slot) :
    (s.emit o).modSlot k f = (s.modSlot k f).emit o := rfl

theorem enter_same {x : Slot} {st : SlotState} (h : st.led = x.state.led) (now : Word) :
    x.enter now st = { x with state := st } := if_pos h

theorem enter_other {x : Slot} {st : SlotState} (h : st.led ≠ x.state.led) (now : Word) :
    x.enter now st = { x with state := st, ledLit := st.led != .off,
                              ledTimer := if st.led.blinks then some ⟨now, 500⟩ else none } := if_neg h

theorem enter_state (x : Slot) (now : Word) (st : SlotState) : (x.enter now st).state = st := by
  rw [Slot.enter]
  split <;> rfl

/-! ## Insertion (R44, R45, R46) -/

section insertion
variable {s : State} {k : Fin 4}

theorem waitOver_of_timer {x : Slot} {w : SlotWait} {tm : Timer} {now : Word} (h : x.timer = some ⟨w, tm⟩)
    (due : tm.due now = true) : x.waitOver now w = true := by
  simp [Slot.waitOver, h, due]

theorem waits_of_timer {x : Slot} {w : SlotWait} {tm : Timer} (h : x.timer = some ⟨w, tm⟩) : x.waits w = true := by
  simp [Slot.waits, h]

theorem exec_detectClose (opened : (s.slots[k]'k.isLt).detectClosed = false) (running : s.running = true)
    (empty : (s.slots[k]'k.isLt).state = .empty) : exec (.detectClose k) s = .next (finish s
      (startSettling (s.modSlot k fun x => { x with detectClosed := true, openTimer := none }) k)) := by
  show execDetectClose k s = _
  simp only [execDetectClose, opened, running, empty, Bool.false_eq_true, if_false, and_self, if_true, event]

theorem exec_detectOpen (closed : (s.slots[k]'k.isLt).detectClosed = true) : exec (.detectOpen k) s =
    .next (finish s (s.modSlot k fun x =>
      let x := { x with detectClosed := false }
      match x.state with
      | .empty => x
      | .settling => { x.enter s.clock .empty with timer := none }
      | _ => { x with openTimer := some ⟨s.clock, 1⟩ })) := by
  show execDetectOpen k s = _
  rw [execDetectOpen]
  exact if_pos closed

theorem exec_settleTimerExpiry (state : (s.slots[k]'k.isLt).state = .settling) (closed : (s.slots[k]'k.isLt).detectClosed = true)
    (ranOut : (s.slots[k]'k.isLt).waitOver s.clock .settle = true) :
    exec (.settleTimerExpiry k) s = .next (finish s (startRamp s k)) := by
  show execSettleTimerExpiry k s = _
  simp only [execSettleTimerExpiry, state, closed, ranOut, and_self, if_true, event]

theorem exec_offIntervalExpiry (state : (s.slots[k]'k.isLt).state = .powering)
    (ranOut : (s.slots[k]'k.isLt).waitOver s.clock .offInterval = true) :
    exec (.offIntervalExpiry k) s = .next (finish s (startRamp s k)) := by
  show execOffIntervalExpiry k s = _
  simp only [execOffIntervalExpiry, state, ranOut, and_self, if_true, event]

theorem exec_rampTimerExpiry (state : (s.slots[k]'k.isLt).state = .powering) (ranOut : (s.slots[k]'k.isLt).waitOver s.clock .ramp = true) :
    exec (.rampTimerExpiry k) s =
      .next (finish s (identify (s.modSlot k fun x => x.enter s.clock .identifying) k 1)) := by
  show execRampTimerExpiry k s = _
  simp only [execRampTimerExpiry, state, ranOut, and_self, if_true, event]

theorem exec_ledBlinkToggle (due : timerDue s.clock (s.slots[k]'k.isLt).ledTimer = true) : exec (.ledBlinkToggle k) s =
    .next (finish s (s.setSlot k { (s.slots[k]'k.isLt) with ledLit := !(s.slots[k]'k.isLt).ledLit, ledTimer := some ⟨s.clock, 500⟩ })) := by
  show execLedBlinkToggle k s = _
  simp only [execLedBlinkToggle, due, if_true, event]

/-- Power applied with its ramp (R45), from a state whose LED blinks green. -/
theorem startRamp_eq (led : (s.slots[k]'k.isLt).state.led = .greenBlink) : startRamp s k = s.setSlot k { (s.slots[k]'k.isLt) with
    state := .powering, power := true, faultCause := .none, timer := some ⟨.ramp, ⟨s.clock, 20⟩⟩
    busTier := .t0, busWide := false, workTier := .t0, workWide := false } := by
  rw [startRamp, modSlot_eq_setSlot rfl, slotWait_setSlot, enter_same (by exact led.symm)]
  rfl

/-- An attempt of identification (R46). -/
theorem identify_eq (n : Nat) : identify s k n =
    (s.setSlot k { (s.slots[k]'k.isLt) with attempts := n, timer := some ⟨.identify, ⟨s.clock, 250⟩⟩ }).emit
      (.card k [1, 0, 0, 0, 0, 0, 0, 0xFF]) := by
  rw [identify, State.sendCard, State.slotWait, emit_modSlot, modSlot_modSlot, modSlot_eq_setSlot rfl]
  rfl

end insertion

/-- Settles O26: each command of the way in, with the LED mode that its state brings. -/
theorem cardInsertionFollowsItsTimers : Obligations.CardInsertionFollowsItsTimers := by
  unfold Obligations.CardInsertionFollowsItsTimers
  refine ⟨fun s k => ⟨fun state opened running => ?close, fun state closed => ?openSettling,
    fun empty settling closed => ?openPowered, fun tm due => ⟨fun state closed timer => ?settled, fun state timer => ?off,
      fun state timer => ?ramped⟩⟩, fun s k => ⟨fun level => ⟨rfl, ?shown⟩, fun tm timer due => ?led⟩⟩
  case close =>
    rw [exec_detectClose opened running state, modSlot_eq_setSlot (y := { (s.slots[k]'k.isLt) with
      detectClosed := true, openTimer := none }) rfl, startSettling, modSlot_setSlot, slotWait_setSlot,
      enter_other (by simp [state, SlotState.led, -Fin.getElem_fin])]
    rfl
  case openSettling =>
    rw [exec_detectOpen closed, modSlot_eq_setSlot (y := { (s.slots[k]'k.isLt) with
      detectClosed := false, state := .empty, timer := none, ledLit := false, ledTimer := none })]
    simp only [state]
    rw [enter_other (by exact fun h => nomatch h)]
    rfl
  case openPowered =>
    rw [exec_detectOpen closed, modSlot_eq_setSlot (y := { (s.slots[k]'k.isLt) with
      detectClosed := false, openTimer := some ⟨s.clock, 1⟩ })]
    cases h : (s.slots[k]'k.isLt).state with
    | empty | settling => contradiction
    | _ => simp only [h]
  case settled =>
    rw [exec_settleTimerExpiry state closed (waitOver_of_timer timer due), startRamp_eq (by rw [state]; rfl)]
  case off => rw [exec_offIntervalExpiry state (waitOver_of_timer timer due), startRamp_eq (by rw [state]; rfl)]
  case ramped =>
    rw [exec_rampTimerExpiry state (waitOver_of_timer timer due), identify_eq, modSlot_eq_setSlot rfl, setSlot_setSlot,
      setSlot_get, if_pos rfl, enter_same (by rw [state]; rfl)]
    rfl
  case shown =>
    rw [Slot.protectShown]
    cases (s.slots[k]'k.isLt).state <;> rfl
  case led => rw [exec_ledBlinkToggle (by rw [timer]; exact due)]

/-! ## FAULT and the answer of a reset (R49, R55) -/

theorem answerReset_none {s : State} {k : Fin 4} (h : (s.slots[k]'k.isLt).otherCell = none) : answerReset s k = s := by
  unfold answerReset
  simp only [h]

theorem answerReset_reset {s : State} {k : Fin 4} {x : Slot} {c : Fin 64} (h : x.otherCell = some (.reset c)) :
    answerReset (s.setSlot k x) k =
      (s.setSlot k { x with otherCell := none }).answer c (doneWith (slotResetBody x)) := by
  have slot : ((s.setSlot k x).slots[k]'k.isLt) = x := by rw [setSlot_get, if_pos rfl]
  unfold answerReset
  simp only [slot, h, modSlot_setSlot]

/-- A slot in FAULT as it is entered from a state whose LED blinks green. -/
def Slot.faulted (x : Slot) (now : Word) (cause : SlotFault) : Slot :=
  { x with state := .fault, faultCause := cause, power := false, timer := none, busTier := .t0, busWide := false,
           workTier := .t0, workWide := false, ledLit := true, ledTimer := some ⟨now, 500⟩ }

theorem toFault_eq {s : State} {k : Fin 4} (led : (s.slots[k]'k.isLt).state.led ≠ .amberBlink) (cause : SlotFault) :
    toFault s k cause = answerReset (s.setSlot k ((s.slots[k]'k.isLt).faulted s.clock cause)) k := by
  rw [toFault, modSlot_eq_setSlot (y := (s.slots[k]'k.isLt).faulted s.clock cause)]
  rw [enter_other (by exact led.symm)]
  rfl

theorem toFault_plain {s : State} {k : Fin 4} (led : (s.slots[k]'k.isLt).state.led ≠ .amberBlink)
    (none : (s.slots[k]'k.isLt).otherCell = none) (cause : SlotFault) :
    toFault s k cause = s.setSlot k ((s.slots[k]'k.isLt).faulted s.clock cause) := by
  rw [toFault_eq led, answerReset_none]
  rw [setSlot_get, if_pos rfl]
  exact none

/-! ## Identification (R46, R47, R195) -/

section identification
variable {s : State} {k : Fin 4}

theorem exec_identifyResponse (state : (s.slots[k]'k.isLt).state = .identifying) (waits : (s.slots[k]'k.isLt).waits .identify = true)
    (bytes : List Byte) : exec (.identifyResponse k bytes) s = match identifyOutcome bytes with
      | none => .next s
      | some (some rec) => .next (finish s (identified s k rec))
      | some none => .next (finish s (identifyFails s k)) := by
  show execIdentifyResponse k bytes s = _
  simp only [execIdentifyResponse, state, waits, and_self, if_true, event] <;> rfl

theorem exec_identifyTimeout (state : (s.slots[k]'k.isLt).state = .identifying)
    (ranOut : (s.slots[k]'k.isLt).waitOver s.clock .identify = true) :
    exec (.identifyTimeout k) s = .next (finish s (identifyFails s k)) := by
  show execIdentifyTimeout k s = _
  simp only [execIdentifyTimeout, state, ranOut, and_self, if_true, event]

theorem identifyOutcome_damaged {bytes : List Byte} (length : bytes.length = 13)
    (check : sumBytes ((bytes.drop 1).take 11) % 256 ≠ 0) : identifyOutcome bytes = some none := by
  rw [identifyOutcome, if_pos length, if_neg (by simpa [sumsToZero] using check)]

theorem fieldLe_contents (bytes : List Byte) : fieldLe ((bytes.drop 1).take 11) 0 4 = fieldLe bytes 1 4 := by
  rw [fieldLe, fieldLe, List.drop_zero, List.take_take, Nat.min_eq_left (by decide)]

theorem identifyOutcome_empty {bytes : List Byte} (length : bytes.length = 13)
    (check : sumBytes ((bytes.drop 1).take 11) % 256 = 0) (whole : sumBytes bytes % 256 = 0)
    (capacity : fieldLe bytes 1 4 = 0) : identifyOutcome bytes = some none := by
  have contents : responseContents 11 bytes = some ((bytes.drop 1).take 11) := by
    simp [responseContents, length, sumsToZero, whole]
  rw [identifyOutcome, if_pos length, if_pos (by simpa [sumsToZero] using check), contents, Option.map_some, cardRecordOf,
    fieldLe_contents, capacity]
  simp

theorem identifyOutcome_silent {bytes : List Byte}
    (h : bytes.length ≠ 13 ∨ (sumBytes ((bytes.drop 1).take 11) % 256 = 0 ∧ sumBytes bytes % 256 ≠ 0)) :
    identifyOutcome bytes = none := by
  rw [identifyOutcome]
  split
  · rename_i length
    obtain other | ⟨check, whole⟩ := h
    · exact absurd length other
    · rw [if_pos (by simpa [sumsToZero] using check)]
      simp [responseContents, sumsToZero, whole]
  · rfl

theorem identifyOutcome_record {bytes c : List Byte} {rec : CardRecord} (contents : responseContents 11 bytes = some c)
    (record : cardRecordOf c = some rec) : identifyOutcome bytes = some (some rec) := by
  have read := contents
  unfold responseContents at read
  split at read
  · rename_i whole
    simp only [Bool.and_eq_true] at whole
    have length : bytes.length = 13 := of_decide_eq_true whole.1
    have slice : (bytes.drop 1).take 11 = c := Option.some.inj read
    have check : sumsToZero c = true := by
      unfold cardRecordOf at record
      split at record
      · rename_i good
        exact (Bool.and_eq_true_iff.mp good).1
      · exact nomatch record
    rw [identifyOutcome, if_pos length, slice, if_pos check, contents, Option.map_some, record]
  · exact nomatch read

theorem identifyFails_again (few : (s.slots[k]'k.isLt).attempts < 3) :
    identifyFails s k = identify s k ((s.slots[k]'k.isLt).attempts + 1) := if_pos few

theorem identifyFails_fault (many : ¬ (s.slots[k]'k.isLt).attempts < 3) : identifyFails s k = toFault s k .unresponsive :=
  if_neg many

/-- A slot with its card record shown and the tier settle entered (R47). -/
def Slot.settlingTier (x : Slot) (st : Settings) (k : Fin 4) (rec : CardRecord) : Slot :=
  { x with state := .tierSettle, record := some rec, crcErrs := 0, timeouts := 0
           shown := { x.shown with crcErrs := 0, timeouts := 0 }
           settleLimit := advertised st k, chosenWide := rec.wide && wideAllowed st k
           threshold := crcThreshold st, retries := blockRetries st, timer := none }

theorem identified_eq (state : (s.slots[k]'k.isLt).state = .identifying) (rec : CardRecord) :
    identified s k rec = match openBelow rec (advertised s.settings k) 4 with
      | some tier => tryTier (s.setSlot k ((s.slots[k]'k.isLt).settlingTier s.settings k rec)) k tier
      | none => toFault (s.setSlot k ((s.slots[k]'k.isLt).settlingTier s.settings k rec)) k .noMode := by
  have entered : (s.modSlot k fun x => { x with
      record := some rec, crcErrs := 0, timeouts := 0, shown := { x.shown with crcErrs := 0, timeouts := 0 } }) =
      s.setSlot k { (s.slots[k]'k.isLt) with
        record := some rec, crcErrs := 0, timeouts := 0, shown := { (s.slots[k]'k.isLt).shown with crcErrs := 0, timeouts := 0 } } :=
    modSlot_eq_setSlot rfl
  rw [identified, entered, startSettle, modSlot_setSlot, enter_same (by rw [state]; rfl)]
  simp only [setSlot_get, if_true]
  rfl

theorem tryTier_eq (t : Tier) (state : (s.slots[k]'k.isLt).state = .tierSettle) : tryTier s k t =
    (s.setSlot k { (s.slots[k]'k.isLt) with
      tryTier := t, busTier := .t0, busWide := false, workTier := .t0, workWide := false
      timer := some ⟨.setMode, ⟨s.clock, 250⟩⟩ }).emit (.card k (setModeCommand (s.slots[k]'k.isLt).chosenWide t)) := by
  rw [tryTier, State.sendCard, State.slotWait, emit_modSlot, modSlot_modSlot, modSlot_eq_setSlot rfl]
  simp only [Function.comp_apply, Slot.setBus, Slot.tryWide, state, if_true]
  rfl

end identification

/-- Settles O27: the outcome of a response, then the next attempt, FAULT or the tier settle. -/
theorem identificationTriesThreeTimes : Obligations.IdentificationTriesThreeTimes := by
  unfold Obligations.IdentificationTriesThreeTimes
  intro s k tm
  refine fun state timer alone => ⟨fun bytes length check => ?damaged, fun bytes length check whole capacity => ?empty,
    fun bytes h => ?silent, fun due => ?timeout, fun bytes c rec contents record => ?good⟩
  all_goals have waits := waits_of_timer timer
  all_goals
    have fails : identifyFails s k = if (s.slots[k]'k.isLt).attempts < 3 then
        (s.setSlot k { (s.slots[k]'k.isLt) with
          attempts := (s.slots[k]'k.isLt).attempts + 1, timer := some ⟨.identify, ⟨s.clock, 250⟩⟩ }).emit (.card k [1, 0, 0, 0, 0, 0, 0, 0xFF])
        else s.setSlot k ((s.slots[k]'k.isLt).faulted s.clock .unresponsive) := by
      split
      · rename_i few
        rw [identifyFails_again few, identify_eq]
      · rename_i many
        rw [identifyFails_fault many, toFault_plain (by rw [state]; decide) alone]
  case damaged => rw [exec_identifyResponse state waits, identifyOutcome_damaged length check]; exact congrArg (fun t => Host.Outcome.next (finish s t)) fails
  case empty => rw [exec_identifyResponse state waits, identifyOutcome_empty length check whole capacity]; exact congrArg (fun t => Host.Outcome.next (finish s t)) fails
  case silent => rw [exec_identifyResponse state waits, identifyOutcome_silent h]
  case timeout => rw [exec_identifyTimeout state (waitOver_of_timer timer due)]; exact congrArg (fun t => Host.Outcome.next (finish s t)) fails
  case good =>
    refine ⟨_, by rw [exec_identifyResponse state waits, identifyOutcome_record contents record], ?_⟩
    rw [finish_slots, identified_eq state]
    cases openBelow rec (advertised s.settings k) 4 with
    | some tier =>
      simp only
      rw [tryTier_eq _ (by rw [setSlot_get, if_pos rfl]; rfl), State.emit_slots, setSlot_setSlot, setSlot_get, setSlot_get,
        if_pos rfl, if_pos rfl]
      exact ⟨rfl, rfl, rfl, rfl, rfl, rfl, rfl⟩
    | none =>
      have settling : ((s.setSlot k ((s.slots[k]'k.isLt).settlingTier s.settings k rec)).slots[k]'k.isLt) =
          (s.slots[k]'k.isLt).settlingTier s.settings k rec := by rw [setSlot_get, if_pos rfl]
      simp only
      rw [toFault_plain (by rw [settling]; exact fun h => nomatch h) (by rw [settling]; exact alone), setSlot_setSlot, setSlot_get,
        if_pos rfl, settling]
      exact ⟨rfl, rfl, rfl, rfl, rfl, rfl⟩

/-! ## Tier settle (R47, R48) -/

section settle
variable {s : State} {k : Fin 4}

theorem trying_of_settle (state : (s.slots[k]'k.isLt).state = .tierSettle) : (s.slots[k]'k.isLt).trying = true := by
  rw [Slot.trying, state]
  rfl

theorem exec_setModeResponse {bytes c : List Byte} (trying : (s.slots[k]'k.isLt).trying = true)
    (waits : (s.slots[k]'k.isLt).waits .setMode = true) (contents : responseContents 1 bytes = some c) :
    exec (.setModeResponse k bytes) s =
      .next (finish s (if byteAt c 0 = 0 then setModeAccepted s k else tierFails s k)) := by
  show execSetModeResponse k bytes s = _
  simp only [execSetModeResponse, trying, waits, and_self, if_true, contents, event]

theorem exec_setModeTimeout (trying : (s.slots[k]'k.isLt).trying = true)
    (ranOut : (s.slots[k]'k.isLt).waitOver s.clock .setMode = true) :
    exec (.setModeTimeout k) s = .next (finish s (tierFails s k)) := by
  show execSetModeTimeout k s = _
  simp only [execSetModeTimeout, trying, ranOut, and_self, if_true, event]

theorem exec_statusResponse_trying {bytes c : List Byte} (trying : (s.slots[k]'k.isLt).trying = true)
    (waits : (s.slots[k]'k.isLt).waits .status = true) (contents : responseContents 1 bytes = some c) :
    exec (.statusResponse k bytes) s =
      .next (finish s (if (byteAt c 0).getLsbD 0 then tierConfirmed s k else tierFails s k)) := by
  show execStatusResponse k bytes s = _
  simp only [execStatusResponse, trying, waits, if_true, contents, event]

theorem exec_statusTimeout_trying (trying : (s.slots[k]'k.isLt).trying = true)
    (ranOut : (s.slots[k]'k.isLt).waitOver s.clock .status = true) :
    exec (.statusTimeout k) s = .next (finish s (tierFails s k)) := by
  show execStatusTimeout k s = _
  simp only [execStatusTimeout, trying, ranOut, if_true, event]

theorem setModeAccepted_eq (state : (s.slots[k]'k.isLt).state = .tierSettle) : setModeAccepted s k =
    (s.setSlot k { (s.slots[k]'k.isLt) with
      busTier := (s.slots[k]'k.isLt).tryTier, busWide := (s.slots[k]'k.isLt).chosenWide
      workTier := (s.slots[k]'k.isLt).tryTier, workWide := (s.slots[k]'k.isLt).chosenWide
      timer := some ⟨.status, ⟨s.clock, 250⟩⟩ }).emit (.card k [5, 0, 0, 0, 0, 0, 0, 0xFB]) := by
  rw [setModeAccepted, State.sendCard, State.slotWait, emit_modSlot, modSlot_modSlot, modSlot_eq_setSlot rfl]
  simp only [Function.comp_apply, Slot.setBus, Slot.tryWide, state, if_true]
  rfl

theorem tierFails_next {t : Tier} (state : (s.slots[k]'k.isLt).state = .tierSettle)
    (lower : (s.slots[k]'k.isLt).openBelow (s.slots[k]'k.isLt).tryTier.code = some t) : tierFails s k = tryTier s k t := by
  simp only [tierFails, state, if_true, lower]

theorem tierFails_fault (state : (s.slots[k]'k.isLt).state = .tierSettle)
    (lower : (s.slots[k]'k.isLt).openBelow (s.slots[k]'k.isLt).tryTier.code = none) : tierFails s k = toFault s k .noMode := by
  simp only [tierFails, state, if_true, lower]

/-- A slot whose tier is confirmed in tier settle (R48). -/
def Slot.confirmed (x : Slot) : Slot :=
  { x with state := .ready, workTier := x.tryTier, workWide := x.chosenWide, timer := none
           winTransfers := 0, winErrors := 0, ledLit := true, ledTimer := none }

theorem tierConfirmed_eq (state : (s.slots[k]'k.isLt).state = .tierSettle) :
    tierConfirmed s k = answerReset (s.setSlot k (s.slots[k]'k.isLt).confirmed) k := by
  have entered : s.modSlot k (fun x => { x.enter s.clock .ready with
      workTier := x.tryTier, workWide := x.chosenWide, timer := none, winTransfers := 0, winErrors := 0 }) =
      s.setSlot k (s.slots[k]'k.isLt).confirmed := by
    refine modSlot_eq_setSlot ?_
    rw [enter_other (by rw [state]; exact fun h => nomatch h)]
    rfl
  rw [tierConfirmed]
  exact (if_pos state).trans (congrArg (answerReset · k) entered)

end settle

/-- Settles O28: SET_MODE and STATUS by their answers, a failed tier by the tiers that are left. -/
theorem tierSettleTriesEachTier : Obligations.TierSettleTriesEachTier := by
  unfold Obligations.TierSettleTriesEachTier
  intro s k tm x state alone failed
  have trying := trying_of_settle state
  have fails : tierFails s k = failed := by
    cases lower : x.openBelow x.tryTier.code with
    | some t =>
      rw [tierFails_next state lower, tryTier_eq t state]
      simp only [failed, lower]
      rfl
    | none =>
      rw [tierFails_fault state lower, toFault_plain (by rw [state]; exact fun h => nomatch h) alone]
      simp only [failed, lower]
      rfl
  refine ⟨fun timer => ⟨fun bytes c contents => ?_, fun due => ?_⟩, fun timer => ⟨fun bytes c contents => ?_, fun due => ?_⟩⟩
  · rw [exec_setModeResponse trying (waits_of_timer timer) contents, fails, setModeAccepted_eq state]
  · rw [exec_setModeTimeout trying (waitOver_of_timer timer due), fails]
  · rw [exec_statusResponse_trying trying (waits_of_timer timer) contents, fails, tierConfirmed_eq state,
      answerReset_none (by rw [setSlot_get, if_pos rfl]; exact alone)]
    rfl
  · rw [exec_statusTimeout_trying trying (waitOver_of_timer timer due), fails]

/-! ## CARD_RELEASE (R51, R52) -/

theorem doRelease_eq {s : State} {k : Fin 4} {c : Fin 64} (led : (s.slots[k]'k.isLt).state.led ≠ .amber) : doRelease s k c =
    ((s.emit (.card k [4, 0, 0, 0, 0, 0, 0, 0xFC])).setSlot k { (s.slots[k]'k.isLt) with
      state := .removeReady, power := false, timer := none, otherCell := none
      busTier := .t0, busWide := false, workTier := .t0, workWide := false
      ledLit := true, ledTimer := none }).answer c ⟨.done, 0, []⟩ := by
  rw [doRelease, modSlot_eq_setSlot (y := { (s.slots[k]'k.isLt) with
      state := .removeReady, power := false, timer := none, otherCell := none
      busTier := .t0, busWide := false, workTier := .t0, workWide := false
      ledLit := true, ledTimer := none })]
  · rfl
  · rw [enter_other (by exact led.symm)]
    rfl

@[simp] theorem take_slots (s : State) (c : Fin 64) : (s.take c).slots = s.slots := rfl

theorem exec_cardRelease {s : State} {k : Fin 4} {c : Fin 64} (asks : s.asks (slotList k) .cardRelease c) :
    exec (.cardRelease k) s = match (s.slots[k]'k.isLt).state with
      | .empty | .releasing | .removeReady | .fault =>
        .next (finish s (s.takeAnswer c (refuse .wrongState (s.slots[k]'k.isLt).state.code)))
      | .ready => .next (finish s (doRelease (s.take c) k c))
      | .reading => .next (finish s
          ((s.take c).modSlot k fun x => { x.enter s.clock .releasing with otherCell := some (.release c) }))
      | .settling | .powering | .identifying | .tierSettle => .next s := by
  show execCardRelease k s = _
  simp only [execCardRelease, headOf_of_asks asks] <;> rfl

/-- Settles O30: by the slot state. -/
theorem cardReleaseFollowsTheSlotState : Obligations.CardReleaseFollowsTheSlotState := by
  unfold Obligations.CardReleaseFollowsTheSlotState
  intro s k c asks
  refine ⟨fun state => ?_, fun state => ?_, fun refused => ?_⟩
  · rw [exec_cardRelease asks, state, doRelease_eq (by rw [take_slots, state]; exact fun h => nomatch h)]
    rfl
  · rw [exec_cardRelease asks, state, modSlot_eq_setSlot rfl, enter_same (by rw [take_slots, state]; rfl)]
    rfl
  · rw [exec_cardRelease asks]
    obtain state | state | state | state := refused <;> rw [state] <;> rfl

end Sys2Proof.Machine
end

