-- ==== Sys2Proof/Proofs/SlotEnds.lean ====
section
/-! A slot cut off from its card: the removal (R53, R54) and the slot reset (R55), with the read that either of them ends
(R74). -/

namespace Sys2Proof.Machine

-- Checked one after another, as in the tests: a theorem checked alongside others holds its memory.
set_option Elab.async false

/-! ## Cells answered with one status -/

/-- A cell that was answered, possibly more than once, and always with the one status. -/
def WorkCell.endedBy (x y : WorkCell) (st : Status) : Prop :=
  y.hand = .answered ∧ (x.mem.wf = true → y.mem.wf = true ∧ cellByte y 12 = BitVec.ofNat 8 st.code)

theorem endedBy_answered {x y : WorkCell} (kept : x.mem.wf = true → y.mem.wf = true) (a : Answer) :
    x.endedBy (y.answered a) a.status :=
  ⟨rfl, fun w => ⟨answered_mem_wf (kept w) a, (answered_cellByte_header (kept w) a (i := 0) (by decide)).trans rfl⟩⟩

theorem WorkCell.endedBy.answer {x y : WorkCell} {st : Status} (h : x.endedBy y st) :
    y.hand = .answered ∧ (x.mem.wf = true → cellByte y 12 = BitVec.ofNat 8 st.code) := ⟨h.1, fun w => (h.2 w).2⟩

theorem WorkCell.endedBy.trans {x y z : WorkCell} {st : Status} (h : x.endedBy y st) (k : y.endedBy z st) :
    x.endedBy z st := ⟨k.1, fun w => k.2 (h.2 w).1⟩

/-- Exactly the cells of `who` are answered with the status. -/
def EndsCells (s t : State) (st : Status) (who : Fin 64 → Prop) : Prop :=
  ∀ c : Fin 64, (who c → (s.cells[c]'c.isLt).endedBy (t.cells[c]'c.isLt) st) ∧ (¬ who c → (t.cells[c]'c.isLt) = (s.cells[c]'c.isLt))

theorem EndsCells.of_cells {s t : State} (h : t.cells = s.cells) (st : Status) : EndsCells s t st fun _ => False :=
  fun _ => ⟨fun h => h.elim, fun _ => by rw [h]⟩

theorem EndsCells.trans {s t u : State} {st : Status} {p q : Fin 64 → Prop} (h : EndsCells s t st p)
    (k : EndsCells t u st q) : EndsCells s u st fun c => p c ∨ q c := by
  intro c
  obtain ⟨ended, same⟩ := h c
  obtain ⟨ended', same'⟩ := k c
  refine ⟨fun who => ?_, fun who => ?_⟩
  · by_cases first : p c <;> by_cases second : q c
    · exact (ended first).trans (ended' second)
    · exact same' second ▸ ended first
    · exact same first ▸ ended' second
    · exact (who.elim first second).elim
  · rw [same' fun h => who (.inr h), same fun h => who (.inl h)]

theorem EndsCells.mono {s t : State} {st : Status} {p q : Fin 64 → Prop} (h : EndsCells s t st p)
    (same : ∀ c, q c ↔ p c) : EndsCells s t st q :=
  fun c => ⟨fun who => (h c).1 ((same c).mp who), fun who => (h c).2 fun w => who ((same c).mpr w)⟩

theorem answer_endsCells (s : State) (c : Fin 64) (a : Answer) : EndsCells s (s.answer c a) a.status (· = c) := by
  intro d
  refine ⟨fun same => ?_, fun other => answer_cell_other s a other⟩
  subst same
  rw [answer_cell_self]
  exact endedBy_answered id a

theorem takeAnswer_endsCells (s : State) (c : Fin 64) (a : Answer) : EndsCells s (s.takeAnswer c a) a.status (· = c) := by
  intro d
  refine ⟨fun same => ?_, fun other => by rw [State.takeAnswer, answer_cell_other _ a other, take_cell_other s other]⟩
  subst same
  rw [State.takeAnswer, answer_cell_self, take_cell_self]
  exact endedBy_answered taken_mem_wf a

theorem foldl_takeAnswer_endsCells (a : Answer) (cs : List (Fin 64)) (s : State) :
    EndsCells s (cs.foldl (fun t c => t.takeAnswer c a) s) a.status (· ∈ cs) := by
  induction cs generalizing s with
  | nil => exact (EndsCells.of_cells rfl a.status).mono fun c => by simp
  | cons c cs ih => exact ((takeAnswer_endsCells s c a).trans (ih _)).mono fun d => by simp

theorem foldl_takeAnswer_frame (a : Answer) (cs : List (Fin 64)) (s : State) :
    cs.foldl (fun t c => t.takeAnswer c a) s =
      { s with cells := (cs.foldl (fun t c => t.takeAnswer c a) s).cells
               intake := (cs.foldl (fun t c => t.takeAnswer c a) s).intake } := by
  induction cs generalizing s with
  | nil => rfl
  | cons c cs ih => exact (ih (s.takeAnswer c a)).trans rfl

theorem foldl_takeAnswer_intake (a : Answer) (cs : List (Fin 64)) (s : State) (l : Fin 11) :
    ((cs.foldl (fun t c => t.takeAnswer c a) s).intake[l]'l.isLt) = (s.intake[l]'l.isLt).filter fun d => decide (d ∉ cs) := by
  induction cs generalizing s with
  | nil => simp
  | cons c cs ih =>
    rw [List.foldl_cons, ih, State.takeAnswer, show ((s.take c).answer c a).intake = (s.take c).intake from rfl,
      take_intake, List.filter_filter]
    congr 1
    funext d
    by_cases h : d = c <;> simp [h]

/-! ## A channel released (R61) -/

theorem goIssuing_keeps (s : State) (k : Fin 4) :
    goIssuing s k = { s with slots := (goIssuing s k).slots, sent := (goIssuing s k).sent } := by
  unfold goIssuing
  split
  · rfl
  · split <;> rfl

theorem releaseChannel_keeps (s : State) (c : Fin 2) : releaseChannel s c = { s with
    slots := (releaseChannel s c).slots, channels := (releaseChannel s c).channels
    chanWait := (releaseChannel s c).chanWait, sent := (releaseChannel s c).sent } := by
  unfold releaseChannel
  dsimp only
  split
  · rw [grantChannel, goIssuing_keeps]
    rfl
  · rfl

theorem releaseChannel_free {s : State} {c : Fin 2} (none : s.chanWait = []) :
    releaseChannel s c = s.setChannel c freeChannel := by
  rw [releaseChannel]
  simp only [State.setChannel_chanWait, none]

theorem releaseChannel_passes {s : State} {c : Fin 2} {j : Fin 4} {rest : List (Fin 4)} (wait : s.chanWait = j :: rest) :
    releaseChannel s c = grantChannel { s.setChannel c freeChannel with chanWait := rest } j c := by
  rw [releaseChannel]
  simp only [State.setChannel_chanWait, wait]

theorem grantChannel_chanWait (s : State) (k : Fin 4) (c : Fin 2) : (grantChannel s k c).chanWait = s.chanWait := by
  rw [grantChannel, goIssuing_keeps]
  rfl

theorem grantChannel_channels (s : State) (k : Fin 4) (c : Fin 2) :
    (grantChannel s k c).channels = s.channels.set c ⟨some k, channelMode s.settings c, none⟩ := by
  rw [grantChannel, goIssuing_keeps]
  rfl

/-- What R74 says of the channel of a read that ends. -/
theorem releaseChannel_channel (s : State) (c : Fin 2) : ((releaseChannel s c).channels[c]'c.isLt).buffer = none ∧
    (s.chanWait = [] → ((releaseChannel s c).channels[c]'c.isLt).owner = none ∧ (releaseChannel s c).chanWait = []) ∧
    (∀ j rest, s.chanWait = j :: rest →
      ((releaseChannel s c).channels[c]'c.isLt).owner = some j ∧ (releaseChannel s c).chanWait = rest) := by
  cases wait : s.chanWait with
  | nil =>
    have free : ((s.setChannel c freeChannel).channels[c]'c.isLt) = freeChannel := by
      rw [State.setChannel_channels, vector_set_get, if_pos rfl]
    rw [releaseChannel_free wait, free]
    exact ⟨rfl, fun _ => ⟨rfl, wait⟩, fun _ _ h => nomatch h⟩
  | cons j rest =>
    rw [releaseChannel_passes wait, grantChannel_channels, grantChannel_chanWait, vector_set_get, if_pos rfl]
    refine ⟨rfl, fun h => absurd h (List.cons_ne_nil j rest), fun i rest' h => ?_⟩
    obtain ⟨rfl, rfl⟩ := List.cons.inj h
    exact ⟨rfl, rfl⟩

/-- A slot of which only the read, its display and the timer may differ. -/
def Slot.cutFrom (x y : Slot) : Prop := y = { x with read := y.read, timer := y.timer, shown := y.shown }

theorem Slot.cutFrom.trans {x y z : Slot} (h : x.cutFrom y) (k : y.cutFrom z) : x.cutFrom z :=
  Eq.trans k (by rw [show y = _ from h])

theorem modSlot_cutFrom {s : State} (k j : Fin 4) {f : Slot → Slot} (h : ∀ x : Slot, x.cutFrom (f x)) :
    (s.slots[j]'j.isLt).cutFrom ((s.modSlot k f).slots[j]'j.isLt) := by
  rw [modSlot_get]
  split
  · rename_i same
    exact same ▸ h _
  · rfl

theorem goIssuing_cutFrom (s : State) (k j : Fin 4) : (s.slots[j]'j.isLt).cutFrom ((goIssuing s k).slots[j]'j.isLt) := by
  unfold goIssuing
  split
  · rfl
  · split
    · rfl
    · exact (modSlot_cutFrom (s := s) k j (f := fun x => { x with read := x.read.map _ }) fun _ => rfl).trans
        (modSlot_cutFrom (s := (s.modRead k _).sendCard k _) k j fun _ => rfl)

theorem releaseChannel_cutFrom (s : State) (c : Fin 2) (j : Fin 4) :
    (s.slots[j]'j.isLt).cutFrom ((releaseChannel s c).slots[j]'j.isLt) := by
  cases wait : s.chanWait with
  | nil =>
    rw [releaseChannel_free wait]
    rfl
  | cons k rest =>
    rw [releaseChannel_passes wait, grantChannel]
    exact (modSlot_cutFrom (s := ({ s.setChannel c freeChannel with chanWait := rest } : State).setChannel c _) k j
      (f := fun x => { x with read := x.read.map _ }) fun _ => rfl).trans (goIssuing_cutFrom _ k j)

/-! ## A read cut off (R74) -/

theorem endFill_keeps (s : State) (h : Handle) (p : PicState) :
    s.endFill h p = { s with pictures := (s.endFill h p).pictures } := by
  unfold State.endFill
  split
  · split <;> rfl
  · rfl

theorem endFill_picture {s : State} {h : Handle} {i : Fin 256} {p : Picture} (found : s.pictureAt h = some (i, p))
    (fill : p.state = .cardFill) (final : PicState) :
    ((s.endFill h final).pictures[i]'i.isLt).pic = some { p with state := final } := by
  have ended : s.endFill h final = s.putPicture i { p with state := final } := by
    rw [State.endFill, found]
    exact if_pos fill
  rw [ended, State.putPicture, State.setPicture_pictures, vector_set_get, if_pos rfl]

section cut
variable {s : State} {k : Fin 4} (st : Status)

theorem cutRead_none (idle : (s.slots[k]'k.isLt).read = none) : cutRead s k st = s := by
  rw [cutRead]
  simp only [idle]

/-- The state in which the cell of a cut read is answered: the fill ended, the channel given up or the wait left. -/
def State.readGivenUp (s : State) (k : Fin 4) (r : ReadRec) : State :=
  match r.channel with
  | some c => releaseChannel (s.endFill r.picture .torn) c
  | none => { s.endFill r.picture .torn with chanWait := s.chanWait.filter (· != k) }

theorem cutRead_some {r : ReadRec} (reading : (s.slots[k]'k.isLt).read = some r) : cutRead s k st =
    (showRead ((s.readGivenUp k r).answer r.cell
      { status := st, body := readBody (s.readGivenUp k r) r (s.slots[k]'k.isLt).workTier }) k false).modSlot k
        fun x => { x with read := none, timer := none } := by
  have waits : (s.endFill r.picture .torn).chanWait = s.chanWait := by rw [endFill_keeps]
  rw [cutRead, State.readGivenUp]
  simp only [reading, waits] <;> rfl

theorem readGivenUp_keeps (s : State) (k : Fin 4) (r : ReadRec) : s.readGivenUp k r = { s with
    pictures := (s.endFill r.picture .torn).pictures, slots := (s.readGivenUp k r).slots
    channels := (s.readGivenUp k r).channels, chanWait := (s.readGivenUp k r).chanWait
    sent := (s.readGivenUp k r).sent } := by
  unfold State.readGivenUp
  split
  · rw [releaseChannel_keeps, endFill_keeps]
  · rw [endFill_keeps]

theorem readGivenUp_cutFrom (s : State) (k j : Fin 4) (r : ReadRec) :
    (s.slots[j]'j.isLt).cutFrom ((s.readGivenUp k r).slots[j]'j.isLt) := by
  unfold State.readGivenUp
  split
  · have same : (s.endFill r.picture .torn).slots = s.slots := by rw [endFill_keeps]
    have := releaseChannel_cutFrom (s.endFill r.picture .torn) ‹_› j
    rwa [same] at this
  · rw [endFill_keeps]
    rfl

theorem cutRead_endsCells (s : State) (k : Fin 4) :
    EndsCells s (cutRead s k st) st fun c => ∃ r, (s.slots[k]'k.isLt).read = some r ∧ r.cell = c := by
  cases reading : (s.slots[k]'k.isLt).read with
  | none =>
    rw [cutRead_none st reading]
    exact (EndsCells.of_cells rfl st).mono fun c => by simp
  | some r =>
    have given : EndsCells s (s.readGivenUp k r) st fun _ => False := .of_cells (by rw [readGivenUp_keeps]) st
    rw [cutRead_some st reading]
    exact (given.trans ((answer_endsCells _ r.cell ⟨st, 0, _⟩).trans (.of_cells rfl st))).mono fun c => by
      simp [eq_comm]

theorem cutRead_intake (s : State) (k : Fin 4) : (cutRead s k st).intake = s.intake := by
  rw [show cutRead s k st = _ from cutRead_frame s k st]

theorem cutRead_picture {r : ReadRec} {i : Fin 256} {p : Picture} (reading : (s.slots[k]'k.isLt).read = some r)
    (found : s.pictureAt r.picture = some (i, p)) (fill : p.state = .cardFill) :
    ((cutRead s k st).pictures[i]'i.isLt).pic = some { p with state := .torn } := by
  have given : (s.readGivenUp k r).pictures = (s.endFill r.picture .torn).pictures := by rw [readGivenUp_keeps]
  rw [cutRead_some st reading, ← endFill_picture found fill, ← given]
  rfl

/-- What becomes of the channel of a cut read, or of its place in the wait list. -/
def ChannelGivenUp (s t : State) (k : Fin 4) (r : ReadRec) : Prop :=
  (r.channel = none → t.chanWait = s.chanWait.filter (· != k)) ∧
  ∀ ch, r.channel = some ch → (t.channels[ch]'ch.isLt).buffer = none ∧
    (s.chanWait = [] → (t.channels[ch]'ch.isLt).owner = none ∧ t.chanWait = []) ∧
    (∀ j rest, s.chanWait = j :: rest → (t.channels[ch]'ch.isLt).owner = some j ∧ t.chanWait = rest)

theorem ChannelGivenUp.of_same {t u : State} {r : ReadRec} (h : ChannelGivenUp s t k r) (wait : u.chanWait = t.chanWait)
    (channels : u.channels = t.channels) : ChannelGivenUp s u k r := by
  unfold ChannelGivenUp at h ⊢
  rw [wait, channels]
  exact h

theorem readGivenUp_channel (s : State) (k : Fin 4) (r : ReadRec) : ChannelGivenUp s (s.readGivenUp k r) k r := by
  have waits : (s.endFill r.picture .torn).chanWait = s.chanWait := by rw [endFill_keeps]
  refine ⟨fun none => ?_, fun ch some => ?_⟩
  · rw [State.readGivenUp, none]
  · rw [State.readGivenUp, some, ← waits]
    exact releaseChannel_channel _ ch

theorem cutRead_channel {r : ReadRec} (reading : (s.slots[k]'k.isLt).read = some r) : ChannelGivenUp s (cutRead s k st) k r := by
  rw [cutRead_some st reading]
  exact readGivenUp_channel s k r

theorem Slot.with_read {x : Slot} (h : x.read = none) : { x with read := none } = x := by
  cases x
  cases h
  rfl

theorem Slot.with_otherCell {x : Slot} (h : x.otherCell = none) : { x with otherCell := none } = x := by
  cases x
  cases h
  rfl

theorem cutRead_slot (s : State) (k : Fin 4) :
    ∃ tm sh, ((cutRead s k st).slots[k]'k.isLt) = { (s.slots[k]'k.isLt) with read := none, timer := tm, shown := sh } := by
  cases reading : (s.slots[k]'k.isLt).read with
  | none =>
    rw [cutRead_none st reading]
    exact ⟨(s.slots[k]'k.isLt).timer, (s.slots[k]'k.isLt).shown, (Slot.with_read reading).symm⟩
  | some r =>
    have shows : ((s.readGivenUp k r).slots[k]'k.isLt).cutFrom ((showRead (s.readGivenUp k r) k false).slots[k]'k.isLt) :=
      modSlot_cutFrom k k fun x => by cases h : x.read <;> rfl
    have cut := (readGivenUp_cutFrom s k k r).trans shows
    refine ⟨none, ((showRead (s.readGivenUp k r) k false).slots[k]'k.isLt).shown, ?_⟩
    rw [cutRead_some st reading, modSlot_get, if_pos rfl]
    exact congrArg (fun x : Slot => { x with read := none, timer := none }) cut

/-! ## The cells of a slot beside its read -/

theorem answerOther_some {o : OtherCell} (held : (s.slots[k]'k.isLt).otherCell = some o) : answerOther s k st =
    (s.modSlot k fun x => { x with otherCell := none }).answer o.cell (refuse st) := by
  rw [answerOther]
  simp only [held]

theorem answerOther_none (held : (s.slots[k]'k.isLt).otherCell = none) : answerOther s k st = s := by
  rw [answerOther]
  simp only [held]

theorem answerOther_endsCells (s : State) (k : Fin 4) :
    EndsCells s (answerOther s k st) st fun c => ∃ o, (s.slots[k]'k.isLt).otherCell = some o ∧ o.cell = c := by
  cases held : (s.slots[k]'k.isLt).otherCell with
  | none =>
    rw [answerOther_none st held]
    exact (EndsCells.of_cells rfl st).mono fun c => by simp
  | some o =>
    rw [answerOther_some st held]
    exact (answer_endsCells (s.modSlot k fun x => { x with otherCell := none }) o.cell (refuse st)).mono fun c => by
      simp [eq_comm]

theorem answerOther_keeps (s : State) (k : Fin 4) :
    answerOther s k st = { s with slots := (answerOther s k st).slots, cells := (answerOther s k st).cells } := by
  unfold answerOther
  split <;> rfl

theorem answerOther_slot (s : State) (k : Fin 4) :
    ((answerOther s k st).slots[k]'k.isLt) = { (s.slots[k]'k.isLt) with otherCell := none } := by
  cases held : (s.slots[k]'k.isLt).otherCell with
  | none => rw [answerOther_none st held, Slot.with_otherCell held]
  | some o =>
    rw [answerOther_some st held, State.answer, State.setCell_slots, modSlot_get, if_pos rfl]

/-! ## Both together -/

theorem cutOff_slot (s : State) (k : Fin 4) : ∃ tm sh, ((answerOther (cutRead s k st) k st).slots[k]'k.isLt) =
    { (s.slots[k]'k.isLt) with read := none, otherCell := none, timer := tm, shown := sh } := by
  obtain ⟨tm, sh, cut⟩ := cutRead_slot st s k
  exact ⟨tm, sh, by rw [answerOther_slot, cut]⟩

/-- The cells a slot holds: that of its read, and that of a waiting release or reset. -/
def Slot.holds (x : Slot) (c : Fin 64) : Prop :=
  (∃ r, x.read = some r ∧ r.cell = c) ∨ ∃ o, x.otherCell = some o ∧ o.cell = c

theorem cutOff_endsCells (s : State) (k : Fin 4) :
    EndsCells s (answerOther (cutRead s k st) k st) st (s.slots[k]'k.isLt).holds := by
  obtain ⟨tm, sh, cut⟩ := cutRead_slot st s k
  have other := answerOther_endsCells st (cutRead s k st) k
  rw [cut] at other
  exact (cutRead_endsCells st s k).trans other

theorem cutOff_intake (s : State) (k : Fin 4) : (answerOther (cutRead s k st) k st).intake = s.intake := by
  rw [answerOther_keeps]
  exact cutRead_intake st s k

theorem cutOff_picture {r : ReadRec} {i : Fin 256} {p : Picture} (reading : (s.slots[k]'k.isLt).read = some r)
    (found : s.pictureAt r.picture = some (i, p)) (fill : p.state = .cardFill) :
    ((answerOther (cutRead s k st) k st).pictures[i]'i.isLt).pic = some { p with state := .torn } := by
  rw [answerOther_keeps]
  exact cutRead_picture st reading found fill

theorem cutOff_channel {r : ReadRec} (reading : (s.slots[k]'k.isLt).read = some r) :
    ChannelGivenUp s (answerOther (cutRead s k st) k st) k r := by
  rw [answerOther_keeps]
  exact cutRead_channel st reading

end cut

/-! ## Removal (R53, R54) -/

theorem exec_removal {s : State} {k : Fin 4} {tm : Timer} (used : (s.slots[k]'k.isLt).state ≠ .empty)
    (settled : (s.slots[k]'k.isLt).state ≠ .settling) (opened : (s.slots[k]'k.isLt).openTimer = some tm) (due : tm.due s.clock = true) :
    exec (.removal k) s = .next (finish s (removeCard s k)) := by
  show execRemoval k s = _
  rw [execRemoval]
  exact if_pos ⟨used, settled, by rw [opened]; exact due⟩

theorem led_ne_off {st : SlotState} (used : st ≠ .empty) : st.led ≠ .off := by
  cases st with
  | empty => exact absurd rfl used
  | _ => exact nofun

theorem sat16_eq (n : Nat) : sat16 n = if n < 65535 then n + 1 else n := rfl

/-- Settles O29: the read is cut and every cell of the slot and of its list answered, before the slot is EMPTY. -/
theorem removalEmptiesTheSlot : Obligations.RemovalEmptiesTheSlot := by
  unfold Obligations.RemovalEmptiesTheSlot
  intro s k tm x used settled opened due
  refine ⟨_, exec_removal used settled opened due, ?_⟩
  rw [finish_slots, finish_intake, finish_cells, finish_pictures, finish_channels, finish_chanWait]
  generalize hu : answerOther (cutRead s k .removed) k .removed = u
  have kept := foldl_takeAnswer_frame (refuse .removed) (u.intake[slotList k]'(Fin.isLt _)) u
  have ends : EndsCells s ((u.intake[slotList k]'(Fin.isLt _)).foldl (fun t c => t.takeAnswer c (refuse .removed)) u) .removed
      fun c => (s.slots[k]'k.isLt).holds c ∨ c ∈ (u.intake[slotList k]'(Fin.isLt _)) :=
    EndsCells.trans (hu ▸ cutOff_endsCells .removed s k) (foldl_takeAnswer_endsCells (refuse .removed) _ u)
  have lists : (((u.intake[slotList k]'(Fin.isLt _)).foldl (fun t c => t.takeAnswer c (refuse .removed)) u).intake[slotList k]'(Fin.isLt _)) = [] := by
    rw [foldl_takeAnswer_intake, List.filter_eq_nil_iff]
    simp
  have same : u.intake = s.intake := hu ▸ cutOff_intake .removed s k
  generalize hv : (u.intake[slotList k]'(Fin.isLt _)).foldl (fun t c => t.takeAnswer c (refuse .removed)) u = v at kept ends lists
  have slot : (v.slots[k]'k.isLt) = (u.slots[k]'k.isLt) := by rw [kept]
  obtain ⟨_, _, cut⟩ := cutOff_slot .removed s k
  rw [hu] at cut
  have removed : removeCard s k = v.modSlot k fun x =>
      { x.powerOff.enter s.clock .empty with
        openTimer := none, lastCardId := (x.record.map CardRecord.cardId).getD 0
        removedReading := (s.slots[k]'k.isLt).read.isSome, removalCount := sat16 x.removalCount
        record := none, faultCause := .none } := by
    have clock : v.clock = s.clock := by
      rw [kept, ← hu, answerOther_keeps, show cutRead s k .removed = _ from cutRead_frame s k .removed]
    rw [removeCard, hu, hv, clock]
  have cells : (removeCard s k).cells = v.cells := by rw [removed]; rfl
  have pictures : (removeCard s k).pictures = u.pictures := by rw [removed, kept]; rfl
  have channels : ∀ r, ChannelGivenUp s u k r → ChannelGivenUp s (removeCard s k) k r := by
    rw [removed, kept]
    exact fun _ h => h
  refine ⟨?slot, ?list, ⟨fun c listed => ?_, fun r reading => ?_, fun o held => ?_⟩, fun r reading =>
    ⟨fun i p found fill => ?_, ?_⟩⟩
  case slot =>
    have led : SlotState.empty.led ≠ x.state.led := (led_ne_off used).symm
    rw [removed, modSlot_get, if_pos rfl, slot, cut, enter_other (by exact led)]
    exact ⟨rfl, rfl, rfl, rfl, rfl, rfl, rfl, rfl, rfl, rfl, rfl, rfl, rfl⟩
  case list =>
    rw [removed]
    exact lists
  · rw [cells]
    exact ((ends c).1 (.inr (same ▸ listed))).answer
  · rw [cells]
    exact ((ends r.cell).1 (.inl (.inl ⟨r, reading, rfl⟩))).answer
  · rw [cells]
    exact ((ends o.cell).1 (.inl (.inr ⟨o, held, rfl⟩))).answer
  · rw [pictures, ← hu]
    exact cutOff_picture .removed reading found fill
  · exact channels r (hu ▸ cutOff_channel .removed reading)

/-! ## SLOT_RESET (R51, R55) -/

theorem exec_slotReset {s : State} {k : Fin 4} {c : Fin 64} (asks : s.asks (slotList k) .slotReset c) :
    exec (.slotReset k) s = match (s.slots[k]'k.isLt).state with
      | .empty => .next (finish s (s.takeAnswer c (doneWith (slotResetBody (s.slots[k]'k.isLt)))))
      | .ready | .reading | .releasing | .removeReady | .fault => .next (finish s (startReset (s.take c) k c))
      | .settling | .powering | .identifying | .tierSettle => .next s := by
  show execSlotReset k s = _
  simp only [execSlotReset, headOf_of_asks asks] <;> rfl

theorem startReset_slot (s : State) (k : Fin 4) (c : Fin 64) :
    let y := ((startReset s k c).slots[k]'k.isLt)
    y.state = .powering ∧ y.power = false ∧ y.timer = some ⟨.offInterval, ⟨s.clock, 50⟩⟩ ∧ y.record = none ∧
      y.read = none ∧ y.faultCause = .none ∧ y.workTier = .t0 ∧ y.workWide = false ∧ y.otherCell = some (.reset c) := by
  obtain ⟨_, _, cut⟩ := cutOff_slot .aborted s k
  have clock : (answerOther (cutRead s k .aborted) k .aborted).clock = s.clock := by
    rw [answerOther_keeps, show cutRead s k .aborted = _ from cutRead_frame s k .aborted]
  have entered : ∀ x : Slot, ∃ lit tm, x.powerOff.enter s.clock .powering =
      { x.powerOff with state := .powering, ledLit := lit, ledTimer := tm } := by
    intro x
    rw [Slot.enter]
    split <;> exact ⟨_, _, rfl⟩
  obtain ⟨_, _, powering⟩ := entered ((answerOther (cutRead s k .aborted) k .aborted).slots[k]'k.isLt)
  have slot : ((startReset s k c).slots[k]'k.isLt) = { ((answerOther (cutRead s k .aborted) k .aborted).slots[k]'k.isLt).powerOff.enter
      s.clock .powering with
        record := none, faultCause := .none, otherCell := some (.reset c)
        timer := some ⟨.offInterval, ⟨s.clock, 50⟩⟩ } := by
    rw [startReset, State.slotWait, modSlot_modSlot, modSlot_get, if_pos rfl, ← clock]
    rfl
  rw [slot, powering, cut]
  exact ⟨rfl, rfl, rfl, rfl, rfl, rfl, rfl, rfl, rfl⟩

theorem startReset_cells (s : State) (k : Fin 4) (c : Fin 64) :
    EndsCells s (startReset s k c) .aborted (s.slots[k]'k.isLt).holds :=
  (cutOff_endsCells .aborted s k).trans (.of_cells rfl .aborted) |>.mono fun c => by simp

theorem startReset_picture {s : State} {k : Fin 4} (c : Fin 64) {r : ReadRec} {i : Fin 256} {p : Picture}
    (reading : (s.slots[k]'k.isLt).read = some r) (found : s.pictureAt r.picture = some (i, p)) (fill : p.state = .cardFill) :
    ((startReset s k c).pictures[i]'i.isLt).pic = some { p with state := .torn } := cutOff_picture .aborted reading found fill

theorem startReset_channel {s : State} {k : Fin 4} (c : Fin 64) {r : ReadRec} (reading : (s.slots[k]'k.isLt).read = some r) :
    ChannelGivenUp s (startReset s k c) k r := (cutOff_channel .aborted reading).of_same rfl rfl

/-- The ways a tier attempt in tier settle fails (R48). -/
theorem exec_tier_fails {s : State} {k : Fin 4} {tm : Timer} (state : (s.slots[k]'k.isLt).state = .tierSettle) {i : Instr}
    (fails : (∃ bytes contents, (s.slots[k]'k.isLt).timer = some ⟨.status, tm⟩ ∧ i = .statusResponse k bytes ∧
            responseContents 1 bytes = some contents ∧ (byteAt contents 0).getLsbD 0 = false) ∨
          ((s.slots[k]'k.isLt).timer = some ⟨.status, tm⟩ ∧ i = .statusTimeout k ∧ tm.due s.clock = true) ∨
          (∃ bytes contents, (s.slots[k]'k.isLt).timer = some ⟨.setMode, tm⟩ ∧ i = .setModeResponse k bytes ∧
            responseContents 1 bytes = some contents ∧ byteAt contents 0 ≠ 0) ∨
          ((s.slots[k]'k.isLt).timer = some ⟨.setMode, tm⟩ ∧ i = .setModeTimeout k ∧ tm.due s.clock = true)) :
    exec i s = .next (finish s (tierFails s k)) := by
  have trying := trying_of_settle state
  obtain ⟨bytes, contents, timer, rfl, read, notReady⟩ | ⟨timer, rfl, due⟩ | ⟨bytes, contents, timer, rfl, read, refused⟩ |
    ⟨timer, rfl, due⟩ := fails
  · rw [exec_statusResponse_trying trying (waits_of_timer timer) read, if_neg (by rw [notReady]; decide)]
  · exact exec_statusTimeout_trying trying (waitOver_of_timer timer due)
  · rw [exec_setModeResponse trying (waits_of_timer timer) read, if_neg refused]
  · exact exec_setModeTimeout trying (waitOver_of_timer timer due)

/-- FAULT with a waiting reset answered (R49, R55). -/
theorem toFault_reset {s : State} {k : Fin 4} {c : Fin 64} (led : (s.slots[k]'k.isLt).state.led ≠ .amberBlink)
    (held : (s.slots[k]'k.isLt).otherCell = some (.reset c)) (cause : SlotFault) : toFault s k cause =
    (s.setSlot k { (s.slots[k]'k.isLt).faulted s.clock cause with otherCell := none }).answer c ⟨.done, 0,
      [9, BitVec.ofNat 8 cause.code, 0, 0] ++ le 4 (((s.slots[k]'k.isLt).record.map CardRecord.cardId).getD 0).toNat⟩ := by
  rw [toFault_eq led, answerReset_reset (by exact held)]
  rfl

/-- Settles O31: the take by the slot state, then the ends of a reset. -/
theorem slotResetStartsOverFromPower : Obligations.SlotResetStartsOverFromPower := by
  unfold Obligations.SlotResetStartsOverFromPower
  refine ⟨fun s k c asks => ⟨fun state => ?empty, fun state => ?starts⟩, fun s k c tm => ?ends⟩
  case ends =>
    intro x held id off
    refine ⟨fun state => ⟨fun bytes contents timer read ready => ?confirmed, fun i none fails => ?noTier⟩,
      fun state timer => ⟨fun many i fails => ?third, fun bytes rec outcome none => ?noOpen⟩⟩
    case confirmed =>
      rw [exec_statusResponse_trying (trying_of_settle state) (waits_of_timer timer) read, if_pos ready,
        tierConfirmed_eq state, answerReset_reset (by exact held)]
      rfl
    case noTier =>
      rw [exec_tier_fails state fails, tierFails_fault state none,
        toFault_reset (by rw [state]; exact fun h => nomatch h) held]
      rfl
    case third =>
      have fault : identifyFails s k = _ := (identifyFails_fault (by exact Nat.not_lt.mpr many)).trans
        (toFault_reset (by rw [state]; exact fun h => nomatch h) held .unresponsive)
      obtain ⟨rfl, due⟩ | ⟨bytes, rfl, outcome⟩ := fails
      · rw [exec_identifyTimeout state (waitOver_of_timer timer due), fault]
        rfl
      · rw [exec_identifyResponse state (waits_of_timer timer), outcome]
        exact congrArg (fun t => Host.Outcome.next (finish s t)) fault
    case noOpen =>
      refine ⟨_, by rw [exec_identifyResponse state (waits_of_timer timer), outcome], ?_⟩
      have settling : ((s.setSlot k ((s.slots[k]'k.isLt).settlingTier s.settings k rec)).slots[k]'k.isLt) =
          (s.slots[k]'k.isLt).settlingTier s.settings k rec := by rw [setSlot_get, if_pos rfl]
      rw [finish_slots, finish_cells, identified_eq state, none]
      simp only
      rw [toFault_reset (c := c) (by rw [settling]; exact fun h => nomatch h) (by rw [settling]; exact held),
        setSlot_setSlot, answer_cell_self, State.answer, State.setCell_slots, setSlot_get, if_pos rfl, settling]
      exact ⟨rfl, rfl, rfl, rfl, rfl, rfl⟩
  case empty =>
    rw [exec_slotReset asks, state, slotResetBody, state]
    rfl
  case starts =>
    refine ⟨finish s (startReset (s.take c) k c), ?_, ?_⟩
    · rw [exec_slotReset asks]
      obtain state | state | state | state | state := state <;> rw [state]
    rw [finish_slots, finish_cells, finish_pictures, finish_channels, finish_chanWait]
    have cells := startReset_cells (s.take c) k c
    have aborted : ∀ d, (s.slots[k]'k.isLt).holds d → ((startReset (s.take c) k c).cells[d]'d.isLt).hand = .answered ∧
        (d ≠ c → (s.cells[d]'d.isLt).mem.wf = true →
          cellByte ((startReset (s.take c) k c).cells[d]'d.isLt) 12 = BitVec.ofNat 8 Status.aborted.code) := by
      intro d holds
      obtain ⟨hand, byte⟩ := ((cells d).1 holds).answer
      exact ⟨hand, fun other w => byte ((take_cell_other s other).symm ▸ w)⟩
    refine ⟨startReset_slot (s.take c) k c, fun read other => ?_, ⟨fun r reading => ?_, fun o held => ?_⟩, fun r reading =>
      ⟨fun i p found fill => startReset_picture c reading found fill, startReset_channel c reading⟩⟩
    · have free : ¬ ((s.take c).slots[k]'k.isLt).holds c := by
        rintro (⟨r, reading, same⟩ | ⟨o, held, same⟩)
        · exact read r reading same
        · exact other o held same
      rw [(cells c).2 free, take_cell_self]
      rfl
    · exact aborted r.cell (.inl ⟨r, reading, rfl⟩)
    · exact aborted o.cell (.inr ⟨o, held, rfl⟩)

end Sys2Proof.Machine
end

