-- ==== Sys2Proof/Proofs/Reads.lean ====
section
/-! A card read while it goes on: READ_BLOCKS and its answers (R63), blocks (R64 to R66), CHECKING (R67), the CRC error
window (R68) and the tier fall-back (R69, R71). -/

namespace Sys2Proof.Machine

-- Checked one after another, as in the tests: a theorem checked alongside others holds its memory.
set_option Elab.async false

/-! ## What a read changes: its slot, the channels, and what is put out -/

/-- The state with one slot, the channels, and more put out. -/
def State.onSlot (s : State) (k : Fin 4) (x : Slot) (cs : Vector Channel 2) (os : List Output) : State :=
  { s with slots := s.slots.set k x, channels := cs, sent := s.sent ++ os }

section onSlot
variable {s : State} {k : Fin 4} {x : Slot} {cs : Vector Channel 2} {os : List Output}

theorem onSlot_self (s : State) (k : Fin 4) : s.onSlot k (s.slots[k]'k.isLt) s.channels [] = s := by
  rw [State.onSlot, List.append_nil, vector_set_self]

theorem onSlot_nil : s.onSlot k x cs [] = { s.setSlot k x with channels := cs } := by
  rw [State.onSlot, List.append_nil]
  rfl

@[simp] theorem onSlot_slot : ((s.onSlot k x cs os).slots[k]'k.isLt) = x := by
  rw [State.onSlot, vector_set_get, if_pos rfl]

@[simp] theorem onSlot_clock : (s.onSlot k x cs os).clock = s.clock := rfl
@[simp] theorem onSlot_channels : (s.onSlot k x cs os).channels = cs := rfl
@[simp] theorem onSlot_sent : (s.onSlot k x cs os).sent = s.sent ++ os := rfl

@[simp] theorem onSlot_modSlot (f : Slot → Slot) : (s.onSlot k x cs os).modSlot k f = s.onSlot k (f x) cs os := by
  rw [State.modSlot, State.setSlot, onSlot_slot]
  exact congrArg (fun v => ({ s with slots := v, channels := cs, sent := s.sent ++ os } : State)) (Vector.set_set ..)

@[simp] theorem onSlot_setSlot (y : Slot) : (s.onSlot k x cs os).setSlot k y = s.onSlot k y cs os :=
  onSlot_modSlot fun _ => y

@[simp] theorem onSlot_sendCard (j : Fin 4) (bytes : List Byte) :
    (s.onSlot k x cs os).sendCard j bytes = s.onSlot k x cs (os ++ [.card j bytes]) :=
  congrArg (fun v => ({ s with slots := s.slots.set k x, channels := cs, sent := v } : State)) (List.append_assoc ..)

@[simp] theorem onSlot_setChannel (c : Fin 2) (y : Channel) :
    (s.onSlot k x cs os).setChannel c y = s.onSlot k x (cs.set c y) os := rfl

@[simp] theorem onSlot_slotWait (w : SlotWait) (d : Nat) :
    (s.onSlot k x cs os).slotWait k w d = s.onSlot k { x with timer := some ⟨w, ⟨s.clock, d⟩⟩ } cs os :=
  onSlot_modSlot _

theorem modSlot_onSlot (f : Slot → Slot) : s.modSlot k f = s.onSlot k (f (s.slots[k]'k.isLt)) s.channels [] := by
  rw [← onSlot_modSlot, onSlot_self]

theorem setSlot_onSlot (y : Slot) : s.setSlot k y = s.onSlot k y s.channels [] := modSlot_onSlot fun _ => y

/-! ## The operations of a read, in that form -/

variable {r : ReadRec} {ch : Fin 2} {run : BlockRun}

theorem onSlot_modRead (reading : x.read = some r) (f : ReadRec → ReadRec) :
    (s.onSlot k x cs os).modRead k f = s.onSlot k { x with read := some (f r) } cs os := by
  rw [State.modRead, onSlot_modSlot, reading, Option.map_some]

theorem onSlot_showRead (reading : x.read = some r) (active : Bool) : showRead (s.onSlot k x cs os) k active =
    s.onSlot k { x with shown := ⟨active, r.picture, r.placed, totalBlocks r.runs, r.failedTotal, x.crcErrs,
      x.timeouts⟩ } cs os := by
  rw [showRead, onSlot_modSlot, reading]

theorem onSlot_goIssuing (reading : x.read = some r) (current : r.runs[r.curRun]? = some run) :
    goIssuing (s.onSlot k x cs os) k = s.onSlot k { x with
      read := some { r with phase := .issuing }, timer := some ⟨.readBlocks, ⟨s.clock, 250⟩⟩ } cs
      (os ++ [.card k (readBlocksCommand r.nextBlock (run.start + run.count - r.nextBlock))]) := by
  simp only [goIssuing, onSlot_slot, reading, current, onSlot_modRead reading, onSlot_sendCard, onSlot_slotWait]

theorem onSlot_stopAndIssue (reading : x.read = some r) (current : r.runs[r.curRun]? = some run) :
    stopAndIssue (s.onSlot k x cs os) k = s.onSlot k { x with
      read := some { r with phase := .issuing }, timer := some ⟨.readBlocks, ⟨s.clock, 250⟩⟩ } cs
      (os ++ [.card k stopCommand, .card k (readBlocksCommand r.nextBlock (run.start + run.count - r.nextBlock))]) := by
  rw [stopAndIssue, onSlot_sendCard, onSlot_goIssuing reading current, List.append_assoc]
  rfl

theorem onSlot_putBlock (reading : x.read = some r) (channel : r.channel = some ch) (data : Option (List Byte)) :
    putBlock (s.onSlot k x cs os) k data =
      s.onSlot k x (cs.set ch { (cs[ch]'ch.isLt) with buffer := some ⟨r.picture, r.nextPos, data⟩ }) os := by
  simp only [putBlock, onSlot_slot, reading, channel, onSlot_channels, onSlot_setChannel]

theorem onSlot_putMarker (reading : x.read = some r) (channel : r.channel = some ch) :
    putMarker (s.onSlot k x cs os) k = s.onSlot k { x with read := some r.advance }
      (cs.set ch { (cs[ch]'ch.isLt) with buffer := some ⟨r.picture, r.nextPos, none⟩ }) os := by
  rw [putMarker, onSlot_putBlock reading channel, onSlot_modRead reading]

theorem onSlot_afterPut_done (reading : x.read = some r) (done : r.runDone = true) (next : State → State) :
    afterPut (s.onSlot k x cs os) k next = s.onSlot k { x with read := some { r with phase := .draining } } cs os := by
  simp only [afterPut, onSlot_slot, reading, done, if_true, onSlot_modRead reading]

theorem onSlot_afterPut_more (reading : x.read = some r) (more : r.runDone = false) (next : State → State) :
    afterPut (s.onSlot k x cs os) k next = next (s.onSlot k x cs os) := by
  simp only [afterPut, onSlot_slot, reading, more, Bool.false_eq_true, if_false]

theorem onSlot_pumpIfEmpty (reading : x.read = some r) (channel : r.channel = some ch) :
    pumpIfEmpty (s.onSlot k x cs os) k =
      if (cs[ch]'ch.isLt).buffer.isNone then pump (s.onSlot k x cs os) k else s.onSlot k x cs os := by
  simp only [pumpIfEmpty, onSlot_slot, reading, State.bufferEmpty, channel, onSlot_channels]

theorem onSlot_pump_receiving (reading : x.read = some r) (owed : r.owed = .none) (phase : r.phase = .receiving) :
    pump (s.onSlot k x cs os) k = s.onSlot k { x with timer := some ⟨.data, ⟨s.clock, 100⟩⟩ } cs os := by
  simp only [pump, onSlot_slot, reading, owed, phase, onSlot_slotWait]

theorem onSlot_pump_block (reading : x.read = some r) (channel : r.channel = some ch) (owed : r.owed = .block) :
    pump (s.onSlot k x cs os) k =
      let t := s.onSlot k { x with read := some { r.advance with owed := .none } }
        (cs.set ch { (cs[ch]'ch.isLt) with buffer := some ⟨r.picture, r.nextPos, none⟩ }) os
      if r.phase = .fallingBack then t else afterPut t k fun u => stopAndIssue u k := by
  simp only [pump, onSlot_slot, reading, owed, onSlot_putMarker reading channel,
    onSlot_modRead (x := { x with read := some r.advance }) rfl]

theorem onSlot_tryTier (state : x.state = .reading ∨ x.state = .releasing) (t : Tier) :
    tryTier (s.onSlot k x cs os) k t = s.onSlot k { x with
      busTier := .t0, busWide := false, tryTier := t, timer := some ⟨.setMode, ⟨s.clock, 250⟩⟩ } cs
      (os ++ [.card k (setModeCommand x.workWide t)]) := by
  have other : x.state ≠ .tierSettle := by
    intro settle
    rw [settle] at state
    obtain h | h := state <;> exact nomatch h
  simp only [tryTier, onSlot_slot, onSlot_modSlot, onSlot_sendCard, onSlot_slotWait, Slot.setBus, Slot.tryWide, other,
    if_false]

theorem onSlot_startFallBack {t : Tier} (reading : x.read = some r) (state : x.state = .reading ∨ x.state = .releasing)
    (lower : x.openBelow x.workTier.code = some t) : startFallBack (s.onSlot k x cs os) k = s.onSlot k { x with
      read := some { r with phase := .fallingBack }
      busTier := .t0, busWide := false, tryTier := t, timer := some ⟨.setMode, ⟨s.clock, 250⟩⟩ } cs
      (os ++ [.card k stopCommand, .card k (setModeCommand x.workWide t)]) := by
  have below : ({ x with read := some { r with phase := .fallingBack } } : Slot).openBelow x.workTier.code = some t :=
    lower
  rw [startFallBack, onSlot_modRead reading, onSlot_sendCard, onSlot_slot, fallBackFrom, onSlot_slot, below]
  simp only
  rw [onSlot_tryTier (by exact state), List.append_assoc]
  rfl

end onSlot

/-- What an event puts out is what its blocks put out, and an MSI at most. -/
theorem finish_puts (s t : State) : ∃ msi, (msi = [] ∨ msi = [Output.msi]) ∧ (finish s t).sent = t.sent ++ msi := by
  obtain same | more := finish_sent s t
  · exact ⟨[], .inl rfl, by rw [same, List.append_nil]⟩
  · exact ⟨[.msi], .inr rfl, more⟩

/-! ## READ_BLOCKS (R63, R64) -/

section commands
variable {s : State} {k : Fin 4}

theorem exec_readBlocksResponse {bytes c : List Byte} (waits : (s.slots[k]'k.isLt).waits .readBlocks = true)
    (contents : responseContents 1 bytes = some c) : exec (.readBlocksResponse k bytes) s =
      .next (finish s (if byteAt c 0 = 0 then goReceiving s k else goChecking s k .command)) := by
  show execReadBlocksResponse k bytes s = _
  simp only [execReadBlocksResponse, waits, if_true, contents, event]

theorem exec_readBlocksTimeout (ranOut : (s.slots[k]'k.isLt).waitOver s.clock .readBlocks = true) :
    exec (.readBlocksTimeout k) s = .next (finish s (goChecking s k .command)) := by
  show execReadBlocksTimeout k s = _
  simp only [execReadBlocksTimeout, ranOut, if_true, event]

theorem onSlot_goChecking {x : Slot} {r : ReadRec} {cs : Vector Channel 2} {os : List Output} (reading : x.read = some r)
    (cause : CheckCause) : goChecking (s.onSlot k x cs os) k cause = s.onSlot k { x with
      timer := some ⟨.status, ⟨s.clock, 250⟩⟩, read := some { r with phase := .checking, cause := cause } } cs
      (os ++ [.card k [5, 0, 0, 0, 0, 0, 0, 0xFB]]) := by
  rw [goChecking, onSlot_sendCard, onSlot_modRead reading, onSlot_slotWait]
  rfl

theorem goChecking_eq {r : ReadRec} (reading : (s.slots[k]'k.isLt).read = some r) (cause : CheckCause) :
    goChecking s k cause = (s.setSlot k { (s.slots[k]'k.isLt) with
      timer := some ⟨.status, ⟨s.clock, 250⟩⟩, read := some { r with phase := .checking, cause := cause } }).emit
        (.card k [5, 0, 0, 0, 0, 0, 0, 0xFB]) := by
  have at_ := onSlot_goChecking (s := s) (k := k) (cs := s.channels) (os := []) reading cause
  rw [onSlot_self] at at_
  exact at_

theorem goReceiving_eq {r : ReadRec} {ch : Fin 2} (reading : (s.slots[k]'k.isLt).read = some r) (channel : r.channel = some ch)
    (owed : r.owed = .none) : goReceiving s k = s.setSlot k { (s.slots[k]'k.isLt) with
      timer := if (s.channels[ch]'ch.isLt).buffer.isNone then some ⟨.data, ⟨s.clock, 100⟩⟩ else none
      read := some { r with phase := .receiving } } := by
  rw [goReceiving, State.slotNoWait, modSlot_onSlot, onSlot_modRead (by exact reading),
    onSlot_pumpIfEmpty (r := { r with phase := .receiving }) rfl channel, setSlot_onSlot]
  split
  · rw [onSlot_pump_receiving (r := { r with phase := .receiving }) rfl owed rfl]
  · rfl

end commands

/-- Settles O33: accepted, refused or not answered. -/
theorem readBlocksIsAnsweredOrChecked : Obligations.ReadBlocksIsAnsweredOrChecked := by
  unfold Obligations.ReadBlocksIsAnsweredOrChecked
  intro s k tm r x timer reading
  refine ⟨fun bytes c ch contents accepted channel owed => ?_, fun bytes c contents refused => ?_, fun due => ?_⟩
  · rw [exec_readBlocksResponse (waits_of_timer timer) contents, if_pos accepted, goReceiving_eq reading channel owed]
  · rw [exec_readBlocksResponse (waits_of_timer timer) contents, if_neg refused, goChecking_eq reading]
  · rw [exec_readBlocksTimeout (waitOver_of_timer timer due), goChecking_eq reading]

/-! ## The CRC error window (R68) and a failed attempt (R66, R67) -/

/-- The window after a transfer or an error: it restarts at its threshold of errors, and at 256 transfers. -/
def Slot.windowed (x : Slot) (transfer error : Bool) : Slot :=
  { x with
    winTransfers := if x.threshold ≤ x.winErrors + flag error ∨ 256 ≤ x.winTransfers + flag transfer then 0
      else x.winTransfers + flag transfer
    winErrors := if x.threshold ≤ x.winErrors + flag error ∨ 256 ≤ x.winTransfers + flag transfer then 0
      else x.winErrors + flag error }

theorem countWindow_eq (x : Slot) (transfer error : Bool) : x.countWindow transfer error =
    (x.windowed transfer error,
      decide (x.threshold ≤ x.winErrors + flag error) && (x.openBelow x.workTier.code).isSome) := by
  rw [Slot.countWindow, Slot.windowed]
  by_cases full : x.threshold ≤ x.winErrors + flag error
  · simp only [full, if_true, true_or, decide_true, Bool.true_and]
    rfl
  · by_cases long : 256 ≤ x.winTransfers + flag transfer
    · simp only [full, long, if_true, if_false, or_true, decide_false, Bool.false_and]
    · simp only [full, long, if_false, or_self, decide_false, Bool.false_and]

/-- The read of a slot after a failed attempt (R66). -/
def ReadRec.tried (r : ReadRec) (crc : Bool) : ReadRec :=
  { r with attempts := r.attempts + 1
           crcErrs := if crc then sat16 r.crcErrs else r.crcErrs
           timeouts := if crc then r.timeouts else sat16 r.timeouts }

/-- The slot after a failed attempt (R66, R68). -/
def Slot.tried (x : Slot) (transfer crc : Bool) (r : ReadRec) : Slot :=
  { x.windowed transfer true with
    crcErrs := if crc then sat16 x.crcErrs else x.crcErrs
    timeouts := if crc then x.timeouts else sat16 x.timeouts
    timer := none
    read := some (r.tried crc) }

/-- A failed attempt brings a fall-back: the window is full, and a lower tier is open (R68). -/
def Slot.fallsBack (x : Slot) : Bool := decide (x.threshold ≤ x.winErrors + 1) && (x.openBelow x.workTier.code).isSome

theorem fallsBack_false {x : Slot} (h : ¬ x.threshold ≤ x.winErrors + 1 ∨ x.openBelow x.workTier.code = none) :
    x.fallsBack = false := by
  obtain below | none := h
  · rw [Slot.fallsBack, decide_eq_false below, Bool.false_and]
  · rw [Slot.fallsBack, none, Option.isSome_none, Bool.and_false]

theorem fallsBack_true {x : Slot} {t : Tier} (full : x.threshold ≤ x.winErrors + 1)
    (lower : x.openBelow x.workTier.code = some t) : x.fallsBack = true := by
  rw [Slot.fallsBack, decide_eq_true full, lower]
  rfl

theorem runDone_eq {r : ReadRec} {run : BlockRun} (current : r.runs[r.curRun]? = some run) :
    r.runDone = decide (run.start + run.count ≤ r.nextBlock) := by
  rw [ReadRec.runDone, current]

section attempt
variable {s : State} {k : Fin 4} {r : ReadRec} {transfer crc : Bool}

theorem attemptFails_few (reading : (s.slots[k]'k.isLt).read = some r) (few : r.attempts < (s.slots[k]'k.isLt).retries) :
    attemptFails s k transfer crc =
      if (s.slots[k]'k.isLt).fallsBack then startFallBack (s.onSlot k ((s.slots[k]'k.isLt).tried transfer crc r) s.channels []) k
      else stopAndIssue (s.onSlot k ((s.slots[k]'k.isLt).tried transfer crc r) s.channels []) k := by
  have retries : r.attempts + 1 ≤ ((s.slots[k]'k.isLt).windowed transfer true).retries := few
  rw [attemptFails, countWindow_eq]
  simp only
  rw [setSlot_onSlot, onSlot_modRead (r := r) (by exact reading), onSlot_slot]
  exact if_pos retries

/-- The slot of a read whose block has failed and whose marker is owed (R66). -/
def Slot.owing (x : Slot) (transfer crc : Bool) (r : ReadRec) : Slot :=
  { x.tried transfer crc r with read := some { r.tried crc with owed := .block, phase := .checking } }

theorem attemptFails_many (reading : (s.slots[k]'k.isLt).read = some r) (many : (s.slots[k]'k.isLt).retries ≤ r.attempts) :
    attemptFails s k transfer crc = pumpIfEmpty
      (if (s.slots[k]'k.isLt).fallsBack then startFallBack (s.onSlot k ((s.slots[k]'k.isLt).owing transfer crc r) s.channels []) k
        else s.onSlot k ((s.slots[k]'k.isLt).owing transfer crc r) s.channels []) k := by
  have retries : ¬ r.attempts + 1 ≤ ((s.slots[k]'k.isLt).windowed transfer true).retries := Nat.not_le.mpr (Nat.lt_succ_of_le many)
  rw [attemptFails, countWindow_eq]
  simp only
  rw [setSlot_onSlot, onSlot_modRead (r := r) (by exact reading), onSlot_slot]
  refine (if_neg retries).trans ?_
  rw [onSlot_modRead (r := r.tried crc) rfl]
  rfl

variable {ch : Fin 2} {run : BlockRun}

theorem attemptFails_again (reading : (s.slots[k]'k.isLt).read = some r) (few : r.attempts < (s.slots[k]'k.isLt).retries)
    (stays : (s.slots[k]'k.isLt).fallsBack = false) (current : r.runs[r.curRun]? = some run) :
    attemptFails s k transfer crc = s.onSlot k { (s.slots[k]'k.isLt).tried transfer crc r with
      read := some { r.tried crc with phase := .issuing }, timer := some ⟨.readBlocks, ⟨s.clock, 250⟩⟩ } s.channels
      [.card k stopCommand, .card k (readBlocksCommand r.nextBlock (run.start + run.count - r.nextBlock))] := by
  rw [attemptFails_few reading few, stays]
  exact onSlot_stopAndIssue (r := r.tried crc) rfl current

theorem attemptFails_falls {t : Tier} (reading : (s.slots[k]'k.isLt).read = some r) (few : r.attempts < (s.slots[k]'k.isLt).retries)
    (state : (s.slots[k]'k.isLt).state = .reading ∨ (s.slots[k]'k.isLt).state = .releasing)
    (full : (s.slots[k]'k.isLt).threshold ≤ (s.slots[k]'k.isLt).winErrors + 1)
    (lower : (s.slots[k]'k.isLt).openBelow (s.slots[k]'k.isLt).workTier.code = some t) :
    attemptFails s k transfer crc = s.onSlot k { (s.slots[k]'k.isLt).tried transfer crc r with
      read := some { r.tried crc with phase := .fallingBack }
      busTier := .t0, busWide := false, tryTier := t, timer := some ⟨.setMode, ⟨s.clock, 250⟩⟩ } s.channels
      [.card k stopCommand, .card k (setModeCommand (s.slots[k]'k.isLt).workWide t)] := by
  rw [attemptFails_few reading few, fallsBack_true full lower]
  exact onSlot_startFallBack (r := r.tried crc) rfl state lower

/-- The read after its failed block's marker was put (R66). -/
def ReadRec.marked (r : ReadRec) (crc : Bool) : ReadRec := { (r.tried crc).advance with owed := .none }

theorem marked_of_none (owed : r.owed = .none) : r.marked crc = (r.tried crc).advance := by
  cases r
  cases owed
  rfl

theorem attemptFails_marks (reading : (s.slots[k]'k.isLt).read = some r) (many : (s.slots[k]'k.isLt).retries ≤ r.attempts)
    (stays : (s.slots[k]'k.isLt).fallsBack = false) (channel : r.channel = some ch) (empty : (s.channels[ch]'ch.isLt).buffer = none)
    (current : r.runs[r.curRun]? = some run) : attemptFails s k transfer crc =
      if run.start + run.count ≤ r.nextBlock + 1 then
        s.onSlot k { (s.slots[k]'k.isLt).tried transfer crc r with read := some { r.marked crc with phase := .draining } }
          (s.channels.set ch { (s.channels[ch]'ch.isLt) with buffer := some ⟨r.picture, r.nextPos, none⟩ }) []
      else
        s.onSlot k { (s.slots[k]'k.isLt).tried transfer crc r with
          read := some { r.marked crc with phase := .issuing }, timer := some ⟨.readBlocks, ⟨s.clock, 250⟩⟩ }
          (s.channels.set ch { (s.channels[ch]'ch.isLt) with buffer := some ⟨r.picture, r.nextPos, none⟩ })
          [.card k stopCommand,
           .card k (readBlocksCommand (r.nextBlock + 1) (run.start + run.count - (r.nextBlock + 1)))] := by
  let marked : ReadRec := { r.marked crc with phase := .checking }
  have done : marked.runDone = decide (run.start + run.count ≤ r.nextBlock + 1) := runDone_eq (by exact current)
  rw [attemptFails_many reading many, stays, if_neg Bool.false_ne_true,
    onSlot_pumpIfEmpty (r := { r.tried crc with owed := .block, phase := .checking }) rfl channel, empty,
    if_pos (by rfl), onSlot_pump_block (r := { r.tried crc with owed := .block, phase := .checking }) rfl channel rfl]
  refine (if_neg (fun h => nomatch h)).trans ?_
  split
  · rename_i last
    exact onSlot_afterPut_done (r := marked) rfl (done.trans (decide_eq_true last)) _
  · rename_i more
    refine (onSlot_afterPut_more (r := marked) rfl (done.trans (decide_eq_false more)) _).trans ?_
    exact onSlot_stopAndIssue (r := marked) rfl (by exact current)

theorem attemptFails_owes (reading : (s.slots[k]'k.isLt).read = some r) (many : (s.slots[k]'k.isLt).retries ≤ r.attempts)
    (stays : (s.slots[k]'k.isLt).fallsBack = false) (channel : r.channel = some ch) (full : (s.channels[ch]'ch.isLt).buffer.isSome) :
    attemptFails s k transfer crc = s.onSlot k ((s.slots[k]'k.isLt).owing transfer crc r) s.channels [] := by
  rw [attemptFails_many reading many, stays, if_neg Bool.false_ne_true,
    onSlot_pumpIfEmpty (r := { r.tried crc with owed := .block, phase := .checking }) rfl channel,
    Option.isNone_eq_false_iff.mpr full]
  rfl

theorem attemptFails_falls_many {t : Tier} (reading : (s.slots[k]'k.isLt).read = some r)
    (many : (s.slots[k]'k.isLt).retries ≤ r.attempts)
    (state : (s.slots[k]'k.isLt).state = .reading ∨ (s.slots[k]'k.isLt).state = .releasing) (channel : r.channel = some ch)
    (full : (s.slots[k]'k.isLt).threshold ≤ (s.slots[k]'k.isLt).winErrors + 1)
    (lower : (s.slots[k]'k.isLt).openBelow (s.slots[k]'k.isLt).workTier.code = some t) :
    attemptFails s k transfer crc =
      let put : Bool := (s.channels[ch]'ch.isLt).buffer.isNone
      s.onSlot k { (s.slots[k]'k.isLt).tried transfer crc r with
        read := some (if put then { r.marked crc with phase := .fallingBack }
          else { r.tried crc with owed := .block, phase := .fallingBack })
        busTier := .t0, busWide := false, tryTier := t, timer := some ⟨.setMode, ⟨s.clock, 250⟩⟩ }
        (if put then s.channels.set ch { (s.channels[ch]'ch.isLt) with buffer := some ⟨r.picture, r.nextPos, none⟩ }
          else s.channels)
        [.card k stopCommand, .card k (setModeCommand (s.slots[k]'k.isLt).workWide t)] := by
  have falls := onSlot_startFallBack (s := s) (k := k) (x := (s.slots[k]'k.isLt).owing transfer crc r) (cs := s.channels) (os := [])
    (r := { r.tried crc with owed := .block, phase := .checking }) rfl state lower
  rw [attemptFails_many reading many, fallsBack_true full lower, if_pos rfl, falls,
    onSlot_pumpIfEmpty (r := { r.tried crc with owed := .block, phase := .fallingBack }) rfl channel]
  cases (s.channels[ch]'ch.isLt).buffer.isNone with
  | true =>
    refine (if_pos rfl).trans
      ((onSlot_pump_block (r := { r.tried crc with owed := .block, phase := .fallingBack }) rfl channel rfl).trans ?_)
    exact if_pos rfl
  | false => rfl

end attempt

/-! ## Blocks (R64 to R66) -/

section blocks
variable {s : State} {k : Fin 4}

theorem exec_blockReceived (waits : (s.slots[k]'k.isLt).waits .data = true) (data : List Byte) (crcs : List Half) :
    exec (.blockReceived k data crcs) s = .next (finish s (if blockGood (s.slots[k]'k.isLt).workWide data crcs
      then blockArrives s k data else attemptFails s k true true)) := by
  show execBlockReceived k data crcs s = _
  simp only [execBlockReceived, waits, if_true, event]

theorem exec_dataTimeout (ranOut : (s.slots[k]'k.isLt).waitOver s.clock .data = true) : exec (.dataTimeout k) s =
    .next (finish s (goChecking ((s.setSlot k ((s.slots[k]'k.isLt).windowed true false)).sendCard k stopCommand) k .timeout)) := by
  show execDataTimeout k s = _
  simp only [execDataTimeout, ranOut, if_true, event, countWindow_eq]

theorem windowed_good {x : Slot} (below : x.winErrors < x.threshold) : x.windowed true false = { x with
    winTransfers := if 256 ≤ x.winTransfers + 1 then 0 else x.winTransfers + 1
    winErrors := if 256 ≤ x.winTransfers + 1 then 0 else x.winErrors } := by
  have short : ¬ x.threshold ≤ x.winErrors := Nat.not_le.mpr below
  simp only [Slot.windowed, flag, Bool.false_eq_true, if_true, if_false, Nat.add_zero, short, false_or]

theorem blockArrives_eq {r : ReadRec} {ch : Fin 2} {run : BlockRun} (reading : (s.slots[k]'k.isLt).read = some r)
    (channel : r.channel = some ch) (current : r.runs[r.curRun]? = some run) (data : List Byte) :
    blockArrives s k data = s.onSlot k { (s.slots[k]'k.isLt).windowed true false with
      timer := none
      read := some (if run.start + run.count ≤ r.nextBlock + 1 then { r.advance with phase := .draining } else r.advance) }
      (s.channels.set ch { (s.channels[ch]'ch.isLt) with buffer := some ⟨r.picture, r.nextPos, some data⟩ }) [] := by
  have done : r.advance.runDone = decide (run.start + run.count ≤ r.nextBlock + 1) := runDone_eq (by exact current)
  rw [blockArrives, countWindow_eq, setSlot_onSlot, onSlot_putBlock (r := r) (by exact reading) channel,
    onSlot_modRead (r := r) (by exact reading)]
  split
  · rename_i last
    exact onSlot_afterPut_done (r := r.advance) rfl (done.trans (decide_eq_true last)) _
  · rename_i more
    exact onSlot_afterPut_more (r := r.advance) rfl (done.trans (decide_eq_false more)) _

end blocks

/-- Settles O34: a good block, a data timeout, and each way a CRC failure goes. -/
theorem blocksArriveOrFail : Obligations.BlocksArriveOrFail := by
  unfold Obligations.BlocksArriveOrFail
  intro s k tm r ch run x timer reading channel current state below
  refine ⟨fun data crcs good => ?good, fun data crcs bad => ?bad, fun due => ?late⟩
  case good =>
    rw [exec_blockReceived (waits_of_timer timer), if_pos (by exact good), blockArrives_eq reading channel current,
      windowed_good below, onSlot_nil]
    rfl
  case late =>
    rw [exec_dataTimeout (waitOver_of_timer timer due), windowed_good below, setSlot_onSlot, onSlot_sendCard,
      onSlot_goChecking (r := r) (by exact reading)]
    rfl
  case bad =>
    have failed : exec (.blockReceived k data crcs) s = .next (finish s (attemptFails s k true true)) := by
      rw [exec_blockReceived (waits_of_timer timer), if_neg (by rw [bad]; exact Bool.false_ne_true)]
    intro full tried failedRead marker reads ends
    have ends_of : ∀ {holds : State → List Output → Prop} {y : Slot} {cs : Vector Channel 2} {os : List Output},
        attemptFails s k true true = s.onSlot k y cs os →
        { y with read := none, timer := none, busTier := .t0, busWide := false, tryTier := .t0 } =
          { x.tried true true r with read := none, timer := none, busTier := .t0, busWide := false, tryTier := .t0 } →
        (∀ t msi, (t.slots[k]'k.isLt) = y → t.channels = cs → t.sent = s.sent ++ os ++ msi → holds t msi) → ends holds := by
      intro holds y cs os outcome counts h
      obtain ⟨msi, few, sent⟩ := finish_puts s (attemptFails s k true true)
      have slot : ((finish s (attemptFails s k true true)).slots[k]'k.isLt) = y := by rw [finish_slots, outcome, onSlot_slot]
      refine ⟨_, msi, failed, few, ?_, ?_, ?_, ?_, ?_, h _ msi slot (by rw [finish_channels, outcome]; rfl)
        (by rw [sent, outcome]; rfl)⟩
      all_goals rw [slot]
      · exact congrArg Slot.winTransfers counts
      · exact congrArg Slot.winErrors counts
      · exact congrArg Slot.crcErrs counts
      · exact (congrArg Slot.timeouts counts :)
      · exact (congrArg Slot.workTier counts :)
    refine ⟨fun stays => ⟨fun few => ?again, fun many empty => ?marks, fun many held => ?owes⟩,
      fun tier full lower => ?falls⟩
    case again =>
      refine ends_of (attemptFails_again reading few (fallsBack_false stays) current) rfl fun t msi slot channels sent => ?_
      rw [slot]
      exact ⟨rfl, rfl, channels, sent⟩
    case marks =>
      have outcome := attemptFails_marks (transfer := true) (crc := true) reading many (fallsBack_false stays) channel empty
        current
      by_cases last : run.start + run.count ≤ r.nextBlock + 1
      · rw [if_pos last] at outcome
        refine ends_of outcome rfl fun t msi slot channels sent => ⟨channels, fun more => absurd last (by omega), fun _ => ?_⟩
        rw [slot]
        exact ⟨rfl, rfl, by rw [sent, List.append_nil]⟩
      · rw [if_neg last] at outcome
        refine ends_of outcome rfl fun t msi slot channels sent => ⟨channels, fun _ => ?_, fun done => absurd done last⟩
        rw [slot]
        exact ⟨rfl, rfl, sent⟩
    case owes =>
      refine ends_of (attemptFails_owes reading many (fallsBack_false stays) channel held) rfl
        fun t msi slot channels sent => ?_
      rw [slot]
      exact ⟨rfl, rfl, channels, by rw [sent, List.append_nil]⟩
    case falls =>
      by_cases few : r.attempts < x.retries
      · refine ends_of (attemptFails_falls reading few state full lower) rfl fun t msi slot channels sent => ?_
        rw [slot]
        exact ⟨rfl, rfl, rfl, rfl, sent, fun _ => ⟨rfl, channels⟩, fun many => absurd few (Nat.not_lt.mpr many),
          fun many => absurd few (Nat.not_lt.mpr many)⟩
      · refine ends_of (attemptFails_falls_many reading (Nat.not_lt.mp few) state channel full lower) rfl
          fun t msi slot channels sent => ?_
        rw [slot]
        refine ⟨rfl, rfl, rfl, rfl, sent, fun h => absurd h few, fun _ empty => ?_, fun _ held => ?_⟩
        · rw [empty] at channels ⊢
          exact ⟨rfl, channels⟩
        · rw [Option.isNone_eq_false_iff.mpr held] at channels ⊢
          exact ⟨rfl, channels⟩

/-! ## The tier tried (R47) -/

theorem Tier.code_inj {t u : Tier} (h : t.code = u.code) : t = u := by
  revert h
  cases t <;> cases u <;> decide

theorem find_tier_spec {q : Tier → Bool} {t : Tier} (h : [Tier.t3, .t2, .t1].find? q = some t) (_ : q .t0 = false) :
    q t = true ∧ ∀ u, q u = true → u.code ≤ t.code := by
  refine ⟨List.find?_some h, fun u open_ => ?_⟩
  by_cases third : q .t3 = true
  · rw [List.find?_cons_of_pos third] at h
    obtain rfl := Option.some.inj h
    cases u <;> decide
  · rw [List.find?_cons_of_neg third] at h
    by_cases second : q .t2 = true
    · rw [List.find?_cons_of_pos second] at h
      obtain rfl := Option.some.inj h
      cases u with
      | t3 => exact absurd open_ third
      | _ => decide
    · rw [List.find?_cons_of_neg second] at h
      obtain rfl : Tier.t1 = t := List.mem_singleton.mp (List.mem_of_find?_eq_some h) |>.symm
      cases u with
      | t3 => exact absurd open_ third
      | t2 => exact absurd open_ second
      | _ => decide

theorem openBelow_iff (c : CardRecord) (limit t : Tier) (n : Nat) : openBelow c limit n = some t ↔
    (openTier c limit t = true ∧ t.code < n ∧ ∀ u : Tier, openTier c limit u = true → u.code < n → u.code ≤ t.code) := by
  have lowest : (openTier c limit .t0 && decide (Tier.t0.code < n)) = false := rfl
  have spec : ∀ {u}, openBelow c limit n = some u →
      openTier c limit u = true ∧ u.code < n ∧ ∀ v : Tier, openTier c limit v = true → v.code < n → v.code ≤ u.code := by
    intro u found
    obtain ⟨holds, highest⟩ := find_tier_spec (q := fun u => openTier c limit u && decide (u.code < n)) found lowest
    simp only [Bool.and_eq_true, decide_eq_true_eq] at holds highest
    exact ⟨holds.1, holds.2, fun v open_ below => highest v ⟨open_, below⟩⟩
  refine ⟨spec, fun ⟨open_, below, highest⟩ => ?_⟩
  cases found : openBelow c limit n with
  | none =>
    have listed : t ∈ [Tier.t3, .t2, .t1] := by
      cases t with
      | t0 => exact nomatch open_
      | _ => decide
    exact absurd (by simp [open_, below]) (List.find?_eq_none.mp found t listed)
  | some u =>
    obtain ⟨open', below', highest'⟩ := spec found
    rw [Tier.code_inj (Nat.le_antisymm (highest u open' below') (highest' t open_ below))]

/-! ## CHECKING and the fall-back (R67, R69, R71) -/

section checking
variable {s : State} {k : Fin 4} {r : ReadRec}

theorem ne_tierSettle {x : Slot} (state : x.state = .reading ∨ x.state = .releasing) : x.state ≠ .tierSettle := by
  intro settle
  rw [settle] at state
  obtain h | h := state <;> exact nomatch h

theorem phaseIs_of_phase {x : Slot} {p : ReadPhase} (reading : x.read = some r) (phase : r.phase = p) :
    x.phaseIs p = true := by
  rw [Slot.phaseIs, reading]
  exact beq_iff_eq.mpr phase

theorem trying_of_fallingBack (reading : (s.slots[k]'k.isLt).read = some r) (phase : r.phase = .fallingBack) :
    (s.slots[k]'k.isLt).trying = true := by
  rw [Slot.trying, phaseIs_of_phase reading phase]
  exact Bool.or_true _

theorem trying_of_checking (state : (s.slots[k]'k.isLt).state = .reading ∨ (s.slots[k]'k.isLt).state = .releasing)
    (reading : (s.slots[k]'k.isLt).read = some r) (phase : r.phase = .checking) : (s.slots[k]'k.isLt).trying = false := by
  have other : (r.phase == .fallingBack) = false := by
    rw [phase]
    rfl
  rw [Slot.trying, Slot.phaseIs, reading, beq_eq_false_iff_ne.mpr (ne_tierSettle state)]
  exact other

theorem exec_statusResponse_checking {bytes c : List Byte}
    (state : (s.slots[k]'k.isLt).state = .reading ∨ (s.slots[k]'k.isLt).state = .releasing)
    (reading : (s.slots[k]'k.isLt).read = some r) (phase : r.phase = .checking) (waits : (s.slots[k]'k.isLt).waits .status = true)
    (contents : responseContents 1 bytes = some c) : exec (.statusResponse k bytes) s =
      .next (finish s (checkingOutcome s k ((byteAt c 0).getLsbD 1))) := by
  have checking := phaseIs_of_phase reading phase
  show execStatusResponse k bytes s = _
  simp only [execStatusResponse, waits, contents, trying_of_checking state reading phase, checking, Bool.false_eq_true,
    if_false, if_true, event]

theorem exec_statusTimeout_checking (state : (s.slots[k]'k.isLt).state = .reading ∨ (s.slots[k]'k.isLt).state = .releasing)
    (reading : (s.slots[k]'k.isLt).read = some r) (phase : r.phase = .checking)
    (ranOut : (s.slots[k]'k.isLt).waitOver s.clock .status = true) :
    exec (.statusTimeout k) s = .next (finish s (checkingOutcome s k false)) := by
  have checking := phaseIs_of_phase reading phase
  show execStatusTimeout k s = _
  simp only [execStatusTimeout, ranOut, trying_of_checking state reading phase, checking, Bool.false_eq_true, if_false,
    if_true, event]

theorem checkingOutcome_attempt (reading : (s.slots[k]'k.isLt).read = some r) :
    checkingOutcome s k false = attemptFails s k (r.cause == .command) false := by
  rw [checkingOutcome, if_neg Bool.false_ne_true]
  simp only [reading]

variable {ch : Fin 2} {run : BlockRun}

theorem checkingOutcome_address (reading : (s.slots[k]'k.isLt).read = some r) (channel : r.channel = some ch)
    (phase : r.phase = .checking) (empty : (s.channels[ch]'ch.isLt).buffer = none) (current : r.runs[r.curRun]? = some run)
    (more : r.nextBlock + 1 < run.start + run.count) : checkingOutcome s k true =
      s.onSlot k { (s.slots[k]'k.isLt) with timer := none, read := some { r.advance with owed := .run } }
        (s.channels.set ch { (s.channels[ch]'ch.isLt) with buffer := some ⟨r.picture, r.nextPos, none⟩ }) [] := by
  let rest : ReadRec := { r with owed := .run }
  have done : rest.advance.runDone = false := (runDone_eq (by exact current)).trans (decide_eq_false (Nat.not_le.mpr more))
  have checking : rest.advance.phase ≠ .draining := by
    rw [show rest.advance.phase = .checking from phase]
    exact fun h => nomatch h
  rw [checkingOutcome, if_pos rfl, State.slotNoWait, modSlot_onSlot, onSlot_modRead (by exact reading),
    onSlot_pumpIfEmpty (r := rest) rfl channel, empty, if_pos (by rfl), pump, onSlot_slot]
  simp only
  rw [onSlot_putMarker (r := rest) rfl channel, onSlot_afterPut_more (r := rest.advance) rfl done, id,
    onSlot_modRead (r := rest.advance) rfl, if_neg checking]
  rfl

theorem tierConfirmed_reading (reading : (s.slots[k]'k.isLt).read = some r)
    (state : (s.slots[k]'k.isLt).state = .reading ∨ (s.slots[k]'k.isLt).state = .releasing) (owed : r.owed = .none)
    (current : r.runs[r.curRun]? = some run) (more : r.nextBlock < run.start + run.count) : tierConfirmed s k =
      s.onSlot k { (s.slots[k]'k.isLt) with
        workTier := (s.slots[k]'k.isLt).tryTier, timer := some ⟨.readBlocks, ⟨s.clock, 250⟩⟩
        shown := ⟨true, r.picture, r.placed, totalBlocks r.runs, r.failedTotal, (s.slots[k]'k.isLt).crcErrs, (s.slots[k]'k.isLt).timeouts⟩
        read := some { r with phase := .issuing } } s.channels
        [.card k (readBlocksCommand r.nextBlock (run.start + run.count - r.nextBlock))] := by
  have done : r.runDone = false := (runDone_eq current).trans (decide_eq_false (Nat.not_le.mpr more))
  have resumed : tierConfirmed s k =
      resumeRead (s.modSlot k fun x => { x with workTier := x.tryTier, timer := none }) k := if_neg (ne_tierSettle state)
  rw [resumed, modSlot_onSlot, resumeRead, onSlot_showRead (r := r) (by exact reading), onSlot_slot]
  simp only [reading, owed, done, Bool.false_eq_true, if_false, reduceCtorEq]
  rw [onSlot_goIssuing (r := r) rfl current, ← owed]
  rfl

theorem tierFails_reading (state : (s.slots[k]'k.isLt).state = .reading ∨ (s.slots[k]'k.isLt).state = .releasing) :
    tierFails s k = fallBackFrom s k (s.slots[k]'k.isLt).tryTier.code := if_neg (ne_tierSettle state)

theorem fallBackFrom_some {n : Nat} {t : Tier} (state : (s.slots[k]'k.isLt).state = .reading ∨ (s.slots[k]'k.isLt).state = .releasing)
    (lower : (s.slots[k]'k.isLt).openBelow n = some t) : fallBackFrom s k n =
      (s.setSlot k { (s.slots[k]'k.isLt) with
        busTier := .t0, busWide := false, tryTier := t, timer := some ⟨.setMode, ⟨s.clock, 250⟩⟩ }).emit
          (.card k (setModeCommand (s.slots[k]'k.isLt).workWide t)) := by
  have tries := onSlot_tryTier (s := s) (k := k) (cs := s.channels) (os := []) state t
  rw [onSlot_self] at tries
  rw [fallBackFrom, lower]
  exact tries

/-- The slot of a read that has no lower tier left (R71). -/
def Slot.failing (x : Slot) (r : ReadRec) : Slot :=
  { x with busTier := .t0, busWide := false, timer := none
           shown := ⟨true, r.picture, r.placed, totalBlocks r.runs, r.failedTotal, x.crcErrs, x.timeouts⟩
           read := some { r with phase := .failing, owed := .rest } }

theorem fallBackFrom_none {n : Nat} (reading : (s.slots[k]'k.isLt).read = some r)
    (state : (s.slots[k]'k.isLt).state = .reading ∨ (s.slots[k]'k.isLt).state = .releasing) (lower : (s.slots[k]'k.isLt).openBelow n = none) :
    fallBackFrom s k n = pumpIfEmpty (s.onSlot k ((s.slots[k]'k.isLt).failing r) s.channels []) k := by
  rw [fallBackFrom, lower]
  simp only
  rw [modSlot_onSlot, Slot.setBus, if_neg (ne_tierSettle state), onSlot_showRead (r := r) (by exact reading), startFailing,
    onSlot_modSlot, onSlot_modRead (r := r) (by exact reading)]
  rfl

theorem onSlot_pump_rest {x : Slot} {cs : Vector Channel 2} {os : List Output} (reading : x.read = some r)
    (channel : r.channel = some ch) (owed : r.owed = .rest) (left : r.nextPos < totalBlocks r.runs)
    (more : r.runDone = false) : pump (s.onSlot k x cs os) k = s.onSlot k { x with read := some r.advance }
      (cs.set ch { (cs[ch]'ch.isLt) with buffer := some ⟨r.picture, r.nextPos, none⟩ }) os := by
  simp only [pump, onSlot_slot, reading, owed, left, if_true, more, Bool.false_eq_true, if_false,
    onSlot_putMarker reading channel]

end checking

/-- Settles O35: the tier tried, CHECKING by the window and the attempts, and the fall-back by its answer. -/
theorem checkingAndFallBackFollowTheWindow : Obligations.CheckingAndFallBackFollowTheWindow := by
  unfold Obligations.CheckingAndFallBackFollowTheWindow
  refine ⟨openBelow_iff, fun s k tm r ch run => ?_⟩
  intro x timer state reading owed channel current more reads
  have waits := waits_of_timer timer
  refine ⟨fun checking => ⟨fun i brings => ?attempts, fun bytes c contents address empty left => ?address⟩,
    fun falling => ⟨fun bytes c contents ready => ?confirmed, fun i brings => ?fails⟩⟩
  case attempts =>
    have failed : exec i s = .next (finish s (attemptFails s k (r.cause == .command) false)) := by
      rw [← checkingOutcome_attempt reading]
      obtain ⟨bytes, c, rfl, contents, good⟩ | ⟨rfl, due⟩ := brings
      · rw [exec_statusResponse_checking state reading checking waits contents, good]
      · exact exec_statusTimeout_checking state reading checking (waitOver_of_timer timer due)
    obtain ⟨msi, few, sent⟩ := finish_puts s (attemptFails s k (r.cause == .command) false)
    have stays : x.winErrors + 1 < x.threshold → x.fallsBack = false :=
      fun below => fallsBack_false (.inl (Nat.not_le.mpr below))
    refine ⟨fun below left => ⟨_, msi, failed, ?_⟩, fun below used empty next => ⟨_, msi, failed, ?_⟩,
      fun tier full left lower => ⟨_, msi, failed, ?_⟩⟩
    · rw [finish_slots, sent, attemptFails_again reading left (stays below) current, onSlot_slot]
      refine ⟨rfl, rfl, rfl, fun short => ?_, few, rfl⟩
      have open_ : ¬ (x.threshold ≤ x.winErrors + flag true ∨ 256 ≤ x.winTransfers + flag (r.cause == .command)) := by
        simp only [flag, if_true]
        split <;> omega
      refine ⟨if_neg open_, (if_neg open_).trans ?_⟩
      cases r.cause <;> rfl
    · rw [finish_slots, finish_channels, sent, attemptFails_marks reading used (stays below) channel empty current,
        if_neg (Nat.not_le.mpr next), onSlot_slot, onSlot_channels, vector_set_get, if_pos rfl, marked_of_none owed]
      exact ⟨rfl, rfl, few, rfl⟩
    · rw [finish_slots, sent, attemptFails_falls reading left state full lower, onSlot_slot]
      have restart : x.threshold ≤ x.winErrors + flag true ∨ 256 ≤ x.winTransfers + flag (r.cause == .command) := .inl full
      exact ⟨rfl, rfl, rfl, rfl, rfl, if_pos restart, if_pos restart, rfl, few, rfl⟩
  case address =>
    rw [exec_statusResponse_checking state reading checking waits contents, address,
      checkingOutcome_address reading channel checking empty current left, onSlot_nil]
    rfl
  case confirmed =>
    obtain ⟨msi, few, sent⟩ := finish_puts s (tierConfirmed s k)
    refine ⟨_, msi, by rw [exec_statusResponse_trying (trying_of_fallingBack reading falling) waits contents, if_pos ready],
      ?_⟩
    rw [finish_slots, sent, tierConfirmed_reading reading state owed current more, onSlot_slot]
    exact ⟨rfl, rfl, rfl, rfl, rfl, few, rfl⟩
  case fails =>
    have trying := trying_of_fallingBack reading falling
    have failed : exec i s = .next (finish s (fallBackFrom s k x.tryTier.code)) := by
      rw [← tierFails_reading state]
      obtain ⟨bytes, c, rfl, contents, notReady⟩ | ⟨rfl, due⟩ := brings
      · rw [exec_statusResponse_trying trying waits contents, if_neg (by rw [notReady]; exact Bool.false_ne_true)]
      · exact exec_statusTimeout_trying trying (waitOver_of_timer timer due)
    rw [failed]
    refine ⟨fun tier lower => by rw [fallBackFrom_some state lower], fun none => ⟨fun full => ?_, fun empty left => ?_⟩⟩
    · rw [fallBackFrom_none reading state none,
        onSlot_pumpIfEmpty (r := { r with phase := .failing, owed := .rest }) rfl channel,
        Option.isNone_eq_false_iff.mpr full, setSlot_onSlot]
      rfl
    · have done : ({ r with phase := .failing, owed := .rest } : ReadRec).runDone = false :=
        (runDone_eq (by exact current)).trans (decide_eq_false (Nat.not_le.mpr more))
      rw [fallBackFrom_none reading state none,
        onSlot_pumpIfEmpty (r := { r with phase := .failing, owed := .rest }) rfl channel, empty, if_pos (by rfl),
        onSlot_pump_rest (r := { r with phase := .failing, owed := .rest }) rfl channel rfl left done, onSlot_nil]
      rfl

end Sys2Proof.Machine
end

