-- ==== Sys2Proof/Proofs/ReadEnds.lean ====
section
/-! The two ends of a card read: its start by CARD_READ (R59 to R61), and the grant of its last block, or of the last block
of a run (R28, R62, R70 to R73). -/

namespace Sys2Proof.Machine

-- Checked one after another, as in the tests: a theorem checked alongside others holds its memory.
set_option Elab.async false

/-! ## The channels in the form of one slot changed (R61) -/

section channels
variable {s : State} {k : Fin 4} {x : Slot} {cs : Vector Channel 2} {os : List Output} {r : ReadRec} {run : BlockRun}

theorem onSlot_grantChannel (reading : x.read = some r) (current : r.runs[r.curRun]? = some run) (c : Fin 2) :
    grantChannel (s.onSlot k x cs os) k c = s.onSlot k { x with
      read := some { r with channel := some c, phase := .issuing }, timer := some ⟨.readBlocks, ⟨s.clock, 250⟩⟩ }
      (cs.set c ⟨some k, channelMode s.settings c, none⟩)
      (os ++ [.card k (readBlocksCommand r.nextBlock (run.start + run.count - r.nextBlock))]) := by
  rw [grantChannel, onSlot_setChannel, onSlot_modRead (r := r) reading,
    onSlot_goIssuing (r := { r with channel := some c }) rfl current]
  rfl

/-- A read that waits for a channel. -/
def ReadRec.waiting (r : ReadRec) : ReadRec := { r with channel := none, phase := .waitChannel }

/-- A channel is free to a read that asks for one: nobody waits, and a channel before it is taken. -/
def FreeChannel (s : State) (cs : Vector Channel 2) (c : Fin 2) : Prop :=
  s.chanWait = [] ∧ (cs[c]'c.isLt).owner = none ∧ (c = 0 ∨ (cs[(0 : Fin 2)]'(Fin.isLt _)).owner.isSome)

theorem FreeChannel.unique {c d : Fin 2} (h : FreeChannel s cs c) (h' : FreeChannel s cs d) : c = d := by
  obtain ⟨_, none, first⟩ := h
  obtain ⟨_, none', first'⟩ := h'
  have zero : ∀ {e : Fin 2}, (cs[(0 : Fin 2)]'(Fin.isLt _)).owner = Option.none → (e = 0 ∨ (cs[(0 : Fin 2)]'(Fin.isLt _)).owner.isSome) → e = 0 :=
    fun free first => first.elim id fun taken => absurd free (Option.isSome_iff_ne_none.mp taken)
  by_cases free : (cs[(0 : Fin 2)]'(Fin.isLt _)).owner = Option.none
  · rw [zero free first, zero free first']
  · have one : ∀ {e : Fin 2}, (cs[e]'e.isLt).owner = Option.none → e = 1 := by
      intro e owner
      obtain rfl | rfl : e = 0 ∨ e = 1 := by omega
      · exact absurd owner free
      · rfl
    rw [one none, one none']

theorem not_freeChannel (busy : ∀ c, ¬ FreeChannel s cs c) : s.chanWait ≠ [] ∨ ∀ c : Fin 2, (cs[c]'c.isLt).owner.isSome := by
  by_cases alone : s.chanWait = []
  · have first : (cs[(0 : Fin 2)]'(Fin.isLt _)).owner.isSome :=
      Option.isSome_iff_ne_none.mpr fun free => busy 0 ⟨alone, free, .inl rfl⟩
    refine .inr fun c => ?_
    exact Option.isSome_iff_ne_none.mpr fun free => busy c ⟨alone, free, .inr first⟩
  · exact .inl alone

theorem onSlot_askChannel_free (reading : x.read = some r) (current : r.runs[r.curRun]? = some run) {c : Fin 2}
    (free : FreeChannel s cs c) : askChannel (s.onSlot k x cs os) k = s.onSlot k { x with
      read := some { r with channel := some c, phase := .issuing }, timer := some ⟨.readBlocks, ⟨s.clock, 250⟩⟩ }
      (cs.set c ⟨some k, channelMode s.settings c, none⟩)
      (os ++ [.card k (readBlocksCommand r.nextBlock (run.start + run.count - r.nextBlock))]) := by
  obtain ⟨alone, owner, first⟩ := free
  have grant := onSlot_grantChannel (s := s) (k := k) (x := { x with read := some r.waiting }) (cs := cs) (os := os)
    (r := r.waiting) (run := run) rfl (by exact current) c
  rw [askChannel, onSlot_modRead reading]
  by_cases zero : (cs[(0 : Fin 2)]'(Fin.isLt _)).owner = none
  · have same : c = 0 := first.elim id fun taken => absurd zero (Option.isSome_iff_ne_none.mp taken)
    subst same
    exact (if_pos ⟨alone, zero⟩).trans grant
  · have other : c = 1 := by
      obtain rfl | rfl : c = 0 ∨ c = 1 := by omega
      · exact absurd owner zero
      · rfl
    subst other
    exact (if_neg fun h => zero h.2).trans ((if_pos ⟨alone, owner⟩).trans grant)

theorem onSlot_askChannel_waits (reading : x.read = some r)
    (busy : s.chanWait ≠ [] ∨ ∀ c : Fin 2, (cs[c]'c.isLt).owner.isSome) : askChannel (s.onSlot k x cs os) k =
      { s.onSlot k { x with read := some r.waiting } cs os with chanWait := s.chanWait ++ [k] } := by
  have taken : ∀ c : Fin 2, ¬ (s.chanWait = [] ∧ (cs[c]'c.isLt).owner = none) := fun c free =>
    busy.elim (fun wait => wait free.1) fun owned => Option.isSome_iff_ne_none.mp (owned c) free.2
  rw [askChannel, onSlot_modRead reading]
  exact (if_neg (taken 0)).trans (if_neg (taken 1))

end channels

/-! ## CARD_READ (R51, R59 to R61) -/

/-- A run that lies inside the card (R59). -/
def BlockRun.inside (q : BlockRun) (capacity : Nat) : Prop :=
  1 ≤ q.count ∧ q.start < capacity ∧ q.start + q.count ≤ capacity

theorem badRun_none {capacity : Nat} {runs : List BlockRun} (inside : ∀ q ∈ runs, q.inside capacity) (j : Nat) :
    badRun capacity j runs = none := by
  induction runs generalizing j with
  | nil => rfl
  | cons q runs ih =>
    obtain ⟨count, start, stop⟩ := inside q List.mem_cons_self
    rw [badRun, if_neg (by omega), if_neg (by omega), if_neg (by omega)]
    exact ih (fun p h => inside p (List.mem_cons_of_mem q h)) (j + 1)

theorem badRun_some {capacity : Nat} {runs : List BlockRun} {i : Nat} {q : BlockRun} (at_ : runs[i]? = some q)
    (outside : ¬ q.inside capacity) (before : ∀ p ∈ runs.take i, p.inside capacity) (j : Nat) :
    badRun capacity j runs = some (j + i, if q.count ≠ 0 ∧ capacity ≤ q.start then 0 else 1) := by
  induction runs generalizing i j with
  | nil => exact nomatch at_
  | cons p runs ih =>
    cases i with
    | zero =>
      obtain rfl : p = q := Option.some.inj at_
      rw [badRun]
      by_cases empty : p.count = 0
      · rw [if_pos empty, if_neg fun h => h.1 empty]
        rfl
      · rw [if_neg empty]
        by_cases beyond : capacity ≤ p.start
        · rw [if_pos beyond, if_pos ⟨empty, beyond⟩]
          rfl
        · have long : capacity < p.start + p.count := by
            by_contra short
            exact outside ⟨by omega, by omega, by omega⟩
          rw [if_neg beyond, if_pos long, if_neg fun h => beyond h.2]
          rfl
    | succ i =>
      obtain ⟨count, start, stop⟩ := before p List.mem_cons_self
      rw [badRun, if_neg (by omega), if_neg (by omega), if_neg (by omega),
        ih at_ (fun p h => before p (List.mem_cons_of_mem _ h)) (j + 1), Nat.add_right_comm]
      rfl

section cardRead
variable {s : State} {k : Fin 4} {c : Fin 64}

theorem exec_cardRead (asks : s.asks (slotList k) .cardRead c) : exec (.cardRead k) s = match (s.slots[k]'k.isLt).state with
    | .empty | .releasing | .removeReady | .fault =>
      .next (finish s (s.takeAnswer c (refuse .wrongState (s.slots[k]'k.isLt).state.code)))
    | .ready => match (s.slots[k]'k.isLt).record with
      | some rec => .next (finish s (startRead (s.take c) k c rec))
      | none => .next s
    | .settling | .powering | .identifying | .tierSettle | .reading => .next s := by
  show execCardRead k s = _
  simp only [execCardRead, headOf_of_asks asks] <;> rfl

theorem exec_cardRead_ready (asks : s.asks (slotList k) .cardRead c) {rec : CardRecord}
    (state : (s.slots[k]'k.isLt).state = .ready) (record : (s.slots[k]'k.isLt).record = some rec) :
    exec (.cardRead k) s = .next (finish s (startRead (s.take c) k c rec)) := by
  rw [exec_cardRead asks, state, record]

variable {rec : CardRecord}

theorem startRead_count (bad : (s.cells[c]'c.isLt).req 0 1 < 1 ∨ 32 < (s.cells[c]'c.isLt).req 0 1) :
    startRead s k c rec = s.answer c ⟨.badField, 0xFFFF00, []⟩ := if_pos bad

/-- The run count is in range and every run lies inside the card. -/
def RunsPass (s : State) (c : Fin 64) (rec : CardRecord) : Prop :=
  ¬ ((s.cells[c]'c.isLt).req 0 1 < 1 ∨ 32 < (s.cells[c]'c.isLt).req 0 1) ∧
  badRun rec.capacity 0 (runsOf (s.cells[c]'c.isLt) ((s.cells[c]'c.isLt).req 0 1)) = none

theorem startRead_run {i f : Nat} (count : ¬ ((s.cells[c]'c.isLt).req 0 1 < 1 ∨ 32 < (s.cells[c]'c.isLt).req 0 1))
    (bad : badRun rec.capacity 0 (runsOf (s.cells[c]'c.isLt) ((s.cells[c]'c.isLt).req 0 1)) = some (i, f)) :
    startRead s k c rec = s.answer c ⟨.badField, 1 + 256 * i + 65536 * f, []⟩ := by
  rw [startRead]
  refine (if_neg count).trans ?_
  simp only [bad]
  rfl

theorem startRead_overLimit (pass : RunsPass s c rec)
    (large : 131072 < totalBlocks (runsOf (s.cells[c]'c.isLt) ((s.cells[c]'c.isLt).req 0 1))) :
    startRead s k c rec = s.answer c ⟨.overLimit, 0xFFFF00, []⟩ := by
  rw [startRead]
  refine (if_neg pass.1).trans ?_
  simp only [pass.2, large, if_true]
  rfl

theorem startRead_noRoom (pass : RunsPass s c rec)
    (fits : ¬ 131072 < totalBlocks (runsOf (s.cells[c]'c.isLt) ((s.cells[c]'c.isLt).req 0 1)))
    (full : s.createCardFile k rec.cardId (totalBlocks (runsOf (s.cells[c]'c.isLt) ((s.cells[c]'c.isLt).req 0 1))) = none) :
    startRead s k c rec = s.answer c ⟨.noRoom, 0, []⟩ := by
  rw [startRead]
  refine (if_neg pass.1).trans ?_
  simp only [pass.2, fits, if_false, full]
  rfl

/-- The slot of a read that has just begun, before it asks for a channel (R60, R73). -/
def Slot.starting (x : Slot) (now : Word) (r : ReadRec) : Slot :=
  { x with
    state := .reading, ledLit := true, ledTimer := some ⟨now, 500⟩, read := some r
    shown := ⟨true, r.picture, r.placed, totalBlocks r.runs, r.failedTotal, x.crcErrs, x.timeouts⟩ }

theorem startRead_starts {v : State} {h : Handle} {base : Nat} (pass : RunsPass s c rec)
    (fits : ¬ 131072 < totalBlocks (runsOf (s.cells[c]'c.isLt) ((s.cells[c]'c.isLt).req 0 1)))
    (room : s.createCardFile k rec.cardId (totalBlocks (runsOf (s.cells[c]'c.isLt) ((s.cells[c]'c.isLt).req 0 1))) = some (v, h, base))
    (state : (v.slots[k]'k.isLt).state = .ready) : startRead s k c rec =
      askChannel (v.onSlot k ((v.slots[k]'k.isLt).starting s.clock
        (newRead c (runsOf (s.cells[c]'c.isLt) ((s.cells[c]'c.isLt).req 0 1)) h base (v.slots[k]'k.isLt).workTier)) v.channels []) k := by
  rw [startRead]
  refine (if_neg pass.1).trans ?_
  simp only [pass.2, fits, if_false, room]
  rw [modSlot_onSlot, enter_other (by rw [state]; exact fun h => nomatch h), onSlot_showRead (by exact rfl)]
  rfl

end cardRead

/-- Settles O32: the checks in their order, then the start of the read with its channel. -/
theorem cardReadStartsInReady : Obligations.CardReadStartsInReady := by
  unfold Obligations.CardReadStartsInReady
  intro s k c asks x u n runs
  refine ⟨fun rec state record => ⟨fun bad => ?count, ⟨fun i q one few at_ outside before => ?run,
    fun one few inside => ⟨fun large => ?large, fun fits full => ?noRoom⟩⟩, fun v h base one few good fits room => ?starts⟩,
    fun refused => ?refused⟩
  all_goals try rw [exec_cardRead_ready asks state record]
  case count => rw [startRead_count bad]
  case run => rw [startRead_run (by omega) (badRun_some at_ outside before 0), Nat.zero_add]
  case large => rw [startRead_overLimit ⟨by omega, badRun_none inside 0⟩ large]
  case noRoom =>
    rw [startRead_noRoom ⟨by omega, badRun_none inside 0⟩ (Nat.not_lt.mpr fits)
      (allocate_none (full.imp_left fun used => freeEntry_none (s := s.take c) used) _)]
  case refused =>
    rw [exec_cardRead asks]
    obtain state | state | state | state := refused <;> rw [state] <;> rfl
  case starts =>
    obtain ⟨i, _, _, hv, _⟩ := allocate_cases room
    have slots : v.slots = s.slots := by rw [hv]; rfl
    have channels : v.channels = s.channels := by rw [hv]; rfl
    have chanWait : v.chanWait = s.chanWait := by rw [hv]; rfl
    have clock : v.clock = s.clock := by rw [hv]; rfl
    have settings : v.settings = s.settings := by rw [hv]; rfl
    have taken : (v.cells[c]'c.isLt).hand = .taken := by
      rw [hv, show (u.allocated _ _ i base).cells = u.cells from rfl, take_cell_self]
      rfl
    have started := startRead_starts (s := u) (k := k) ⟨by omega, good⟩ (Nat.not_lt.mpr fits) room
      (by rw [slots]; exact state)
    obtain ⟨run, head⟩ : ∃ run, runs.head? = some run := by
      have filled : runs ≠ [] := by
        intro none
        have length : runs.length = n := (List.length_map _).trans List.length_range
        rw [none] at length
        exact absurd one (by rw [← length]; decide)
      exact ⟨_, List.head?_eq_some_head filled⟩
    have current : runs[0]? = some run := by rw [← List.head?_eq_getElem?, head]
    have block : (newRead c runs h base (v.slots[k]'k.isLt).workTier).nextBlock = run.start := by
      rw [newRead, head]
      rfl
    have command : readBlocksCommand (newRead c runs h base (v.slots[k]'k.isLt).workTier).nextBlock
        (run.start + run.count - (newRead c runs h base (v.slots[k]'k.isLt).workTier).nextBlock) =
        readBlocksCommand run.start run.count := by rw [block, Nat.add_sub_cancel_left]
    have alike : ∀ ch, FreeChannel s s.channels ch → FreeChannel v v.channels ch := by
      rw [channels]
      exact fun ch free => ⟨chanWait.trans free.1, free.2⟩
    by_cases some_ : ∃ ch, FreeChannel s s.channels ch
    · obtain ⟨ch, free⟩ := some_
      rw [onSlot_askChannel_free (r := newRead c runs h base (v.slots[k]'k.isLt).workTier) rfl current (alike ch free)] at started
      refine ⟨_, { newRead c runs h base (v.slots[k]'k.isLt).workTier with channel := some ch, phase := .issuing }, rfl, ?_⟩
      rw [finish_slots, finish_cells, finish_channels, finish_chanWait, started, onSlot_slot, onSlot_channels]
      refine ⟨rfl, rfl, rfl, taken, rfl, rfl, rfl, rfl, rfl, rfl, rfl, by rw [slots]; rfl, by rw [head]; exact congrArg some block.symm,
        rfl, rfl, rfl,
        fun ch' alone first owner => ?_, fun busy => ?_⟩
      · obtain rfl := FreeChannel.unique free (⟨alone, owner, first⟩ : FreeChannel s s.channels ch')
        rw [vector_set_get, if_pos rfl, settings, clock, head]
        refine ⟨rfl, rfl, rfl, rfl, rfl, rfl, run, rfl, ?_⟩
        rw [← command]
        refine mem_finish_sent ?_
        rw [onSlot_sent]
        exact List.mem_append_right _ List.mem_cons_self
      · obtain waits | owned := busy
        · exact absurd free.1 waits
        · exact absurd free.2.1 (Option.isSome_iff_ne_none.mp (owned ch))
    · have busy := not_freeChannel fun ch free => some_ ⟨ch, free⟩
      rw [onSlot_askChannel_waits (r := newRead c runs h base (v.slots[k]'k.isLt).workTier) rfl
        (by rw [chanWait, channels]; exact busy)] at started
      refine ⟨_, (newRead c runs h base (v.slots[k]'k.isLt).workTier).waiting, rfl, ?_⟩
      rw [finish_slots, finish_cells, finish_channels, finish_chanWait, started]
      have slot : ∀ (w : List (Fin 4)) (y : Slot), (({ v.onSlot k y v.channels [] with chanWait := w } : State).slots[k]'k.isLt) = y :=
        fun w y => onSlot_slot (s := v) (cs := v.channels) (os := [])
      rw [slot]
      exact ⟨rfl, rfl, rfl, taken, rfl, rfl, rfl, rfl, rfl, rfl, rfl, by rw [slots]; rfl, by rw [head]; exact congrArg some block.symm, rfl,
        rfl,
        rfl, fun ch alone first owner => absurd ⟨ch, alone, owner, first⟩ some_, fun _ => ⟨rfl, rfl, by rw [chanWait]⟩⟩

/-! ## The end of a read (R28, R70 to R73) -/

section readEnd
variable {s : State} {k : Fin 4} {x : Slot} {cs : Vector Channel 2} {os : List Output} {r : ReadRec}

/-- A picture that was changed and is still the one its handle names. -/
theorem pictureAt_putPicture {h : Handle} {i : Fin 256} {p : Picture} (found : s.pictureAt h = some (i, p)) (q : Picture) :
    (s.putPicture i q).pictureAt h = some (i, q) := by
  obtain ⟨rfl, _, gen⟩ := pictureAt_some found
  have entry : ((s.putPicture h.index.toFin q).pictures[h.index.toFin]'h.index.toFin.isLt) = { (s.pictures[h.index.toFin]'h.index.toFin.isLt) with pic := some q } := by
    rw [State.putPicture, State.setPicture_pictures, vector_set_get, if_pos rfl]
  unfold State.pictureAt
  simp only [entry]
  exact if_pos gen

/-- The slot at the end of its read, group 4 written with the read-active flag clear (R72, R73). -/
def Slot.readOver (x : Slot) (r : ReadRec) : Slot :=
  { x with
    shown := ⟨false, r.picture, r.placed, totalBlocks r.runs, r.failedTotal, x.crcErrs, x.timeouts⟩
    read := none, timer := none }

/-- The answer of a read: DONE without failed blocks, PARTIAL with (R73). -/
def ReadRec.status (r : ReadRec) : Status := if r.failedTotal = 0 then .done else .partly

/-- The state in which the cell of an ending read is answered, and the answer (R72, R73). -/
def State.readClosed (s : State) (k : Fin 4) (x : Slot) (cs : Vector Channel 2) (os : List Output) (r : ReadRec)
    (c : Fin 2) : State := (s.endFill r.picture .complete).onSlot k x (cs.set c freeChannel) os

def State.readAnswer (s : State) (r : ReadRec) (x : Slot) : Answer := ⟨r.status, 0, readBody s r x.workTier⟩

/-- What the last step of R72 starts from, the channel given up while nobody waits for one. -/
def State.readOver (s : State) (k : Fin 4) (x : Slot) (cs : Vector Channel 2) (os : List Output) (r : ReadRec)
    (c : Fin 2) : State :=
  ((s.endFill r.picture .complete).answer r.cell ((s.readClosed k x cs os r c).readAnswer r x)).onSlot k (x.readOver r)
    (cs.set c freeChannel) os

theorem onSlot_readEnd {c : Fin 2} (reading : x.read = some r) (channel : r.channel = some c) (alone : s.chanWait = []) :
    readEnd (s.onSlot k x cs os) k = match x.otherCell with
      | some (.release d) => doRelease (s.readOver k x cs os r c) k d
      | _ => if r.phase = .failing then toFault (s.readOver k x cs os r c) k .noMode
        else (s.readOver k x cs os r c).modSlot k fun x => x.enter s.clock .ready := by
  have filled : (s.onSlot k x cs os).endFill r.picture .complete = (s.endFill r.picture .complete).onSlot k x cs os := by
    unfold State.endFill
    rw [show (s.onSlot k x cs os).pictureAt r.picture = s.pictureAt r.picture from rfl]
    split
    · split <;> rfl
    · rfl
  have released : releaseChannel ((s.onSlot k x cs os).endFill r.picture .complete) c = s.readClosed k x cs os r c := by
    rw [filled, releaseChannel_free (by rw [show (State.onSlot _ k x cs os).chanWait = _ from rfl, endFill_keeps]; exact alone)]
    rfl
  have ended : (showRead ((s.readClosed k x cs os r c).answer r.cell ((s.readClosed k x cs os r c).readAnswer r x)) k
      false).modSlot k (fun x => { x with read := none, timer := none }) = s.readOver k x cs os r c := by
    have shown := onSlot_showRead (s := (s.endFill r.picture .complete).answer r.cell
      ((s.readClosed k x cs os r c).readAnswer r x)) (k := k) (cs := cs.set c freeChannel) (os := os) reading false
    refine (congrArg (fun t : State => t.modSlot k fun x => { x with read := none, timer := none }) shown).trans ?_
    rw [onSlot_modSlot]
    rfl
  have tier : ((s.readClosed k x cs os r c).slots[k]'k.isLt).workTier = x.workTier := by rw [State.readClosed, onSlot_slot]
  have slot : ((s.readOver k x cs os r c).slots[k]'k.isLt) = x.readOver r := by rw [State.readOver, onSlot_slot]
  have clock : (s.readOver k x cs os r c).clock = s.clock := by
    rw [State.readOver, endFill_keeps]
    rfl
  rw [readEnd, onSlot_slot]
  simp only [reading, channel, released, tier]
  rw [State.readAnswer, ReadRec.status] at ended
  simp only [ended, slot, clock] <;> rfl

theorem onSlot_countPlaced (reading : x.read = some r) (b : BlockBuf) : ∃ sh, countPlaced (s.onSlot k x cs os) k b =
    s.onSlot k { x with read := some (r.counted b), shown := sh } cs os := by
  have counted : (s.onSlot k x cs os).modRead k (fun r =>
      let r := { r with placed := r.placed + 1 }
      if b.data.isSome then r
      else { r with failedList := if r.failedList.length < 16 then r.failedList ++ [b.pos] else r.failedList,
                    failedTotal := r.failedTotal + 1 }) = s.onSlot k { x with read := some (r.counted b) } cs os := by
    rw [onSlot_modRead reading, ReadRec.counted]
    cases b.data <;> simp
  rw [countPlaced, counted]
  simp only [onSlot_slot]
  split
  · exact ⟨_, onSlot_showRead (r := r.counted b) rfl true⟩
  · exact ⟨x.shown, rfl⟩

/-- A granted block of a picture in CARD_FILL, before the EMPTY buffer lets the read go on. -/
theorem grantBlock_counted {c : Fin 2} {m : ChanMode} {b : BlockBuf} {w : State}
    (channel : (s.channels[c]'c.isLt) = ⟨some k, m, some b⟩) (reading : (s.slots[k]'k.isLt).read = some r)
    (written : s.writeBlock b = (w, true)) : ∃ sh, grantBlock s c =
      pump (w.onSlot k { (s.slots[k]'k.isLt) with read := some (r.counted b), shown := sh }
        (s.channels.set c ⟨some k, m, none⟩) []) k := by
  have frame := writeBlock_frame s b
  rw [written] at frame
  have slots : w.slots = s.slots := by rw [show w = _ from frame]
  have channels : w.channels = s.channels := by rw [show w = _ from frame]
  have emptied : w.setChannel c ⟨some k, m, none⟩ = w.onSlot k (s.slots[k]'k.isLt) (s.channels.set c ⟨some k, m, none⟩) [] := by
    have same := onSlot_setChannel (s := w) (k := k) (x := (w.slots[k]'k.isLt)) (cs := w.channels) (os := []) c ⟨some k, m, none⟩
    rw [onSlot_self] at same
    rw [same, slots, channels]
  obtain ⟨sh, placed⟩ := onSlot_countPlaced (s := w) (k := k) (cs := s.channels.set c ⟨some k, m, none⟩) (os := []) reading b
  refine ⟨sh, ?_⟩
  rw [← placed, ← emptied, grantBlock, channel]
  simp only [written, channels, channel, if_true]

theorem onSlot_pump_draining (reading : x.read = some r) (owed : r.owed = .none) (phase : r.phase = .draining) :
    pump (s.onSlot k x cs os) k = runEnd (s.onSlot k x cs os) k := by
  simp only [pump, onSlot_slot, reading, owed, phase]

theorem onSlot_runEnd_last (reading : x.read = some r) (last : r.runs.length ≤ r.curRun + 1) :
    runEnd (s.onSlot k x cs os) k = readEnd (s.onSlot k x cs os) k := by
  simp only [runEnd, onSlot_slot, reading, Nat.not_lt.mpr last, if_false]

theorem onSlot_pump_rest_end (reading : x.read = some r) (owed : r.owed = .rest)
    (all : totalBlocks r.runs ≤ r.nextPos) : pump (s.onSlot k x cs os) k = readEnd (s.onSlot k x cs os) k := by
  simp only [pump, onSlot_slot, reading, owed, Nat.not_lt.mpr all, if_false]

theorem nextRun_eq {next : BlockRun} (at_ : r.runs[r.curRun + 1]? = some next) :
    r.nextRun = { r with curRun := r.curRun + 1, nextBlock := next.start, attempts := 0 } := by
  rw [ReadRec.nextRun, at_]
  rfl

/-- The slot with the next run of its read and group 4 written (R70, R73). -/
def Slot.nextRun (x : Slot) (r : ReadRec) (next : BlockRun) : Slot :=
  { x with
    shown := ⟨true, r.picture, r.placed, totalBlocks r.runs, r.failedTotal, x.crcErrs, x.timeouts⟩
    read := some { r with curRun := r.curRun + 1, nextBlock := next.start, attempts := 0 } }

theorem onSlot_nextRun {next : BlockRun} (reading : x.read = some r) (at_ : r.runs[r.curRun + 1]? = some next) :
    showRead ((s.onSlot k x cs os).modRead k ReadRec.nextRun) k true = s.onSlot k (x.nextRun r next) cs os := by
  rw [onSlot_modRead reading, onSlot_showRead (r := r.nextRun) rfl, nextRun_eq at_]
  rfl

theorem onSlot_runEnd_next {next : BlockRun} {c : Fin 2} (reading : x.read = some r)
    (at_ : r.runs[r.curRun + 1]? = some next) (channel : r.channel = some c) : runEnd (s.onSlot k x cs os) k =
      if (cs[c]'c.isLt).mode = .hold then goIssuing (s.onSlot k (x.nextRun r next) cs os) k
      else askChannel (releaseChannel (s.onSlot k (x.nextRun r next) cs os) c) k := by
  have more : r.curRun + 1 < r.runs.length := (List.getElem?_eq_some_iff.mp at_).1
  rw [runEnd, onSlot_slot]
  simp only [reading, more, if_true, channel, onSlot_nextRun reading at_, onSlot_channels]

theorem onSlot_pump_rest_next {run next : BlockRun} {c : Fin 2} (reading : x.read = some r) (owed : r.owed = .rest)
    (left : r.nextPos < totalBlocks r.runs) (current : r.runs[r.curRun]? = some run)
    (over_ : run.start + run.count ≤ r.nextBlock) (at_ : r.runs[r.curRun + 1]? = some next)
    (channel : r.channel = some c) : pump (s.onSlot k x cs os) k = s.onSlot k { x.nextRun r next with
      read := some { r with
        curRun := r.curRun + 1, nextBlock := next.start + 1, nextPos := r.nextPos + 1, attempts := 0 } }
      (cs.set c { (cs[c]'c.isLt) with buffer := some ⟨r.picture, r.nextPos, none⟩ }) os := by
  have done : r.runDone = true := (runDone_eq current).trans (decide_eq_true over_)
  rw [pump, onSlot_slot]
  simp only [reading, owed, left, if_true, done, onSlot_nextRun reading at_]
  rw [onSlot_putMarker (r := { r with curRun := r.curRun + 1, nextBlock := next.start, attempts := 0 }) rfl channel, ← owed]
  rfl

/-! Giving a channel up, asking for one and READ_BLOCKS leave group 4 as it is. -/

theorem modSlot_shown (s : State) (k j : Fin 4) {f : Slot → Slot} (h : ∀ x : Slot, (f x).shown = x.shown) :
    ((s.modSlot k f).slots[j]'j.isLt).shown = (s.slots[j]'j.isLt).shown := by
  rw [modSlot_get]
  split
  · rename_i same
    exact same ▸ h _
  · rfl

theorem modRead_shown (s : State) (k j : Fin 4) (f : ReadRec → ReadRec) :
    ((s.modRead k f).slots[j]'j.isLt).shown = (s.slots[j]'j.isLt).shown := modSlot_shown s k j fun _ => rfl

theorem slotWait_shown (s : State) (k j : Fin 4) (w : SlotWait) (d : Nat) :
    ((s.slotWait k w d).slots[j]'j.isLt).shown = (s.slots[j]'j.isLt).shown := modSlot_shown s k j fun _ => rfl

theorem goIssuing_shown (s : State) (k j : Fin 4) : ((goIssuing s k).slots[j]'j.isLt).shown = (s.slots[j]'j.isLt).shown := by
  unfold goIssuing
  split
  · rfl
  · split
    · rfl
    · rw [slotWait_shown, State.sendCard, State.emit_slots, modRead_shown]

theorem grantChannel_shown (s : State) (k j : Fin 4) (c : Fin 2) :
    ((grantChannel s k c).slots[j]'j.isLt).shown = (s.slots[j]'j.isLt).shown :=
  (goIssuing_shown _ k j).trans (modSlot_shown (s.setChannel c _) k j fun _ => rfl)

theorem releaseChannel_shown (s : State) (c : Fin 2) (j : Fin 4) :
    ((releaseChannel s c).slots[j]'j.isLt).shown = (s.slots[j]'j.isLt).shown := by
  cases wait : s.chanWait with
  | nil => rw [releaseChannel_free wait]; rfl
  | cons k rest =>
    rw [releaseChannel_passes wait]
    exact grantChannel_shown { s.setChannel c freeChannel with chanWait := rest } k j c

theorem askChannel_shown (s : State) (k j : Fin 4) : ((askChannel s k).slots[j]'j.isLt).shown = (s.slots[j]'j.isLt).shown := by
  have asked : ((s.modRead k fun r => { r with channel := none, phase := .waitChannel }).slots[j]'j.isLt).shown =
    (s.slots[j]'j.isLt).shown := modSlot_shown s k j fun _ => rfl
  unfold askChannel
  dsimp only
  split
  · exact (grantChannel_shown _ k j 0).trans asked
  · split
    · exact (grantChannel_shown _ k j 1).trans asked
    · exact asked

/-- A channel that passes to another slot leaves this one alone. -/
theorem releaseChannel_other {c : Fin 2} {j : Fin 4} {rest : List (Fin 4)} (wait : s.chanWait = j :: rest) (other : j ≠ k) :
    ((releaseChannel s c).slots[k]'k.isLt) = (s.slots[k]'k.isLt) := by
  have issued : ∀ v : State, ((goIssuing v j).slots[k]'k.isLt) = (v.slots[k]'k.isLt) := by
    intro v
    unfold goIssuing
    split
    · rfl
    · split
      · rfl
      · rw [State.slotWait, modSlot_get, if_neg other, State.sendCard, State.emit_slots, State.modRead, modSlot_get,
          if_neg other]
  rw [releaseChannel_passes wait, grantChannel, issued, State.modRead, modSlot_get, if_neg other]
  rfl

theorem enter_fields (x : Slot) (now : Word) (st : SlotState) :
    ∃ lit tm, x.enter now st = { x with state := st, ledLit := lit, ledTimer := tm } := by
  rw [Slot.enter]
  split
  · exact ⟨_, _, rfl⟩
  · exact ⟨_, _, rfl⟩

end readEnd

/-! ## What the end of a read leaves -/

section ended
variable {s : State} {k : Fin 4} {x : Slot} {cs : Vector Channel 2} {r : ReadRec} {c : Fin 2}

/-- The end of a read that no reset waits behind, by what waits: nothing, or a release. -/
theorem onSlot_readEnd_outcome (reading : x.read = some r) (channel : r.channel = some c) (alone : s.chanWait = [])
    (noReset : ∀ d, x.otherCell ≠ some (.reset d)) :
    ∃ (u : State) (y : Slot) (os : List Output) (a : Answer), readEnd (s.onSlot k x cs []) k =
        u.onSlot k y (cs.set c freeChannel) os ∧ a.status = r.status ∧
      u.pictures = (s.endFill r.picture .complete).pictures ∧ u.sent = s.sent ∧
      y.read = none ∧ y.timer = none ∧ y.shown = (x.readOver r).shown ∧
      (x.otherCell = none → u.cells = s.cells.set r.cell ((s.cells[r.cell]'r.cell.isLt).answered a) ∧
        (r.phase ≠ .failing → y.state = .ready) ∧
        (r.phase = .failing → y.state = .fault ∧ y.faultCause = .noMode ∧ y.power = false)) ∧
      ∀ d, x.otherCell = some (.release d) → u.cells =
          (s.cells.set r.cell ((s.cells[r.cell]'r.cell.isLt).answered a)).set d
            ((s.cells.set r.cell ((s.cells[r.cell]'r.cell.isLt).answered a))[d].answered ⟨.done, 0, []⟩) ∧
        y.state = .removeReady ∧ y.power = false ∧ y.otherCell = none ∧ os = [.card k stopCommand] := by
  have keeps := endFill_keeps s r.picture .complete
  let a := (s.readClosed k x cs [] r c).readAnswer r x
  let u := (s.endFill r.picture .complete).answer r.cell a
  have cells : u.cells = s.cells.set r.cell ((s.cells[r.cell]'r.cell.isLt).answered a) := by
    have same : (s.endFill r.picture .complete).cells = s.cells := by rw [keeps]
    show (s.endFill r.picture .complete).cells.set r.cell (((s.endFill r.picture .complete).cells[r.cell]'r.cell.isLt).answered a) = _
    rw [same]
  have sent : u.sent = s.sent := by rw [show u.sent = (s.endFill r.picture .complete).sent from rfl, keeps]
  have over_ : s.readOver k x cs [] r c = u.onSlot k (x.readOver r) (cs.set c freeChannel) [] := rfl
  rw [onSlot_readEnd reading channel alone, over_]
  cases other : x.otherCell with
  | none =>
    simp only
    split
    · rename_i failing
      obtain ⟨lit, tm, faulted⟩ := enter_fields (x.readOver r).powerOff u.clock .fault
      refine ⟨u, { (x.readOver r).powerOff.enter u.clock .fault with faultCause := .noMode }, [], a, ?_, rfl, rfl, sent, ?_⟩
      · rw [toFault, onSlot_clock, onSlot_modSlot, answerReset_none]
        rw [onSlot_slot, faulted]
        exact other
      · rw [faulted]
        exact ⟨rfl, rfl, rfl, fun _ => ⟨cells, fun h => absurd failing h, fun _ => ⟨rfl, rfl, rfl⟩⟩, fun _ h => nomatch h⟩
    · rename_i done
      obtain ⟨lit, tm, ready⟩ := enter_fields (x.readOver r) s.clock .ready
      refine ⟨u, (x.readOver r).enter s.clock .ready, [], a, onSlot_modSlot _, rfl, rfl, sent, ?_⟩
      rw [ready]
      exact ⟨rfl, rfl, rfl, fun _ => ⟨cells, fun _ => rfl, fun h => absurd h done⟩, fun _ h => nomatch h⟩
  | some o =>
    cases o with
    | reset d => exact absurd other (noReset d)
    | release d =>
      obtain ⟨lit, tm, removed⟩ := enter_fields (x.readOver r).powerOff u.clock .removeReady
      refine ⟨u.answer d ⟨.done, 0, []⟩, { (x.readOver r).powerOff.enter u.clock .removeReady with otherCell := none },
        [.card k stopCommand], a, ?_, rfl, rfl, sent, ?_⟩
      · simp only
        rw [doRelease, onSlot_sendCard, onSlot_modSlot]
        rfl
      · rw [removed]
        refine ⟨rfl, rfl, rfl, fun h => absurd h (Option.some_ne_none _), fun e same => ?_⟩
        obtain rfl : d = e := OtherCell.release.inj (Option.some.inj same)
        refine ⟨?_, rfl, rfl, rfl, rfl⟩
        rw [← cells]
        rfl

end ended

/-- Settles O36: the block counted, then the end of the read, the next run, or the next marker. -/
theorem lastGrantEndsTheRead : Obligations.LastGrantEndsTheRead := by
  unfold Obligations.LastGrantEndsTheRead
  intro s c k m b r i p x channel reading own same found fill t q shown reads
  obtain ⟨w, written, pictures, frame⟩ : ∃ w, s.writeBlock b = (w, true) ∧
      w.pictureAt r.picture = some (i, { p with
        valid := if b.data.isSome then p.valid + 512 else p.valid
        failed := if b.data.isSome then p.failed else p.failed + 1 }) ∧
      w = { s with dram := w.dram, pictures := w.pictures } :=
    ⟨_, writeBlock_fills (same ▸ found) fill, pictureAt_putPicture found _, rfl⟩
  obtain ⟨sh, granted⟩ := grantBlock_counted channel reading written
  let y : Slot := { x with read := some (r.counted b), shown := sh }
  have counted : y.read = some q := rfl
  have wait : w.chanWait = s.chanWait := by rw [frame]
  have sent : w.sent = s.sent := by rw [frame]
  have cells : w.cells = s.cells := by rw [frame]
  refine ⟨fun ended alone noReset => ?last, fun run phase owed next => ?next,
    fun run next phase owed left current done at_ => ?failing⟩
  case failing =>
    have outcome : t = _ := granted.trans (onSlot_pump_rest_next (r := q) counted owed left current done at_ own)
    rw [outcome, onSlot_slot, onSlot_channels, vector_set_get, if_pos rfl]
    exact ⟨rfl, rfl, rfl⟩
  case next =>
    have outcome : t = _ := granted.trans
      ((onSlot_pump_draining (r := q) counted owed phase).trans (onSlot_runEnd_next (r := q) counted next own))
    have mode : (s.channels.set c ⟨some k, m, none⟩)[c] = ⟨some k, m, none⟩ := by rw [vector_set_get, if_pos rfl]
    have runs := Nat.add_sub_cancel_left (n := run.start) (m := run.count)
    let after : ReadRec := { q with curRun := r.curRun + 1, nextBlock := run.start, attempts := 0 }
    rw [mode] at outcome
    have wait' : (w.onSlot k (y.nextRun q run) (s.channels.set c ⟨some k, m, none⟩) []).chanWait = s.chanWait := wait
    have clock : w.clock = s.clock := by rw [frame]
    have settings : w.settings = s.settings := by rw [frame]
    refine ⟨?_, fun hold => ?_, fun ch share alone which => ?_, fun j rest share waits other owned => ?_⟩
    · have writes : ((w.onSlot k (y.nextRun q run) (s.channels.set c ⟨some k, m, none⟩) []).slots[k]'k.isLt).shown = shown true := by
        rw [onSlot_slot]
        rfl
      rw [outcome]
      split
      · exact (goIssuing_shown _ k k).trans writes
      · exact (askChannel_shown _ k k).trans ((releaseChannel_shown _ c k).trans writes)
    · rw [if_pos hold, onSlot_goIssuing (r := after) rfl next, runs] at outcome
      rw [outcome, onSlot_slot, onSlot_channels, onSlot_sent, sent, clock, hold]
      exact ⟨rfl, wait, rfl, rfl, rfl⟩
    · rw [if_neg (by rw [share]; exact fun h => nomatch h), releaseChannel_free (wait'.trans alone), onSlot_setChannel,
        Vector.set_set] at outcome
      have free : FreeChannel w (s.channels.set c freeChannel) ch := by
        refine ⟨wait.trans alone, ?_, ?_⟩
        · rw [vector_set_get]
          split
          · rfl
          · rename_i apart
            obtain zero | one : c = 0 ∨ c = 1 := by omega
            · rw [if_pos (.inl zero)] at which
              exact absurd (zero.trans which.symm) apart
            · split at which
              · rename_i h
                rw [which]
                exact h.resolve_left fun zero => nomatch one.symm.trans zero
              · exact absurd (one.trans which.symm) apart
        · split at which
          · exact .inl which
          · rename_i h
            refine .inr ?_
            rw [vector_set_get, if_neg fun zero => h (.inl zero)]
            exact Option.isSome_iff_ne_none.mpr fun none => h (.inr none)
      rw [onSlot_askChannel_free (r := after) rfl next free, runs] at outcome
      rw [outcome, onSlot_slot, onSlot_channels, onSlot_sent, sent, clock, settings]
      refine ⟨by rw [vector_set_get, if_pos rfl], fun apart => ?_, wait.trans alone, rfl, rfl, rfl⟩
      rw [vector_set_get, if_neg apart, vector_set_get, if_pos rfl]
      rfl
    · rw [if_neg (by rw [share]; exact fun h => nomatch h)] at outcome
      generalize hv : releaseChannel (w.onSlot k (y.nextRun q run) (s.channels.set c ⟨some k, m, none⟩) []) c = v at outcome
      have slot : (v.slots[k]'k.isLt) = y.nextRun q run := by
        rw [← hv, releaseChannel_other (wait'.trans waits) other, onSlot_slot]
      have passed : v.channels = s.channels.set c ⟨some j, channelMode s.settings c, none⟩ ∧ v.chanWait = rest := by
        rw [← hv, releaseChannel_passes (wait'.trans waits), grantChannel_channels, grantChannel_chanWait]
        refine ⟨?_, rfl⟩
        show ((((s.channels.set c _).set c freeChannel)).set c ⟨some j, channelMode w.settings c, none⟩) = _
        rw [Vector.set_set, Vector.set_set, settings]
      have busy : ∀ d : Fin 2, (v.channels[d]'d.isLt).owner.isSome := by
        intro d
        rw [passed.1, vector_set_get]
        split
        · rfl
        · rename_i apart
          exact owned d fun h => apart h.symm
      rw [← onSlot_self v k, slot, onSlot_askChannel_waits (r := after) rfl (.inr busy)] at outcome
      have left : (t.slots[k]'k.isLt) = { y.nextRun q run with read := some after.waiting } := by
        rw [outcome]
        exact onSlot_slot (s := v) (cs := v.channels) (os := [])
      rw [left, outcome]
      refine ⟨?_, by rw [passed.2], rfl⟩
      show (v.channels[c]'c.isLt) = _
      rw [passed.1, vector_set_get, if_pos rfl]
  case last =>
    have outcome : t = readEnd (w.onSlot k y (s.channels.set c ⟨some k, m, none⟩) []) k := by
      obtain ⟨phase, owed, last⟩ | ⟨phase, owed, all⟩ := ended
      · exact granted.trans ((onSlot_pump_draining (r := q) counted owed phase).trans
          (onSlot_runEnd_last (r := q) counted last))
      · exact granted.trans (onSlot_pump_rest_end (r := q) counted owed all)
    obtain ⟨u, y', os, a, ends, status, pics, puts, read, timer, shows, plain, released⟩ :=
      onSlot_readEnd_outcome (cs := s.channels.set c ⟨some k, m, none⟩) (r := q) counted own (wait.trans alone) noReset
    have code : BitVec.ofNat 8 a.status.code = if q.failedTotal = 0 then 1 else 2 := by
      rw [status, ReadRec.status]
      split <;> rfl
    have once : ∀ d : Fin 64, (s.cells.set r.cell ((s.cells[r.cell]'r.cell.isLt).answered a))[d] =
        if r.cell = d then (s.cells[r.cell]'r.cell.isLt).answered a else (s.cells[d]'d.isLt) := fun d => vector_set_get ..
    have whole : ∀ d : Fin 64, (s.cells[d]'d.isLt).mem.wf = true →
        (s.cells.set r.cell ((s.cells[r.cell]'r.cell.isLt).answered a))[d].mem.wf = true := by
      intro d wf
      rw [once]
      split
      · rename_i at_
        exact answered_mem_wf (at_ ▸ wf) a
      · exact wf
    have first : (s.cells[r.cell]'r.cell.isLt).mem.wf = true →
        cellByte ((s.cells[r.cell]'r.cell.isLt).answered a) 12 = if q.failedTotal = 0 then 1 else 2 :=
      fun wf => ((endedBy_answered id a).answer.2 wf).trans code
    have cell : (u.cells[r.cell]'r.cell.isLt).hand = .answered ∧ ((s.cells[r.cell]'r.cell.isLt).mem.wf = true →
        (∀ d, x.otherCell = some (.release d) → d ≠ r.cell) →
          cellByte (u.cells[r.cell]'r.cell.isLt) 12 = if q.failedTotal = 0 then 1 else 2) := by
      cases other : x.otherCell with
      | none =>
        rw [(plain other).1, cells, once, if_pos rfl]
        exact ⟨rfl, fun wf _ => first wf⟩
      | some o =>
        cases o with
        | reset d => exact absurd other (noReset d)
        | release d =>
          rw [(released d other).1, cells, vector_set_get]
          split
          · rename_i at_
            exact ⟨rfl, fun _ apart => absurd at_ (apart d rfl)⟩
          · rw [once, if_pos rfl]
            exact ⟨rfl, fun wf _ => first wf⟩
    have slot : (t.slots[k]'k.isLt) = y' := by rw [outcome, ends, onSlot_slot]
    have freed : (t.channels[c]'c.isLt) = freeChannel := by rw [outcome, ends, onSlot_channels, vector_set_get, if_pos rfl]
    have tcells : t.cells = u.cells := by rw [outcome, ends]; rfl
    have tpics : t.pictures = (w.endFill r.picture .complete).pictures := by rw [outcome, ends]; exact pics
    have tsent : t.sent = s.sent ++ os := by rw [outcome, ends, onSlot_sent, puts, sent]
    rw [slot, freed, tcells, tpics, tsent, endFill_picture pictures fill]
    refine ⟨by cases b.data <;> rfl, cell.1, cell.2, rfl, rfl, read, timer, shows, fun none phase => ?_,
      fun none phase => (plain none).2.2 phase, fun d waits => ?_⟩
    · refine (plain none).2.1 ?_
      rw [show q.phase = .draining from phase]
      exact fun h => nomatch h
    · obtain ⟨both, state, power, other, stop⟩ := released d waits
      rw [both, cells, vector_set_get, if_pos rfl, stop]
      exact ⟨state, power, other, rfl, fun wf => (endedBy_answered id ⟨.done, 0, []⟩).answer.2 (whole d wf), rfl⟩

end Sys2Proof.Machine
end

