-- ==== Sys2Proof/Proofs/OrderOpen.lean ====
section
/-! Pricing (R79, R80), and ORDER_OPEN: its checks in their order, the references it claims, and the order it opens (R34,
R81, R82). -/

namespace Sys2Proof.Machine

-- Checked one after another, as in the tests: a theorem checked alongside others holds its memory.
set_option Elab.async false

/-! ## Pricing (R79, R80) -/

theorem sizeCount_eq (items : List Item) (z : Size) : sizeCount items z =
    ((items.filter fun x => decide (x.state ≠ .cancelled ∧ x.size = z)).map (·.copies)).sum := by
  have same : (fun it : Item => it.state != .cancelled && it.size == z) =
      fun x => decide (x.state ≠ .cancelled ∧ x.size = z) := by
    funext it
    rw [Bool.eq_iff_iff]
    simp
  rw [sizeCount, same]
  rfl

theorem priced_get {st : Settings} {items : List Item} {i : Nat} {it : Item} (at_ : items[i]? = some it) :
    (priced st items)[i]? = some (if it.state = .cancelled then it
      else { it with unitPrice := unitPriceFor st it.size it.finish (sizeCount items it.size) }) := by
  rw [priced, List.getElem?_map, at_]
  rfl

theorem orderTotal_nil : orderTotal [] = 0 := rfl

theorem orderTotal_cons (it : Item) (items : List Item) : orderTotal (it :: items) = lineAmount it + orderTotal items := rfl

theorem orderTotal_eq (items : List Item) : orderTotal items =
    ((items.filter fun x => decide (x.state ≠ .cancelled)).map fun x => x.copies * x.unitPrice).sum := by
  induction items with
  | nil => rfl
  | cons it items ih =>
    rw [orderTotal_cons, ih, lineAmount]
    by_cases cancelled : it.state = .cancelled
    · rw [if_pos cancelled, List.filter_cons_of_neg (by simp [cancelled]), Nat.zero_add]
    · rw [if_neg cancelled, List.filter_cons_of_pos (by simp [cancelled]), List.map_cons, List.sum_cons]

theorem firstOver_none {items : List Item} {j sum : Nat} (low : sum ≤ maxTotal) :
    firstOver j sum items = none ↔ sum + orderTotal items ≤ maxTotal := by
  induction items generalizing j sum with
  | nil => simpa [firstOver, orderTotal_nil] using low
  | cons it items ih =>
    rw [firstOver, orderTotal_cons]
    split
    · rename_i large
      exact ⟨(fun h => nomatch h), fun h => absurd large (by omega)⟩
    · rename_i small
      rw [ih (Nat.not_lt.mp small), Nat.add_assoc]

theorem firstOver_some {items : List Item} {j sum i : Nat} (low : sum ≤ maxTotal) :
    firstOver j sum items = some (j + i) ↔ i < items.length ∧ sum + orderTotal (items.take i) ≤ maxTotal ∧
      maxTotal < sum + orderTotal (items.take (i + 1)) := by
  induction items generalizing j sum i with
  | nil => exact ⟨(fun h => nomatch h), fun h => absurd h.1 (Nat.not_lt_zero i)⟩
  | cons it items ih =>
    rw [firstOver]
    cases i with
    | zero =>
      rw [List.take_zero, orderTotal_nil, List.take_succ_cons, List.take_zero, orderTotal_cons, orderTotal_nil]
      split
      · rename_i large
        exact ⟨fun _ => ⟨Nat.succ_pos _, low, large⟩, fun _ => rfl⟩
      · rename_i small
        refine ⟨fun h => ?_, fun h => absurd h.2.2 small⟩
        have later : ∀ {k t}, firstOver k t items = some j → k ≤ j := by
          intro k t
          clear h ih small
          induction items generalizing k t with
          | nil => exact fun h => nomatch h
          | cons it items ih =>
            intro h
            rw [firstOver] at h
            split at h
            · exact Nat.le_of_eq (Option.some.inj h)
            · exact Nat.le_of_succ_le (ih h)
        exact absurd (later h) (Nat.not_succ_le_self j)
    | succ i =>
      rw [List.take_succ_cons, orderTotal_cons, List.take_succ_cons, orderTotal_cons, ← Nat.add_assoc, ← Nat.add_assoc]
      split
      · rename_i large
        exact ⟨fun h => absurd (Option.some.inj h) (by omega), fun h => absurd large (by omega)⟩
      · rename_i small
        rw [← Nat.add_assoc, Nat.add_right_comm, ih (Nat.not_lt.mp small), List.length_cons, Nat.succ_lt_succ_iff]

/-! ## The first entry that fails a step (R81) -/

theorem firstBad_some {α β : Type} {f : α → Option β} {es : List α} {i : Nat} {e : α} {x : β} (at_ : es[i]? = some e)
    (bad : f e = some x) (before : ∀ q ∈ es.take i, f q = none) (j : Nat) : firstBad f j es = some (j + i, x) := by
  induction es generalizing i j with
  | nil => exact nomatch at_
  | cons q es ih =>
    cases i with
    | zero =>
      obtain rfl : q = e := Option.some.inj at_
      rw [firstBad, bad]
      rfl
    | succ i =>
      rw [firstBad, before q List.mem_cons_self]
      simp only
      rw [ih at_ (fun p h => before p (List.mem_cons_of_mem _ h)) (j + 1), Nat.add_right_comm]
      rfl

theorem firstBad_none {α β : Type} {f : α → Option β} {es : List α} (good : ∀ q ∈ es, f q = none) (j : Nat) :
    firstBad f j es = none := by
  induction es generalizing j with
  | nil => rfl
  | cons q es ih =>
    rw [firstBad, good q List.mem_cons_self]
    exact ih (fun p h => good p (List.mem_cons_of_mem _ h)) (j + 1)

theorem Size.ofCode_isNone (n : Nat) : (Size.ofCode n).isNone = true ↔ 2 < n := by
  match n with
  | 0 | 1 | 2 => decide
  | n + 3 => exact ⟨fun _ => by omega, fun _ => rfl⟩

theorem Finish.ofCode_isNone (n : Nat) : (Finish.ofCode n).isNone = true ↔ 1 < n := by
  match n with
  | 0 | 1 => decide
  | n + 2 => exact ⟨fun _ => by omega, fun _ => rfl⟩

theorem Rotation.ofCode_isNone (n : Nat) : (Rotation.ofCode n).isNone = true ↔ 3 < n := by
  match n with
  | 0 | 1 | 2 | 3 => decide
  | n + 4 => exact ⟨fun _ => by omega, fun _ => rfl⟩

/-- An entry whose values are all listed or in range (R81 step 2). -/
def ItemEntry.listed (e : ItemEntry) : Prop :=
  e.size ≤ 2 ∧ e.finish ≤ 1 ∧ e.rotation ≤ 3 ∧ 1 ≤ e.copies ∧ e.copies ≤ 99 ∧ 1 ≤ e.cw ∧ 1 ≤ e.ch

theorem badField_eq (e : ItemEntry) : e.badField =
    if 2 < e.size then some 1 else if 1 < e.finish then some 2 else if 3 < e.rotation then some 4
    else if e.copies < 1 ∨ 99 < e.copies then some 3 else if e.cw = 0 then some 7 else if e.ch = 0 then some 8 else none := by
  simp only [ItemEntry.badField, Size.ofCode_isNone, Finish.ofCode_isNone, Rotation.ofCode_isNone]

theorem badField_none {e : ItemEntry} (listed : e.listed) : e.badField = none := by
  obtain ⟨size, finish, rotation, low, high, width, height⟩ := listed
  rw [badField_eq, if_neg (by omega), if_neg (by omega), if_neg (by omega), if_neg (by omega), if_neg (by omega),
    if_neg (by omega)]

theorem badField_some {e : ItemEntry} (unlisted : ¬ e.listed) : e.badField =
    some (if 2 < e.size then 1 else if 1 < e.finish then 2 else if 3 < e.rotation then 4
      else if e.copies < 1 ∨ 99 < e.copies then 3 else if e.cw = 0 then 7 else 8) := by
  rw [badField_eq]
  split
  · rfl
  split
  · rfl
  split
  · rfl
  split
  · rfl
  split
  · rfl
  · refine if_pos ?_
    by_contra height
    exact unlisted ⟨by omega, by omega, by omega, by omega, by omega, by omega, by omega⟩

/-- A listed entry opens an item with its raster. -/
theorem toItem_some {e : ItemEntry} (listed : e.listed) : ∃ it, e.toItem = some it ∧ it.raster = e.raster := by
  have size : (Size.ofCode e.size).isSome := by
    rw [← Option.not_isNone, Bool.not_eq_true', ← Bool.not_eq_true, Size.ofCode_isNone]
    exact Nat.not_lt.mpr listed.1
  have finish : (Finish.ofCode e.finish).isSome := by
    rw [← Option.not_isNone, Bool.not_eq_true', ← Bool.not_eq_true, Finish.ofCode_isNone]
    exact Nat.not_lt.mpr listed.2.1
  have rotation : (Rotation.ofCode e.rotation).isSome := by
    rw [← Option.not_isNone, Bool.not_eq_true', ← Bool.not_eq_true, Rotation.ofCode_isNone]
    exact Nat.not_lt.mpr listed.2.2.1
  obtain ⟨z, hz⟩ := Option.isSome_iff_exists.mp size
  obtain ⟨f, hf⟩ := Option.isSome_iff_exists.mp finish
  obtain ⟨r, hr⟩ := Option.isSome_iff_exists.mp rotation
  exact ⟨_, by rw [ItemEntry.toItem, hz, hf, hr], rfl⟩

theorem rasters_of_items {es : List ItemEntry} (listed : ∀ e ∈ es, e.listed) :
    (es.filterMap ItemEntry.toItem).map (·.raster) = es.map (·.raster) := by
  induction es with
  | nil => rfl
  | cons e es ih =>
    obtain ⟨it, item, raster⟩ := toItem_some (listed e List.mem_cons_self)
    rw [List.filterMap_cons_some item, List.map_cons, List.map_cons, raster,
      ih fun q h => listed q (List.mem_cons_of_mem e h)]

/-! ## References (R34) -/

section references
variable {s : State}

theorem claimable_iff {h : Handle} : s.claimable h = true ↔
    ∃ i p, s.pictureAt h = some (i, p) ∧ p.kind = .raster ∧ p.state = .sealed := by
  unfold State.claimable
  cases found : s.pictureAt h with
  | none => exact ⟨(fun h => nomatch h), fun ⟨_, _, h, _⟩ => nomatch h⟩
  | some q =>
    obtain ⟨i, p⟩ := q
    simp only [Bool.and_eq_true, beq_iff_eq, Option.some.injEq, Prod.mk.injEq]
    exact ⟨fun h => ⟨i, p, ⟨rfl, rfl⟩, h⟩, fun ⟨_, _, ⟨_, rfl⟩, h⟩ => h⟩

theorem claimFailure_none {hs : List Handle} (good : ∀ h ∈ hs, s.claimable h = true) : s.claimFailure hs = none := by
  rw [State.claimFailure, List.findIdx?_eq_none_iff]
  exact fun h mem => by rw [good h mem]; rfl

theorem claimFailure_some {hs : List Handle} {i : Nat} {h : Handle} (at_ : hs[i]? = some h) (bad : s.claimable h = false)
    (before : ∀ q ∈ hs.take i, s.claimable q = true) : s.claimFailure hs = some i := by
  obtain ⟨inside, value⟩ := List.getElem?_eq_some_iff.mp at_
  rw [State.claimFailure, List.findIdx?_eq_some_iff_getElem]
  refine ⟨inside, by rw [value, bad]; rfl, fun j earlier => ?_⟩
  have listed : hs[j] ∈ hs.take i := by
    rw [List.mem_take_iff_getElem]
    exact ⟨j, by omega, rfl⟩
  rw [before _ listed]
  decide

theorem addRef_keeps (s : State) (h : Handle) : s.addRef h = { s with pictures := (s.addRef h).pictures } := by
  unfold State.addRef
  split <;> rfl

theorem claim_keeps (s : State) (hs : List Handle) : s.claim hs = { s with pictures := (s.claim hs).pictures } := by
  induction hs generalizing s with
  | nil => rfl
  | cons h hs ih =>
    have rest := ih (s.addRef h)
    rw [addRef_keeps s h] at rest
    rw [State.claim, List.foldl_cons, addRef_keeps s h]
    exact rest

/-- A handle of a table entry names it while the entry is in use. -/
theorem pictureAt_entry {i : Fin 256} {g : Byte} : s.pictureAt ⟨BitVec.ofNat 8 i.val, g⟩ =
    if (s.pictures[i]'i.isLt).gen = g then (s.pictures[i]'i.isLt).pic.map (i, ·) else none := by
  have index : (BitVec.ofNat 8 i.val).toFin = i := Fin.ext (by simp)
  unfold State.pictureAt
  simp only [index]
  cases (s.pictures[i]'i.isLt).pic with
  | none => simp
  | some p => rfl

theorem addRef_picture (s : State) (h : Handle) (i : Fin 256) : ((s.addRef h).pictures[i]'i.isLt) = { (s.pictures[i]'i.isLt) with
    pic := (s.pictures[i]'i.isLt).pic.map fun p => { p with
      refs := p.refs + if h = ⟨BitVec.ofNat 8 i.val, (s.pictures[i]'i.isLt).gen⟩ then 1 else 0 } } := by
  by_cases same : h = ⟨BitVec.ofNat 8 i.val, (s.pictures[i]'i.isLt).gen⟩
  · subst same
    have found := pictureAt_entry (s := s) (i := i) (g := (s.pictures[i]'i.isLt).gen)
    rw [if_pos rfl] at found
    cases pic : (s.pictures[i]'i.isLt).pic with
    | none =>
      rw [pic] at found
      have idle : s.addRef ⟨BitVec.ofNat 8 i.val, (s.pictures[i]'i.isLt).gen⟩ = s := by rw [State.addRef, found]; rfl
      rw [idle, Option.map_none, ← pic]
    | some p =>
      rw [pic] at found
      have adds : s.addRef ⟨BitVec.ofNat 8 i.val, (s.pictures[i]'i.isLt).gen⟩ = s.putPicture i { p with refs := p.refs + 1 } := by
        rw [State.addRef, found]
        rfl
      rw [adds, State.putPicture, State.setPicture_pictures, vector_set_get, if_pos rfl, if_pos rfl, Option.map_some]
  · have kept : ((s.addRef h).pictures[i]'i.isLt) = (s.pictures[i]'i.isLt) := by
      unfold State.addRef
      cases found : s.pictureAt h with
      | none => rfl
      | some q =>
        obtain ⟨j, p⟩ := q
        obtain ⟨rfl, _, gen⟩ := pictureAt_some found
        simp only
        rw [State.putPicture, State.setPicture_pictures, vector_set_get, if_neg]
        rintro rfl
        refine same ?_
        rw [gen]
        cases h
        simp
    rw [kept]
    simp only [if_neg same, Nat.add_zero, Option.map_id']

theorem claim_picture (hs : List Handle) (s : State) (i : Fin 256) : ((s.claim hs).pictures[i]'i.isLt) = { (s.pictures[i]'i.isLt) with
    pic := (s.pictures[i]'i.isLt).pic.map fun p => { p with
      refs := p.refs + hs.countP fun h => decide (h = ⟨BitVec.ofNat 8 i.val, (s.pictures[i]'i.isLt).gen⟩) } } := by
  induction hs generalizing s with
  | nil =>
    simp only [List.countP_nil, Nat.add_zero, Option.map_id']
    rfl
  | cons h hs ih =>
    have gen : ((s.addRef h).pictures[i]'i.isLt).gen = (s.pictures[i]'i.isLt).gen := by rw [addRef_picture]
    have rest := ih (s.addRef h)
    rw [gen] at rest
    rw [State.claim, List.foldl_cons]
    refine rest.trans ?_
    rw [addRef_picture, List.countP_cons]
    simp only [decide_eq_true_eq]
    cases (s.pictures[i]'i.isLt).pic with
    | none => rfl
    | some p => simp only [Option.map_some, Nat.add_assoc, Nat.add_comm]

end references

/-! ## ORDER_OPEN (R81, R82) -/

section open_
variable {s : State} {c : Fin 64}

theorem exec_orderOpen (asks : s.asks 5 .orderOpen c) : exec .orderOpen s =
    .next (finish s ((orderOpen (s.take c) c).1.answer c (orderOpen (s.take c) c).2)) := by
  show serve s 5 .orderOpen orderOpen = _
  exact serve_some (headOf_of_asks asks)

/-- The item entries of a request of ORDER_OPEN. -/
def WorkCell.entries (x : WorkCell) : List ItemEntry := (List.range (x.req 5 1)).map (itemEntry x)

theorem orderOpen_class (bad : 1 < (s.cells[c]'c.isLt).req 4 1) : orderOpen s c = (s, ⟨.badField, 0xFFFF01, []⟩) := if_pos bad

theorem orderOpen_count (good : (s.cells[c]'c.isLt).req 4 1 ≤ 1) (bad : (s.cells[c]'c.isLt).req 5 1 < 1 ∨ 24 < (s.cells[c]'c.isLt).req 5 1) :
    orderOpen s c = (s, ⟨.badField, 0xFFFF02, []⟩) := (if_neg (Nat.not_lt.mpr good)).trans (if_pos bad)

/-- The class and the item count of a request are in range (R81 step 1). -/
def WorkCell.countsFit (x : WorkCell) : Prop := x.req 4 1 ≤ 1 ∧ 1 ≤ x.req 5 1 ∧ x.req 5 1 ≤ 24

theorem orderOpen_entries (counts : (s.cells[c]'c.isLt).countsFit) : orderOpen s c =
    match firstBad ItemEntry.badField 0 (s.cells[c]'c.isLt).entries with
    | some (i, f) => (s, refuse .badField (fieldDetail 3 i f))
    | none =>
      match s.claimFailure ((s.cells[c]'c.isLt).entries.map (·.raster)) with
      | some i => (s, refuse .notFound (fieldDetail 3 i 0))
      | none =>
        match firstBad (fun e => e.badCrop s) 0 (s.cells[c]'c.isLt).entries with
        | some (i, across) =>
          ({ s with cropChoices := s.cropChoices + 1 }, refuse .badField (fieldDetail 3 i (cropField s across)))
        | none =>
          openPriced s (BitVec.ofNat 32 ((s.cells[c]'c.isLt).req 0 4)) (if (s.cells[c]'c.isLt).req 4 1 = 0 then .normal else .express)
            ((s.cells[c]'c.isLt).entries.filterMap ItemEntry.toItem) := by
  obtain ⟨cls, low, high⟩ := counts
  refine (if_neg (Nat.not_lt.mpr cls)).trans ((if_neg (by omega)).trans rfl)

theorem badCrop_none {e : ItemEntry}
    (fits : ∀ i p, s.pictureAt e.raster = some (i, p) → e.x0 + e.cw ≤ p.width ∧ e.y0 + e.ch ≤ p.height) :
    e.badCrop s = none := by
  unfold ItemEntry.badCrop
  cases found : s.pictureAt e.raster with
  | none => rfl
  | some q =>
    obtain ⟨across, down⟩ := fits q.1 q.2 found
    exact (if_neg (Nat.not_lt.mpr across)).trans (if_neg (Nat.not_lt.mpr down))

theorem badCrop_some {e : ItemEntry} {i : Fin 256} {p : Picture} (found : s.pictureAt e.raster = some (i, p))
    (leaves : p.width < e.x0 + e.cw ∨ p.height < e.y0 + e.ch) :
    e.badCrop s = some (decide (p.width < e.x0 + e.cw)) := by
  unfold ItemEntry.badCrop
  rw [found]
  by_cases across : p.width < e.x0 + e.cw
  · exact (if_pos across).trans (by rw [decide_eq_true across])
  · exact (if_neg across).trans ((if_pos (leaves.resolve_left across)).trans (by rw [decide_eq_false across]))

theorem cropField_spec (s : State) {across : Prop} [Decidable across] :
    if across then cropField s (decide across) = 5 ∨ cropField s (decide across) = 7
      else cropField s (decide across) = 6 ∨ cropField s (decide across) = 8 := by
  unfold cropField
  split
  · rename_i h
    rw [decide_eq_true h]
    cases Config.cropNamesOffset s.cropChoices
    · exact .inr rfl
    · exact .inl rfl
  · rename_i h
    rw [decide_eq_false h]
    cases Config.cropNamesOffset s.cropChoices
    · exact .inr rfl
    · exact .inl rfl

/-! ### The entry taken -/

theorem freeOrder_some {m : Fin 48} (free : (s.orders[m]'m.isLt).order = none)
    (used : ∀ k : Fin 48, k < m → (s.orders[k]'k.isLt).order.isSome = true) : s.freeOrder = some m := by
  rw [State.freeOrder, List.find?_eq_some_iff_getElem]
  refine ⟨by rw [free]; rfl, m.val, by simp, by simp, fun j below => ?_⟩
  have taken := used ⟨j, by omega⟩ below
  simpa [← Option.not_isSome] using taken

theorem freeOrder_none (used : ∀ k : Fin 48, (s.orders[k]'k.isLt).order.isSome = true) : s.freeOrder = none := by
  rw [State.freeOrder, List.find?_eq_none]
  intro n _
  rw [← Option.not_isSome, used n]
  decide

variable {tag : Word} {cls : OrderClass} {items : List Item}

theorem openPriced_over {i : Nat} (large : firstOver 0 0 (priced s.settings items) = some i) :
    openPriced s tag cls items = (s, ⟨.overLimit, 0xFF0003 + 256 * i, []⟩) := by
  rw [openPriced]
  simp only [large]
  rw [fieldDetail, Nat.add_right_comm]
  rfl

theorem openPriced_noRoom (small : firstOver 0 0 (priced s.settings items) = none) (full : s.freeOrder = none) :
    openPriced s tag cls items = (s, ⟨.noRoom, 0, []⟩) := by
  rw [openPriced]
  simp only [small, full]
  rfl

theorem priced_raster (st : Settings) (items : List Item) : (priced st items).map (·.raster) = items.map (·.raster) := by
  rw [priced, List.map_map]
  refine List.map_congr_left fun it _ => ?_
  simp only [Function.comp_apply]
  split <;> rfl

theorem openPriced_opens {m : Fin 48} (small : firstOver 0 0 (priced s.settings items) = none)
    (free : s.freeOrder = some m) (claims : s.claimFailure (items.map (·.raster)) = none) :
    openPriced s tag cls items =
      ((s.claim (items.map (·.raster))).setOrder m
          ⟨(s.orders[m]'m.isLt).gen + 1, some (newOrder s tag cls (priced s.settings items))⟩,
        ⟨.done, 0, openBody ⟨BitVec.ofNat 8 m.val, (s.orders[m]'m.isLt).gen + 1⟩ (priced s.settings items)⟩) := by
  rw [openPriced, priced_raster]
  simp only [small, free, claims]
  rfl

end open_

/-- Settles O37: pricing, then ORDER_OPEN's checks in their order. -/
theorem orderOpenOpensAPricedOrder : Obligations.OrderOpenOpensAPricedOrder := by
  unfold Obligations.OrderOpenOpensAPricedOrder
  refine ⟨⟨fun st items i it at_ => ?prices, orderTotal_eq, fun items i => ⟨?none, ?some⟩⟩, fun s c m asks => ?opens⟩
  case prices =>
    intro count
    have bulk : ∀ b : Nat, (b != 0 && decide (b ≤ count)) = decide (b ≠ 0 ∧ b ≤ count) := by
      intro b
      rw [Bool.eq_iff_iff]
      simp
    rw [priced_get at_, unitPriceFor, sizeCount_eq, ← bulk]
  case none => simpa [maxTotal] using firstOver_none (j := 0) (items := items) (Nat.zero_le maxTotal)
  case some => simpa [maxTotal] using firstOver_some (j := 0) (items := items) (i := i) (Nat.zero_le maxTotal)
  case opens =>
    intro u cell entries items gen ord
    rw [exec_orderOpen asks]
    refine ⟨fun bad => ?cls, fun cls bad => ?number, fun cls low high => ?checks⟩
    case cls => rw [orderOpen_class bad]
    case number => rw [orderOpen_count cls bad]
    case checks =>
      intro listed sealed fits
      have sealedIff : ∀ e : ItemEntry, sealed e ↔ u.claimable e.raster = true := fun e => claimable_iff.symm
      rw [orderOpen_entries (s := u) ⟨cls, low, high⟩, show (u.cells[c]'c.isLt).entries = entries from rfl]
      have good : (∀ q ∈ entries, listed q) → firstBad ItemEntry.badField 0 entries = none :=
        fun all => firstBad_none (fun q h => badField_none (all q h)) 0
      have claims : (∀ q ∈ entries, sealed q) → u.claimFailure (entries.map (·.raster)) = none := fun all =>
        claimFailure_none fun h mem => by
          obtain ⟨q, inside, rfl⟩ := List.mem_map.mp mem
          exact (sealedIff q).mp (all q inside)
      refine ⟨fun i e at_ unlisted before => ?field, fun i e all at_ unsealed before => ?raster,
        fun i e j p all at_ found leaves before => ?crop, ?passed⟩
      case field =>
        intro field
        rw [firstBad_some at_ (badField_some unlisted) (fun q h => badField_none (before q h)) 0, Nat.zero_add]
        rfl
      case raster =>
        have bad : u.claimable e.raster = false := by
          rw [← Bool.not_eq_true, ← sealedIff]
          exact unsealed
        have first : u.claimFailure (entries.map (·.raster)) = some i := by
          refine claimFailure_some (h := e.raster) (by rw [List.getElem?_map, at_]; rfl) bad fun h mem => ?_
          rw [← List.map_take] at mem
          obtain ⟨q, inside, rfl⟩ := List.mem_map.mp mem
          exact (sealedIff q).mp (before q inside)
        rw [good all]
        simp only
        rw [first]
        rfl
      case crop =>
        have first : firstBad (fun e => e.badCrop u) 0 entries = some (0 + i, decide (p.width < e.x0 + e.cw)) :=
          firstBad_some at_ (badCrop_some found leaves) (fun q h => badCrop_none (before q h)) 0
        refine ⟨cropField u (decide (p.width < e.x0 + e.cw)), cropField_spec u, ?_⟩
        rw [good fun q h => (all q h).1]
        simp only
        rw [claims fun q h => (all q h).2, first, Nat.zero_add]
        rfl
      case passed =>
        intro all
        have listedAll : ∀ q ∈ entries, listed q := by
          intro q h
          obtain ⟨size, finish, rotation, low, high, width, height, _⟩ := all q h
          exact ⟨size, finish, rotation, low, high, width, height⟩
        have sealedAll : ∀ q ∈ entries, sealed q := by
          intro q h
          obtain ⟨_, _, _, _, _, _, _, i, p, found, kind, state, _⟩ := all q h
          exact ⟨i, p, found, kind, state⟩
        have fitsAll : firstBad (fun e => e.badCrop u) 0 entries = none := by
          refine firstBad_none (fun q h => badCrop_none fun i p found => ?_) 0
          obtain ⟨_, _, _, _, _, _, _, j, r, found', _, _, across, down⟩ := all q h
          obtain ⟨rfl, rfl⟩ := Prod.mk.inj (Option.some.inj (found.symm.trans found'))
          exact ⟨across, down⟩
        have rasters := rasters_of_items listedAll
        rw [good listedAll]
        simp only
        rw [claims sealedAll, fitsAll]
        simp only
        have small : orderTotal items ≤ 99999999 → firstOver 0 0 (priced u.settings (entries.filterMap ItemEntry.toItem)) = none :=
          fun low => (firstOver_none (Nat.zero_le maxTotal)).mpr (by rw [Nat.zero_add]; exact low)
        refine ⟨fun i large => ?_, fun low used => ?_, fun low free used => ?_⟩
        · rw [openPriced_over (s := u) large]
        · rw [openPriced_noRoom (s := u) (small low) (freeOrder_none (s := u) used)]
        · have claimed : u.claimFailure ((entries.filterMap ItemEntry.toItem).map (·.raster)) = none := by
            rw [rasters]
            exact claims sealedAll
          refine ⟨(u.claim (entries.map (·.raster))).pictures, ?_, ?_, fun i => ?_⟩
          · rw [openPriced_opens (s := u) (small low) (freeOrder_some (s := u) free used) claimed, rasters, claim_keeps]
            rfl
          · have count := congrArg List.length rasters
            rw [List.length_map, List.length_map, show entries = List.map _ _ from rfl, List.length_map, List.length_range]
              at count
            exact (List.length_map _).trans count
          · rw [claim_picture, List.countP_map]
            rfl

end Sys2Proof.Machine
end

