-- ==== Sys2Proof/Proofs/Orders.lean ====
section
/-! The life of an order: its references and reservations (R93, R164), settlement (R89 to R92), the outcomes of its payment
actions (R85, R86, R91), and the requests that name an order (R83, R84, R87, R88, R94). -/

namespace Sys2Proof.Machine

-- Checked one after another, as in the tests: a theorem checked alongside others holds its memory.
set_option Elab.async false

/-! ## The order a handle names (R77) -/

section lookup
variable {s : State} {h : Handle} {n : Fin 48} {o : Order}

theorem orderAt_some (found : s.orderAt h = some (n, o)) :
    h.index.toNat = n.val ∧ (s.orders[n]'n.isLt).order = some o ∧ (s.orders[n]'n.isLt).gen = h.gen := by
  unfold State.orderAt at found
  split at found
  · rename_i below
    dsimp only at found
    split at found
    · rename_i q hq
      split at found
      · rename_i gen
        obtain ⟨rfl, rfl⟩ := Prod.mk.inj (Option.some.inj found)
        exact ⟨rfl, hq, gen⟩
      · exact nomatch found
    · exact nomatch found
  · exact nomatch found

theorem orderAt_of {n : Fin 48} (index : h.index.toNat = n.val) (order : (s.orders[n]'n.isLt).order = some o)
    (gen : (s.orders[n]'n.isLt).gen = h.gen) : s.orderAt h = some (n, o) := by
  obtain ⟨n, below⟩ := n
  simp only [Fin.getElem_fin] at index order gen
  subst index
  unfold State.orderAt
  rw [dif_pos below]
  simp only [order]
  exact if_pos gen

theorem orderEntry_of_orderAt (found : s.orderAt h = some (n, o)) : (s.orders[n]'n.isLt) = ⟨(s.orders[n]'n.isLt).gen, some o⟩ := by
  rw [← (orderAt_some found).2.1]

theorem orderHandle_of_orderAt (found : s.orderAt h = some (n, o)) : s.orderHandle n = h := by
  obtain ⟨index, _, gen⟩ := orderAt_some found
  rw [State.orderHandle, gen, ← index]
  cases h
  simp

theorem modOrder_some (found : s.orderAt h = some (n, o)) (f : Order → Order) : s.modOrder h f = s.putOrder n (f o) := by
  rw [State.modOrder, found]

theorem putOrder_eq (s : State) (n : Fin 48) (o : Order) :
    s.putOrder n o = { s with orders := s.orders.set n ⟨(s.orders[n]'n.isLt).gen, some o⟩ } := rfl

theorem putOrder_entry (s : State) (n : Fin 48) (o : Order) : ((s.putOrder n o).orders[n]'n.isLt) = ⟨(s.orders[n]'n.isLt).gen, some o⟩ := by
  rw [putOrder_eq, vector_set_get, if_pos rfl]

theorem orderAt_putOrder (found : s.orderAt h = some (n, o)) (p : Order) : (s.putOrder n p).orderAt h = some (n, p) := by
  obtain ⟨index, _, gen⟩ := orderAt_some found
  refine orderAt_of index ?_ ?_ <;> rw [putOrder_entry]
  exact gen

end lookup

/-! ## References given up (R35, R93) -/

theorem dropRef_keeps (s : State) (h : Handle) : s.dropRef h = { s with
    pictures := (s.dropRef h).pictures, extents := (s.dropRef h).extents, freePages := (s.dropRef h).freePages } := by
  unfold State.dropRef
  split
  · split <;> rfl
  · rfl

theorem dropRefs_keeps (hs : List Handle) (s : State) : hs.foldl State.dropRef s = { s with
    pictures := (hs.foldl State.dropRef s).pictures, extents := (hs.foldl State.dropRef s).extents
    freePages := (hs.foldl State.dropRef s).freePages } := by
  induction hs generalizing s with
  | nil => rfl
  | cons h hs ih =>
    have rest := ih (s.dropRef h)
    rw [dropRef_keeps s h] at rest
    rw [List.foldl_cons, dropRef_keeps s h]
    exact rest

/-- The order with every reference given up. -/
def Order.unheld (o : Order) : Order := { o with items := o.items.map fun it => { it with refHeld := false } }

theorem unheld_refHeld (o : Order) : ∀ it ∈ o.unheld.items, it.refHeld = false := by
  intro it listed
  obtain ⟨_, _, rfl⟩ := List.mem_map.mp listed
  rfl

theorem releaseReferences_keeps (s : State) (n : Fin 48) (o : Order) : releaseReferences s n o = { s with
    pictures := (releaseReferences s n o).pictures, extents := (releaseReferences s n o).extents
    freePages := (releaseReferences s n o).freePages
    orders := s.orders.set n ⟨(s.orders[n]'n.isLt).gen, some o.unheld⟩ } := by
  unfold releaseReferences
  dsimp only
  rw [dropRefs_keeps]
  rfl

/-- The order as it goes to SETTLING with a VOID, or to CLOSED (R87, R90). -/
def Order.voided (o : Order) : Order :=
  if 0 < o.authorised then { o with state := .settling } else { o with state := .closed, outcome := .none }

theorem voided_fields (o : Order) : ∃ out, o.voided =
    { o with state := if o.authorised = 0 then .closed else .settling, outcome := out } := by
  rw [Order.voided]
  split
  · rename_i authorised
    exact ⟨o.outcome, by rw [if_neg (by omega)]⟩
  · rename_i nothing
    exact ⟨.none, by rw [if_pos (by omega)]⟩

theorem voidOrClose_keeps (s : State) (n : Fin 48) (o : Order) : voidOrClose s n o = { s with
    pictures := (voidOrClose s n o).pictures, extents := (voidOrClose s n o).extents
    freePages := (voidOrClose s n o).freePages
    orders := s.orders.set n ⟨(s.orders[n]'n.isLt).gen, some o.voided.unheld⟩
    pay := { s.pay with queue := s.pay.queue ++
      if 0 < o.authorised then [⟨s.orderHandle n, .void, o.authorised, o.code.getD []⟩] else [] } } := by
  unfold voidOrClose Order.voided
  split
  · rw [releaseReferences_keeps]
    rfl
  · rw [releaseReferences_keeps, List.append_nil]

/-! ## Settlement (R89, R90) -/

theorem final_iff (st : ItemState) : st.final = true ↔ st = .done ∨ st = .failed ∨ st = .cancelled := by
  cases st <;> simp [ItemState.final]

theorem ready_iff (o : Order) : o.ready = true ↔ (o.state = .printing ∨ o.state = .cancelling) ∧
    ∀ it ∈ o.items, (it.state = .done ∨ it.state = .failed ∨ it.state = .cancelled) ∧ it.inFlight = 0 := by
  simp [Order.ready, final_iff]

/-- The settled order (R90). -/
def Order.settled (o : Order) : Order :=
  let o := { o with captured := capturedSum o.items }
  (if 0 < o.captured then { o with state := .settling } else o.voided).unheld

/-- The action a settlement queues (R90). -/
def Order.settleActions (o : Order) (h : Handle) : List QueuedAction :=
  if capturedSum o.items ≠ 0 then [⟨h, .capture, capturedSum o.items, o.code.getD []⟩]
  else if o.authorised ≠ 0 then [⟨h, .void, o.authorised, o.code.getD []⟩] else []

section settle
variable {s : State} {h : Handle} {n : Fin 48} {o : Order}

theorem checkSettle_ready (found : s.orderAt h = some (n, o)) (ready : o.ready = true) : checkSettle s h = { s with
    pictures := (checkSettle s h).pictures, extents := (checkSettle s h).extents
    freePages := (checkSettle s h).freePages
    orders := s.orders.set n ⟨(s.orders[n]'n.isLt).gen, some o.settled⟩
    pay := { s.pay with queue := s.pay.queue ++ o.settleActions h } } := by
  have outcome : checkSettle s h = if 0 < capturedSum o.items then
      (releaseReferences s n { o with captured := capturedSum o.items, state := .settling }).queueAction
        ⟨h, .capture, capturedSum o.items, o.code.getD []⟩
      else voidOrClose s n { o with captured := capturedSum o.items } := by
    rw [checkSettle, found]
    exact if_pos ready
  rw [outcome, Order.settled, Order.settleActions]
  by_cases captured : 0 < capturedSum o.items
  · simp only [captured, Nat.pos_iff_ne_zero.mp captured, ne_eq, not_false_eq_true, if_true]
    rw [releaseReferences_keeps]
    rfl
  · have zero : capturedSum o.items = 0 := by omega
    simp only [zero, ne_eq, not_true_eq_false, if_false]
    rw [voidOrClose_keeps, orderHandle_of_orderAt found]
    by_cases authorised : 0 < o.authorised
    · simp only [authorised, Nat.pos_iff_ne_zero.mp authorised, not_false_eq_true, if_true, Nat.lt_irrefl, if_false]
    · have none : o.authorised = 0 := by omega
      simp only [none, Nat.lt_irrefl, not_true_eq_false, if_false]

theorem checkSettle_not (found : s.orderAt h = some (n, o)) (idle : ¬ o.ready = true) : checkSettle s h = s := by
  rw [checkSettle, found]
  exact if_neg idle

theorem settled_eq (o : Order) : ∃ out, o.settled = { o with
    captured := capturedSum o.items, outcome := out
    state := if capturedSum o.items = 0 ∧ o.authorised = 0 then .closed else .settling
    items := o.items.map fun it => { it with refHeld := false } } := by
  rw [Order.settled]
  by_cases captured : 0 < capturedSum o.items
  · have some : ¬ (capturedSum o.items = 0 ∧ o.authorised = 0) := fun h => absurd h.1 (by omega)
    refine ⟨o.outcome, ?_⟩
    rw [if_neg some]
    exact congrArg Order.unheld (if_pos captured)
  · obtain ⟨out, voided⟩ := voided_fields { o with captured := capturedSum o.items }
    have zero : capturedSum o.items = 0 := by omega
    simp only [zero, Nat.lt_irrefl, if_false, true_and] at voided ⊢
    rw [voided]
    exact ⟨out, rfl⟩

end settle

/-! ## Reservations (R164) -/

/-- An order as it is but for what its items have reserved. -/
def Order.bare (o : Order) : Order := { o with items := o.items.map fun it => { it with reserved := 0 } }

/-- A table entry as it is but for what its items have reserved. -/
def OrderEntry.bare (e : OrderEntry) : OrderEntry := { e with order := e.order.map Order.bare }

theorem bare_items {o p : Order} (h : p.bare = o.bare) {α : Type} (f : Item → α)
    (free : ∀ it : Item, f { it with reserved := 0 } = f it) : p.items.map f = o.items.map f := by
  have bare : ∀ q : Order, q.bare.items.map f = q.items.map f := by
    intro q
    rw [Order.bare, List.map_map]
    exact List.map_congr_left fun it _ => free it
  rw [← bare p, ← bare o, h]

theorem modItem_bare (o : Order) (i : Nat) {f : Item → Item}
    (only : ∀ it : Item, ({ f it with reserved := 0 } : Item) = { it with reserved := 0 }) : (o.modItem i f).bare = o.bare := by
  have items : (o.items.modify i f).map (fun it => ({ it with reserved := 0 } : Item)) =
      o.items.map fun it => { it with reserved := 0 } := by
    refine List.ext_getElem (by simp) fun j h _ => ?_
    rw [List.getElem_map, List.getElem_map, List.getElem_modify]
    split
    · exact only _
    · rfl
  rw [Order.bare, Order.bare, Order.modItem]
  exact congrArg (fun is => ({ o with items := is } : Order)) items

section reservations
variable {s : State}

theorem modOrder_bare (s : State) (h : Handle) {f : Order → Order} (only : ∀ o, (f o).bare = o.bare) (m : Fin 48) :
    ((s.modOrder h f).orders[m]'m.isLt).bare = (s.orders[m]'m.isLt).bare := by
  cases found : s.orderAt h with
  | none => rw [State.modOrder, found]
  | some q =>
    obtain ⟨n, o⟩ := q
    rw [modOrder_some found, putOrder_eq, vector_set_get]
    split
    · rename_i same
      subst same
      rw [orderEntry_of_orderAt found]
      exact congrArg (fun p => (⟨_, some p⟩ : OrderEntry)) (only o)
    · rfl

theorem modOrder_keeps (s : State) (h : Handle) (f : Order → Order) :
    s.modOrder h f = { s with orders := (s.modOrder h f).orders } := by
  unfold State.modOrder
  split <;> rfl

theorem releaseReservation_keeps (s : State) (n : Fin 3) : releaseReservation s n = { s with
    orders := (releaseReservation s n).orders, stations := (releaseReservation s n).stations
    reservations := s.reservations.set n none } := by
  unfold releaseReservation
  split
  · rename_i none
    rw [← none, vector_set_self]
  · dsimp only
    rw [modOrder_keeps]
    rfl

theorem releaseReservation_bare (s : State) (n : Fin 3) (m : Fin 48) :
    ((releaseReservation s n).orders[m]'m.isLt).bare = (s.orders[m]'m.isLt).bare := by
  unfold releaseReservation
  split
  · rfl
  · rename_i r _
    exact (modOrder_bare _ _ (f := fun o => o.modItem r.item fun it => { it with reserved := it.reserved - 1 })
      (fun o => modItem_bare o _ fun _ => rfl) m).trans rfl

/-- One step of a release over the three stations. -/
def releaseStep (p : Reservation → Bool) (s : State) (n : Fin 3) : State :=
  match (s.reservations[n]'n.isLt) with
  | some r => if p r then releaseReservation s n else s
  | none => s

theorem releaseStep_eq (p : Reservation → Bool) (s : State) (n : Fin 3) :
    releaseStep p s n = if (s.reservations[n]'n.isLt).any p then releaseReservation s n else s := by
  unfold releaseStep
  cases (s.reservations[n]'n.isLt) with
  | none => rfl
  | some r => rfl

theorem releaseWhere_steps (s : State) (p : Reservation → Bool) :
    releaseWhere s p = (List.finRange 3).foldl (releaseStep p) s := rfl

theorem releaseSteps_keeps (p : Reservation → Bool) (ns : List (Fin 3)) (s : State) : ns.foldl (releaseStep p) s = { s with
    orders := (ns.foldl (releaseStep p) s).orders, stations := (ns.foldl (releaseStep p) s).stations
    reservations := (ns.foldl (releaseStep p) s).reservations } := by
  induction ns generalizing s with
  | nil => rfl
  | cons n ns ih =>
    have step : releaseStep p s n = { s with
        orders := (releaseStep p s n).orders, stations := (releaseStep p s n).stations
        reservations := (releaseStep p s n).reservations } := by
      rw [releaseStep_eq]
      split
      · rw [releaseReservation_keeps]
      · rfl
    have rest := ih (releaseStep p s n)
    rw [step] at rest
    rw [List.foldl_cons, step]
    exact rest

theorem releaseWhere_keeps (s : State) (p : Reservation → Bool) : releaseWhere s p = { s with
    orders := (releaseWhere s p).orders, stations := (releaseWhere s p).stations
    reservations := (releaseWhere s p).reservations } := releaseSteps_keeps p _ s

theorem releaseWhere_bare (s : State) (p : Reservation → Bool) (m : Fin 48) :
    ((releaseWhere s p).orders[m]'m.isLt).bare = (s.orders[m]'m.isLt).bare := by
  rw [releaseWhere_steps]
  generalize List.finRange 3 = ns
  induction ns generalizing s with
  | nil => rfl
  | cons n ns ih =>
    rw [List.foldl_cons, ih, releaseStep_eq]
    split
    · exact releaseReservation_bare s n m
    · rfl

theorem releaseStep_reservations (p : Reservation → Bool) (s : State) (n m : Fin 3) :
    ((releaseStep p s n).reservations[m]'m.isLt) = if n = m then (s.reservations[m]'m.isLt).filter (!p ·) else (s.reservations[m]'m.isLt) := by
  rw [releaseStep_eq]
  split
  · rename_i drops
    rw [releaseReservation_keeps, vector_set_get]
    split
    · rename_i same
      subst same
      cases held : (s.reservations[n]'n.isLt) with
      | none => rfl
      | some r =>
        rw [held] at drops
        have bad : p r = true := by simpa using drops
        rw [Option.filter_some, bad]
        rfl
    · rfl
  · rename_i kept
    split
    · rename_i same
      subst same
      cases held : (s.reservations[n]'n.isLt) with
      | none => rfl
      | some r =>
        rw [held] at kept
        have good : p r = false := by simpa using kept
        rw [Option.filter_some, good]
        rfl
    · rfl

/-- What a release leaves: the reservations that the condition spares. -/
theorem releaseWhere_reservations (s : State) (p : Reservation → Bool) (m : Fin 3) :
    ((releaseWhere s p).reservations[m]'m.isLt) = (s.reservations[m]'m.isLt).filter (!p ·) := by
  have steps : ∀ (ns : List (Fin 3)) (s : State), ((ns.foldl (releaseStep p) s).reservations[m]'m.isLt) =
      if m ∈ ns then (s.reservations[m]'m.isLt).filter (!p ·) else (s.reservations[m]'m.isLt) := by
    intro ns
    induction ns with
    | nil => intro s; rfl
    | cons n ns ih =>
      intro s
      rw [List.foldl_cons, ih, releaseStep_reservations]
      by_cases first : n = m
      · rw [if_pos first, if_pos (List.mem_cons.mpr (.inl first.symm)), Option.filter_filter]
        simp
      · rw [if_neg first]
        simp [Ne.symm first]
  rw [releaseWhere_steps, steps, if_pos (List.mem_finRange m)]

/-- The order of a handle after a release: the same but for what its items have reserved. -/
theorem releaseWhere_orderAt {h : Handle} {n : Fin 48} {o : Order} (found : s.orderAt h = some (n, o))
    (p : Reservation → Bool) : ∃ q, (releaseWhere s p).orderAt h = some (n, q) ∧ q.bare = o.bare := by
  obtain ⟨index, order, gen⟩ := orderAt_some found
  have same := releaseWhere_bare s p n
  have gens : ((releaseWhere s p).orders[n]'n.isLt).gen = (s.orders[n]'n.isLt).gen := (congrArg OrderEntry.gen same :)
  have orders : ((releaseWhere s p).orders[n]'n.isLt).order.map Order.bare = some o.bare := by
    rw [← Option.map_some, ← order]
    exact (congrArg OrderEntry.order same :)
  obtain ⟨q, held, bare⟩ := Option.map_eq_some_iff.mp orders
  exact ⟨q, orderAt_of index held (gens.trans gen), bare⟩

end reservations

/-! ## The outcomes of an authorisation (R85, R86) -/

/-- The answer of a pay cell (R85, R192). -/
def payAnswer (o : Order) (st : Status) (detail : Nat) : Answer :=
  ⟨st, detail, [BitVec.ofNat 8 o.state.code, 0, 0, 0] ++ le 4 o.authorised⟩

theorem answerPayAt_none {t : State} {n : Fin 48} {p : Order} {g : Byte} (entry : (t.orders[n]'n.isLt) = ⟨g, some p⟩)
    (cell : p.payCell = none) (st : Status) (detail : Nat) : answerPayAt t n st detail = t := by
  rw [answerPayAt, entry]
  simp only [answerPay, cell]
  rw [putOrder_eq, entry, ← entry, vector_set_self]

theorem answerPayAt_some {t : State} {n : Fin 48} {p : Order} {g : Byte} {c : Fin 64}
    (entry : (t.orders[n]'n.isLt) = ⟨g, some p⟩) (cell : p.payCell = some c) (st : Status) (detail : Nat) :
    answerPayAt t n st detail = (t.putOrder n { p with payCell := none }).answer c (payAnswer p st detail) := by
  rw [answerPayAt, entry]
  simp only [answerPay, cell]
  rfl

/-- The pay cell, when one is held, is answered with the order as it stands, and is held no more (R85). -/
theorem answerPayAt_moves {s t : State} {n : Fin 48} {p : Order} {g : Byte} (entry : (t.orders[n]'n.isLt) = ⟨g, some p⟩)
    (cells : t.cells = s.cells) (st : Status) (detail : Nat) :
    ((answerPayAt t n st detail).orders[n]'n.isLt) = ⟨g, some { p with payCell := none }⟩ ∧
    (answerPayAt t n st detail).pay = t.pay ∧
    ∀ c, p.payCell = some c → (s.cells[c]'c.isLt).mem.wf = true → ((answerPayAt t n st detail).cells[c]'c.isLt).hand = .answered ∧
      cellByte ((answerPayAt t n st detail).cells[c]'c.isLt) 12 = BitVec.ofNat 8 st.code ∧
      cellByte ((answerPayAt t n st detail).cells[c]'c.isLt) 16 = BitVec.ofNat 8 detail ∧
      cellByte ((answerPayAt t n st detail).cells[c]'c.isLt) 512 = BitVec.ofNat 8 p.state.code := by
  cases cell : p.payCell with
  | none =>
    rw [answerPayAt_none entry cell]
    refine ⟨?_, rfl, fun c h => nomatch h⟩
    rw [entry, ← cell]
  | some d =>
    rw [answerPayAt_some entry cell]
    refine ⟨?_, rfl, fun c same wf => ?_⟩
    · rw [State.answer, State.setCell_orders, putOrder_entry, entry]
    · obtain rfl := Option.some.inj same
      have at_ : (((t.putOrder n { p with payCell := none }).answer d (payAnswer p st detail)).cells[d]'d.isLt) =
          (s.cells[d]'d.isLt).answered (payAnswer p st detail) := by
        rw [answer_cell_self, putOrder_eq, cells]
      rw [at_]
      refine ⟨rfl, (endedBy_answered id (payAnswer p st detail)).answer.2 wf, ?_, ?_⟩
      · have byte := answered_cellByte_header wf (payAnswer p st detail) (i := 4) (by decide)
        rw [Answer.header_detail_byte (payAnswer p st detail) _ (i := 0) (by decide), Nat.pow_zero, Nat.div_one] at byte
        exact byte
      · exact answered_cellByte_body wf (payAnswer p st detail) (i := 0) (by simp [payAnswer])

/-- The order after an outcome: what it leaves in the table, and the answer of the pay cell (R85). -/
def PayMoves (s t : State) (n : Fin 48) (o p : Order) (st : Status) (detail : Nat) : Prop :=
  (t.orders[n]'n.isLt) = ⟨(s.orders[n]'n.isLt).gen, some p⟩ ∧ p.payCell = none ∧
  ∀ c, o.payCell = some c → (s.cells[c]'c.isLt).mem.wf = true → (t.cells[c]'c.isLt).hand = .answered ∧
    cellByte (t.cells[c]'c.isLt) 12 = BitVec.ofNat 8 st.code ∧ cellByte (t.cells[c]'c.isLt) 16 = BitVec.ofNat 8 detail ∧
    cellByte (t.cells[c]'c.isLt) 512 = BitVec.ofNat 8 p.state.code

theorem answerPayAt_payMoves {s t : State} {n : Fin 48} {o p : Order}
    (entry : (t.orders[n]'n.isLt) = ⟨(s.orders[n]'n.isLt).gen, some p⟩) (cells : t.cells = s.cells) (held : p.payCell = o.payCell)
    (st : Status) (detail : Nat) :
    PayMoves s (answerPayAt t n st detail) n o { p with payCell := none } st detail := by
  obtain ⟨left, _, answered⟩ := answerPayAt_moves entry cells st detail
  exact ⟨left, rfl, fun c h => answered c (held.trans h)⟩

section outcomes
variable {s : State} {h : Handle} {n : Fin 48} {o : Order}

theorem authOutcome_eq (found : s.orderAt h = some (n, o)) (state : o.state = .authorizing ∨ o.state = .doubt)
    (out : AuthOutcome) : authOutcome s h out = match out with
      | .approved 0 _ => applyNoApproval s n o (some 0) .declined 0
      | .approved (a + 1) code => applyApproval s n o (a + 1) code
      | .declined reason => applyNoApproval s n o (some reason) .declined reason.toNat
      | .doubt => answerPayAt (s.putOrder n { o with state := .doubt }) n .doubt 0
      | .noTerminal => applyNoApproval s n o none .noTerminal 0 := by
  rw [authOutcome, found]
  exact if_pos state

theorem authOutcome_approved (found : s.orderAt h = some (n, o)) (state : o.state = .authorizing ∨ o.state = .doubt)
    {amount : Nat} (some_ : 0 < amount) (code : List Byte) :
    authOutcome s h (.approved amount code) = applyApproval s n o amount code := by
  obtain ⟨a, rfl⟩ := Nat.exists_eq_succ_of_ne_zero (Nat.pos_iff_ne_zero.mp some_)
  exact authOutcome_eq found state _

theorem releaseReferences_entry (s : State) (n : Fin 48) (o : Order) :
    ((releaseReferences s n o).orders[n]'n.isLt) = ⟨(s.orders[n]'n.isLt).gen, some o.unheld⟩ := by
  rw [releaseReferences_keeps, vector_set_get, if_pos rfl]

theorem releaseReferences_cells (s : State) (n : Fin 48) (o : Order) : (releaseReferences s n o).cells = s.cells := by
  rw [releaseReferences_keeps]

theorem voidOrClose_entry (s : State) (n : Fin 48) (o : Order) :
    ((voidOrClose s n o).orders[n]'n.isLt) = ⟨(s.orders[n]'n.isLt).gen, some o.voided.unheld⟩ := by
  rw [voidOrClose_keeps, vector_set_get, if_pos rfl]

theorem voidOrClose_cells (s : State) (n : Fin 48) (o : Order) : (voidOrClose s n o).cells = s.cells := by
  rw [voidOrClose_keeps]

theorem orderAt_iff_modOrder_settle (found : s.orderAt h = some (n, o)) (settling : o.state = .settling) (a : PayAction)
    (r : Option Byte) : settleOutcome s h a r = s.putOrder n (match a, r with
      | .capture, none => { o with state := .closed, outcome := .ok }
      | .capture, some _ => { o with state := .closed, outcome := .captureFailed, captured := 0 }
      | .void, none => { o with state := .closed, outcome := .voided }
      | .void, some r => { o with state := .closed, outcome := .voided, reason := some r }
      | .authorize, _ => o) := by
  rw [settleOutcome, modOrder_some found]
  exact congrArg (s.putOrder n) ((if_pos settling).trans rfl)

end outcomes

/-- Settles O40: each outcome of an authorisation, the settlement, and the outcome of its action. -/
theorem outcomesMoveTheOrder : Obligations.OutcomesMoveTheOrder := by
  unfold Obligations.OutcomesMoveTheOrder
  refine ⟨fun s h n o found state => ?auth, fun s h n o found => ?settle⟩
  case auth =>
    intro moves
    have put : ∀ (p : Order) (st : Status) (detail : Nat), p.payCell = o.payCell →
        moves (answerPayAt (s.putOrder n p) n st detail) { p with payCell := none } st detail :=
      fun p st detail held => answerPayAt_payMoves (putOrder_entry s n p) rfl held st detail
    refine ⟨fun plain => ⟨fun amount code whole some_ => ?whole, fun amount code part some_ => ?part, fun r => ?declined,
      ?absent⟩, fun pending => ⟨fun amount code some_ total => ?voids, fun r => ?closes⟩, ⟨_, ?doubt, rfl⟩, fun code => ?zero⟩
    case whole =>
      refine ⟨_, ?_, rfl⟩
      rw [authOutcome_approved found state some_, applyApproval, plain, Nat.min_eq_right whole]
      simp only [whole, if_true, Bool.false_eq_true, if_false]
      exact put _ .done 0 rfl
    case part =>
      refine ⟨_, ?_, rfl⟩
      rw [authOutcome_approved found state some_, applyApproval, plain, Nat.min_eq_left (Nat.le_of_lt part)]
      simp only [Nat.not_le.mpr part, Bool.false_eq_true, if_false]
      exact put _ .short 0 rfl
    case declined =>
      refine ⟨_, ?_, rfl⟩
      rw [authOutcome_eq found state]
      simp only [applyNoApproval, plain, Bool.false_eq_true, if_false]
      exact put _ .declined r.toNat rfl
    case absent =>
      refine ⟨_, ?_, rfl⟩
      rw [authOutcome_eq found state]
      simp only [applyNoApproval, plain, Bool.false_eq_true, if_false]
      exact put _ .noTerminal 0 rfl
    case voids =>
      let p : Order := { o with authorised := min amount o.total, code := some code, cancelPending := false }
      have authorised : 0 < p.authorised := Nat.lt_min.mpr ⟨some_, total⟩
      have voided : p.voided = { p with state := .settling } := if_pos authorised
      refine ⟨{ p.voided.unheld with payCell := none }, ?_, ?_⟩
      · rw [authOutcome_approved found state some_, applyApproval]
        simp only [pending, if_true]
        exact answerPayAt_payMoves (voidOrClose_entry s n p) (voidOrClose_cells s n p) (by rw [voided]; rfl) _ 0
      · refine ⟨by rw [voided]; rfl, by rw [voided]; rfl, by rw [voided]; rfl, by rw [voided]; rfl, unheld_refHeld _, ?_⟩
        have queue : (voidOrClose s n p).pay.queue = s.pay.queue ++ [⟨h, .void, min amount o.total, code⟩] := by
          rw [voidOrClose_keeps, if_pos authorised, orderHandle_of_orderAt found]
          rfl
        rw [authOutcome_approved found state some_, applyApproval]
        simp only [pending, if_true]
        rw [(answerPayAt_moves (s := s) (voidOrClose_entry s n p) (voidOrClose_cells s n p) _ 0).2.1]
        exact queue
    case closes =>
      let p : Order := { o with
        authorised := 0, reason := some r, cancelPending := false, state := .closed, outcome := .none }
      refine ⟨{ p.unheld with payCell := none }, ?_, rfl, rfl, rfl, rfl, unheld_refHeld p⟩
      rw [authOutcome_eq found state]
      simp only [applyNoApproval, pending, if_true]
      exact answerPayAt_payMoves (releaseReferences_entry s n p) (releaseReferences_cells s n p) rfl .declined r.toNat
    case doubt =>
      rw [authOutcome_eq found state]
      exact put { o with state := .doubt } .doubt 0 rfl
    case zero => rw [authOutcome_eq found state, authOutcome_eq found state]; rfl
  case settle =>
    intro final captured
    refine ⟨fun ready => ?_, fun idle => checkSettle_not found fun ready => idle ((ready_iff o).mp ready),
      fun settling => ⟨?_, ?_, fun r => ⟨?_, ?_⟩⟩⟩
    · have settles := checkSettle_ready found ((ready_iff o).mpr ready)
      obtain ⟨out, left⟩ := settled_eq o
      refine ⟨o.settled, ?_, ?_, unheld_refHeld _, ?_, ?_⟩
      · rw [settles, vector_set_get, if_pos rfl]
      · rw [left]
        rfl
      · rw [left]
        rfl
      · rw [settles]
        rfl
    all_goals exact orderAt_iff_modOrder_settle found settling _ _

end Sys2Proof.Machine
end

