-- ==== Sys2Proof/Proofs/OrderRequests.lean ====
section
/-! The requests that name an order: ORDER_PAY, ORDER_RETIRE and ORDER_CANCEL by the order state (R84, R87, R88, R94), and
ORDER_AMEND with its checks (R83). -/

namespace Sys2Proof.Machine

-- Checked one after another, as in the tests: a theorem checked alongside others holds its memory.
set_option Elab.async false

section requests
variable {s : State} {c : Fin 64}

theorem exec_orderPay (asks : s.asks 5 .orderPay c) :
    exec .orderPay s = .next (afterWork s (orderPay (s.take c) c)) := by
  show execOrderPay s = _
  rw [execOrderPay, headOf_of_asks asks]
  rfl

theorem exec_orderCancel (asks : s.asks 5 .orderCancel c) : exec .orderCancel s =
    .next (afterWork s ((orderCancel (s.take c) c).1.answer c (orderCancel (s.take c) c).2)) := by
  show serveWork s 5 .orderCancel orderCancel = _
  exact serveWork_some (headOf_of_asks asks)

theorem exec_orderAmend (asks : s.asks 5 .orderAmend c) : exec .orderAmend s =
    .next (afterWork s ((orderAmend (s.take c) c).1.answer c (orderAmend (s.take c) c).2)) := by
  show serveWork s 5 .orderAmend orderAmend = _
  exact serveWork_some (headOf_of_asks asks)

theorem exec_orderRetire (asks : s.asks 5 .orderRetire c) : exec .orderRetire s =
    .next (finish s ((orderRetire (s.take c) c).1.answer c (orderRetire (s.take c) c).2)) := by
  show serve s 5 .orderRetire orderRetire = _
  exact serve_some (headOf_of_asks asks)

theorem onOrder_none {f : Handle → Fin 48 → Order → State × Answer} (none : s.orderAt ((s.cells[c]'c.isLt).reqHandle 0) = none) :
    onOrder s c f = (s, ⟨.notFound, 0xFFFF00, []⟩) := by
  simp only [onOrder, none]
  rfl

theorem onOrder_some {f : Handle → Fin 48 → Order → State × Answer} {n : Fin 48} {o : Order}
    (found : s.orderAt ((s.cells[c]'c.isLt).reqHandle 0) = some (n, o)) :
    onOrder s c f = f ((s.cells[c]'c.isLt).reqHandle 0) n o := by
  simp only [onOrder, found]

/-! ## ORDER_PAY and ORDER_RETIRE (R84, R94) -/

variable {n : Fin 48} {o : Order}

theorem orderPay_none (none : s.orderAt ((s.cells[c]'c.isLt).reqHandle 0) = none) :
    orderPay s c = s.answer c ⟨.notFound, 0xFFFF00, []⟩ := by
  simp only [orderPay, none]
  rfl

theorem orderPay_authorizes (found : s.orderAt ((s.cells[c]'c.isLt).reqHandle 0) = some (n, o)) (opened : o.state = .opened)
    (total : 0 < o.total) : orderPay s c = { s with
      orders := s.orders.set n ⟨(s.orders[n]'n.isLt).gen, some { o with state := .authorizing, payCell := some c }⟩
      pay := { s.pay with queue := s.pay.queue ++ [⟨(s.cells[c]'c.isLt).reqHandle 0, .authorize, o.total, []⟩] } } := by
  simp only [orderPay, found, opened, if_true, Nat.pos_iff_ne_zero.mp total, if_false]
  rfl

theorem orderPay_free (found : s.orderAt ((s.cells[c]'c.isLt).reqHandle 0) = some (n, o)) (opened : o.state = .opened)
    (total : o.total = 0) : orderPay s c = ({ s with
      orders := s.orders.set n ⟨(s.orders[n]'n.isLt).gen, some { o with
        state := .paid, authorised := 0, paidTime := some s.clock, failureLimit := failureLimit s.settings }⟩
      } : State).answer c ⟨.done, 0, [4, 0, 0, 0, 0, 0, 0, 0]⟩ := by
  have step : orderPay s c = (s.putOrder n (Order.enterPaid { o with authorised := 0 } s)).answer c
      (doneWith (payBody (Order.enterPaid { o with authorised := 0 } s))) := by
    simp only [orderPay, found]
    exact (if_pos opened).trans (if_pos total)
  have body : payBody (Order.enterPaid { o with authorised := 0 } s) = [4, 0, 0, 0, 0, 0, 0, 0] := by
    show [4, 0, 0, 0] ++ le 4 0 = _
    decide
  rw [step, body]
  rfl

theorem orderPay_refused (found : s.orderAt ((s.cells[c]'c.isLt).reqHandle 0) = some (n, o)) (other : o.state ≠ .opened) :
    orderPay s c = s.answer c ⟨.wrongState, o.state.code, []⟩ := by
  simp only [orderPay, found, other, if_false]
  rfl

/-! ## ORDER_CANCEL (R87, R88, R164) -/

/-- The order of a PRINTING order that is cancelled, before it is looked at for settlement (R88). -/
def Order.cancelled (o : Order) : Order :=
  { o with state := .cancelling
           items := o.items.map fun it => if it.state.final then it else { it with state := .cancelled } }

/-- What ORDER_CANCEL makes of a PRINTING order (R88, R164). -/
def State.cancelPrinting (s : State) (h : Handle) : State :=
  checkSettle ((releaseWhere s fun r => r.order == h).modOrder h Order.cancelled) h

theorem orderCancel_eq (found : s.orderAt ((s.cells[c]'c.isLt).reqHandle 0) = some (n, o)) : orderCancel s c =
    match o.state with
    | .opened => (releaseReferences s n { o with state := .closed, outcome := .none }, doneWith [])
    | .authorizing | .doubt => (s.putOrder n { o with cancelPending := true }, doneWith [])
    | .short | .paid =>
      match ((releaseWhere s fun r => r.order == (s.cells[c]'c.isLt).reqHandle 0).orders[n]'n.isLt).order with
      | some p => (voidOrClose (releaseWhere s fun r => r.order == (s.cells[c]'c.isLt).reqHandle 0) n p, doneWith [])
      | none => (releaseWhere s fun r => r.order == (s.cells[c]'c.isLt).reqHandle 0, doneWith [])
    | .printing => (s.cancelPrinting ((s.cells[c]'c.isLt).reqHandle 0), doneWith [])
    | .cancelling | .settling | .closed => wrongOrderState s o := (onOrder_some found).trans rfl

/-- No reservation names the order after those that name it were released. -/
theorem released_others {h : Handle} {m : Fin 3} {r : Reservation}
    (left : ((releaseWhere s fun r => r.order == h).reservations[m]'m.isLt) = some r) : r.order ≠ h := by
  rw [releaseWhere_reservations] at left
  have kept := (Option.filter_eq_some_iff.mp left).2
  simpa using kept

theorem cancelled_ready (o : Order) : o.cancelled.ready = true ↔ ∀ it ∈ o.items, it.inFlight = 0 := by
  have item : ∀ it : Item, (if it.state.final then it else { it with state := .cancelled } : Item).inFlight = it.inFlight := by
    intro it
    split <;> rfl
  rw [ready_iff]
  refine ⟨fun ⟨_, all⟩ it listed => item it ▸ (all _ (List.mem_map_of_mem listed)).2, fun landed => ⟨.inr rfl, ?_⟩⟩
  intro _ listed
  obtain ⟨it, inside, rfl⟩ := List.mem_map.mp listed
  refine ⟨?_, (item it).trans (landed it inside)⟩
  split
  · rename_i final
    exact (final_iff _).mp final
  · exact .inr (.inr rfl)

theorem cancelled_captured (o : Order) : capturedSum o.cancelled.items = (o.items.map fun it => it.done * it.unitPrice).sum := by
  rw [capturedSum, Order.cancelled, List.map_map]
  refine congrArg (List.foldr (· + ·) 0) (List.map_congr_left fun it _ => ?_)
  simp only [Function.comp_apply]
  split <;> rfl

theorem cancelled_states (o : Order) : o.cancelled.items.map (·.state) = o.items.map fun it =>
    if it.state = .waiting ∨ it.state = .active then .cancelled else it.state := by
  rw [Order.cancelled, List.map_map]
  refine List.map_congr_left fun it _ => ?_
  simp only [Function.comp_apply]
  cases state : it.state <;> simp [ItemState.final, state]

theorem cancelPrinting_outcome {h : Handle} (found : s.orderAt h = some (n, o)) :
    let t := s.cancelPrinting h
    ∃ q : Order, q.bare = o.bare ∧ t.reservations = (releaseWhere s fun r => r.order == h).reservations ∧
      ((∃ it ∈ o.items, it.inFlight ≠ 0) → (t.orders[n]'n.isLt) = ⟨(s.orders[n]'n.isLt).gen, some q.cancelled⟩ ∧
        t.pay.queue = s.pay.queue) ∧
      ((∀ it ∈ o.items, it.inFlight = 0) → (t.orders[n]'n.isLt) = ⟨(s.orders[n]'n.isLt).gen, some q.cancelled.settled⟩ ∧
        t.pay.queue = s.pay.queue ++ q.cancelled.settleActions h) := by
  obtain ⟨q, left, bare⟩ := releaseWhere_orderAt found fun r => r.order == h
  have gen : ((releaseWhere s fun r => r.order == h).orders[n]'n.isLt).gen = (s.orders[n]'n.isLt).gen :=
    (congrArg OrderEntry.gen (releaseWhere_bare s _ n) :)
  have cancels := modOrder_some left Order.cancelled
  have held := orderAt_putOrder left q.cancelled
  have queue : (releaseWhere s fun r => r.order == h).pay.queue = s.pay.queue := by rw [releaseWhere_keeps]
  have flights := bare_items bare (·.inFlight) fun _ => rfl
  have landed : (∀ it ∈ q.items, it.inFlight = 0) ↔ ∀ it ∈ o.items, it.inFlight = 0 := by
    have all : ∀ p : Order, (∀ it ∈ p.items, it.inFlight = 0) ↔ ∀ f ∈ p.items.map (·.inFlight), f = 0 := by
      intro p
      simp
    rw [all q, all o, flights]
  intro t
  have cancelled : t = checkSettle ((releaseWhere s fun r => r.order == h).putOrder n q.cancelled) h := by rw [← cancels]; rfl
  rw [cancelled]
  refine ⟨q, bare, ?_, fun ⟨it, listed, flies⟩ => ?_, fun lands => ?_⟩
  · by_cases ready : q.cancelled.ready = true
    · rw [checkSettle_ready held ready]
      rfl
    · rw [checkSettle_not held ready]
      rfl
  · have busy : ¬ q.cancelled.ready = true := by
      rw [cancelled_ready, landed]
      exact fun all => flies (all it listed)
    rw [checkSettle_not held busy, putOrder_entry, gen]
    exact ⟨rfl, queue⟩
  · have ready : q.cancelled.ready = true := (cancelled_ready q).mpr (landed.mpr lands)
    rw [checkSettle_ready held ready, vector_set_get, if_pos rfl, putOrder_entry, gen]
    exact ⟨rfl, congrArg (· ++ q.cancelled.settleActions h) queue⟩

end requests

/-- Settles O39: ORDER_PAY and ORDER_RETIRE, then ORDER_CANCEL, each by the order state. -/
theorem payRetireAndCancelFollowTheOrderState : Obligations.PayRetireAndCancelFollowTheOrderState := by
  unfold Obligations.PayRetireAndCancelFollowTheOrderState
  refine ⟨fun s c => ⟨fun asks => ⟨fun none => ?payNone, fun n o found => ⟨fun opened total => ?pays,
    fun opened total => ?free, fun other => ?payOther⟩⟩, fun asks => ⟨fun none => ?retireNone,
      fun n o found => ⟨fun closed => ?retires, fun other => ?retireOther⟩⟩, fun asks none => ?cancelNone⟩,
    fun s c n o asks => ?cancel⟩
  case payNone => rw [exec_orderPay asks, orderPay_none none]
  case pays => rw [exec_orderPay asks, orderPay_authorizes found opened total]; rfl
  case free => rw [exec_orderPay asks, orderPay_free found opened total]; rfl
  case payOther => rw [exec_orderPay asks, orderPay_refused found other]
  case retireNone => rw [exec_orderRetire asks, orderRetire, onOrder_none none]
  case retires =>
    rw [exec_orderRetire asks, orderRetire, onOrder_some found, if_pos closed]
    rfl
  case retireOther =>
    rw [exec_orderRetire asks, orderRetire, onOrder_some found, if_neg other]
    rfl
  case cancelNone => rw [exec_orderCancel asks, orderCancel, onOrder_none none]
  case cancel =>
    intro u h captured runs pays found
    rw [exec_orderCancel asks]
    refine ⟨fun state => ?waits, fun state => ?refused, fun state => ?ends⟩
    case waits => rw [orderCancel_eq found]; obtain state | state := state <;> simp only [state] <;> rfl
    case refused => rw [orderCancel_eq found]; obtain state | state | state := state <;> simp only [state, wrongOrderState] <;> rfl
    case ends =>
      obtain state | waiting | state := (by tauto : o.state = .opened ∨ (o.state = .short ∨ o.state = .paid) ∨
        o.state = .printing)
      · have idle : runs = false := by
          simp only [runs, state]
          rfl
        have nothing : pays = false := by
          simp only [pays, state]
          rfl
        have cancels : orderCancel u c =
            (releaseReferences u n { o with state := .closed, outcome := .none }, doneWith []) := by
          rw [orderCancel_eq found, state]
        have same : (releaseReferences u n { o with state := .closed, outcome := .none }).pay = s.pay := by
          rw [releaseReferences_keeps]
          rfl
        rw [cancels, idle, nothing, state]
        refine ⟨_, ({ o with state := .closed, outcome := .none } : Order).unheld, rfl, releaseReferences_entry u n _, rfl,
          ?_, fun _ => unheld_refHeld _, (fun _ h => nomatch h), (fun h => nomatch h), fun h => absurd rfl h⟩
        exact (congrArg Pay.queue same).trans (List.append_nil _).symm
      · obtain ⟨q, left, bare⟩ := releaseWhere_orderAt (s := u) found fun r => r.order == h
        have entry := orderEntry_of_orderAt left
        have gen : ((releaseWhere u fun r => r.order == h).orders[n]'n.isLt).gen = (s.orders[n]'n.isLt).gen :=
          (congrArg OrderEntry.gen (releaseWhere_bare u _ n) :)
        have queue : (releaseWhere u fun r => r.order == h).pay.queue = s.pay.queue := by
          rw [releaseWhere_keeps]
          rfl
        have authorised : q.authorised = o.authorised := (congrArg Order.authorised bare :)
        have code : q.code = o.code := (congrArg Order.code bare :)
        have cancels : orderCancel u c = (voidOrClose (releaseWhere u fun r => r.order == h) n q, doneWith []) := by
          rw [orderCancel_eq found]
          obtain state | state := waiting <;> simp only [state] <;> rw [entry]
        have idle : runs = false := by obtain state | state := waiting <;> simp only [runs, state] <;> rfl
        have none : captured = 0 := by obtain state | state := waiting <;> simp only [captured, state] <;> rfl
        have amount : pays = (o.authorised != 0) := by
          obtain state | state := waiting <;> simp only [pays, none, state] <;> rfl
        obtain ⟨out, voided⟩ := voided_fields q
        rw [cancels, idle, amount, none]
        refine ⟨_, q.voided.unheld, rfl, ?_, ?_, ?_, fun _ => unheld_refHeld _, fun _ state => ?_, fun state => ?_,
          fun _ m r reserved => ?_⟩
        · exact (voidOrClose_entry _ n q).trans (by rw [gen])
        · rw [voided, ← authorised]
          by_cases zero : q.authorised = 0 <;> simp [Order.unheld, zero]
        · have puts : (voidOrClose (releaseWhere u fun r => r.order == h) n q).pay.queue = s.pay.queue ++
              if 0 < q.authorised then [⟨h, .void, q.authorised, q.code.getD []⟩] else [] := by
            rw [voidOrClose_keeps, orderHandle_of_orderAt left, ← queue]
          refine puts.trans ?_
          rw [authorised, code]
          by_cases zero : o.authorised = 0
          · simp [zero]
          · simp [zero, Nat.pos_of_ne_zero zero]
        · obtain h | h := waiting <;> exact nomatch h.symm.trans state
        · obtain h | h := waiting <;> exact nomatch h.symm.trans state
        · have same : (voidOrClose (releaseWhere u fun r => r.order == h) n q).reservations =
              (releaseWhere u fun r => r.order == h).reservations := by rw [voidOrClose_keeps]
          exact released_others (s := u) (m := m) (same ▸ reserved)
      · obtain ⟨q, bare, reservations, flying, landed⟩ := cancelPrinting_outcome (s := u) found
        have cancels : orderCancel u c = (u.cancelPrinting h, doneWith []) := by rw [orderCancel_eq found, state]
        have states : q.cancelled.items.map (·.state) = o.items.map fun it =>
            if it.state = .waiting ∨ it.state = .active then .cancelled else it.state := by
          rw [cancelled_states]
          exact bare_items bare (fun it => if it.state = .waiting ∨ it.state = .active then .cancelled else it.state)
            fun _ => rfl
        have sum : captured = capturedSum q.cancelled.items := by
          rw [cancelled_captured, bare_items bare (fun it => it.done * it.unitPrice) fun _ => rfl]
          exact if_pos state
        have authorised : q.authorised = o.authorised := (congrArg Order.authorised bare :)
        have code : q.code = o.code := (congrArg Order.code bare :)
        have amount : pays = (captured != 0 || o.authorised != 0) := by
          simp only [pays, state]
          rfl
        have flights : runs = o.items.any fun it => it.inFlight != 0 := by
          simp only [runs, state]
          rfl
        rw [cancels]
        have spared : ∀ (m : Fin 3) (r : Reservation), ((u.cancelPrinting h).reservations[m]'m.isLt) = some r → r.order ≠ h := by
          intro m r held
          rw [reservations] at held
          exact released_others held
        cases flies : runs with
        | true =>
          obtain ⟨it, listed, some_⟩ := List.any_eq_true.mp (flights.symm.trans flies)
          obtain ⟨order, queue⟩ := flying ⟨it, listed, by simpa using some_⟩
          exact ⟨_, q.cancelled, rfl, order, rfl, queue.trans (List.append_nil _).symm, (fun h => nomatch h),
            (fun h => nomatch h), fun _ => states, fun _ => spared⟩
        | false =>
          have lands : ∀ it ∈ o.items, it.inFlight = 0 := by
            intro it listed
            have none := List.any_eq_false.mp (flights.symm.trans flies) it listed
            simpa using none
          obtain ⟨order, queue⟩ := landed lands
          obtain ⟨out, left⟩ := settled_eq q.cancelled
          rw [amount]
          refine ⟨_, q.cancelled.settled, rfl, order, ?_, ?_, fun _ => ?_, fun _ _ => ?_, fun _ => ?_, fun _ => spared⟩
          · rw [left, ← sum, show q.cancelled.authorised = o.authorised from authorised]
            by_cases zero : captured = 0 <;> by_cases none : o.authorised = 0 <;> simp [zero, none]
          · refine queue.trans (congrArg (s.pay.queue ++ ·) ?_)
            rw [Order.settleActions, ← sum, show q.cancelled.authorised = o.authorised from authorised,
              show q.cancelled.code = o.code from code]
            by_cases zero : captured = 0 <;> by_cases none : o.authorised = 0 <;> simp [zero, none]
          · exact unheld_refHeld _
          · rw [left]
            exact sum.symm
          · rw [left, List.map_map]
            exact states

/-! ## ORDER_AMEND (R83) -/

/-- The item indexes of the changes before a position, the last one first. -/
def seenBefore (earlier : List Nat) (changes : List (Nat × Nat)) (p : Nat) : List Nat :=
  ((changes.take p).map Prod.fst).reverse ++ earlier

theorem seenBefore_succ (earlier : List Nat) (c : Nat × Nat) (changes : List (Nat × Nat)) (p : Nat) :
    seenBefore earlier (c :: changes) (p + 1) = seenBefore (c.1 :: earlier) changes p := by
  simp [seenBefore]

theorem mem_seenBefore {changes : List (Nat × Nat)} {p i : Nat} :
    i ∈ seenBefore [] changes p ↔ ∃ q e, q < p ∧ changes[q]? = some e ∧ e.1 = i := by
  simp only [seenBefore, List.append_nil, List.mem_reverse, List.mem_map, List.mem_take_iff_getElem]
  constructor
  · rintro ⟨e, ⟨q, inside, rfl⟩, rfl⟩
    exact ⟨q, _, by omega, List.getElem?_eq_getElem (by omega), rfl⟩
  · rintro ⟨q, e, below, at_, rfl⟩
    obtain ⟨inside, rfl⟩ := List.getElem?_eq_some_iff.mp at_
    exact ⟨_, ⟨q, by omega, rfl⟩, rfl⟩

theorem firstBadChange_some {items : List Item} {changes : List (Nat × Nat)} {earlier : List Nat} {p f : Nat}
    {ch : Nat × Nat} (at_ : changes[p]? = some ch) (bad : badChange items (seenBefore earlier changes p) ch = some f)
    (before : ∀ q e, q < p → changes[q]? = some e → badChange items (seenBefore earlier changes q) e = none) (j : Nat) :
    firstBadChange items j earlier changes = some (j + p, f) := by
  induction changes generalizing p j earlier with
  | nil => exact nomatch at_
  | cons c changes ih =>
    cases p with
    | zero =>
      obtain rfl : c = ch := Option.some.inj at_
      rw [firstBadChange, show badChange items earlier c = some f from bad]
      rfl
    | succ p =>
      rw [firstBadChange, show badChange items earlier c = none from before 0 c (Nat.succ_pos p) rfl]
      simp only
      rw [seenBefore_succ] at bad
      rw [ih at_ bad (fun q e below inside => seenBefore_succ earlier c changes q ▸
        before (q + 1) e (Nat.succ_lt_succ below) inside) (j + 1), Nat.add_right_comm]
      rfl

theorem firstBadChange_none {items : List Item} {changes : List (Nat × Nat)} {earlier : List Nat}
    (good : ∀ q e, changes[q]? = some e → badChange items (seenBefore earlier changes q) e = none) (j : Nat) :
    firstBadChange items j earlier changes = none := by
  induction changes generalizing j earlier with
  | nil => rfl
  | cons c changes ih =>
    rw [firstBadChange, show badChange items earlier c = none from good 0 c rfl]
    exact ih (fun q e inside => seenBefore_succ earlier c changes q ▸ good (q + 1) e inside) (j + 1)

/-- A change whose item index fails (R83). -/
def BadIndex (items : List Item) (earlier : List Nat) (ch : Nat × Nat) : Prop :=
  items.length ≤ ch.1 ∨ ch.1 ∈ earlier ∨ ∃ it, items[ch.1]? = some it ∧ it.state = .cancelled

/-- A change whose new copies fail (R83). -/
def BadCopies (items : List Item) (ch : Nat × Nat) : Prop := ∃ it, items[ch.1]? = some it ∧ it.copies < ch.2

section change
variable {items : List Item} {earlier : List Nat} {ch : Nat × Nat}

theorem badChange_index (bad : BadIndex items earlier ch) : badChange items earlier ch = some 0 := by
  rw [badChange]
  cases at_ : items[ch.1]? with
  | none => rfl
  | some it =>
    refine if_pos ?_
    obtain beyond | seen | ⟨x, same, cancelled⟩ := bad
    · exact absurd (List.getElem?_eq_some_iff.mp at_).1 (by omega)
    · exact .inl (by simpa using seen)
    · obtain rfl := Option.some.inj (at_.symm.trans same)
      exact .inr cancelled

theorem good_index (good : ¬ BadIndex items earlier ch) :
    ∃ it, items[ch.1]? = some it ∧ ¬ (earlier.contains ch.1 = true ∨ it.state = .cancelled) := by
  have inside : ch.1 < items.length := Nat.lt_of_not_le fun beyond => good (.inl beyond)
  refine ⟨_, List.getElem?_eq_getElem inside, ?_⟩
  rintro (seen | cancelled)
  · exact good (.inr (.inl (by simpa using seen)))
  · exact good (.inr (.inr ⟨_, List.getElem?_eq_getElem inside, cancelled⟩))

theorem badChange_copies (good : ¬ BadIndex items earlier ch) (bad : BadCopies items ch) :
    badChange items earlier ch = some 1 := by
  obtain ⟨it, at_, fine⟩ := good_index good
  obtain ⟨x, same, more⟩ := bad
  obtain rfl := Option.some.inj (at_.symm.trans same)
  rw [badChange, at_]
  exact (if_neg fine).trans (if_pos more)

theorem badChange_none (good : ¬ BadIndex items earlier ch) (enough : ¬ BadCopies items ch) :
    badChange items earlier ch = none := by
  obtain ⟨it, at_, fine⟩ := good_index good
  rw [badChange, at_]
  exact (if_neg fine).trans (if_neg fun more => enough ⟨it, at_, more⟩)

end change

/-- What a priced item shows the host: copies, unit price and state. -/
def Item.shows (it : Item) : Nat × Nat × ItemState := (it.copies, it.unitPrice, it.state)

section amend
variable {s : State} {n : Fin 48} {o : Order} {items : List Item}

/-- The items of an amended order with the references of the cancelled ones given up. -/
def dropped (items : List Item) : List Item :=
  items.map fun it => if it.state = .cancelled then { it with refHeld := false } else it

theorem dropped_map {α : Type} (f : Item → α) (free : ∀ it : Item, f { it with refHeld := false } = f it)
    (items : List Item) : (dropped items).map f = items.map f := by
  rw [dropped, List.map_map]
  refine List.map_congr_left fun it _ => ?_
  simp only [Function.comp_apply]
  split
  · exact free it
  · rfl

theorem dropped_total (items : List Item) : orderTotal (dropped items) = orderTotal items :=
  congrArg (List.foldr (· + ·) 0) (dropped_map lineAmount (fun _ => rfl) items)

theorem all_cancelled_iff (is : List Item) : (is.all fun it => it.state == .cancelled) =
    (is.map (·.state)).all fun st => st == .cancelled := by rw [List.all_map]; rfl

theorem dropped_cancelled (items : List Item) :
    ((dropped items).all fun it => it.state == .cancelled) = items.all fun it => it.state == .cancelled := by
  rw [all_cancelled_iff, all_cancelled_iff, dropped_map (·.state) fun _ => rfl]

/-- The order an amend starts from, its items and total new. -/
def Order.repriced (o : Order) (items : List Item) : Order :=
  { o with items := dropped items, total := orderTotal (dropped items) }

theorem amended_eq (s : State) (n : Fin 48) (o : Order) (items : List Item) : ∃ u : State,
    (u.orders = s.orders ∧ u.cells = s.cells ∧ u.clock = s.clock) ∧ amended s n o items =
      if items.all fun it => it.state == .cancelled then voidOrClose u n (o.repriced items)
      else if o.state = .short ∧ orderTotal items ≤ o.authorised then u.putOrder n ((o.repriced items).enterPaid u)
      else u.putOrder n (o.repriced items) := by
  let u := ((items.filter fun it => it.state == .cancelled && it.refHeld).map (·.raster)).foldl State.dropRef s
  refine ⟨u, ?_, ?_⟩
  · simp only [u]
    rw [dropRefs_keeps]
    exact ⟨rfl, rfl, rfl⟩
  · rw [← dropped_cancelled items, ← dropped_total items]
    rfl

/-- What an amend leaves in the table (R83). -/
theorem amended_outcome (s : State) (n : Fin 48) (o : Order) (items : List Item) (before : o.state = .opened ∨ o.state = .short) :
    (amended s n o items).cells = s.cells ∧ ∃ p : Order, ((amended s n o items).orders[n]'n.isLt) = ⟨(s.orders[n]'n.isLt).gen, some p⟩ ∧
      p.total = orderTotal items ∧ p.items.map Item.shows = items.map Item.shows ∧
      p.state = (if items.all fun it => it.state == .cancelled then (if o.authorised = 0 then .closed else .settling)
        else if o.state = .short ∧ orderTotal items ≤ o.authorised then .paid else o.state) ∧
      (p.state = .paid → p.paidTime = some s.clock ∧ p.authorised = o.authorised) := by
  obtain ⟨u, ⟨orders, cells, clock⟩, outcome⟩ := amended_eq s n o items
  have shows := dropped_map Item.shows (fun _ => rfl) items
  have total := dropped_total items
  rw [outcome]
  by_cases none : (items.all fun it => it.state == .cancelled) = true
  · rw [if_pos none]
    obtain ⟨out, voided⟩ := voided_fields (o.repriced items)
    refine ⟨(voidOrClose_cells u n _).trans cells, (o.repriced items).voided.unheld,
      (voidOrClose_entry u n _).trans (by rw [orders]), ?_, ?_, ?_, fun paid => ?_⟩
    · rw [voided]
      exact total
    · rw [Order.unheld, List.map_map, voided]
      exact shows
    · rw [voided, if_pos none]
      rfl
    · rw [voided, Order.unheld] at paid
      simp only at paid
      split at paid <;> exact nomatch paid
  · rw [if_neg none]
    by_cases covered : o.state = .short ∧ orderTotal items ≤ o.authorised
    · rw [if_pos covered]
      refine ⟨cells, (o.repriced items).enterPaid u, (putOrder_entry u n _).trans (by rw [orders]), total, shows, ?_,
        fun _ => ⟨congrArg some clock, rfl⟩⟩
      rw [if_neg none, if_pos covered]
      rfl
    · rw [if_neg covered]
      refine ⟨cells, o.repriced items, (putOrder_entry u n _).trans (by rw [orders]), total, shows, ?_, fun paid => ?_⟩
      · rw [if_neg none, if_neg covered]
        rfl
      · obtain state | state := before <;> exact nomatch state.symm.trans paid

/-- The items an ORDER_AMEND prices (R83). -/
def WorkCell.changes (x : WorkCell) : List (Nat × Nat) := amendChanges x (x.req 2 1)

variable {c : Fin 64}

theorem orderAmend_state (found : s.orderAt ((s.cells[c]'c.isLt).reqHandle 0) = some (n, o))
    (other : ¬ (o.state = .opened ∨ o.state = .short)) : orderAmend s c = (s, ⟨.wrongState, o.state.code, []⟩) :=
  (onOrder_some found).trans (if_neg other)

theorem orderAmend_length (found : s.orderAt ((s.cells[c]'c.isLt).reqHandle 0) = some (n, o))
    (state : o.state = .opened ∨ o.state = .short) (bad : (s.cells[c]'c.isLt).req 2 1 < 1 ∨ 24 < (s.cells[c]'c.isLt).req 2 1) :
    orderAmend s c = (s, ⟨.badField, 0xFFFF01, []⟩) :=
  (onOrder_some found).trans ((if_pos state).trans (if_pos bad))

theorem orderAmend_changes (found : s.orderAt ((s.cells[c]'c.isLt).reqHandle 0) = some (n, o))
    (state : o.state = .opened ∨ o.state = .short) (good : ¬ ((s.cells[c]'c.isLt).req 2 1 < 1 ∨ 24 < (s.cells[c]'c.isLt).req 2 1)) :
    orderAmend s c = match firstBadChange o.items 0 [] (s.cells[c]'c.isLt).changes with
      | some (p, f) => (s, refuse .badField (fieldDetail 2 p f))
      | none => match firstOver 0 0 (priced s.settings ((s.cells[c]'c.isLt).changes.foldl amendItem o.items)) with
        | some i => (s, refuse .overLimit (fieldDetail 2 i 0xFF))
        | none => (amended s n o (priced s.settings ((s.cells[c]'c.isLt).changes.foldl amendItem o.items)),
            doneWith (amendBody (amended s n o (priced s.settings ((s.cells[c]'c.isLt).changes.foldl amendItem o.items))) n)) :=
  (onOrder_some found).trans ((if_pos state).trans ((if_neg good).trans rfl))

theorem orderAmend_over (found : s.orderAt ((s.cells[c]'c.isLt).reqHandle 0) = some (n, o))
    (state : o.state = .opened ∨ o.state = .short) (good : ¬ ((s.cells[c]'c.isLt).req 2 1 < 1 ∨ 24 < (s.cells[c]'c.isLt).req 2 1))
    (checked : firstBadChange o.items 0 [] (s.cells[c]'c.isLt).changes = none) {i : Nat}
    (large : firstOver 0 0 (priced s.settings ((s.cells[c]'c.isLt).changes.foldl amendItem o.items)) = some i) :
    orderAmend s c = (s, ⟨.overLimit, 0xFF0002 + 256 * i, []⟩) := by
  have outcome := orderAmend_changes found state good
  simp only [checked, large] at outcome
  rw [outcome, refuse, fieldDetail, Nat.add_right_comm]

theorem orderAmend_amended (found : s.orderAt ((s.cells[c]'c.isLt).reqHandle 0) = some (n, o))
    (state : o.state = .opened ∨ o.state = .short) (good : ¬ ((s.cells[c]'c.isLt).req 2 1 < 1 ∨ 24 < (s.cells[c]'c.isLt).req 2 1))
    (checked : firstBadChange o.items 0 [] (s.cells[c]'c.isLt).changes = none)
    (fits : firstOver 0 0 (priced s.settings ((s.cells[c]'c.isLt).changes.foldl amendItem o.items)) = none) :
    orderAmend s c = (amended s n o (priced s.settings ((s.cells[c]'c.isLt).changes.foldl amendItem o.items)),
      doneWith (amendBody (amended s n o (priced s.settings ((s.cells[c]'c.isLt).changes.foldl amendItem o.items))) n)) := by
  have outcome := orderAmend_changes found state good
  simp only [checked, fits] at outcome
  exact outcome

end amend

/-- Settles O38: the checks in their order, then the repriced order. -/
theorem amendRepricesTheOrder : Obligations.AmendRepricesTheOrder := by
  unfold Obligations.AmendRepricesTheOrder
  intro s c asks u cell h len changes refuses
  have answers : ∀ st detail, orderAmend u c = (u, ⟨st, detail, []⟩) → refuses st detail := by
    intro st detail outcome
    show exec .orderAmend s = _
    rw [exec_orderAmend asks, outcome]
  refine ⟨fun none => answers _ _ (onOrder_none none), fun n o found wf => ?_⟩
  intro items badIndex badCopies
  have index : ∀ p ch, badIndex p ch ↔ BadIndex o.items (seenBefore [] changes p) ch := by
    intro p ch
    rw [BadIndex, mem_seenBefore]
  refine ⟨fun opened short => answers _ _ (orderAmend_state (s := u) found fun h => h.elim opened short),
    fun state => ⟨fun bad => answers _ _ (orderAmend_length (s := u) found state bad), fun low high => ?_⟩⟩
  have length : ¬ (len < 1 ∨ 24 < len) := fun h => h.elim (Nat.not_lt.mpr low) (Nat.not_lt.mpr high)
  have outcome := orderAmend_changes (s := u) (c := c) found state length
  rw [show (u.cells[c]'c.isLt).changes = changes from rfl] at outcome
  have fine : ∀ q e, ¬ badIndex q e ∧ ¬ badCopies e → badChange o.items (seenBefore [] changes q) e = none :=
    fun q e good => badChange_none (fun bad => good.1 ((index q e).mpr bad)) good.2
  refine ⟨fun p ch at_ before => ⟨fun bad => ?index, fun good bad => ?copies⟩, fun good => ?passes⟩
  case index =>
    have first := firstBadChange_some (earlier := []) at_ (badChange_index ((index p ch).mp bad))
      (fun q e below inside => fine q e (before q e below inside)) 0
    refine answers _ _ (outcome.trans ?_)
    rw [first, Nat.zero_add]
    rfl
  case copies =>
    have first := firstBadChange_some (earlier := []) at_
      (badChange_copies (fun h => good ((index p ch).mpr h)) bad)
      (fun q e below inside => fine q e (before q e below inside)) 0
    refine answers _ _ (outcome.trans ?_)
    rw [first, Nat.zero_add]
    simp only [refuse, fieldDetail]
    congr 2
    omega
  case passes =>
    have checked := firstBadChange_none (earlier := []) (fun q e inside => fine q e (good q e inside)) 0
    refine ⟨fun i large => answers _ _ (orderAmend_over (s := u) found state length checked large), fun small => ?_⟩
    · have fits : firstOver 0 0 items = none := by
        rw [firstOver_none (Nat.zero_le maxTotal), Nat.zero_add]
        exact small
      obtain ⟨cells, p, entry, total, shows, goes, paid⟩ := amended_outcome u n o items state
      have run := exec_orderAmend asks
      rw [orderAmend_amended (s := u) found state length checked fits] at run
      change _ = Host.Outcome.next (afterWork s ((amended u n o items).answer c
        (doneWith (amendBody (amended u n o items) n)))) at run
      have same : (u.cells[c]'c.isLt) = (s.cells[c]'c.isLt).taken := take_cell_self s c
      refine ⟨_, p, run, ?_, ?_, ?_, total, shows, goes, paid⟩
      · rw [answer_eq]
        exact entry.trans (by rw [show u.orders = s.orders from rfl])
      · rw [answer_cell_self]
        rfl
      · rw [answer_cell_self, cells, same]
        exact (endedBy_answered (fun w => taken_mem_wf w) (doneWith _)).answer.2 wf

end Sys2Proof.Machine
end

