-- ==== Sys2Proof/Proofs/PayLine.lean ====
section
/-! The payment line: the receiver's entries, the transmitter, the input pins, deferred work, the loopback and PAYMENT_RESET
(R98 to R113, R130). -/

namespace Sys2Proof.Machine

-- Checked one after another, as in the tests: a theorem checked alongside others holds its memory.
set_option Elab.async false

/-! ## The receiver (R100 to R104, R110) -/

section receiver
variable {s : State} {b : Byte} {par fr brk : Bool}

/-- What a stored entry leaves of the payment side in CONNECTED (R103, R104). -/
theorem storeEntry_connected (connected : s.pay.line = .connected) : (storeEntry s b par fr brk).pay = { s.pay with
    rxFifo := if s.pay.rxFifo.length < 16 then s.pay.rxFifo ++ [⟨b, par, fr, brk, s.clock⟩] else s.pay.rxFifo
    overrun := s.pay.overrun || decide (16 ≤ s.pay.rxFifo.length)
    parityErr := s.pay.parityErr || par, framingErr := s.pay.framingErr || fr, breakErr := s.pay.breakErr || brk } := by
  simp only [storeEntry, State.modPay]
  by_cases room : s.pay.rxFifo.length < 16
  · simp [room, Nat.not_le.mpr room, connected]
  · simp [room, Nat.le_of_not_lt room, connected]

/-- What a stored entry leaves of the payment side in LOOPBACK (R110). -/
theorem storeEntry_loopback (loopback : s.pay.line = .loopback) : (storeEntry s b par fr brk).pay = { s.pay with
    rxFifo := if s.pay.rxFifo.length < 16 then s.pay.rxFifo ++ [⟨b, par, fr, brk, s.clock⟩] else s.pay.rxFifo
    loop := s.pay.loop.map fun l => { l with
      flagged := l.flagged + (if s.pay.rxFifo.length < 16 then 0 else 1), lastSent := s.clock } } := by
  simp only [storeEntry, State.modPay]
  by_cases room : s.pay.rxFifo.length < 16
  · simp [room, Nat.not_le.mpr room, loopback, flag]
  · simp [room, Nat.le_of_not_lt room, loopback, flag]

variable {start : Word} {re stop : Bool} {data : Byte}

theorem rxCharacter_stored : rxCharacter s start re data par true =
    { s with pay := { (storeEntry s (s.pay.fmt.dataOf data) (s.pay.fmt.parityFails (s.pay.fmt.dataOf data) par) false
      false).pay with rx := .idle } } := rfl

theorem rxCharacter_framing (mark : s.pay.fmt.dataOf data ≠ 0 ∨ (s.pay.fmt.parity ≠ .none ∧ par = true)) :
    rxCharacter s start re data par false = { s with pay := { (storeEntry s (s.pay.fmt.dataOf data)
      (s.pay.fmt.parityFails (s.pay.fmt.dataOf data) par) true false).pay with rx := .receiving s.clock true false } } := by
  rw [rxCharacter, if_neg (by decide), if_pos (by simpa using mark)]
  rfl

theorem rxCharacter_allSpace (zero : s.pay.fmt.dataOf data = 0) (space : s.pay.fmt.parity = .none ∨ par = false) :
    rxCharacter s start re data par false = { s with pay := { s.pay with rx := .receiving start re true } } := by
  have noMark : ¬ (s.pay.fmt.dataOf data ≠ 0 ∨ (s.pay.fmt.parity ≠ .none ∧ par = true)) := by
    rintro (nonzero | ⟨checked, mark⟩)
    · exact nonzero zero
    · exact space.elim checked fun h => nomatch h.symm.trans mark
  rw [rxCharacter, if_neg (by decide), if_neg (by simpa using noMark)]
  rfl

theorem exec_rxCharacter (rx : s.pay.rx = .receiving start re false) (due : s.pay.fmt.toStopMs re ≤ elapsed s.clock start)
    (source : s.pay.sourceGives data par stop = true) :
    exec (.rxCharacter data par stop) s = .next (finish s (payIdle (rxCharacter s start re data par stop))) := by
  show execRxCharacter data par stop s = _
  rw [execRxCharacter, rx]
  exact if_pos ⟨due, source⟩

theorem sourceGives_connected (connected : s.pay.line = .connected) : s.pay.sourceGives data par stop = true := by
  rw [Pay.sourceGives, connected]

theorem sourceGives_loopback {x : TxByte} (loopback : s.pay.line = .loopback) (char : s.pay.txChar = some x)
    (same : s.pay.fmt.dataOf data = s.pay.fmt.dataOf x.byte)
    (parity : s.pay.fmt.parity = .none ∨ s.pay.fmt.parityBit (s.pay.fmt.dataOf data) = some par) :
    s.pay.sourceGives data par true = true := by
  rw [Pay.sourceGives, loopback, char]
  simpa [same] using same ▸ parity

/-- An all-space character fails the parity check of an odd or a mark format (R102). -/
theorem parityFails_allSpace (f : LineFormat) : f.parityFails 0 false = decide (f.parity = .odd ∨ f.parity = .mark) := by
  rw [LineFormat.parityFails]
  cases f.parity <;> rfl

end receiver

/-- Settles O41: each receiver command runs its branch, and an entry is stored as the line state says. -/
theorem receiverFollowsItsCharacters : Obligations.ReceiverFollowsItsCharacters := by
  unfold Obligations.ReceiverFollowsItsCharacters
  intro s go
  refine ⟨fun connected idle => ?edge, fun st rx connected due => ?falseStart, fun held => ?holdEnd,
    fun st re data par rx due => ⟨fun source => ?stored, fun connected => ⟨fun mark => ?framing, fun zero space => ?space⟩⟩,
    fun st re rx connected => ⟨fun early => ?allSpace, fun full => ?brk⟩,
    fun b par fr brk => ⟨storeEntry_connected, storeEntry_loopback⟩⟩
  case edge =>
    show execRxStartEdge s = _
    rw [execRxStartEdge, if_pos ⟨connected, idle⟩, State.modPay, Pay.sawStart, if_pos idle]
    rfl
  case falseStart =>
    show execRxFalseStart s = _
    rw [execRxFalseStart, rx]
    exact if_pos ⟨connected, due⟩
  case holdEnd =>
    show execBreakHoldEnd s = _
    exact if_pos held
  case stored =>
    refine exec_rxCharacter rx due ?_
    obtain connected | ⟨loopback, x, char, same, parity⟩ := source
    · exact sourceGives_connected connected
    · exact sourceGives_loopback loopback char same parity
  case framing =>
    rw [exec_rxCharacter rx due (sourceGives_connected connected), rxCharacter_framing mark]
    rfl
  case space =>
    rw [exec_rxCharacter rx due (sourceGives_connected connected), rxCharacter_allSpace zero space]
  case allSpace =>
    show execAllSpaceFramingError s = _
    rw [execAllSpaceFramingError, rx, ← parityFails_allSpace]
    exact if_pos ⟨connected, early⟩
  case brk =>
    show execBreakDetected s = _
    rw [execBreakDetected, rx]
    exact if_pos ⟨connected, full⟩

/-! ## The transmitter (R99, R100, R113) -/

/-- A transaction after bytes have entered the transmit FIFO: sent once the first byte of its first frame is among them
(R118). -/
def Txn.entered (bytes : List TxByte) (t : Txn) : Txn :=
  if ∃ b ∈ bytes, b.first = true ∧ b.serial = t.firstFrame then { t with sent := true } else t

theorem Txn.entered_entered (xs ys : List TxByte) (t : Txn) : (t.entered xs).entered ys = t.entered (xs ++ ys) := by
  simp only [Txn.entered, List.mem_append, or_and_right, exists_or]
  by_cases inXs : ∃ b ∈ xs, b.first = true ∧ b.serial = t.firstFrame
  · simp [inXs]
  · simp [inXs]

/-- The bytes that enter the FIFO at a fill are the oldest that wait, as many as there is room for (R99). -/
theorem fill_eq (p : Pay) : p.fill = { p with
    txFifo := p.txFifo ++ p.outBytes.take (16 - p.txFifo.length)
    outBytes := p.outBytes.drop (16 - p.txFifo.length)
    current := p.current.map (Txn.entered (p.outBytes.take (16 - p.txFifo.length))) } := by
  rw [Pay.fill]
  congr 1
  congr 1
  funext t
  simp only [Txn.entered, List.any_eq_true, Bool.and_eq_true, beq_iff_eq]

/-- The state as an idle transmitter begins the byte `b` (R99, R100). -/
def State.starts (s : State) (b : TxByte) (rest : List TxByte) : State :=
  { s with
    pay := { s.pay with
      txChar := some b, txFifo := rest, txStart := s.clock
      rx := if s.pay.line = .loopback ∧ s.pay.rx = .idle then .receiving s.clock false false else s.pay.rx }
    sent := s.sent ++ if s.pay.line = .connected then
      [.character (s.pay.fmt.dataOf b.byte) (s.pay.fmt.parityBit (s.pay.fmt.dataOf b.byte))] else [] }

theorem startChar_starts {s : State} {b : TxByte} {rest : List TxByte} (idle : s.pay.txChar = none)
    (on : s.pay.line ≠ .off) (fifo : s.pay.txFifo = b :: rest) : startChar s = s.starts b rest := by
  simp only [startChar, idle, fifo, State.starts]
  cases line : s.pay.line with
  | off => exact absurd line on
  | connected => simp [State.modPay, State.emit, line]
  | loopback =>
    by_cases rx : s.pay.rx = .idle
    · simp [State.modPay, Pay.sawStart, line, rx]
    · simp [State.modPay, Pay.sawStart, line, rx]

theorem startChar_same {s : State} (h : s.pay.txChar ≠ none ∨ s.pay.line = .off ∨ s.pay.txFifo = []) : startChar s = s := by
  rw [startChar]
  cases char : s.pay.txChar with
  | some b => simp
  | none =>
    cases fifo : s.pay.txFifo with
    | nil => simp
    | cons b rest =>
      obtain busy | off | empty := h
      · exact absurd char busy
      · simp [off]
      · exact absurd (fifo.symm.trans empty) (List.cons_ne_nil b rest)

/-- An idle transmitter begins the first byte of the FIFO, and otherwise nothing changes (R99). -/
theorem startChar_cases (s : State) :
    (∃ b rest, (s.pay.txChar = none ∧ s.pay.line ≠ .off ∧ s.pay.txFifo = b :: rest) ∧ startChar s = s.starts b rest) ∨
      startChar s = s := by
  by_cases busy : s.pay.txChar = none
  · by_cases off : s.pay.line = .off
    · exact .inr (startChar_same (.inr (.inl off)))
    · cases fifo : s.pay.txFifo with
      | nil => exact .inr (startChar_same (.inr (.inr fifo)))
      | cons b rest => exact .inl ⟨b, rest, ⟨busy, off, rfl⟩, startChar_starts busy off fifo⟩
  · exact .inr (startChar_same (.inl busy))

/-- What a payment side has of bytes, from the one being sent to the last that waits (R99). -/
def Pay.bytesOut (p : Pay) : List TxByte := p.txChar.toList ++ p.txFifo ++ p.outBytes

theorem fill_bytesOut (p : Pay) : p.fill.bytesOut = p.bytesOut := by
  simp [fill_eq, Pay.bytesOut]

theorem startChar_bytesOut (s : State) : (startChar s).pay.bytesOut = s.pay.bytesOut := by
  obtain ⟨b, rest, ⟨idle, -, fifo⟩, same⟩ | same := startChar_cases s
  · simp [same, Pay.bytesOut, State.starts, idle, fifo]
  · rw [same]

theorem pumpTx_bytesOut (s : State) : (pumpTx s).pay.bytesOut = s.pay.bytesOut := by
  rw [pumpTx, State.modPay_pay, fill_bytesOut, startChar_bytesOut, State.modPay_pay, fill_bytesOut]

theorem startChar_waiting (s : State) : (startChar s).pay.outBytes = s.pay.outBytes ∧
    (startChar s).pay.current = s.pay.current := by
  obtain ⟨b, rest, -, same⟩ | same := startChar_cases s <;> rw [same] <;> exact ⟨rfl, rfl⟩

/-- How many of the waiting bytes entered the FIFO, and what the entry of those bytes did (R99, R118). -/
theorem pumpTx_entered (s : State) : ∃ k, (pumpTx s).pay.outBytes = s.pay.outBytes.drop k ∧
    (pumpTx s).pay.current = s.pay.current.map (Txn.entered (s.pay.outBytes.take k)) := by
  obtain ⟨out, current⟩ := startChar_waiting (s.modPay Pay.fill)
  let n := 16 - s.pay.txFifo.length
  let m := 16 - (startChar (s.modPay Pay.fill)).pay.txFifo.length
  refine ⟨n + m, ?_, ?_⟩
  · rw [pumpTx, State.modPay_pay, fill_eq]
    simp only [out, State.modPay_pay, fill_eq, List.drop_drop]
    rfl
  · rw [pumpTx, State.modPay_pay, fill_eq]
    simp only [out, current, State.modPay_pay, fill_eq, Option.map_map]
    congr 1
    funext t
    rw [Function.comp_apply, Txn.entered_entered, List.take_add]

theorem fill_bound {p : Pay} (fits : p.txFifo.length ≤ 16) :
    p.fill.txFifo.length ≤ 16 ∧ (p.fill.txFifo.length < 16 → p.fill.outBytes = []) := by
  simp only [fill_eq, List.length_append, List.length_take, List.drop_eq_nil_iff]
  omega

theorem startChar_bound (s : State) : (startChar s).pay.txFifo.length ≤ s.pay.txFifo.length := by
  obtain ⟨b, rest, ⟨-, -, fifo⟩, same⟩ | same := startChar_cases s
  · rw [same, fifo]
    exact Nat.le_succ _
  · rw [same]

theorem pumpTx_bound {s : State} (fits : s.pay.txFifo.length ≤ 16) :
    (pumpTx s).pay.txFifo.length ≤ 16 ∧ ((pumpTx s).pay.txFifo.length < 16 → (pumpTx s).pay.outBytes = []) :=
  fill_bound ((startChar_bound _).trans (fill_bound fits).1)

/-- An idle transmitter with a byte begins it (R99). -/
theorem pumpTx_starts {s : State} {b : TxByte} {bs : List TxByte} (idle : s.pay.txChar = none) (on : s.pay.line ≠ .off)
    (bytes : s.pay.txFifo ++ s.pay.outBytes = b :: bs) :
    ∃ rest, startChar (s.modPay Pay.fill) = (s.modPay Pay.fill).starts b rest := by
  have head : ∃ rest, s.pay.fill.txFifo = b :: rest := by
    rw [fill_eq]
    cases fifo : s.pay.txFifo with
    | nil =>
      rw [fifo, List.nil_append] at bytes
      exact ⟨_, by rw [bytes]; rfl⟩
    | cons x xs =>
      rw [fifo, List.cons_append] at bytes
      exact ⟨_, by rw [(List.cons.inj bytes).1]; rfl⟩
  obtain ⟨rest, fifo⟩ := head
  refine ⟨rest, startChar_starts ?_ ?_ fifo⟩
  · rw [State.modPay_pay, fill_eq]
    exact idle
  · rw [State.modPay_pay, fill_eq]
    exact on

section ending
variable {s : State} {b : TxByte}

theorem dataOf_dataOf (f : LineFormat) (b : Byte) : f.dataOf (f.dataOf b) = f.dataOf b := by
  simp only [LineFormat.dataOf]
  split
  · rw [BitVec.and_assoc, BitVec.and_self]
  · rfl

/-- The parity bit that the format sends passes its own check (R98). -/
theorem parityFails_parityBit (f : LineFormat) (d : Byte) : f.parityFails d ((f.parityBit d).getD false) = false := by
  rw [LineFormat.parityFails, LineFormat.parityBit]
  cases f.parity with
  | none => rfl
  | odd =>
    obtain even | odd := Nat.mod_two_eq_zero_or_one (ones d)
    · simp [even, flag, Nat.add_mod]
    · simp [odd, flag]
  | even =>
    obtain even | odd := Nat.mod_two_eq_zero_or_one (ones d)
    · simp [even, flag]
    · simp [odd, flag, Nat.add_mod]
  | mark => rfl
  | space => rfl

theorem loopDelivered_stored {st : Word} {re : Bool} (loopback : s.pay.line = .loopback)
    (rx : s.pay.rx = .receiving st re false) : loopDelivered s b =
      { s with pay := { (storeEntry s (s.pay.fmt.dataOf b.byte) false false false).pay with rx := .idle } } := by
  simp only [loopDelivered, loopback, rx, rxCharacter_stored, dataOf_dataOf, parityFails_parityBit]

theorem loopDelivered_same (h : s.pay.line ≠ .loopback ∨ ∀ st re, s.pay.rx ≠ .receiving st re false) :
    loopDelivered s b = s := by
  rw [loopDelivered]
  split
  · next st re line rx => exact h.elim (fun other => absurd line other) fun none => absurd rx (none _ _)
  · rfl

theorem exec_txCharacterDone (char : s.pay.txChar = some b) (due : s.pay.fmt.charMs ≤ elapsed s.clock s.pay.txStart) :
    exec .txCharacterDone s =
      .next (finish s (payIdle (pumpTx ((loopDelivered s b).modPay fun p => characterSent p s.clock b)))) := by
  show execTxCharacterDone s = _
  rw [execTxCharacterDone, char]
  exact if_pos due

theorem characterSent_eq (p : Pay) (now : Word) (b : TxByte) : characterSent p now b = { p with
    txChar := none
    current := p.current.map fun t => if b.last = true ∧ b.serial = t.frame ∧ t.untransmitted = true then
      { t with untransmitted := false, answerTimer := some ⟨now, p.values.answerTimeout⟩ } else t
    loop := p.loop.map fun l => if l.begun then { l with sentCount := l.sentCount + 1, lastSent := now } else l } := by
  rw [characterSent]
  congr 1
  congr 1
  funext t
  simp only [Bool.and_eq_true, beq_iff_eq, and_assoc]

end ending

/-! ## The input pins (R105 to R107, R124) -/

section pins
variable {s : State} {level : Bool}

theorem freeToQuery_iff (p : Pay) : p.freeToQuery = true ↔
    p.current = none ∧ p.line = .connected ∧ p.loop = none ∧ p.doubts ≠ [] := by
  rw [Pay.freeToQuery]
  simp [and_assoc]

theorem exec_terminalReadyChange_off (other : s.pay.line ≠ .connected) : exec (.terminalReadyChange level) s =
    .next (finish s (payIdle { s with pay := { s.pay with readyPin := level } })) := by
  show execTerminalReadyChange level s = _
  rw [execTerminalReadyChange, State.modPay, if_neg other]
  rfl

theorem exec_terminalReadyChange (connected : s.pay.line = .connected) : exec (.terminalReadyChange level) s =
    .next (finish s (payIdle { s with pay := ({ s.pay with readyPin := level } : Pay).takeReady s.clock level })) := by
  show execTerminalReadyChange level s = _
  rw [execTerminalReadyChange, State.modPay, if_pos connected]
  rfl

theorem exec_alertChange_off (other : s.pay.line ≠ .connected) : exec (.alertChange level) s =
    .next (finish s (payIdle { s with pay := { s.pay with alertPin := level } })) := by
  show execAlertChange level s = _
  exact congrArg (payEvent s) (if_neg other)

theorem exec_alertChange (connected : s.pay.line = .connected) : exec (.alertChange level) s =
    .next (finish s (payIdle (takeAlert { s with pay := { s.pay with alertPin := level } } level))) := by
  show execAlertChange level s = _
  exact congrArg (payEvent s) (if_pos connected)

end pins

/-! ## Deferred format changes and timer values (R108, R130) -/

section deferred
variable {s : State} {p : Pay}

/-- No character is being sent and none waits in the FIFO. -/
theorem txIdle_iff (p : Pay) : p.txIdle = true ↔ p.txFifo = [] ∧ p.txChar = none := by simp [Pay.txIdle]

theorem formatFree_iff (p : Pay) : p.formatFree = true ↔
    p.current = none ∧ (p.txFifo = [] ∧ p.txChar = none) ∧ ¬ ∃ st re al, p.rx = .receiving st re al := by
  rw [Pay.formatFree]
  cases rx : p.rx <;> simp [txIdle_iff]

theorem takeValues_same (none : p.pendingValues = none) : p.takeValues = p := by
  rw [Pay.takeValues, none, ite_eq_right_iff]
  intro
  cases p
  subst none
  rfl

theorem takeValues_waits (waits : ¬ (p.current = none ∧ p.pendingFmt = none)) : p.takeValues = p :=
  if_neg (by simpa using waits)

theorem takeValues_taken {v : PayValues} (idle : p.current = none) (noFormat : p.pendingFmt = none)
    (pending : p.pendingValues = some v) : p.takeValues = { p with values := v, pendingValues := none } := by
  rw [Pay.takeValues, if_pos (by simp [idle, noFormat]), pending]
  rfl

theorem applyFormat_same (none : p.pendingFmt = none) : p.applyFormat = p := by rw [Pay.applyFormat, none]

theorem applyFormat_applied {f : LineFormat} (pending : p.pendingFmt = some f) : p.applyFormat =
    { p with fmt := f, pendingFmt := none, values := p.pendingValues.getD p.values, pendingValues := none } := by
  rw [Pay.applyFormat, pending]

/-- The end of a payment event once no loopback begins in it (R108, R130). -/
def Pay.deferred (p : Pay) : Pay := (if p.formatFree then p.applyFormat else p).takeValues

theorem payIdle_plain (h : ∀ l, s.pay.loop = some l → l.begun = true ∨ ¬ (s.pay.txFifo = [] ∧ s.pay.txChar = none)) :
    payIdle s = { s with pay := s.pay.deferred } := by
  cases loop : s.pay.loop with
  | none =>
    simp only [payIdle, loop]
    rfl
  | some l =>
    have waits : ¬ ((!l.begun && s.pay.txIdle) = true) := by
      rw [Bool.and_eq_true, txIdle_iff]
      rintro ⟨fresh, rests⟩
      exact (h l loop).elim (fun begun => absurd fresh (by simp [begun])) (fun busy => busy rests)
    simp only [payIdle, loop, if_neg waits]
    rfl

theorem payIdle_begins {l : Loopback} (loop : s.pay.loop = some l) (fresh : l.begun = false)
    (rests : s.pay.txFifo = [] ∧ s.pay.txChar = none) :
    payIdle s = { loopbackBegin s l with pay := (loopbackBegin s l).pay.deferred } := by
  have begins : (!l.begun && s.pay.txIdle) = true := by
    rw [Bool.and_eq_true, txIdle_iff]
    exact ⟨by simp [fresh], rests⟩
  simp only [payIdle, loop, if_pos begins]
  rfl

theorem deferred_of_noFormat (noFormat : p.pendingFmt = none) : p.deferred = p.takeValues := by
  rw [Pay.deferred, applyFormat_same noFormat, ite_self]

/-- Taking timer values changes nothing else (R130). -/
theorem takeValues_keeps (p : Pay) :
    p.takeValues = { p with values := p.takeValues.values, pendingValues := p.takeValues.pendingValues } := by
  rw [Pay.takeValues]
  split <;> rfl

/-! ## The loopback (R109, R110) -/

theorem startChar_keeps (s : State) : (startChar s).pay = { s.pay with
    txFifo := (startChar s).pay.txFifo, txChar := (startChar s).pay.txChar, txStart := (startChar s).pay.txStart
    rx := (startChar s).pay.rx } := by
  obtain ⟨b, rest, -, same⟩ | same := startChar_cases s
  · rw [same]
    rfl
  · rw [same]

/-- The transmitter changes its own fields, the receiver's state and the sent flag alone. -/
theorem pumpTx_keeps (s : State) : (pumpTx s).pay = { s.pay with
    txFifo := (pumpTx s).pay.txFifo, txChar := (pumpTx s).pay.txChar, txStart := (pumpTx s).pay.txStart
    outBytes := (pumpTx s).pay.outBytes, current := (pumpTx s).pay.current, rx := (pumpTx s).pay.rx } := by
  simp only [pumpTx, State.modPay_pay]
  rw [fill_eq, startChar_keeps]
  simp only [State.modPay_pay, fill_eq]

theorem takeReady_eq (p : Pay) (now : Word) (level : Bool) : p.takeReady now level = { p with
    present := level
    changeLatch := p.changeLatch || (level != p.present)
    absentSince := if level = p.present then p.absentSince else if level then none else some now } := by
  rw [Pay.takeReady]
  by_cases same : level = p.present
  · subst same
    simp
  · simp [same]

/-- The payment side from which a loopback's transmitter starts (R109). -/
def Pay.loops (p : Pay) (now : Word) (l : Loopback) : Pay :=
  { p.applyFormat.takeReady now false with
    rxFifo := [], rx := .idle, asm := asmHunt, line := .loopback, readyOut := false, alertLevel := false
    loop := some { l with begun := true, lastSent := now }
    outBytes := (List.range l.length).map fun i => ⟨BitVec.ofNat 8 i, 0, false, false⟩ }

theorem loopbackBegin_eq (s : State) (l : Loopback) :
    loopbackBegin s l = pumpTx { s with pay := s.pay.loops s.clock l } := rfl

theorem applyFormat_keeps (p : Pay) : p.applyFormat = { p with
    fmt := p.pendingFmt.getD p.fmt, pendingFmt := none
    values := p.applyFormat.values, pendingValues := p.applyFormat.pendingValues } := by
  rw [Pay.applyFormat]
  split
  · next f pending => simp [pending]
  · next none =>
    rw [none, Option.getD_none, ← none]

end deferred

/-- Settles O42: the bytes of the transmitter as one list, the character's end, and the pins as CONNECTED takes them. -/
theorem transmitterAndInputPins : Obligations.TransmitterAndInputPins := by
  unfold Obligations.TransmitterAndInputPins
  refine ⟨fun s => ⟨fun b char due => ?done, ?pump⟩, fun s level => ?pins⟩
  case done =>
    intro d ended
    have run := exec_txCharacterDone char due
    refine ⟨fun other => ?_, fun loopback => ⟨fun st re rx => ?_, fun none => ?_⟩⟩
    · rw [run, loopDelivered_same (.inl other), State.modPay, characterSent_eq]
    · rw [run, loopDelivered_stored loopback rx, State.modPay, characterSent_eq]
      rfl
    · rw [run, loopDelivered_same (.inr none), State.modPay, characterSent_eq]
  case pump =>
    intro p entered
    obtain ⟨k, out, current⟩ := pumpTx_entered s
    have taken : entered = s.pay.outBytes.take k := by
      simp only [entered, p, out, List.length_drop, List.take_eq_take_iff]
      omega
    refine ⟨?_, pumpTx_bytesOut s, pumpTx_bound, fun idle on b bs bytes => ?_⟩
    · rw [taken]
      exact current
    · obtain ⟨rest, starts⟩ := pumpTx_starts idle on bytes
      have pumped : pumpTx s = ((s.modPay Pay.fill).starts b rest).modPay Pay.fill := by rw [pumpTx, starts]
      exact ⟨(congrArg (·.pay.txChar) pumped).trans rfl, (congrArg (·.pay.txStart) pumped).trans rfl,
        (congrArg (·.pay.rx) pumped).trans rfl, (congrArg State.sent pumped).trans rfl⟩
  case pins =>
    intro go
    refine ⟨fun other => ⟨exec_terminalReadyChange_off other, exec_alertChange_off other⟩, fun connected => ?_⟩
    refine ⟨fun same => ?_, fun change => ?_, fun none => ?_, fun edge low => ?_⟩
    · rw [exec_terminalReadyChange connected, Pay.takeReady, if_pos same.symm]
    · rw [exec_terminalReadyChange connected, Pay.takeReady, if_neg fun h => change h.symm]
    · rw [exec_alertChange connected, takeAlert, if_neg (by rcases none with h | h <;> simp [h])]
      rfl
    · intro t
      rw [exec_alertChange connected, takeAlert, if_pos (by simp [edge])]
      by_cases free : s.pay.current = none ∧ s.pay.loop = none ∧ s.pay.doubts ≠ []
      · rw [if_pos free]
        exact congrArg (fun t => Host.Outcome.next (finish s (payIdle t)))
          (if_pos ((freeToQuery_iff _).mpr ⟨free.1, connected, free.2⟩))
      · rw [if_neg free]
        exact congrArg (fun t => Host.Outcome.next (finish s (payIdle t)))
          (if_neg fun h => free (have ⟨current, _, rest⟩ := (freeToQuery_iff _).mp h; ⟨current, rest⟩))

section loopback
variable {s : State} {l : Loopback}

theorem loops_eq (p : Pay) (now : Word) (l : Loopback) : p.loops now l = { p with
    fmt := p.pendingFmt.getD p.fmt, pendingFmt := none
    values := p.applyFormat.values, pendingValues := p.applyFormat.pendingValues
    present := false, changeLatch := p.changeLatch || p.present
    absentSince := if p.present then some now else p.absentSince
    rxFifo := [], rx := .idle, asm := asmHunt, line := .loopback, readyOut := false, alertLevel := false
    loop := some { l with begun := true, lastSent := now }
    outBytes := (List.range l.length).map fun i => ⟨BitVec.ofNat 8 i, 0, false, false⟩ } := by
  rw [Pay.loops, takeReady_eq, applyFormat_keeps]
  cases p.present <;> simp

theorem loopbackBegin_pattern (rests : s.pay.txFifo = [] ∧ s.pay.txChar = none) :
    (loopbackBegin s l).pay.bytesOut.map (·.byte) = (List.range l.length).map (BitVec.ofNat 8) := by
  rw [loopbackBegin_eq, pumpTx_bytesOut, Pay.bytesOut, loops_eq]
  simp [rests.1, rests.2, Function.comp_def]

/-- The pattern's first byte starts the receiver, and nothing goes out on the pin (R100, R109). -/
theorem loopbackBegin_starts (rests : s.pay.txFifo = [] ∧ s.pay.txChar = none) :
    (loopbackBegin s l).pay.rx = (if l.length = 0 then .idle else .receiving s.clock false false) ∧
      (loopbackBegin s l).sent = s.sent := by
  obtain ⟨fifo, char⟩ := rests
  let x : State := { s with pay := s.pay.loops s.clock l }
  have xChar : x.pay.txChar = none := by simp only [x, loops_eq, char]
  have xFifo : x.pay.txFifo = [] := by simp only [x, loops_eq, fifo]
  have out : x.pay.outBytes = (List.range l.length).map fun i => ⟨BitVec.ofNat 8 i, 0, false, false⟩ := by
    simp only [x, loops_eq]
  suffices h : (startChar (x.modPay Pay.fill)).pay.rx = (if l.length = 0 then .idle else .receiving s.clock false false) ∧
      (startChar (x.modPay Pay.fill)).sent = s.sent from h
  by_cases empty : l.length = 0
  · have nothing : (x.modPay Pay.fill).pay.txFifo = [] := by simp [fill_eq, xFifo, out, empty]
    rw [startChar_same (.inr (.inr nothing)), if_pos empty]
    exact ⟨rfl, rfl⟩
  · obtain ⟨n, length⟩ := Nat.exists_eq_succ_of_ne_zero empty
    obtain ⟨b, bs, bytes⟩ : ∃ b bs, x.pay.txFifo ++ x.pay.outBytes = b :: bs :=
      ⟨_, _, by rw [xFifo, out, length, List.nil_append, List.range_succ_eq_map, List.map_cons]⟩
    obtain ⟨rest, starts⟩ := pumpTx_starts xChar (fun off : LineState.loopback = .off => nomatch off) bytes
    rw [starts, if_neg empty]
    refine ⟨?_, List.append_nil _⟩
    show (if LineState.loopback = .loopback ∧ RxState.idle = .idle then RxState.receiving s.clock false false
      else RxState.idle) = _
    exact if_pos ⟨rfl, rfl⟩

/-- The payment side at the end of the event in which a loopback begins (R109). -/
theorem payIdle_loops (loop : s.pay.loop = some l) (fresh : l.begun = false)
    (rests : s.pay.txFifo = [] ∧ s.pay.txChar = none) : (payIdle s).pay = { s.pay.loops s.clock l with
      values := (payIdle s).pay.values, pendingValues := (payIdle s).pay.pendingValues
      txFifo := (loopbackBegin s l).pay.txFifo, txChar := (loopbackBegin s l).pay.txChar
      txStart := (loopbackBegin s l).pay.txStart, outBytes := (loopbackBegin s l).pay.outBytes
      current := (loopbackBegin s l).pay.current, rx := (loopbackBegin s l).pay.rx } := by
  have keeps := pumpTx_keeps { s with pay := s.pay.loops s.clock l }
  rw [← loopbackBegin_eq] at keeps
  have noFormat : (loopbackBegin s l).pay.pendingFmt = none := by rw [keeps, loops_eq]
  rw [payIdle_begins loop fresh rests]
  simp only
  rw [deferred_of_noFormat noFormat, takeValues_keeps]
  simp only
  rw [keeps]

theorem payIdle_loops_out (loop : s.pay.loop = some l) (fresh : l.begun = false)
    (rests : s.pay.txFifo = [] ∧ s.pay.txChar = none) :
    (payIdle s).pay.bytesOut.map (·.byte) = (List.range l.length).map (BitVec.ofNat 8) ∧ (payIdle s).sent = s.sent := by
  refine ⟨?_, ?_⟩
  · rw [← loopbackBegin_pattern rests, payIdle_loops loop fresh rests]
    rfl
  · rw [payIdle_begins loop fresh rests]
    exact (loopbackBegin_starts rests).2

theorem check_eq (l : Loopback) (e : RxEntry) : l.check e = { l with
    received := l.received + 1
    mismatches := l.mismatches + if l.received < l.length ∧ e.byte.toNat = l.received then 0 else 1
    flagged := l.flagged + if e.parity = true ∨ e.framing = true ∨ e.brk = true then 1 else 0 } := by
  have mismatch : flag (decide (l.length ≤ l.received) || e.byte.toNat != l.received) =
      if l.received < l.length ∧ e.byte.toNat = l.received then 0 else 1 := by
    by_cases good : l.received < l.length ∧ e.byte.toNat = l.received
    · simp [flag, good, Nat.not_le.mpr good.1]
    · rw [if_neg good, flag, if_pos]
      simp only [Bool.or_eq_true, decide_eq_true_eq, bne_iff_ne, ne_eq]
      omega
  rw [Loopback.check, mismatch]
  simp only [flag, RxEntry.flagged, Bool.or_eq_true, or_assoc]

theorem loopbackEnd_eq (s : State) (l : Loopback) : loopbackEnd s l = ({ s with pay := { s.pay with
      present := s.pay.readyPin
      changeLatch := s.pay.changeLatch || (s.pay.readyPin != s.pay.present)
      absentSince := if s.pay.readyPin = s.pay.present then s.pay.absentSince
        else if s.pay.readyPin then none else some s.clock
      rxFifo := [], rx := .idle, line := .connected, readyOut := true, alertLevel := s.pay.alertPin, loop := none
      txFifo := [], outBytes := [] } } : State).answer l.cell
    ⟨if l.received = l.length ∧ l.mismatches = 0 ∧ l.flagged = 0 then .done else .partly, 0,
      le 2 l.sentCount ++ le 2 l.received ++ le 2 l.mismatches ++ le 2 l.flagged⟩ := by
  rw [loopbackEnd, State.modPay, takeReady_eq]
  simp only [Bool.and_eq_true, beq_iff_eq, and_assoc]

end loopback

/-- Settles O43: the deferred work by its conditions, and the loopback from its take to its end. -/
theorem deferredWorkAndLoopback : Obligations.DeferredWorkAndLoopback := by
  unfold Obligations.DeferredWorkAndLoopback
  refine ⟨fun s => ?_, fun s => ⟨fun c asks connected noLoop => ?_, fun l loop begun => ?_⟩⟩
  · intro rests receiving
    refine ⟨fun waits => ⟨fun noFormat noValues => ?_, fun f v format values => ⟨fun idle rest silent => ?_, fun busy => ?_⟩,
      fun v noFormat values => ?_⟩, fun l loop fresh rest => ?_⟩
    · rw [payIdle_plain waits, deferred_of_noFormat noFormat, takeValues_same noValues]
    · rw [payIdle_plain waits, Pay.deferred, if_pos ((formatFree_iff _).mpr ⟨idle, rest, silent⟩),
        applyFormat_applied format, takeValues_same rfl, values]
      rfl
    · have held : ¬ s.pay.formatFree = true := fun h => by
        obtain ⟨idle, rest, silent⟩ := (formatFree_iff _).mp h
        obtain busy | busy | busy := busy
        · simp [idle] at busy
        · exact busy rest
        · exact silent busy
      rw [payIdle_plain waits, Pay.deferred, if_neg held, takeValues_waits (by simp [format])]
    · rw [payIdle_plain waits, deferred_of_noFormat noFormat]
      split
      · next idle => rw [takeValues_taken idle noFormat values]
      · next busy => rw [takeValues_waits fun h => busy h.1]
    · intro p
      have keeps : p = _ := payIdle_loops loop fresh rest
      rw [loops_eq] at keeps
      obtain ⟨rx, -⟩ := loopbackBegin_starts (l := l) rest
      obtain ⟨out, sent⟩ := payIdle_loops_out loop fresh rest
      exact ⟨by rw [keeps], by rw [keeps], by rw [keeps], by rw [keeps], by rw [keeps, ← rx], by rw [keeps], by rw [keeps],
        by rw [keeps], by rw [keeps], by rw [keeps], by rw [keeps], by rw [keeps], out, sent⟩
  · intro u n
    have run : exec .paymentLoopback s = .next (finish s (payIdle (takeLoopback u c))) := by
      show execPaymentLoopback s = _
      rw [execPaymentLoopback, headOf_of_asks asks]
      exact if_pos (by simp [Pay.takesCells, connected, noLoop])
    refine ⟨fun bad => ?_, fun low high busy => ?_, fun low high idle empty => ?_⟩
    · rw [run, takeLoopback, if_pos bad]
      rfl
    · rw [run, takeLoopback, if_neg (by omega), if_pos (show u.pay.current.isSome ∨ u.pay.queue ≠ [] from busy)]
      rfl
    · have free : ¬ (s.pay.current.isSome ∨ s.pay.queue ≠ []) := by simp [idle, empty]
      rw [run, takeLoopback, if_neg (by omega), if_neg (show ¬ (u.pay.current.isSome ∨ u.pay.queue ≠ []) from free)]
      rfl
  · intro ended
    refine ⟨fun e rest fifo => ?_, fun sent fifo char due => ?_⟩
    · intro good m
      have check : l.check e = m := check_eq l e
      show execLoopbackEntryTake s = _
      simp only [execLoopbackEntryTake, loop, fifo, if_pos begun, check]
      split
      · exact congrArg (fun t => Host.Outcome.next (finish s (payIdle t))) (loopbackEnd_eq _ m)
      · rfl
    · show execLoopbackTimeout s = _
      rw [execLoopbackTimeout, loop]
      exact (if_pos ⟨begun, sent, (txIdle_iff _).mpr ⟨fifo, char⟩, due⟩).trans
        (congrArg (fun t => Host.Outcome.next (finish s (payIdle t))) (loopbackEnd_eq s l))

/-! ## PAYMENT_RESET (R111) -/

/-- Settles O44: the line emptied, and the fate of the current transaction by its origin and its sent flag. -/
theorem paymentResetClearsTheLine : Obligations.PaymentResetClearsTheLine := by
  unfold Obligations.PaymentResetClearsTheLine
  intro s c asks connected noLoop u p go
  have run : exec .paymentReset s = go (resetLine u).1 (resetLine u).2 := by
    show execPaymentReset s = _
    rw [execPaymentReset, headOf_of_asks asks]
    exact if_pos (by simp [Pay.takesCells, connected, noLoop])
  have line : resetLine u = resetCurrent { u with pay := p } := rfl
  rw [run, line, resetCurrent]
  refine ⟨fun none => ?_, fun t current => ⟨fun queue unsent => ?_, fun queue sent => ?_, fun doubt => ?_⟩⟩
  · simp only [p, none]
  · simp only [p, current, queue, unsent]
    rfl
  · simp only [p, current, queue, sent, goToDoubt, List.isEmpty_iff]
    rfl
  · have endCurrent : p.endCurrent = { p with current := none, preQuery := s.pay.preQuery || t.forAction } := by
      simp only [Pay.endCurrent, p, current]
    simp only [p, current, doubt] at endCurrent ⊢
    exact congrArg (fun q => go { u with pay := q } 3) endCurrent

end Sys2Proof.Machine
end

