-- ==== Sys2Proof/Proofs/Engine.lean ====
section
/-! The payment engine: frame assembly, the terminal's answers, action starts, timers and doubt (R113 to R131). -/

namespace Sys2Proof.Machine

-- Checked one after another, as in the tests: a theorem checked alongside others holds its memory.
set_option Elab.async false

/-! ## Frame assembly (R114, R128) -/

section assembly
variable {s : State} {e : RxEntry} {rest : List RxEntry}

/-- The entry at the head is taken while it is in time (R114). -/
theorem headTake_eq (connected : s.pay.line = .connected) (fifo : s.pay.rxFifo = e :: rest)
    (inTime : s.pay.asm.step = .hunt ∨ elapsed e.arrival s.pay.asm.last < s.pay.asm.limit) :
    s.pay.headTake s.clock = some (s.pay.asm.takes s.pay.values.interByte e) := by
  have early : s.pay.interByteOver s.clock = false := by
    rw [Pay.interByteOver, fifo]
    simpa [or_iff_not_imp_left] using inTime
  rw [Pay.headTake, fifo]
  exact if_pos ⟨connected, early⟩

theorem headTake_connected {x : EntryTake} (takes : s.pay.headTake s.clock = some x) : s.pay.line = .connected := by
  rw [Pay.headTake] at takes
  split at takes
  · exact nomatch takes
  · split at takes
    · next h => exact h.1
    · exact nomatch takes

theorem interByteOver_iff : s.pay.interByteOver s.clock = true ↔ s.pay.asm.step ≠ .hunt ∧
    s.pay.asm.limit ≤ elapsed ((s.pay.rxFifo.head?.map (·.arrival)).getD s.clock) s.pay.asm.last := by
  rw [Pay.interByteOver, Bool.and_eq_true, bne_iff_ne, decide_eq_true_eq]
  cases s.pay.rxFifo <;> rfl

theorem exec_assemblyEntryTake {a : Assembly} (fifo : s.pay.rxFifo = e :: rest)
    (takes : s.pay.headTake s.clock = some (.on a)) : exec .assemblyEntryTake s =
      .next (finish s (payIdle { s with pay := { s.pay with rxFifo := rest, asm := a } })) := by
  show execAssemblyEntryTake s = _
  rw [execAssemblyEntryTake, takes]
  simp only [State.modPay, Pay.popTo, fifo]
  rfl

theorem exec_frameDrop (fifo : s.pay.rxFifo = e :: rest) (takes : s.pay.headTake s.clock = some .drop) :
    exec .frameDrop s = .next (finish s (payIdle { s with pay := { s.pay with
      rxFifo := rest, asm := asmHunt, framesDropped := sat16 s.pay.framesDropped } })) := by
  show execFrameDrop s = _
  rw [execFrameDrop, takes]
  simp only [State.modPay, Pay.popTo, Pay.frameDropped, fifo]
  rfl

theorem exec_breakEntry (takes : s.pay.headTake s.clock = some .brk) :
    exec .breakEntry s = .next (finish s (payIdle (takeBreak s))) := by
  show execBreakEntry s = _
  rw [execBreakEntry, takes]
  rfl

/-- An entry that completes a message is handled by the command of that message (R114, R115). -/
theorem exec_commandOf {n : Nat} {m : TermMsg} (takes : s.pay.headTake s.clock = some (.message n m)) :
    exec (commandOf m) s = .next (afterWork s (payIdle (handleMessage
      { s with pay := { s.pay with rxFifo := s.pay.rxFifo.drop 1, asm := asmHunt } } n m))) := by
  have head : headMessage s = some (n, m) := by rw [headMessage, takes]
  cases m with
  | accepted =>
    show execAccepted s = _
    rw [execAccepted, head]
    rfl
  | approved amount code =>
    show execApproved s = _
    rw [execApproved, head]
    rfl
  | declined r =>
    show execDeclined s = _
    rw [execDeclined, head]
    rfl
  | unknown =>
    show execUnknown s = _
    rw [execUnknown, head]
    rfl
  | completed =>
    show execCompleted s = _
    rw [execCompleted, head]
    rfl
  | refused r =>
    show execRefused s = _
    rw [execRefused, head]
    rfl
  | pong =>
    show execPong s = _
    rw [execPong, head]
    rfl

end assembly

section takes
variable {a : Assembly} {limit : Nat} {e : RxEntry}

theorem flagged_eq (noBreak : e.brk = false) : e.flagged = false ↔ e.parity = false ∧ e.framing = false := by
  simp [RxEntry.flagged, noBreak]

theorem takes_brk (brk : e.brk = true) : a.takes limit e = .brk := if_pos brk

/-- In HUNT an unflagged 0xC3 begins a frame, and any other entry is thrown away (R114). -/
theorem takes_hunt (noBreak : e.brk = false) (hunt : a.step = .hunt) : a.takes limit e =
    if e.byte = 0xC3 ∧ e.flagged = false then .on ⟨.length, 0, [], 0, e.arrival, limit⟩ else .on a := by
  rw [Assembly.takes, if_neg (by simp [noBreak]), if_pos hunt]

theorem takes_flagged (noBreak : e.brk = false) (frame : a.step ≠ .hunt) (flagged : e.flagged = true) :
    a.takes limit e = .drop := by
  rw [Assembly.takes, if_neg (by simp [noBreak]), if_neg frame, if_pos flagged]

/-- Inside a frame an unflagged entry acts by the step (R114). -/
theorem takes_plain (noBreak : e.brk = false) (frame : a.step ≠ .hunt) (plain : e.flagged = false) : a.takes limit e =
    match a.step with
    | .hunt => .on a
    | .length =>
      if e.byte.toNat < 1 ∨ 64 < e.byte.toNat then .drop
      else .on { a with step := .body, len := e.byte.toNat, last := e.arrival }
    | .body =>
      .on { a with body := a.body ++ [e.byte], last := e.arrival
                   step := if (a.body ++ [e.byte]).length < a.len then .body else .checkLow }
    | .checkLow => .on { a with step := .checkHigh, low := e.byte, last := e.arrival }
    | .checkHigh =>
      if (a.len + sumBytes a.body) % 65536 = a.low.toNat + 256 * e.byte.toNat then
        match termMsgOf a.body with
        | some (n, m) => .message n m
        | none => .drop
      else .drop := by
  rw [Assembly.takes, if_neg (by simp [noBreak]), if_neg frame, if_neg (by simp [plain])] <;> rfl

end takes

section breaks
variable {s : State} {t : Txn}

/-- The payment side once the break has left the FIFO (R128). -/
def Pay.broken (p : Pay) : Pay := if p.asm.step = .hunt then p.popTo asmHunt else (p.popTo asmHunt).frameDropped

theorem broken_current (p : Pay) : p.broken.current = p.current := by
  rw [Pay.broken]
  split <;> rfl

theorem takeBreak_none (none : s.pay.current = none) : takeBreak s = { s with pay := s.pay.broken } := by
  have same := (broken_current s.pay).trans none
  simp only [Pay.broken] at same
  simp only [takeBreak, State.modPay_pay, same]
  rfl

theorem takeBreak_doubt (current : s.pay.current = some t) (doubt : t.origin = .doubt) :
    takeBreak s = { s with pay := { s.pay.broken with current := none } } := by
  have same := (broken_current s.pay).trans current
  simp only [Pay.broken] at same
  simp only [takeBreak, State.modPay_pay, same, doubt]
  rfl

theorem takeBreak_unsent (current : s.pay.current = some t) (queue : t.origin = .queue) (unsent : t.sent = false) :
    takeBreak s = { s with pay := s.pay.broken } := by
  have same := (broken_current s.pay).trans current
  simp only [Pay.broken] at same
  simp only [takeBreak, State.modPay_pay, same, queue, unsent]
  rfl

theorem takeBreak_sent (current : s.pay.current = some t) (queue : t.origin = .queue) (sent : t.sent = true) :
    takeBreak s = goToDoubt { s with pay := s.pay.broken } t := by
  have same := (broken_current s.pay).trans current
  simp only [Pay.broken] at same
  simp only [takeBreak, State.modPay_pay, same, queue, sent]
  rfl

end breaks

/-- A counter of 16 bits saturates (R190). -/
theorem sat16_min {n : Nat} (low : n ≤ 65535) : sat16 n = min 65535 (n + 1) := by
  rw [sat16_eq]
  split <;> omega

/-- Settles O45: what the head entry amounts to by the step, and the break by the current transaction. -/
theorem assemblyTakesEntryByEntry : Obligations.AssemblyTakesEntryByEntry := by
  unfold Obligations.AssemblyTakesEntryByEntry
  intro s connected counted a go
  refine ⟨fun frame late => ?timeout, ?entry⟩
  case timeout =>
    show execInterByteTimeout s = _
    rw [execInterByteTimeout, if_pos ⟨connected, interByteOver_iff.mpr ⟨frame, late⟩⟩, ← sat16_min counted]
    rfl
  intro e rest fifo on dropped plain
  have drops : dropped = { s.pay with rxFifo := rest, asm := asmHunt, framesDropped := sat16 s.pay.framesDropped } := by
    rw [sat16_min counted]
  refine ⟨fun inTime noBreak => ?plain, fun inTime brk => ?brk⟩
  case plain =>
    have head := headTake_eq connected fifo inTime
    have clean : e.flagged = false ↔ plain := flagged_eq noBreak
    have dirty : ¬ plain → e.flagged = true := fun h => by simpa [← clean] using h
    have drop : a.takes s.pay.values.interByte e = .drop → exec .frameDrop s = go dropped := fun h => by
      rw [exec_frameDrop fifo (head.trans (congrArg some h)), drops]
    have goes : ∀ b, a.takes s.pay.values.interByte e = .on b → exec .assemblyEntryTake s = on b := fun b h =>
      exec_assemblyEntryTake fifo (head.trans (congrArg some h))
    have inside : ∀ {st : AsmStep}, a.step = st → st ≠ .hunt → plain → a.takes s.pay.values.interByte e = _ :=
      fun step other ok => takes_plain noBreak (step ▸ other) (clean.mpr ok)
    refine ⟨fun hunt mark ok => goes _ ?_, fun hunt other => goes _ ?_, fun frame bad => drop (takes_flagged noBreak frame (dirty bad)),
      fun step ok => ⟨fun low high => goes _ ?_, fun bad => drop ?_⟩, fun step ok => goes _ ?_, fun step ok => goes _ ?_,
      fun step ok => ?_⟩
    · rw [takes_hunt noBreak hunt, if_pos ⟨mark, clean.mpr ok⟩]
    · rw [takes_hunt noBreak hunt, if_neg fun h => other.elim (fun no => no h.1) (fun no => no (clean.mp h.2))]
    · rw [inside step (by decide) ok, step]
      exact if_neg (by omega)
    · rw [inside step (by decide) ok, step]
      exact if_pos bad
    · rw [inside step (by decide) ok, step]
      simp only [List.length_append, List.length_cons, List.length_nil, Nat.zero_add]
    · rw [inside step (by decide) ok, step]
    · intro good
      have check := inside step (by decide) ok
      rw [step] at check
      refine ⟨fun bad => drop ?_, fun n m sum message => head.trans (congrArg some ?_)⟩
      · rw [check]
        obtain wrong | unknown := bad
        · exact if_neg wrong
        · simp only [unknown, ite_self]
      · rw [check]
        simp only [message]
        exact if_pos sum
  case brk =>
    have run := exec_breakEntry ((headTake_eq connected fifo inTime).trans (congrArg some (takes_brk brk)))
    intro p
    have broken : s.pay.broken = p := by
      simp only [Pay.broken, Pay.popTo, Pay.frameDropped, fifo, p, drops]
      split <;> rfl
    rw [run]
    refine ⟨fun idle => ?_, fun t current => ⟨fun doubt => ?_, fun queue sent => ?_⟩⟩
    · obtain none | ⟨t, current, queue, unsent⟩ := idle
      · rw [takeBreak_none none, broken]
      · rw [takeBreak_unsent current queue unsent, broken]
    · rw [takeBreak_doubt current doubt, broken]
    · rw [takeBreak_sent current queue sent, broken]

/-! ## The terminal's answers (R115, R119 to R127) -/

/-- What a message makes of an action that waits for it: `stay` where the action does not wait for such a message, `ended`
where it ends the action, and `accepted` for an ACCEPTED (R119, R121, R122, R126, R127). -/
def resolveWith (m : TermMsg) (stay ended accepted : State) (order : Handle) (action : PayAction) (amount : Nat)
    (code : List Byte) : State :=
  match m with
  | .approved sum auth => if action = .authorize then authOutcome ended order (.approved sum auth) else stay.modPay Pay.stale
  | .declined r => if action = .authorize then authOutcome ended order (.declined r) else stay.modPay Pay.stale
  | .unknown =>
    if action = .authorize then authOutcome ended order (.declined 0) else requeue ended order action amount code
  | .completed => if action = .authorize then stay.modPay Pay.stale else settleOutcome ended order action none
  | .refused r => if action = .authorize then stay.modPay Pay.stale else settleOutcome ended order action (some r)
  | .accepted => if action = .authorize then accepted else stay.modPay Pay.stale
  | .pong => stay.modPay Pay.stale

theorem resolveDoubt_eq (s : State) (d : DoubtRec) (m : TermMsg) : resolveDoubt s d m =
    resolveWith m s (s.modPay fun p => p.removeDoubt d.number) s d.order d.action d.amount d.code := by
  unfold resolveDoubt resolveWith
  cases action : d.action <;> cases m <;> rfl

theorem answerCurrent_eq (s : State) (t : Txn) (m : TermMsg) : answerCurrent s t m =
    resolveWith m s (s.modPay Pay.endCurrent) (acceptCurrent s t) t.order t.action t.amount t.code := by
  unfold answerCurrent resolveWith
  cases action : t.action <;> cases m <;> rfl

section answers
variable {s : State} {n : Nat} {m : TermMsg} {t : Txn} {d : DoubtRec}

theorem handleMessage_current (current : s.pay.current = some t) (number : t.number = n) (queue : t.origin = .queue) :
    handleMessage s n m = answerCurrent s t m := by
  simp only [handleMessage, current, number, queue, if_pos]

theorem handleMessage_query (current : s.pay.current = some t) (number : t.number = n) (doubt : t.origin = .doubt)
    (found : (s.pay.doubts.find? fun d => d.number == n) = some d) :
    handleMessage s n m = resolveDoubt (s.modPay Pay.endCurrent) d m := by
  simp only [handleMessage, current, number, doubt, found, if_pos]

/-- Without a current transaction of its number a message goes by the doubt records (R115). -/
theorem handleMessage_other (other : ∀ t, s.pay.current = some t → t.number ≠ n) : handleMessage s n m =
    match s.pay.doubts.find? fun d => d.number == n with
    | some d => resolveDoubt s d m
    | none => if m = .pong then (if s.pay.freeToQuery then doubtQuery s false else s) else s.modPay Pay.stale := by
  cases current : s.pay.current with
  | none => simp only [handleMessage, current] <;> rfl
  | some t => simp only [handleMessage, current, if_neg (other t current)] <;> rfl

theorem handleMessage_doubt (other : ∀ t, s.pay.current = some t → t.number ≠ n)
    (found : (s.pay.doubts.find? fun d => d.number == n) = some d) : handleMessage s n m = resolveDoubt s d m := by
  rw [handleMessage_other other, found]

theorem handleMessage_stale (other : ∀ t, s.pay.current = some t → t.number ≠ n) (free : ∀ d ∈ s.pay.doubts, d.number ≠ n)
    (noPong : m ≠ .pong) : handleMessage s n m = s.modPay Pay.stale := by
  have none : (s.pay.doubts.find? fun d => d.number == n) = none := by simpa using free
  rw [handleMessage_other other, none]
  exact if_neg noPong

theorem handleMessage_pong (other : ∀ t, s.pay.current = some t → t.number ≠ n) (free : ∀ d ∈ s.pay.doubts, d.number ≠ n) :
    handleMessage s n .pong = if s.pay.freeToQuery then doubtQuery s false else s := by
  have none : (s.pay.doubts.find? fun d => d.number == n) = none := by simpa using free
  rw [handleMessage_other other, none]
  exact if_pos rfl

theorem endCurrent_eq {p : Pay} (current : p.current = some t) :
    p.endCurrent = { p with current := none, preQuery := p.preQuery || t.forAction } := by
  rw [Pay.endCurrent, current]

/-- A doubt record that leaves the list; with the last the ping timer stops (R123). -/
theorem removeDoubt_eq (p : Pay) (n : Nat) : p.removeDoubt n = { p with
    doubts := p.doubts.filter (·.number != n)
    pingTimer := if p.doubts.all (·.number == n) then none else p.pingTimer } := by
  have empty : (p.doubts.filter (·.number != n)).isEmpty = p.doubts.all (·.number == n) := by
    rw [Bool.eq_iff_iff]
    simp [List.filter_eq_nil_iff]
  simp only [Pay.removeDoubt, empty]

/-- ACCEPTED moves an AUTHORIZE to its customer phase, once more after a query (R119). -/
theorem acceptCurrent_customer (moves : t.phase = .sent ∨ (t.phase = .querying ∧ t.restartUsed = false)) :
    acceptCurrent s t = { s with pay := { s.pay with current := some { t with
      phase := .customer, restartUsed := t.restartUsed || t.phase == .querying, untransmitted := false
      answerTimer := none, customerTimer := some ⟨s.clock, s.pay.values.customerLimit⟩ } } } := by
  obtain sent | ⟨querying, fresh⟩ := moves
  · simp [acceptCurrent, sent, State.modPay]
  · simp [acceptCurrent, querying, fresh, State.modPay]

theorem acceptCurrent_stays (stays : t.phase = .customer ∨ (t.phase = .querying ∧ t.restartUsed = true)) :
    acceptCurrent s t = s := by
  obtain customer | ⟨querying, used⟩ := stays
  · simp [acceptCurrent, customer]
  · simp [acceptCurrent, querying, used]

end answers

/-- Settles O46: whichever of the three the message is matched with, it resolves the action in one way. -/
theorem answersFindTheirTransaction : Obligations.AnswersFindTheirTransaction := by
  unfold Obligations.AnswersFindTheirTransaction
  intro s n m takes p u gives late resolves without
  have run : ∀ {t : State}, handleMessage u n m = t → gives t := fun h => by
    rw [← h]
    exact exec_commandOf takes
  have stale : ∀ q : Pay, q.staleAnswers = s.pay.staleAnswers → ({ s with pay := q } : State).modPay Pay.stale = late q :=
    fun q same => by
      simp only [State.modPay, Pay.stale, late, same]
  have resolve : ∀ (q : Pay) (ended accepted : State) order action amount code, q.staleAnswers = s.pay.staleAnswers →
      handleMessage u n m = resolveWith m { s with pay := q } ended accepted order action amount code →
      resolves q ended order action amount code := by
    intro q ended accepted order action amount code same outcome
    by_cases authorize : action = .authorize
    · cases m <;> simp only [resolveWith, if_pos authorize, stale q same] at outcome <;>
        simp only [resolves, if_pos authorize] <;> exact run outcome
    · cases m <;> simp only [resolveWith, if_neg authorize, stale q same] at outcome <;>
        simp only [resolves, if_neg authorize] <;> exact run outcome
  have found_number : ∀ {d}, (s.pay.doubts.find? fun d => d.number == n) = some d → d.number = n := fun found => by
    simpa using List.find?_some found
  refine ⟨fun t current number queue => ?queue, fun other => ⟨fun d found => ?doubt, fun free noPong => ?stale, fun free pong => ?pong⟩,
    fun t d current number doubt found => ?query⟩
  case queue =>
    have outcome := (handleMessage_current (s := u) (m := m) current number queue).trans (answerCurrent_eq u t m)
    have ended : u.modPay Pay.endCurrent = { s with pay := { p with
        current := none, preQuery := s.pay.preQuery || t.forAction } } :=
      congrArg (fun q => { s with pay := q }) (endCurrent_eq (p := p) current)
    rw [ended] at outcome
    refine ⟨resolve p _ _ _ _ _ _ rfl outcome, fun accepted authorize => ?_⟩
    subst accepted
    simp only [resolveWith, if_pos authorize] at outcome
    exact ⟨fun moves => run (outcome.trans (acceptCurrent_customer moves)),
      fun stays => run (outcome.trans (acceptCurrent_stays stays))⟩
  case doubt =>
    have outcome := (handleMessage_doubt (s := u) (m := m) other found).trans (resolveDoubt_eq u d m)
    have removed : (u.modPay fun p => p.removeDoubt d.number) = without p := by
      rw [found_number found, State.modPay, removeDoubt_eq]
    rw [removed] at outcome
    refine ⟨resolve p _ _ _ _ _ _ rfl outcome, fun accepted authorize => ?_⟩
    subst accepted
    simp only [resolveWith, if_pos authorize] at outcome
    exact run outcome
  case stale => exact run ((handleMessage_stale (s := u) other free noPong).trans (stale p rfl))
  case pong =>
    subst pong
    have outcome := handleMessage_pong (s := u) other free
    have connected := headTake_connected takes
    split
    · next idle => exact run (outcome.trans (if_pos ((freeToQuery_iff _).mpr ⟨idle.1, connected, idle.2⟩)))
    · next busy =>
      exact run (outcome.trans (if_neg fun h => busy (have ⟨current, _, rest⟩ := (freeToQuery_iff _).mp h; ⟨current, rest⟩)))
  case query =>
    intro q
    have ended : u.modPay Pay.endCurrent = { s with pay := q } :=
      congrArg (fun q => { s with pay := q }) (endCurrent_eq (p := p) current)
    have outcome := (handleMessage_query (s := u) (m := m) current number doubt found).trans (resolveDoubt_eq _ d m)
    have removed : ((u.modPay Pay.endCurrent).modPay fun p => p.removeDoubt d.number) = without q := by
      rw [ended, found_number found, State.modPay, removeDoubt_eq]
    rw [removed, ended] at outcome
    refine ⟨resolve q _ _ _ _ _ _ rfl outcome, fun accepted authorize => ?_⟩
    subst accepted
    simp only [resolveWith, if_pos authorize] at outcome
    exact run outcome

/-! ## Frames sent (R113, R117, R118, R124, R196) -/

section sending
variable {s : State} {t : Txn}

theorem Txn.entered_eq (bytes : List TxByte) (t : Txn) : t.entered bytes = { t with sent := (t.entered bytes).sent } := by
  rw [Txn.entered]
  split <;> rfl

theorem Txn.entered_sent {bytes : List TxByte} {t : Txn} (sent : t.sent = true) : (t.entered bytes).sent = true := by
  rw [Txn.entered]
  split
  · rfl
  · exact sent

theorem txBytes_bytes (serial : Nat) (bytes : List Byte) : (txBytes serial bytes).map (·.byte) = bytes := by
  refine List.ext_getElem (by simp [txBytes]) fun i low high => ?_
  simp [txBytes, byteAt, List.getElem?_eq_getElem high]

/-- The bytes of a frame carry its serial number, and the first of them alone its mark (R113). -/
theorem txBytes_cons (serial : Nat) (body : List Byte) : ∃ b bs, txBytes serial (frameBytes body) = b :: bs ∧
    b.first = true ∧ b.serial = serial ∧ ∀ c ∈ bs, c.first = false := by
  rw [frameBytes, txBytes, List.cons_append, List.length_cons, List.range_succ_eq_map, List.map_cons, List.map_map]
  refine ⟨_, _, rfl, rfl, rfl, fun c mem => ?_⟩
  obtain ⟨i, -, rfl⟩ := List.mem_map.mp mem
  rfl

/-- A frame that is sent stands behind every byte that already waits (R99, R113). -/
theorem sendFrame_out (s : State) (body : List Byte) :
    (sendFrame s body).pay.bytesOut = s.pay.bytesOut ++ txBytes (s.pay.frameSerial + 1) (frameBytes body) := by
  rw [sendFrame, pumpTx_bytesOut]
  simp [Pay.bytesOut]

theorem sendFrame_keeps (s : State) (body : List Byte) : (sendFrame s body).pay = { s.pay with
    frameSerial := s.pay.frameSerial + 1
    txFifo := (sendFrame s body).pay.txFifo, txChar := (sendFrame s body).pay.txChar
    txStart := (sendFrame s body).pay.txStart, outBytes := (sendFrame s body).pay.outBytes
    current := (sendFrame s body).pay.current, rx := (sendFrame s body).pay.rx } :=
  pumpTx_keeps _

theorem sendFrame_current (s : State) (body : List Byte) :
    ∃ bytes, (sendFrame s body).pay.current = s.pay.current.map (Txn.entered bytes) := by
  obtain ⟨k, -, current⟩ := pumpTx_entered (s.modPay fun p =>
    { p with frameSerial := p.frameSerial + 1
             outBytes := p.outBytes ++ txBytes (p.frameSerial + 1) (frameBytes body) })
  exact ⟨_, current⟩

/-- The current transaction as a frame of it is sent: its timers wait until the frame is transmitted (R113). -/
def Txn.resent (t : Txn) (serial : Nat) : Txn :=
  { t with frame := serial, untransmitted := true, answerTimer := none, customerTimer := none }

/-- What a frame of the current transaction leaves of the payment side. -/
theorem sendCurrent_spec (s : State) (body : List Byte) (current : s.pay.current = some t) :
    (sendCurrent s body).pay.bytesOut = s.pay.bytesOut ++ txBytes (s.pay.frameSerial + 1) (frameBytes body) ∧
    (∃ sent, (sendCurrent s body).pay.current = some { t.resent (s.pay.frameSerial + 1) with sent := sent } ∧
      (t.sent = true → sent = true)) ∧
    (sendCurrent s body).pay = { s.pay with
      frameSerial := s.pay.frameSerial + 1
      txFifo := (sendCurrent s body).pay.txFifo, txChar := (sendCurrent s body).pay.txChar
      txStart := (sendCurrent s body).pay.txStart, outBytes := (sendCurrent s body).pay.outBytes
      current := (sendCurrent s body).pay.current, rx := (sendCurrent s body).pay.rx } := by
  refine ⟨sendFrame_out _ _, ?_, sendFrame_keeps _ _⟩
  obtain ⟨bytes, same⟩ := sendFrame_current (s.modPay fun p => { p with current := p.current.map fun t =>
    { t with frame := p.frameSerial + 1, untransmitted := true, answerTimer := none, customerTimer := none } }) body
  refine ⟨((t.resent (s.pay.frameSerial + 1)).entered bytes).sent, same.trans ?_, fun sent => Txn.entered_sent sent⟩
  rw [← Txn.entered_eq, State.modPay_pay, current]
  rfl

/-- With a current transaction and no loopback the end of the event leaves the payment side as it is (R108, R130). -/
theorem payIdle_current (noLoop : s.pay.loop = none) (current : s.pay.current = some t) : payIdle s = s := by
  rw [payIdle_plain (fun l loop => absurd (noLoop.symm.trans loop) (fun h => nomatch h)), Pay.deferred,
    if_neg fun h => by simp [(formatFree_iff _).mp h |>.1] at current, takeValues_waits (by simp [current])]

end sending

/-! ## Action starts (R117, R118) -/

/-- A tried number is free, or every number tried is held by a doubt record (R117). -/
theorem freeNumber_cases (doubts : List DoubtRec) (f n : Nat) : (∀ d ∈ doubts, d.number ≠ freeNumber doubts f n) ∨
    ∀ i < f, numberAfter^[i] n ∈ doubts.map (·.number) := by
  induction f generalizing n with
  | zero => exact .inr fun i low => absurd low (Nat.not_lt_zero i)
  | succ f ih =>
    rw [freeNumber]
    split
    · next taken =>
      refine (ih (numberAfter n)).imp_right fun held i low => ?_
      cases i with
      | zero => simpa using taken
      | succ i => exact held i (Nat.lt_of_succ_lt_succ low)
    · next free => exact .inl (by simpa using free)

/-- Four numbers in a row differ, over the turn from 255 to 1 too (R117). -/
theorem four_numbers (n : Nat) : (List.map (fun i => numberAfter^[i] n) [0, 1, 2, 3]).Nodup := by
  have step : ∀ k, (k < 255 ∧ numberAfter k = k + 1) ∨ (255 ≤ k ∧ numberAfter k = 1) := fun k => by
    rw [numberAfter]
    split <;> omega
  have first := step n
  have second := step (numberAfter n)
  have third := step (numberAfter (numberAfter n))
  simp only [List.map_cons, List.map_nil, Function.iterate_succ, Function.iterate_zero, Function.comp_apply, id,
    List.nodup_cons, List.mem_cons, List.not_mem_nil, or_false, not_or, List.nodup_nil, not_false_eq_true, and_true]
  omega

/-- Fewer than four doubt records leave one of the numbers tried free (R117). -/
theorem freeNumber_free {doubts : List DoubtRec} (few : doubts.length < 4) (n : Nat) :
    ∀ d ∈ doubts, d.number ≠ freeNumber doubts 5 n := by
  refine (freeNumber_cases doubts 5 n).resolve_right fun held => ?_
  have subset : List.map (fun i => numberAfter^[i] n) [0, 1, 2, 3] ⊆ doubts.map (·.number) := by
    intro x mem
    obtain ⟨i, listed, rfl⟩ := List.mem_map.mp mem
    exact held i ((by decide : ∀ j ∈ [0, 1, 2, 3], j < 5) i listed)
  have bound := ((four_numbers n).subperm subset).length_le
  simp only [List.length_map, List.length_cons, List.length_nil] at bound
  omega

theorem freeNumber_self {doubts : List DoubtRec} {f n : Nat} (free : ∀ d ∈ doubts, d.number ≠ n) :
    freeNumber doubts (f + 1) n = n := by
  rw [freeNumber, if_neg (by simpa using free)]

section starting
variable {s : State} {a : QueuedAction} {rest : List QueuedAction}

theorem mayAct_of (running : s.running = true) (connected : s.pay.line = .connected) (noLoop : s.pay.loop = none)
    (idle : s.pay.current = none) (few : s.pay.doubts.length < 4) : s.mayAct = true := by
  simp [State.mayAct, running, connected, noLoop, idle, few]

/-- The transaction that an action of the queue begins with (R117, R118). -/
def QueuedAction.txn (a : QueuedAction) (n serial : Nat) : Txn :=
  { number := n, order := a.order, action := a.action, amount := a.amount, code := a.code, origin := .queue, phase := .sent,
    attempts := 0, restartUsed := false, sent := false, firstFrame := serial, frame := 0, untransmitted := true,
    answerTimer := none, customerTimer := none, forAction := false }

/-- The transaction of a doubt query (R124). -/
def DoubtRec.txn (d : DoubtRec) (serial : Nat) (forAction : Bool) : Txn :=
  { number := d.number, order := d.order, action := d.action, amount := d.amount, code := d.code, origin := .doubt,
    phase := .querying, attempts := 1, restartUsed := false, sent := false, firstFrame := serial, frame := 0,
    untransmitted := true, answerTimer := none, customerTimer := none, forAction := forAction }

theorem startAction_eq (s : State) (a : QueuedAction) (rest : List QueuedAction) : startAction s a rest =
    let n := freeNumber s.pay.doubts 5 s.pay.nextNumber
    sendCurrent { s with pay := { s.pay with
      queue := rest, nextNumber := numberAfter n, preQuery := false
      current := some (a.txn n (s.pay.frameSerial + 1)) } } (actionBody n a) := rfl

theorem doubtQuery_eq {d : DoubtRec} {ds : List DoubtRec} {forAction : Bool} (doubts : s.pay.doubts = d :: ds) :
    doubtQuery s forAction = sendCurrent { s with pay := { s.pay with
      current := some (d.txn (s.pay.frameSerial + 1) forAction) } } (queryBody d.number) := by
  rw [doubtQuery, doubts]
  rfl

theorem exec_actionStart (queue : s.pay.queue = a :: rest) (may : s.mayAct = true) (present : s.pay.present = true) :
    exec .actionStart s = .next (finish s (payIdle (
      if !s.pay.doubts.isEmpty && !s.pay.preQuery then doubtQuery s true else startAction s a rest))) := by
  show execActionStart s = _
  rw [execActionStart, queue]
  exact if_pos ⟨may, present⟩

/-- The body of an action's frame, byte by byte (R115, R196). -/
theorem actionBody_eq (n : Nat) (a : QueuedAction) : actionBody n a = match a.action with
    | .authorize => [1, BitVec.ofNat 8 n] ++ le 4 a.amount ++ [a.order.index, a.order.gen]
    | .capture => [3, BitVec.ofNat 8 n] ++ a.code ++ le 4 a.amount
    | .void => [4, BitVec.ofNat 8 n] ++ a.code := by
  rw [actionBody]
  cases a.action <;> rfl

theorem exec_authorizeNoTerminal {since : Word} (queue : s.pay.queue = a :: rest) (may : s.mayAct = true)
    (authorize : a.action = .authorize) (absent : s.pay.present = false) (noted : s.pay.absentSince = some since)
    (long : s.pay.values.answerTimeout < elapsed s.clock since) : exec .authorizeNoTerminal s =
      .next (finish s (payIdle (authOutcome { s with pay := { s.pay with queue := rest } } a.order .noTerminal))) := by
  have tooLong : s.pay.absentTooLong s.clock = true := by simp [Pay.absentTooLong, absent, noted, long]
  show execAuthorizeNoTerminal s = _
  rw [execAuthorizeNoTerminal, queue]
  exact if_pos ⟨authorize, may, tooLong⟩

end starting

/-- The bytes of a frame behind those that wait already (R113). -/
theorem toSend_append {p q : Pay} {serial : Nat} {body : List Byte}
    (out : p.bytesOut = q.bytesOut ++ txBytes serial (frameBytes body)) : p.toSend = q.toSend ++ frameBytes body := by
  show p.bytesOut.map (·.byte) = _
  rw [out, List.map_append, txBytes_bytes]
  rfl

/-- Settles O47: the frame of the transaction that a start makes current stands behind every waiting byte. -/
theorem actionsStartFromTheQueue : Obligations.ActionsStartFromTheQueue := by
  unfold Obligations.ActionsStartFromTheQueue
  intro s a rest queue running connected noLoop idle few
  have may := mayAct_of running connected noLoop idle few
  refine ⟨fun present clear => ?start, fun d ds present doubts unqueried => ?query,
    fun since authorize absent noted long => exec_authorizeNoTerminal queue may authorize absent noted long⟩
  case start =>
    have noQuery : ¬ ((!s.pay.doubts.isEmpty && !s.pay.preQuery) = true) := by
      obtain none | done := clear
      · simp [none]
      · simp [done]
    have run := exec_actionStart queue may present
    rw [if_neg noQuery] at run
    generalize number : freeNumber s.pay.doubts 5 s.pay.nextNumber = n at run
    have spec := sendCurrent_spec { s with pay := { s.pay with
      queue := rest, nextNumber := numberAfter n, preQuery := false
      current := some (a.txn n (s.pay.frameSerial + 1)) } } (actionBody n a) rfl
    rw [show sendCurrent _ (actionBody n a) = startAction s a rest by rw [startAction_eq, number]] at spec
    obtain ⟨out, ⟨sent, current, -⟩, keeps⟩ := spec
    have noLoop' : (startAction s a rest).pay.loop = none := by rw [keeps]; exact noLoop
    rw [payIdle_current noLoop' current] at run
    refine ⟨_, n, _, run, ?_, (finish_pay _ _ ▸ current :), ?_, number ▸ freeNumber_free few _,
      fun free => number ▸ freeNumber_self free, ?_, rfl, rfl, rfl, rfl, rfl, rfl, rfl, rfl, rfl, rfl, ?_, ?_⟩
    · rw [finish_pay, keeps]
    · rw [finish_pay, keeps]
    · rw [finish_pay, keeps]
      rfl
    · intro waiting
      obtain ⟨b, bs, bytes, first, serial, others⟩ := txBytes_cons (s.pay.frameSerial + 1) (actionBody n a)
      refine ⟨b, bs, ?_, first, serial, others⟩
      rw [finish_pay, ← bytes]
      exact out
    · intro body
      rw [finish_pay, toSend_append out, actionBody_eq, frameBytes]
      simp only [body, List.append_assoc, List.cons_append, List.nil_append]
      rfl
  case query =>
    have toQuery : (!s.pay.doubts.isEmpty && !s.pay.preQuery) = true := by simp [doubts, unqueried]
    have run := exec_actionStart queue may present
    rw [if_pos toQuery] at run
    obtain ⟨out, ⟨sent, current, -⟩, keeps⟩ := sendCurrent_spec { s with pay := { s.pay with
      current := some (d.txn (s.pay.frameSerial + 1) true) } } (queryBody d.number) rfl
    rw [← doubtQuery_eq doubts] at out current keeps
    have noLoop' : (doubtQuery s true).pay.loop = none := by rw [keeps]; exact noLoop
    rw [payIdle_current noLoop' current] at run
    refine ⟨_, _, run, ?_, (finish_pay _ _ ▸ current :), rfl, rfl, rfl, rfl, rfl, rfl, rfl, rfl, ?_⟩
    · rw [finish_pay, keeps]
      exact queue
    · rw [finish_pay, toSend_append out, List.append_assoc]
      rfl

/-! ## Timers and doubt (R120, R123 to R125) -/

section timers
variable {s : State} {t : Txn} {tm : Timer}

theorem goToDoubt_eq (s : State) (t : Txn) :
    let u : State := { s with pay := { s.pay with
      doubts := s.pay.doubts ++ [⟨t.number, t.order, t.action, t.amount, t.code⟩], current := none
      pingTimer := if s.pay.doubts = [] then some ⟨s.clock, s.pay.values.pingInterval⟩ else s.pay.pingTimer } }
    goToDoubt s t = if t.action = .authorize then authOutcome u t.order .doubt else u := by
  simp only [goToDoubt, List.isEmpty_iff]
  rfl

/-- The timer of an unanswered transaction of the queue acts once it is due (R120). -/
theorem exec_unanswered {i : Instr} (due : tm.due s.clock = true) (current : s.pay.current = some t)
    (queue : t.origin = .queue) (timer : (i = .answerTimeout ∧ t.phase ≠ .customer ∧ t.answerTimer = some tm) ∨
      (i = .customerLimitExpiry ∧ t.phase = .customer ∧ t.customerTimer = some tm)) :
    exec i s = .next (finish s (payIdle (queryOrDoubt s t))) := by
  obtain ⟨rfl, waits, timer⟩ | ⟨rfl, customer, timer⟩ := timer
  · show execAnswerTimeout s = _
    rw [execAnswerTimeout, current]
    exact if_pos ⟨queue, waits, by rw [timer]; exact due⟩
  · show execCustomerLimitExpiry s = _
    rw [execCustomerLimitExpiry, current]
    exact if_pos ⟨queue, customer, by rw [timer]; exact due⟩

theorem queryOrDoubt_doubt (usedUp : s.pay.values.queryRetries ≤ t.attempts) : queryOrDoubt s t =
    goToDoubt { s with pay := { s.pay with timeoutsCount := sat16 s.pay.timeoutsCount } } t :=
  if_neg (Nat.not_lt.mpr usedUp)

theorem queryOrDoubt_query (left : t.attempts < s.pay.values.queryRetries) : queryOrDoubt s t =
    sendCurrent { s with pay := { s.pay with
      timeoutsCount := sat16 s.pay.timeoutsCount
      current := some { t with attempts := t.attempts + 1, phase := .querying } } } (queryBody t.number) :=
  if_pos left

theorem exec_doubtQueryTimeout (due : tm.due s.clock = true) (current : s.pay.current = some t) (doubt : t.origin = .doubt)
    (timer : t.answerTimer = some tm) : exec .doubtQueryTimeout s = .next (finish s (payIdle { s with pay := { s.pay with
      current := none, preQuery := s.pay.preQuery || t.forAction, timeoutsCount := sat16 s.pay.timeoutsCount } })) := by
  have run : exec .doubtQueryTimeout s =
      payEvent s (s.modPay fun p => { p.endCurrent with timeoutsCount := sat16 p.timeoutsCount }) := by
    show execDoubtQueryTimeout s = _
    rw [execDoubtQueryTimeout, current]
    exact if_pos ⟨doubt, by rw [timer]; exact due⟩
  rw [run, State.modPay, endCurrent_eq current]
  rfl

theorem exec_pingTimerExpiry {u : State} (due : tm.due s.clock = true) (doubts : s.pay.doubts ≠ [])
    (timer : s.pay.pingTimer = some tm)
    (started : u = { s with pay := { s.pay with pingTimer := some ⟨s.clock, s.pay.values.pingInterval⟩ } }) :
    exec .pingTimerExpiry s = .next (finish s (payIdle (if u.pay.freeToQuery then sendFrame u pingBody else u))) := by
  have expired : (!s.pay.doubts.isEmpty && timerDue s.clock s.pay.pingTimer) = true := by
    simp [doubts, timer, timerDue, due]
  subst started
  show execPingTimerExpiry s = _
  exact if_pos expired

/-- Deferred work changes the format and the timer values alone (R108, R130). -/
theorem deferred_keeps (p : Pay) : p.deferred = { p with
    fmt := p.deferred.fmt, pendingFmt := p.deferred.pendingFmt
    values := p.deferred.values, pendingValues := p.deferred.pendingValues } := by
  rw [Pay.deferred, takeValues_keeps]
  split
  · rw [applyFormat_keeps]
  · rfl

end timers

/-- Settles O48: a timer queries again while queries are left, and the doubt record is made in one place. -/
theorem paymentTimersQueryOrDoubt : Obligations.PaymentTimersQueryOrDoubt := by
  unfold Obligations.PaymentTimersQueryOrDoubt
  refine ⟨goToDoubt_eq, fun s tm due => ⟨fun t i current queue timer => ⟨fun usedUp => ?doubt, fun left noLoop => ?query⟩,
    fun t current doubt timer => exec_doubtQueryTimeout due current doubt timer, fun doubts timer => ?ping⟩⟩
  case doubt => rw [exec_unanswered due current queue timer, queryOrDoubt_doubt usedUp]
  case query =>
    have run := exec_unanswered due current queue timer
    obtain ⟨out, ⟨sent, now, kept⟩, keeps⟩ := sendCurrent_spec { s with pay := { s.pay with
      timeoutsCount := sat16 s.pay.timeoutsCount
      current := some { t with attempts := t.attempts + 1, phase := .querying } } } (queryBody t.number) rfl
    rw [← queryOrDoubt_query left] at out now keeps
    have noLoop' : (queryOrDoubt s t).pay.loop = none := by rw [keeps]; exact noLoop
    rw [payIdle_current noLoop' now] at run
    refine ⟨_, _, run, ?_, (finish_pay _ _ ▸ now :), rfl, rfl, rfl, rfl, rfl, rfl, rfl, kept, rfl, rfl, rfl, ?_⟩
    · rw [finish_pay, keeps]
    · rw [finish_pay, toSend_append out, List.append_assoc]
      rfl
  case ping =>
    intro p
    let t : State := { s with pay := p }
    have run := exec_pingTimerExpiry (u := t) due doubts timer rfl
    refine ⟨fun busy => ?_, fun idle connected noLoop => ?_⟩
    · rw [run, if_neg]
      rintro free
      obtain ⟨idle, connected, noLoop, -⟩ := (freeToQuery_iff _).mp free
      obtain busy | busy | busy := busy
      · simp [show s.pay.current = none from idle] at busy
      · exact busy connected
      · simp [show s.pay.loop = none from noLoop] at busy
    · rw [if_pos ((freeToQuery_iff t.pay).mpr ⟨idle, connected, noLoop, doubts⟩)] at run
      have keeps : (sendFrame t pingBody).pay = _ := sendFrame_keeps t pingBody
      have plain := payIdle_plain (s := sendFrame t pingBody) fun l loop => by
        rw [keeps] at loop
        exact absurd (noLoop.symm.trans loop) (fun h => nomatch h)
      rw [plain] at run
      obtain ⟨bytes, current⟩ := sendFrame_current t pingBody
      have still := deferred_keeps (sendFrame t pingBody).pay
      refine ⟨_, run, ?_, ?_, ?_⟩
      · rw [finish_pay, still]
        exact current.trans (congrArg (Option.map _) idle)
      · rw [finish_pay, still, keeps]
      · rw [finish_pay, still]
        exact toSend_append (sendFrame_out t pingBody)

end Sys2Proof.Machine
end

