-- ==== Sys2Proof/Proofs/LinkDown.lean ====
section
/-! A station's own fields, the end of its copy and its reservation, and a link that goes down (R136, R147, R163, R164). -/

namespace Sys2Proof.Machine

-- Checked one after another, as in the tests: a theorem checked alongside others holds its memory.
set_option Elab.async false

/-! ## A station set -/

section station
variable (s : State) (n : Fin 3) (x y : Station)

theorem modStation_eq (f : Station → Station) : s.modStation n f = s.setStation n (f (s.stations[n]'n.isLt)) := rfl

@[simp] theorem setStation_get : ((s.setStation n x).stations[n]'n.isLt) = x := by
  rw [State.setStation, vector_set_get, if_pos rfl]

@[simp] theorem setStation_setStation : (s.setStation n x).setStation n y = s.setStation n y := by
  simp only [State.setStation, Vector.set_set]

@[simp] theorem modStation_setStation (f : Station → Station) :
    (s.setStation n x).modStation n f = s.setStation n (f x) := by
  rw [modStation_eq, setStation_get, setStation_setStation]

theorem linkUp_iff : x.linkUp = true ↔ x.rate ≠ .none := by simp [Station.linkUp]

theorem linkUp_of (up : x.rate ≠ .none) : x.linkUp = true := (linkUp_iff x).mpr up

theorem linkUp_not (down : x.rate = .none) : ¬ x.linkUp = true := fun h => (linkUp_iff x).mp h down

end station

/-! ## The answer of a station's cell (R149) -/

theorem answerStation_none {s : State} {n : Fin 3} (free : (s.stations[n]'n.isLt).takenCell = none) : answerStation s n = s := by
  rw [answerStation, free]

theorem answerStation_some {s : State} {n : Fin 3} {c : Fin 64} (held : (s.stations[n]'n.isLt).takenCell = some c) :
    answerStation s n = (s.setStation n { (s.stations[n]'n.isLt) with takenCell := none }).answer c
      (doneWith (stationBody (s.stations[n]'n.isLt))) := by
  rw [answerStation, held]
  rfl

/-- Answering a station's cell clears the cell held, and changes the station in nothing else. -/
theorem answerStation_station (s : State) (n : Fin 3) :
    ((answerStation s n).stations[n]'n.isLt) = { (s.stations[n]'n.isLt) with takenCell := none } := by
  cases held : (s.stations[n]'n.isLt).takenCell with
  | none =>
    rw [answerStation_none held]
    generalize (s.stations[n]'n.isLt) = x at held ⊢
    rw [← held]
  | some c =>
    rw [answerStation_some held, answer_eq]
    exact setStation_get s n _

theorem answerStation_keeps (s : State) (n : Fin 3) : answerStation s n = { s with
    stations := (answerStation s n).stations, cells := (answerStation s n).cells } := by
  cases held : (s.stations[n]'n.isLt).takenCell with
  | none => rw [answerStation_none held]
  | some c =>
    rw [answerStation_some held, answer_eq]
    rfl

theorem answerStation_cell {s : State} {n : Fin 3} {c : Fin 64} (held : (s.stations[n]'n.isLt).takenCell = some c) :
    ((answerStation s n).cells[c]'c.isLt).hand = .answered := by
  rw [answerStation_some held, answer_cell_self]
  rfl

/-! ## What the end of a copy leaves of the stations (R161, R163, R164) -/

/-- A station apart from the reservation its account repeats. -/
def Station.unreserved (x : Station) : Station := { x with account := { x.account with reservation := none } }

section release
variable (s : State)

theorem releaseReservation_unreserved (n m : Fin 3) :
    ((releaseReservation s n).stations[m]'m.isLt).unreserved = (s.stations[m]'m.isLt).unreserved := by
  rw [releaseReservation]
  split
  · rfl
  · dsimp only
    rw [modOrder_keeps]
    simp only [modStation_eq, State.setStation]
    rw [vector_set_get]
    split
    · next same => rw [same]; rfl
    · rfl

/-- A released account holds no reservation where the table held one (R164). -/
theorem releaseReservation_account {n : Fin 3} {r : Reservation} (held : (s.reservations[n]'n.isLt) = some r) :
    ((releaseReservation s n).stations[n]'n.isLt).account = { (s.stations[n]'n.isLt).account with reservation := none } := by
  rw [releaseReservation, held]
  dsimp only
  rw [modOrder_keeps]
  simp only [modStation_eq, State.setStation]
  rw [vector_set_get, if_pos rfl]

theorem releaseWhere_unreserved (p : Reservation → Bool) (m : Fin 3) :
    ((releaseWhere s p).stations[m]'m.isLt).unreserved = (s.stations[m]'m.isLt).unreserved := by
  rw [releaseWhere_steps]
  generalize List.finRange 3 = ns
  induction ns generalizing s with
  | nil => rfl
  | cons n ns ih =>
    rw [List.foldl_cons, ih, releaseStep_eq]
    split
    · exact releaseReservation_unreserved s n m
    · rfl

theorem checkSettle_keeps (h : Handle) : checkSettle s h = { s with
    pictures := (checkSettle s h).pictures, extents := (checkSettle s h).extents
    freePages := (checkSettle s h).freePages, orders := (checkSettle s h).orders, pay := (checkSettle s h).pay } := by
  cases found : s.orderAt h with
  | none =>
    rw [checkSettle, found]
  | some e =>
    obtain ⟨n, o⟩ := e
    by_cases ready : o.ready = true
    · rw [checkSettle_ready found ready]
    · rw [checkSettle_not found ready]

/-- A failed copy's share of the Dispatcher: orders and what they hold, and the reservations of its item (R163). -/
theorem copyFailed_keeps (h : Handle) (i : Nat) : copyFailed s h i = { s with
    pictures := (copyFailed s h i).pictures, extents := (copyFailed s h i).extents
    freePages := (copyFailed s h i).freePages, orders := (copyFailed s h i).orders, pay := (copyFailed s h i).pay
    stations := (copyFailed s h i).stations, reservations := (copyFailed s h i).reservations } := by
  simp only [copyFailed]
  rw [checkSettle_keeps]
  split
  · rw [releaseWhere_keeps, modOrder_keeps]
  · rw [modOrder_keeps]

theorem copyFailed_unreserved (h : Handle) (i : Nat) (m : Fin 3) :
    ((copyFailed s h i).stations[m]'m.isLt).unreserved = (s.stations[m]'m.isLt).unreserved := by
  have settles : ∀ t : State, (checkSettle t h).stations = t.stations := fun t => by rw [checkSettle_keeps]
  have mods : ∀ f : Order → Order, ((s.modOrder h f).stations[m]'m.isLt).unreserved = (s.stations[m]'m.isLt).unreserved :=
    fun f => by rw [modOrder_keeps]
  refine (congrArg (fun v : Vector Station 3 => v[m].unreserved) (settles _)).trans ?_
  split
  · exact (releaseWhere_unreserved _ _ m).trans (mods _)
  · exact mods _

theorem copyCompleted_keeps (h : Handle) (i : Nat) : copyCompleted s h i = { s with
    pictures := (copyCompleted s h i).pictures, extents := (copyCompleted s h i).extents
    freePages := (copyCompleted s h i).freePages, orders := (copyCompleted s h i).orders
    pay := (copyCompleted s h i).pay } := by
  simp only [copyCompleted]
  rw [checkSettle_keeps, modOrder_keeps]

end release

/-! ## The end of a copy at its station (R147, R180) -/

/-- A station whose copy has ended with an outcome. -/
def Station.ended (x : Station) (outcome : CopyOutcome) (reason : Byte) : Station :=
  if x.copy.isSome then { x with copy := none, outcome := outcome, reason := reason } else x

theorem renderEnd_keeps (s : State) (n : Fin 3) : renderEnd s n = { s with
    heads := s.heads.set n resetHead, job := (renderEnd s n).job, port := (renderEnd s n).port } := by
  rw [renderEnd]
  dsimp only
  split
  · split
    · rfl
    · rfl
  · rfl

theorem failCopy_none {s : State} {n : Fin 3} {outcome : CopyOutcome} {reason : Byte} (none : (s.stations[n]'n.isLt).copy = none) :
    failCopy s n outcome reason = s := by
  rw [failCopy, none]

theorem failCopy_some {s : State} {n : Fin 3} {c : Copy} {outcome : CopyOutcome} {reason : Byte}
    (copy : (s.stations[n]'n.isLt).copy = some c) : failCopy s n outcome reason =
      copyFailed ((renderEnd s n).setStation n { (s.stations[n]'n.isLt) with copy := none, outcome := outcome, reason := reason })
        c.order c.item := by
  rw [failCopy, copy]
  dsimp only
  rw [modStation_eq, show (renderEnd s n).stations = s.stations by rw [renderEnd_keeps]]

theorem completeCopy_some {s : State} {n : Fin 3} {c : Copy} (copy : (s.stations[n]'n.isLt).copy = some c) : completeCopy s n =
    copyCompleted ((renderEnd s n).setStation n { (s.stations[n]'n.isLt) with copy := none, outcome := .completed, reason := 0 })
      c.order c.item := by
  rw [completeCopy, copy]
  dsimp only
  rw [modStation_eq, show (renderEnd s n).stations = s.stations by rw [renderEnd_keeps]]

/-- A copy's end changes the station's copy and outcome, and perhaps reservations; no cell, and nothing is sent. -/
theorem failCopy_spec (s : State) (n : Fin 3) (outcome : CopyOutcome) (reason : Byte) :
    ((failCopy s n outcome reason).stations[n]'n.isLt).unreserved = ((s.stations[n]'n.isLt).ended outcome reason).unreserved ∧
      failCopy s n outcome reason = { s with
        heads := (failCopy s n outcome reason).heads, job := (failCopy s n outcome reason).job
        port := (failCopy s n outcome reason).port, pictures := (failCopy s n outcome reason).pictures
        extents := (failCopy s n outcome reason).extents, freePages := (failCopy s n outcome reason).freePages
        orders := (failCopy s n outcome reason).orders, pay := (failCopy s n outcome reason).pay
        stations := (failCopy s n outcome reason).stations
        reservations := (failCopy s n outcome reason).reservations } := by
  cases copy : (s.stations[n]'n.isLt).copy with
  | none =>
    rw [failCopy_none copy, Station.ended, copy]
    exact ⟨rfl, rfl⟩
  | some c =>
    rw [failCopy_some copy]
    refine ⟨?_, ?_⟩
    · rw [copyFailed_unreserved, setStation_get, Station.ended, copy]
      rfl
    · rw [copyFailed_keeps, State.setStation, renderEnd_keeps]

/-! ## A link that goes down (R136) -/

/-- What a link down leaves: the station goes down as its copy's end and the release left it, and in FAULT its cell is
answered. -/
theorem linkDown_spec (s : State) (n : Fin 3) (cause : DownCause) (copyCause : CopyOutcome) : ∃ v : State,
    linkDown s n cause copyCause = (if cause.fault.isSome then answerStation (v.setStation n ((v.stations[n]'n.isLt).down s.clock cause)) n
      else v.setStation n ((v.stations[n]'n.isLt).down s.clock cause)) ∧
    (v.stations[n]'n.isLt).unreserved = ((s.stations[n]'n.isLt).ended copyCause 0).unreserved ∧ (v.reservations[n]'n.isLt) = none ∧
    v.cells = s.cells ∧ v.sent = s.sent ∧ v.clock = s.clock := by
  obtain ⟨station, keeps⟩ := failCopy_spec s n copyCause 0
  refine ⟨releaseReservation (failCopy s n copyCause 0) n, ?_, (releaseReservation_unreserved _ n n).trans station, ?_, ?_, ?_, ?_⟩
  · have clock : (releaseReservation (failCopy s n copyCause 0) n).clock = s.clock := by rw [releaseReservation_keeps, keeps]
    rw [linkDown]
    simp only [modStation_eq, clock]
  · rw [releaseReservation_keeps, vector_set_get, if_pos rfl]
  · rw [releaseReservation_keeps, keeps]
  · rw [releaseReservation_keeps, keeps]
  · rw [releaseReservation_keeps, keeps]

theorem eq_of_unreserved {x y : Station} (same : x.unreserved = y.unreserved) : x = { y with account := x.account } := by
  cases x
  cases y
  simp only [Station.unreserved, Station.mk.injEq] at same ⊢
  obtain ⟨h1, h2, h3, h4, h5, h6, h7, h8, h9, h10, h11, h12, h13, h14, h15, h16, h17, h18, h19, h20, -, h22⟩ := same
  exact ⟨h1, h2, h3, h4, h5, h6, h7, h8, h9, h10, h11, h12, h13, h14, h15, h16, h17, h18, h19, h20, trivial, h22⟩

theorem ended_eq (x : Station) (outcome : CopyOutcome) (reason : Byte) : ∃ out r, x.ended outcome reason =
    { x with copy := none, outcome := out, reason := r } ∧ (x.copy.isSome → out = outcome ∧ r = reason) := by
  rw [Station.ended]
  split
  · exact ⟨_, _, rfl, fun _ => ⟨rfl, rfl⟩⟩
  · next none =>
    refine ⟨x.outcome, x.reason, ?_, fun some => absurd some none⟩
    cases x
    simp only [Option.not_isSome_iff_eq_none] at none
    subst none
    rfl

theorem down_eq (x : Station) (now : Word) (cause : DownCause) : x.down now cause = { x with
    downs := if x.rate = .none then x.downs else sat16 x.downs
    state := cause.state, pauseCause := .none, faultCause := cause.fault.getD x.faultCause, downCause := cause
    rest := some ⟨now, cause.rest⟩, sendTimer := none, settleCount := 0, prevWord := none, ack := false
    exchangeTimer := none, rate := .none, msg := none, load := none, wake := none } := by
  rw [Station.down, Station.countDown]
  by_cases up : x.rate = .none
  · rw [if_neg (linkUp_not x up), if_pos up]
  · rw [if_pos (linkUp_of x up), if_neg up]

/-- The station that a link down leaves (R136). -/
theorem linkDown_station (s : State) (n : Fin 3) (cause : DownCause) (copyCause : CopyOutcome) : ∃ out r acc,
    ((linkDown s n cause copyCause).stations[n]'n.isLt) =
      { ({ (s.stations[n]'n.isLt) with copy := none, outcome := out, reason := r, account := acc } : Station).down s.clock cause with
        takenCell := if cause.fault.isSome then none else (s.stations[n]'n.isLt).takenCell } ∧
    ((s.stations[n]'n.isLt).copy.isSome → out = copyCause ∧ r = 0) := by
  obtain ⟨v, outcome, same, -⟩ := linkDown_spec s n cause copyCause
  obtain ⟨out, r, ended, shown⟩ := ended_eq (s.stations[n]'n.isLt) copyCause 0
  have station := eq_of_unreserved same
  rw [ended] at station
  refine ⟨out, r, (v.stations[n]'n.isLt).account, ?_, shown⟩
  rw [outcome]
  split
  · rw [answerStation_station, setStation_get, station]
  · rw [setStation_get, station, down_eq]

/-- What a link down leaves outside its station (R136, R149). -/
theorem linkDown_rest (s : State) (n : Fin 3) (cause : DownCause) (copyCause : CopyOutcome) :
    ((linkDown s n cause copyCause).reservations[n]'n.isLt) = none ∧ (linkDown s n cause copyCause).sent = s.sent ∧
    ∀ c, (s.stations[n]'n.isLt).takenCell = some c → if cause.fault.isSome
      then ((linkDown s n cause copyCause).cells[c]'c.isLt).hand = .answered
      else ((linkDown s n cause copyCause).cells[c]'c.isLt) = (s.cells[c]'c.isLt) := by
  obtain ⟨v, outcome, same, reservations, cells, sent, -⟩ := linkDown_spec s n cause copyCause
  obtain ⟨out, r, ended, -⟩ := ended_eq (s.stations[n]'n.isLt) copyCause 0
  have station := eq_of_unreserved same
  rw [ended] at station
  rw [outcome]
  refine ⟨?_, ?_, fun c held => ?_⟩
  · split
    · rw [answerStation_keeps]
      exact reservations
    · exact reservations
  · split
    · rw [answerStation_keeps]
      exact sent
    · exact sent
  · split
    · refine answerStation_cell ?_
      rw [setStation_get, station, down_eq]
      exact held
    · exact congrArg (fun v : Vector WorkCell 64 => v[c]) cells

end Sys2Proof.Machine
end

