-- ==== Sys2Proof/Proofs/Link.lean ====
section
/-! The station link: its timers, the words it receives, and STATION_POWER and STATION_RELINK (R133 to R137, R149, R150). -/

namespace Sys2Proof.Machine

-- Checked one after another, as in the tests: a theorem checked alongside others holds its memory.
set_option Elab.async false

/-! ## Link down and timers (R133, R134, R136) -/

section timers
variable {s : State} {n : Fin 3} {tm : Timer}

theorem energy_iff (x : Station) (now : Word) : x.energy now = false ↔ ∀ t, x.lastWord = some t → 10 ≤ elapsed now t := by
  rw [Station.energy]
  cases x.lastWord <;> simp

theorem exec_energyLoss_up (quiet : (s.stations[n]'n.isLt).energy s.clock = false) (up : (s.stations[n]'n.isLt).rate ≠ .none) :
    exec (.energyLoss n) s = .next (afterWork s (linkDown s n .energy .link)) := by
  show execEnergyLoss n s = _
  simp only [execEnergyLoss, quiet, linkUp_of _ up]
  rfl

theorem exec_energyLoss_linking (quiet : (s.stations[n]'n.isLt).energy s.clock = false) (down : (s.stations[n]'n.isLt).rate = .none)
    (linking : (s.stations[n]'n.isLt).state = .linking) (awake : (s.stations[n]'n.isLt).rest = none) : exec (.energyLoss n) s =
      .next (finish s (s.setStation n { (s.stations[n]'n.isLt) with
        state := .absent, settleCount := 0, prevWord := none, ack := false, exchangeTimer := none })) := by
  show execEnergyLoss n s = _
  simp only [execEnergyLoss, event, modStation_eq]
  rw [if_neg (by rw [quiet]; decide), if_neg (linkUp_not _ down), if_pos ⟨linking, awake⟩]

theorem exec_abilitySendTimer (due : tm.due s.clock = true) (timer : (s.stations[n]'n.isLt).sendTimer = some tm) :
    exec (.abilitySendTimer n) s =
      .next (finish s (if (s.stations[n]'n.isLt).linkUp then sendIdle s n else sendAbility s n)) := by
  show execAbilitySendTimer n s = _
  rw [execAbilitySendTimer, timer]
  exact if_pos due

/-- In LINKING a new start of the exchange keeps the state (R134). -/
theorem startExchange_linking {x : Station} (linking : x.state = .linking) (now : Word) : x.startExchange now =
    { x with settleCount := 0, prevWord := none, ack := false, exchangeTimer := some ⟨now, 500⟩ } := by
  rw [Station.startExchange, ← linking]

theorem exec_exchangeTimerExpiry (due : tm.due s.clock = true) (linking : (s.stations[n]'n.isLt).state = .linking)
    (timer : (s.stations[n]'n.isLt).exchangeTimer = some tm) : exec (.exchangeTimerExpiry n) s =
      .next (finish s (s.setStation n ((s.stations[n]'n.isLt).startExchange s.clock))) := by
  have expired : timerDue s.clock (s.stations[n]'n.isLt).exchangeTimer = true := by
    rw [timer]
    exact due
  show execExchangeTimerExpiry n s = _
  simp only [execExchangeTimerExpiry, linking, expired, modStation_eq, event]
  rfl

theorem exec_restExpiry (due : tm.due s.clock = true) (timer : (s.stations[n]'n.isLt).rest = some tm) :
    exec (.restExpiry n) s = .next (finish s (
      if (s.stations[n]'n.isLt).energy s.clock then
        sendAbility (s.setStation n (({ (s.stations[n]'n.isLt) with rest := none } : Station).startExchange s.clock)) n
      else answerStation (sendAbility (s.setStation n { (s.stations[n]'n.isLt) with rest := none, state := .absent }) n) n)) := by
  show execRestExpiry n s = _
  simp only [execRestExpiry, event, timer, timerDue, due, if_pos, modStation_eq, setStation_get, setStation_setStation]

end timers

/-- Settles O50: what a link down leaves of the station and of the rest, and the timers of the link. -/
theorem linkDownAndTimersFollowTheirStates : Obligations.LinkDownAndTimersFollowTheirStates := by
  unfold Obligations.LinkDownAndTimersFollowTheirStates
  refine ⟨fun s n cause copyCause some => ?down, fun s n => ?timers⟩
  case down =>
    intro t x y long fault
    obtain ⟨out, r, acc, station, shown⟩ := linkDown_station s n cause copyCause
    obtain ⟨reservations, sent, cells⟩ := linkDown_rest s n cause copyCause
    have shows : fault ↔ cause.fault.isSome = true := by
      cases cause <;> simp [fault, long, DownCause.fault]
    have state : cause.state = if fault then .fault else if cause = .energy then .absent else .linking := by
      cases cause <;> simp_all [fault, long, DownCause.state]
    have rest : cause.rest = if long then 1000 else 500 := by
      cases cause <;> simp [long, DownCause.rest]
    have shownFault : cause.fault.getD x.faultCause = if cause = .linkErrors then .linkErrors
        else if cause = .profile then .profile else if cause = .engine then .engine else x.faultCause := by
      cases cause <;> rfl
    have held : y = _ := station
    rw [down_eq] at held
    refine ⟨by rw [held, ← state], by rw [held, ← rest], by rw [held], by rw [held], by rw [held], by rw [held], by rw [held],
      by rw [held], by rw [held], by rw [held], by rw [held], by rw [held, ← shownFault], by rw [held], fun copy => ?_,
      reservations, sent, fun c taken => ?_⟩
    · rw [held]
      exact shown copy
    · have cell := cells c taken
      rw [held]
      by_cases faults : fault
      · have isSome := shows.mp faults
        rw [if_pos isSome] at cell
        rw [if_pos faults]
        exact ⟨if_pos isSome, cell⟩
      · have isNone := fun h => faults (shows.mpr h)
        rw [if_neg isNone] at cell
        rw [if_neg faults]
        exact ⟨(if_neg isNone).trans taken, cell⟩
  case timers =>
    intro x quiet ability
    have still : quiet ↔ x.energy s.clock = false := (energy_iff x s.clock).symm
    have sends : ∀ t, t.clock = s.clock → sendAbility t n = ability t := fun t same => by
      simp only [sendAbility_eq, same, ability]
    refine ⟨fun q up => exec_energyLoss_up (still.mp q) up,
      fun q down linking awake => exec_energyLoss_linking (still.mp q) down linking awake,
      fun tm due => ⟨fun timer down => ?_, fun timer up => ?_, fun linking timer => ?_,
        fun timer lively => ?_, fun timer q free => ?_, fun c timer q held => ?_⟩⟩
    · rw [exec_abilitySendTimer due timer, if_neg (linkUp_not x down), sends s rfl]
    · rw [exec_abilitySendTimer due timer, if_pos (linkUp_of x up)]
      rfl
    · rw [exec_exchangeTimerExpiry due linking timer, startExchange_linking linking]
    · have energy : x.energy s.clock = true := by simpa only [still, Bool.not_eq_false] using lively
      rw [exec_restExpiry due timer, if_pos energy]
      exact congrArg (fun t => Host.Outcome.next (finish s t)) (sends _ rfl)
    · rw [exec_restExpiry due timer, if_neg (by rw [still.mp q]; decide), answerStation_none]
      · exact congrArg (fun t => Host.Outcome.next (finish s t)) (sends _ rfl)
      rw [sendAbility_station, if_pos rfl, setStation_get]
      exact free
    · have taken : ((sendAbility (s.setStation n { x with rest := none, state := .absent }) n).stations[n]'n.isLt).takenCell = some c := by
        rw [sendAbility_station, if_pos rfl, setStation_get]
        exact held
      refine ⟨_, exec_restExpiry due timer, ?_⟩
      rw [if_neg (by rw [still.mp q]; decide), finish_stations, finish_cells, answerStation_station, sendAbility_station, if_pos rfl,
        setStation_get]
      exact ⟨rfl, rfl, answerStation_cell taken⟩

/-! ## STATION_POWER and STATION_RELINK (R149, R150) -/

section requests
variable {s : State} {n : Fin 3} {c : Fin 64}

theorem exec_stationPower (free : (s.stations[n]'n.isLt).takenCell = none) (asks : s.asks (stationList n) .stationPower c) :
    exec (.stationPower n) s = .next (finish s (stationPower (s.take c) n c)) := by
  show execStationPower n s = _
  rw [execStationPower, State.stationHead, if_pos free, headOf_of_asks asks]
  rfl

theorem exec_stationRelink (free : (s.stations[n]'n.isLt).takenCell = none) (asks : s.asks (stationList n) .stationRelink c) :
    exec (.stationRelink n) s = .next (afterWork s (stationRelink (s.take c) n c)) := by
  show execStationRelink n s = _
  rw [execStationRelink, State.stationHead, if_pos free, headOf_of_asks asks]
  rfl

theorem exec_wakeSent {cause : DownCause} (wake : (s.stations[n]'n.isLt).wake = some cause) :
    exec (.wakeSent n) s = .next (afterWork s (linkDown s n cause .link)) := by
  show execWakeSent n s = _
  rw [execWakeSent, wake]
  rfl

/-! ### STATION_POWER by the mode and the state -/

theorem stationPower_badField (not1 : (s.cells[c]'c.isLt).req 0 1 ≠ 1) (not2 : (s.cells[c]'c.isLt).req 0 1 ≠ 2) :
    stationPower s n c = s.answer c ⟨.badField, 0xFFFF00, []⟩ := by
  rw [stationPower]
  split
  · next h => exact absurd h not1
  · next h => exact absurd h not2
  · rfl

theorem stationPower_awake (on : (s.cells[c]'c.isLt).req 0 1 = 1) (awake : (s.stations[n]'n.isLt).state ≠ .standby) :
    stationPower s n c = s.answer c (doneWith (stationBody (s.stations[n]'n.isLt))) := by
  simp only [stationPower, on, if_neg awake]

theorem stationPower_wakes (on : (s.cells[c]'c.isLt).req 0 1 = 1) (standby : (s.stations[n]'n.isLt).state = .standby) :
    stationPower s n c = { s with
      stations := s.stations.set n { (s.stations[n]'n.isLt) with takenCell := some c, wake := some .wake }
      sent := s.sent ++ [.link n (messageWords 0x26 [])] } := by
  simp only [stationPower, on, if_pos standby]
  rfl

theorem stationPower_standby (off : (s.cells[c]'c.isLt).req 0 1 = 2) (standby : (s.stations[n]'n.isLt).state = .standby) :
    stationPower s n c = s.answer c (doneWith (stationBody (s.stations[n]'n.isLt))) := by
  simp only [stationPower, off, standbyAnswer, standby]

theorem stationPower_wrongState (off : (s.cells[c]'c.isLt).req 0 1 = 2) (awake : (s.stations[n]'n.isLt).state ≠ .standby)
    (bad : (s.stations[n]'n.isLt).state ≠ .ready ∨ (s.stations[n]'n.isLt).account.reservation.isSome) :
    stationPower s n c = s.answer c ⟨.wrongState, (s.stations[n]'n.isLt).state.code, []⟩ := by
  have refused : standbyAnswer (s.stations[n]'n.isLt) = (false, some .wrongState) := by
    rw [standbyAnswer]
    split
    · next standby => exact absurd standby awake
    · next ready => exact if_pos (bad.resolve_left fun h => h ready)
    · rfl
  simp only [stationPower, off, refused]
  rfl

theorem stationPower_unable {a : Abilities} (off : (s.cells[c]'c.isLt).req 0 1 = 2) (ready : (s.stations[n]'n.isLt).state = .ready)
    (noReservation : (s.stations[n]'n.isLt).account.reservation = none) (abilities : (s.stations[n]'n.isLt).abilities = some a)
    (unable : a.flags.getLsbD 3 = false) : stationPower s n c = s.answer c (doneWith (stationBody (s.stations[n]'n.isLt))) := by
  have stays : standbyAnswer (s.stations[n]'n.isLt) = (false, none) := by
    simp only [standbyAnswer, ready, noReservation, abilities, Option.map_some, Option.getD_some, unable]
    rfl
  simp only [stationPower, off, stays]

theorem stationPower_sleeps {a : Abilities} (off : (s.cells[c]'c.isLt).req 0 1 = 2) (ready : (s.stations[n]'n.isLt).state = .ready)
    (noReservation : (s.stations[n]'n.isLt).account.reservation = none) (abilities : (s.stations[n]'n.isLt).abilities = some a)
    (able : a.flags.getLsbD 3 = true) : stationPower s n c = ({ s with
      stations := s.stations.set n { (s.stations[n]'n.isLt) with state := .standby }
      sent := s.sent ++ [.link n (messageWords 0x25 [])] } : State).answer c
        (doneWith (stationBody { (s.stations[n]'n.isLt) with state := .standby })) := by
  have sleeps : standbyAnswer (s.stations[n]'n.isLt) = (true, none) := by
    simp only [standbyAnswer, ready, noReservation, abilities, Option.map_some, Option.getD_some, able]
    rfl
  simp only [stationPower, off, sleeps, modStation_eq, setStation_get]
  rfl

theorem stationRelink_standby (idle : (s.stations[n]'n.isLt).copy = none) (standby : (s.stations[n]'n.isLt).state = .standby) :
    stationRelink s n c = { s with
      stations := s.stations.set n { (s.stations[n]'n.isLt) with takenCell := some c, wake := some .relink }
      sent := s.sent ++ [.link n (messageWords 0x26 [])] } := by
  rw [stationRelink]
  dsimp only
  rw [if_neg (by rw [idle]; decide), if_pos standby]
  simp only [State.sendLink, State.emit, modStation_eq, State.setStation, vector_set_get, if_pos, Vector.set_set]

theorem stationRelink_down (idle : (s.stations[n]'n.isLt).copy = none) (awake : (s.stations[n]'n.isLt).state ≠ .standby) :
    stationRelink s n c = linkDown (s.setStation n { (s.stations[n]'n.isLt) with takenCell := some c }) n .relink .link := by
  rw [stationRelink]
  dsimp only
  rw [if_neg (by rw [idle]; decide), if_neg awake]
  rfl

end requests

/-- Settles O51: the tables of STATION_POWER by mode and state, of STATION_RELINK by copy and state, and the wake. -/
theorem powerAndRelinkFollowTheStationState : Obligations.PowerAndRelinkFollowTheStationState := by
  unfold Obligations.PowerAndRelinkFollowTheStationState
  intro s n c x u body go work
  refine ⟨fun free asks => ?power, fun free asks => ?relink, fun cause wake => exec_wakeSent wake⟩
  case power =>
    intro mode i
    have run := exec_stationPower free asks
    refine ⟨fun not1 not2 => ?_, fun on awake => ?_, fun on standby => ?_, fun off standby => ?_, fun off awake bad => ?_,
      fun off ready noReservation a abilities => ⟨fun unable => ?_, fun able => ?_⟩⟩
    · exact run.trans (congrArg (fun t => Host.Outcome.next (finish s t)) (stationPower_badField not1 not2))
    · exact run.trans (congrArg (fun t => Host.Outcome.next (finish s t)) (stationPower_awake on awake))
    · exact run.trans (congrArg (fun t => Host.Outcome.next (finish s t)) (stationPower_wakes on standby))
    · exact run.trans (congrArg (fun t => Host.Outcome.next (finish s t)) (stationPower_standby off standby))
    · exact run.trans (congrArg (fun t => Host.Outcome.next (finish s t)) (stationPower_wrongState off awake bad))
    · exact run.trans (congrArg (fun t => Host.Outcome.next (finish s t))
        (stationPower_unable off ready noReservation abilities unable))
    · exact run.trans (congrArg (fun t => Host.Outcome.next (finish s t))
        (stationPower_sleeps off ready noReservation abilities able))
  case relink =>
    intro held i
    have run := exec_stationRelink free asks
    refine ⟨fun busy => ?_, fun idle standby => ?_, fun idle awake => ?_⟩
    · exact run.trans (congrArg (fun t => Host.Outcome.next (afterWork s t)) (if_pos busy))
    · exact run.trans (congrArg (fun t => Host.Outcome.next (afterWork s t)) (stationRelink_standby idle standby))
    · exact run.trans (congrArg (fun t => Host.Outcome.next (afterWork s t)) (stationRelink_down idle awake))

/-! ## A word while the link is not up (R133, R134, R148, R197) -/

/-- A station that has received a word (R133). -/
def Station.noted (x : Station) (now : Word) : Station := { x with lastWord := some now }

/-- A station whose message in progress becomes `m`, with a damaged word and a stale message counted (R148, R197). -/
def Station.heard (x : Station) (m : Option (List Byte)) (damaged stale : Bool) : Station :=
  { x with
    msg := m, damaged := if damaged then sat16 x.damaged else x.damaged, stales := if stale then sat16 x.stales else x.stales }

section wordDown
variable {s : State} {n : Fin 3} {m : Option (List Byte)} {damaged stale : Bool} {exchange : State → State}

theorem wordDown_absentRest (rests : (s.stations[n]'n.isLt).rest.isSome) (absent : (s.stations[n]'n.isLt).state = .absent) :
    wordDown s n m damaged stale exchange = s :=
  if_pos (by rw [Station.absentRest, absent, rests]; rfl)

theorem wordDown_awake (other : ¬ ((s.stations[n]'n.isLt).state = .absent ∧ (s.stations[n]'n.isLt).rest.isSome)) :
    wordDown s n m damaged stale exchange =
      if (s.stations[n]'n.isLt).rest.isSome then s.setStation n ((s.stations[n]'n.isLt).heard m damaged stale)
      else match (s.stations[n]'n.isLt).state with
        | .absent => s.setStation n (((s.stations[n]'n.isLt).heard m damaged stale).startExchange s.clock)
        | .linking => exchange (s.setStation n ((s.stations[n]'n.isLt).heard m damaged stale))
        | _ => s.setStation n ((s.stations[n]'n.isLt).heard m damaged stale) := by
  have awake : ¬ (s.stations[n]'n.isLt).absentRest = true := fun h => other (by simpa [Station.absentRest, -Fin.getElem_fin] using h)
  rw [wordDown]
  dsimp only
  rw [if_neg awake]
  simp only [arriveAbsent, modStation_eq, setStation_get, setStation_setStation] <;> rfl

theorem wordDown_rest (rests : (s.stations[n]'n.isLt).rest.isSome) (other : (s.stations[n]'n.isLt).state ≠ .absent) :
    wordDown s n m damaged stale exchange = s.setStation n ((s.stations[n]'n.isLt).heard m damaged stale) := by
  rw [wordDown_awake fun h => other h.1, if_pos rests]

theorem wordDown_absent (awake : (s.stations[n]'n.isLt).rest = none) (absent : (s.stations[n]'n.isLt).state = .absent) :
    wordDown s n m damaged stale exchange =
      s.setStation n (((s.stations[n]'n.isLt).heard m damaged stale).startExchange s.clock) := by
  rw [wordDown_awake fun h => by simp [awake, -Fin.getElem_fin] at h, if_neg (by rw [awake]; decide), absent]

theorem wordDown_linking (awake : (s.stations[n]'n.isLt).rest = none) (linking : (s.stations[n]'n.isLt).state = .linking) :
    wordDown s n m damaged stale exchange = exchange (s.setStation n ((s.stations[n]'n.isLt).heard m damaged stale)) := by
  rw [wordDown_awake fun h => by simp [awake, -Fin.getElem_fin] at h, if_neg (by rw [awake]; decide), linking]

theorem wordDown_other (awake : (s.stations[n]'n.isLt).rest = none) (notAbsent : (s.stations[n]'n.isLt).state ≠ .absent)
    (notLinking : (s.stations[n]'n.isLt).state ≠ .linking) :
    wordDown s n m damaged stale exchange = s.setStation n ((s.stations[n]'n.isLt).heard m damaged stale) := by
  rw [wordDown_awake fun h => notAbsent h.1, if_neg (by rw [awake]; decide)]
  split
  · next h => exact absurd h notAbsent
  · next h => exact absurd h notLinking
  · rfl

end wordDown

/-! ## Ability words (R134, R135) -/

section ability
variable {s : State} {n : Fin 3} {w p : List Byte}

theorem exec_abilityWord (word : s.wordFor n w = some (.ability p)) : exec (.abilityWord n w) s =
    .next (afterWork s (
      if (s.stations[n]'n.isLt).linkUp then linkDown (s.setStation n ((s.stations[n]'n.isLt).noted s.clock)) n .peer .link
      else wordDown (s.setStation n ((s.stations[n]'n.isLt).noted s.clock)) n none false false fun t => abilityInExchange t n p)) := by
  show execAbilityWord n w s = _
  rw [execAbilityWord, word]
  rfl

/-- The word that the exchange compares: the payload without ACK (R134). -/
def settling (p : List Byte) : List Byte := (byteAt p 0 &&& 0x7F) :: p.drop 1

/-- How many equal words have come in a row with this one, at most three (R134). -/
def Station.counted (x : Station) (p : List Byte) : Nat :=
  if x.prevWord = some (settling p) then min 3 (x.settleCount + 1) else 1

theorem settling_bit (p : List Byte) {i : Nat} (low : i < 7) :
    (byteAt (settling p) 0).getLsbD i = (byteAt p 0).getLsbD i := by
  have mask : ∀ j < 7, (0x7F#8).getLsbD j = true := by decide
  show (byteAt p 0 &&& 0x7F#8).getLsbD i = _
  rw [BitVec.getLsbD_and, mask i low, Bool.and_true]

theorem abilityPasses_iff (p : List Byte) : abilityPasses (settling p) = true ↔
    ((byteAt p 0).getLsbD 0 = true ∨ (byteAt p 0).getLsbD 1 = true) ∧ byteAt (settling p) 1 = 7 := by
  rw [abilityPasses, Bool.and_eq_true, Bool.or_eq_true, settling_bit p (by decide : 0 < 7),
    settling_bit p (by decide : 1 < 7), beq_iff_eq]

/-- A station that has taken one more word of the exchange. -/
def Station.exchanged (x : Station) (p : List Byte) (count : Nat) : Station :=
  { x with prevWord := some (settling p), settleCount := count, ack := decide (count = 3) }

theorem abilityInExchange_eq {count : Nat} (counted : (s.stations[n]'n.isLt).counted p = count) : abilityInExchange s n p =
    if count = 3 ∧ abilityPasses (settling p) = false then linkDown s n .engine .link
    else if count = 3 ∧ (byteAt p 0).getLsbD 7
      then linkUp (s.setStation n ((s.stations[n]'n.isLt).exchanged p count)) n (settling p)
      else s.setStation n ((s.stations[n]'n.isLt).exchanged p count) := by
  subst counted
  simp only [abilityInExchange, Station.counted, Station.exchanged, beq_iff_eq]
  rfl

theorem abilityInExchange_counts {count : Nat} (counted : (s.stations[n]'n.isLt).counted p = count) (few : count < 3) :
    abilityInExchange s n p = s.setStation n { (s.stations[n]'n.isLt) with
      prevWord := some (settling p), settleCount := count, ack := false } := by
  have early : ¬ count = 3 := Nat.ne_of_lt few
  rw [abilityInExchange_eq counted, if_neg fun h => early h.1, if_neg fun h => early h.1, Station.exchanged,
    decide_eq_false early]

theorem abilityInExchange_fails (counted : (s.stations[n]'n.isLt).counted p = 3) (bad : ¬ abilityPasses (settling p) = true) :
    abilityInExchange s n p = linkDown s n .engine .link := by
  rw [abilityInExchange_eq counted, if_pos ⟨rfl, Bool.eq_false_iff.mpr bad⟩]

theorem abilityInExchange_settles (counted : (s.stations[n]'n.isLt).counted p = 3) (good : abilityPasses (settling p) = true)
    (noAck : (byteAt p 0).getLsbD 7 = false) : abilityInExchange s n p = s.setStation n { (s.stations[n]'n.isLt) with
      prevWord := some (settling p), settleCount := 3, ack := true } := by
  rw [abilityInExchange_eq counted, if_neg fun h => Bool.false_ne_true (h.2.symm.trans good),
    if_neg fun h => Bool.false_ne_true (noAck.symm.trans h.2)]
  rfl

theorem abilityInExchange_up (counted : (s.stations[n]'n.isLt).counted p = 3) (good : abilityPasses (settling p) = true)
    (ack : (byteAt p 0).getLsbD 7 = true) : abilityInExchange s n p =
      linkUp (s.setStation n ((s.stations[n]'n.isLt).exchanged p 3)) n (settling p) := by
  rw [abilityInExchange_eq counted, if_neg fun h => Bool.false_ne_true (h.2.symm.trans good), if_pos ⟨rfl, ack⟩]

theorem ribbon_code (b : Byte) : BitVec.ofNat 8 (Ribbon.ofCode b.toNat).code = if b.toNat < 4 then b else 0 := by
  have small : ∀ k : Fin 4, BitVec.ofNat 8 (Ribbon.ofCode k.val).code = BitVec.ofNat 8 k.val := by decide
  by_cases low : b.toNat < 4
  · rw [if_pos low, small ⟨b.toNat, low⟩, BitVec.ofNat_toNat, BitVec.setWidth_eq]
  · have none : Ribbon.ofCode b.toNat = .none := by
      unfold Ribbon.ofCode
      split
      · omega
      · omega
      · omega
      · rfl
    rw [if_neg low, none]
    rfl

/-- The station as the link comes up, before its profile load begins (R135). -/
def Station.raised (x : Station) (now : Word) (v : List Byte) : Station :=
  { x with
    state := .profiling, exchangeTimer := none, sendTimer := some ⟨now, 1⟩
    rate := if (byteAt v 0).getLsbD 1 then .lrB else .lrA, abilities := some (abilitiesOf v)
    winTransfers := 0, winErrors := 0, statusSeen := false, msg := none, load := none }

theorem linkUp_eq (s : State) (n : Fin 3) (v : List Byte) : linkUp s n v =
    startLoad (s.setStation n ((s.stations[n]'n.isLt).raised s.clock v)) n ((byteAt v 0).getLsbD 4) := rfl

theorem requestPage_eq (s : State) (n : Fin 3) (l : Load) : requestPage s n l = { s with
    stations := s.stations.set n { (s.stations[n]'n.isLt) with load := some { l with timer := ⟨s.clock, 50⟩ } }
    sent := s.sent ++ [.link n (messageWords 0x24 [BitVec.ofNat 8 l.page, BitVec.ofNat 8 (flag l.toggle)])] } := rfl

theorem loadEnd_eq (s : State) (n : Fin 3) (ident : Nat) (passed : List (List Byte)) : loadEnd s n ident passed =
    let t := s.setStation n { (s.stations[n]'n.isLt) with load := none, profile := some (loadedProfile s ident passed) }
    if (s.stations[n]'n.isLt).statusSeen then settleState t n else t := by
  simp only [loadEnd, modStation_eq, setStation_get]

/-- The station as the profile load begins, or ends at once (R135, R138). -/
theorem linkUp_station (s : State) (n : Fin 3) (v : List Byte) :
    ((linkUp s n v).stations[n]'n.isLt) = (if (byteAt v 0).getLsbD 4
      then { (s.stations[n]'n.isLt).raised s.clock v with load := some ⟨0, false, false, ⟨s.clock, 50⟩, 0, 0, [], []⟩ }
      else { (s.stations[n]'n.isLt).raised s.clock v with profile := some (loadedProfile s 0 []) }) := by
  rw [linkUp_eq, startLoad]
  split
  · rw [requestPage_eq]
    simp only [setStation_get]
    rw [vector_set_get, if_pos rfl]
    rfl
  · rw [loadEnd_eq, setStation_get]
    exact setStation_get _ _ _

theorem linkUp_requests {v : List Byte} (has : (byteAt v 0).getLsbD 4 = true) :
    Output.link n (messageWords 0x24 [0, 0]) ∈ (linkUp s n v).sent := by
  rw [linkUp_eq, startLoad, if_pos has, requestPage_eq]
  exact List.mem_append_right _ (List.mem_singleton.mpr rfl)

end ability

/-! ## Words by class (R197) -/

section classes
variable {s : State} {n : Fin 3} {w : List Byte}

theorem completed_eq (bytes : List Byte) : (∀ m, engineMsgOf bytes = some m → completed bytes = .message m) ∧
    (engineMsgOf bytes = none → completed bytes = .dropped) := by
  refine ⟨fun m h => ?_, fun h => ?_⟩ <;> rw [completed, h]

theorem linkWordOf_bad (length : w.length = 8) (bad : crc8 (w.take 7) ≠ byteAt w 7) : linkWordOf w = .damaged := by
  rw [linkWordOf, if_neg (by simp [length, bad])]

theorem linkWordOf_good (length : w.length = 8) (good : crc8 (w.take 7) = byteAt w 7) : linkWordOf w =
    match (byteAt w 0).toNat with
    | 0x00 => .idle
    | 0x5A => .ability ((w.drop 1).take 6)
    | 0x10 => .only ((w.drop 1).take 6)
    | 0x11 => .first ((w.drop 1).take 6)
    | 0x12 => .next ((w.drop 1).take 6)
    | 0x13 => .last ((w.drop 1).take 6)
    | _ => .damaged := by
  rw [linkWordOf, if_pos (by simp [length, good])] <;> rfl

theorem linkWordOf_unlisted (length : w.length = 8) (good : crc8 (w.take 7) = byteAt w 7)
    (unlisted : (byteAt w 0).toNat ∉ [0x00, 0x5A, 0x10, 0x11, 0x12, 0x13]) : linkWordOf w = .damaged := by
  have differs : ∀ k ∈ [0x00, 0x5A, 0x10, 0x11, 0x12, 0x13], (byteAt w 0).toNat ≠ k := fun k listed same =>
    unlisted (same ▸ listed)
  rw [linkWordOf_good length good]
  split
  · next kind => exact absurd kind (differs _ (by decide))
  · next kind => exact absurd kind (differs _ (by decide))
  · next kind => exact absurd kind (differs _ (by decide))
  · next kind => exact absurd kind (differs _ (by decide))
  · next kind => exact absurd kind (differs _ (by decide))
  · next kind => exact absurd kind (differs _ (by decide))
  · rfl

end classes

/-! ## Words whatever their class (R134, R137) -/

section words
variable {s : State} {n : Fin 3} {w : List Byte}

theorem exec_linkIdleWord (word : s.wordFor n w = some .idle) : exec (.linkIdleWord n w) s = .next (finish s (
    if (s.stations[n]'n.isLt).linkUp then s.setStation n { (s.stations[n]'n.isLt).noted s.clock with msg := none }
    else wordDown (s.setStation n ((s.stations[n]'n.isLt).noted s.clock)) n none false false)) := by
  show execLinkIdleWord n w s = _
  simp only [execLinkIdleWord, word, noteWord, modStation_eq, setStation_get, setStation_setStation, event]
  rfl

theorem exec_linkMessageWord {m : List Byte} (word : s.wordFor n w = some (.part m)) :
    exec (.linkMessageWord n w) s = .next (finish s (
      if (s.stations[n]'n.isLt).linkUp then s.setStation n { (s.stations[n]'n.isLt).noted s.clock with msg := some m }
      else wordDown (s.setStation n ((s.stations[n]'n.isLt).noted s.clock)) n (some m) false false)) := by
  show execLinkMessageWord n w s = _
  simp only [execLinkMessageWord, word, noteWord, modStation_eq, setStation_get, setStation_setStation, event]
  rfl

/-- A damaged word and a dropped message act alike (R137, R197). -/
theorem exec_damaged {i : Instr} (word : (i = .damagedWord n w ∧ s.wordFor n w = some .damaged) ∨
    (i = .messageDrop n w ∧ s.wordFor n w = some .dropped)) : exec i s = .next (afterWork s (
      if (s.stations[n]'n.isLt).linkUp then damagedUp (s.setStation n ((s.stations[n]'n.isLt).noted s.clock)) n
      else wordDown (s.setStation n ((s.stations[n]'n.isLt).noted s.clock)) n none true false)) := by
  obtain ⟨rfl, word⟩ | ⟨rfl, word⟩ := word
  · show execDamagedWord n w s = _
    rw [execDamagedWord, word]
    rfl
  · show execMessageDrop n w s = _
    rw [execMessageDrop, word]
    rfl

/-- A complete message while the link is not up is a word, and stale unless it is a status word (R142, R148; log 26). -/
theorem messageArrives_down (down : (s.stations[n]'n.isLt).rate = .none) (stale : Bool) (up : State) : messageArrives s n stale up =
    .next (afterWork s (wordDown (s.setStation n ((s.stations[n]'n.isLt).noted s.clock)) n none false stale)) := by
  rw [messageArrives, if_neg (linkUp_not _ down)]
  rfl

theorem messageArrives_up (up : (s.stations[n]'n.isLt).rate ≠ .none) (stale : Bool) (t : State) :
    messageArrives s n stale t = .next (afterWork s t) := by
  rw [messageArrives, if_pos (linkUp_of _ up)]
  rfl

/-- What any word but an ability word is while the link is down: its command, whether it is damaged or stale, and whether
copies may be selected after it (R133, R134, R148). -/
theorem exec_down {i : Instr} {m : Option (List Byte)} {damaged stale works : Bool} (down : (s.stations[n]'n.isLt).rate = .none)
    (word : (i = .linkIdleWord n w ∧ s.wordFor n w = some .idle ∧ m = none ∧ damaged = false ∧ stale = false ∧ works = false) ∨
        (∃ p, i = .linkMessageWord n w ∧ s.wordFor n w = some (.part p) ∧ m = some p ∧ damaged = false ∧ stale = false ∧
          works = false) ∨
        (((i = .damagedWord n w ∧ s.wordFor n w = some .damaged) ∨ (i = .messageDrop n w ∧ s.wordFor n w = some .dropped)) ∧
          m = none ∧ damaged = true ∧ stale = false ∧ works = true) ∨
        (∃ st, i = .engineStatusWord n w ∧ s.messageFor n w = some (.status st) ∧ m = none ∧ damaged = false ∧
          stale = false ∧ works = true) ∨
        (((∃ page toggle payload sum, i = .page n w ∧ s.messageFor n w = some (.page page toggle payload sum)) ∨
            (∃ seq panel line, i = .lineRequest n w ∧ s.messageFor n w = some (.lineRequest seq panel line)) ∨
            (∃ seq panel line, i = .lineAck n w ∧ s.messageFor n w = some (.lineAck seq panel line)) ∨
            (∃ seq panel line, i = .lineNak n w ∧ s.messageFor n w = some (.lineNak seq panel line)) ∨
            (∃ seq panel, i = .panelDone n w ∧ s.messageFor n w = some (.panelDone seq panel)) ∨
            (∃ seq, i = .copyOk n w ∧ s.messageFor n w = some (.copyOk seq)) ∨
            (∃ seq reason, i = .copyFault n w ∧ s.messageFor n w = some (.copyFault seq reason))) ∧
          m = none ∧ damaged = false ∧ stale = true ∧ works = true)) :
    let t := wordDown (s.setStation n ((s.stations[n]'n.isLt).noted s.clock)) n m damaged stale
    exec i s = .next (if works then afterWork s t else finish s t) := by
  intro t
  obtain ⟨rfl, word, rfl, rfl, rfl, rfl⟩ | ⟨p, rfl, word, rfl, rfl, rfl, rfl⟩ | ⟨word, rfl, rfl, rfl, rfl⟩ |
    ⟨st, rfl, word, rfl, rfl, rfl, rfl⟩ | ⟨word, rfl, rfl, rfl, rfl⟩ := word
  · rw [exec_linkIdleWord word, if_neg (linkUp_not _ down), if_neg Bool.false_ne_true]
  · rw [exec_linkMessageWord word, if_neg (linkUp_not _ down), if_neg Bool.false_ne_true]
  · rw [exec_damaged word, if_neg (linkUp_not _ down), if_pos rfl]
  · rw [if_pos rfl]
    show execEngineStatusWord n w s = _
    rw [execEngineStatusWord, word]
    exact messageArrives_down down _ _
  · rw [if_pos rfl]
    obtain ⟨_, _, _, _, rfl, word⟩ | ⟨_, _, _, rfl, word⟩ | ⟨_, _, _, rfl, word⟩ | ⟨_, _, _, rfl, word⟩ |
      ⟨_, _, rfl, word⟩ | ⟨_, rfl, word⟩ | ⟨_, _, rfl, word⟩ := word
    · show execPage n w s = _
      rw [execPage, word]
      exact messageArrives_down down _ _
    · show execLineRequest n w s = _
      rw [execLineRequest, word]
      exact messageArrives_down down _ _
    · show execLineAck n w s = _
      rw [execLineAck, word]
      exact messageArrives_down down _ _
    · show execLineNak n w s = _
      rw [execLineNak, word]
      exact messageArrives_down down _ _
    · show execPanelDone n w s = _
      rw [execPanelDone, word]
      exact messageArrives_down down _ _
    · show execCopyOk n w s = _
      rw [execCopyOk, word]
      exact messageArrives_down down _ _
    · show execCopyFault n w s = _
      rw [execCopyFault, word]
      exact messageArrives_down down _ _

end words

/-! ## The link error window (R137) -/

section window
variable {s : State} {n : Fin 3} {transfer error : Bool}

/-- A station with a transfer or an error counted in its window. -/
def Station.windowed (x : Station) (transfer error : Bool) : Station :=
  { x with winTransfers := x.winTransfers + flag transfer, winErrors := x.winErrors + flag error }

/-- At the threshold of errors the link goes down (R137). -/
theorem countLink_over (reached : linkThreshold s.settings ≤ (s.stations[n]'n.isLt).winErrors + flag error) :
    countLink s n transfer error =
      (linkDown (s.setStation n ((s.stations[n]'n.isLt).windowed transfer error)) n .linkErrors .link, false) :=
  if_pos reached

/-- Below the threshold the window goes on, and starts again once it is full (R137). -/
theorem countLink_below (below : (s.stations[n]'n.isLt).winErrors + flag error < linkThreshold s.settings) :
    countLink s n transfer error = (s.setStation n (
      if linkWindow s.settings ≤ (s.stations[n]'n.isLt).winTransfers + flag transfer
      then { (s.stations[n]'n.isLt).windowed transfer error with winTransfers := 0, winErrors := 0 }
      else (s.stations[n]'n.isLt).windowed transfer error), true) := by
  have outcome : countLink s n transfer error = if linkWindow s.settings ≤ (s.stations[n]'n.isLt).winTransfers + flag transfer
      then ((s.setStation n ((s.stations[n]'n.isLt).windowed transfer error)).modStation n fun x =>
        { x with winTransfers := 0, winErrors := 0 }, true)
      else (s.setStation n ((s.stations[n]'n.isLt).windowed transfer error), true) := if_neg (Nat.not_le.mpr below)
  rw [outcome]
  split
  · rw [modStation_setStation]
  · rfl

theorem damagedUp_eq (s : State) (n : Fin 3) : damagedUp s n =
    (countLink (s.setStation n { (s.stations[n]'n.isLt) with msg := none, damaged := sat16 (s.stations[n]'n.isLt).damaged }) n false true).1 := rfl

theorem damagedUp_over (reached : linkThreshold s.settings ≤ (s.stations[n]'n.isLt).winErrors + 1) : damagedUp s n =
    linkDown (s.setStation n { (s.stations[n]'n.isLt) with
      msg := none, damaged := sat16 (s.stations[n]'n.isLt).damaged, winErrors := (s.stations[n]'n.isLt).winErrors + 1 }) n .linkErrors .link := by
  rw [damagedUp_eq, countLink_over (by rw [setStation_get]; exact reached), setStation_get, setStation_setStation]
  rfl

theorem damagedUp_counted (below : (s.stations[n]'n.isLt).winErrors + 1 < linkThreshold s.settings)
    (room : (s.stations[n]'n.isLt).winTransfers < linkWindow s.settings) : damagedUp s n =
      s.setStation n { (s.stations[n]'n.isLt) with
        msg := none, damaged := sat16 (s.stations[n]'n.isLt).damaged, winErrors := (s.stations[n]'n.isLt).winErrors + 1 } := by
  rw [damagedUp_eq, countLink_below (by rw [setStation_get]; exact below), setStation_get, setStation_setStation]
  exact congrArg (s.setStation n) (if_neg (Nat.not_le.mpr room))

end window

/-- Settles O49: a word by its class and by the link's state, and the ability exchange by its count. -/
theorem receivedWordsDriveTheLink : Obligations.ReceivedWordsDriveTheLink := by
  unfold Obligations.ReceivedWordsDriveTheLink
  refine ⟨fun s n w p word => ?ability, fun s n w running => ?classes, fun s n w => ?words⟩
  case ability =>
    intro x noted heard v count passes work go
    have run := exec_abilityWord word
    have counted : x.counted p = count := rfl
    have passing : abilityPasses (settling p) = true ↔ passes := abilityPasses_iff p
    refine ⟨fun up => ?_, fun down rests absent => ?_, fun down rests other => ?_, fun down awake absent => ?_,
      fun down awake linking => ?_⟩
    · rw [if_pos (linkUp_of x up)] at run
      exact run
    all_goals rw [if_neg (linkUp_not x down)] at run
    · rw [wordDown_absentRest (by rw [setStation_get]; exact rests) (by rw [setStation_get]; exact absent)] at run
      exact run
    · rw [wordDown_rest (by rw [setStation_get]; exact rests) (by rw [setStation_get]; exact other), setStation_get,
        setStation_setStation] at run
      exact run
    · rw [wordDown_absent (by rw [setStation_get]; exact awake) (by rw [setStation_get]; exact absent), setStation_get,
        setStation_setStation] at run
      exact run
    · rw [wordDown_linking (by rw [setStation_get]; exact awake) (by rw [setStation_get]; exact linking), setStation_get,
        setStation_setStation] at run
      change exec _ s = .next (afterWork s (abilityInExchange (s.setStation n heard) n p)) at run
      have state : ((s.setStation n heard).stations[n]'n.isLt) = heard := setStation_get _ _ _
      have counts : ((s.setStation n heard).stations[n]'n.isLt).counted p = count := by
        rw [state]
        exact counted
      refine ⟨fun few => ?_, fun third bad => ?_, fun third good noAck => ?_, fun third good ack => ?_⟩
      · rw [abilityInExchange_counts counts few, state, setStation_setStation] at run
        exact run
      · rw [abilityInExchange_fails (counts.trans third) fun h => bad (passing.mp h)] at run
        exact run
      · rw [abilityInExchange_settles (counts.trans third) (passing.mpr good) noAck, state, setStation_setStation] at run
        exact run
      · have outcome := abilityInExchange_up (counts.trans third) (passing.mpr good) ack
        rw [state, setStation_setStation] at outcome
        rw [outcome] at run
        refine ⟨_, run, ?_⟩
        have station := linkUp_station (s.setStation n (heard.exchanged p 3)) n (settling p)
        rw [setStation_get, settling_bit p (by decide : 4 < 7)] at station
        intro y
        have held : y = _ := station
        have rate : (if (byteAt v 0).getLsbD 1 then LinkRate.lrB else .lrA) =
            if (byteAt p 0).getLsbD 1 then .lrB else .lrA := by rw [show v = settling p from rfl, settling_bit p (by decide : 1 < 7)]
        have abilities : abilitiesOf v = ⟨byteAt v 0, byteAt v 1, if (byteAt v 2).toNat < 4 then byteAt v 2 else 0,
            max 300 (min 1200 (fieldLe v 3 2))⟩ := by rw [abilitiesOf, ribbon_code]
        by_cases has : (byteAt p 0).getLsbD 4 = true
        · rw [if_pos has] at held ⊢
          refine ⟨by rw [held]; rfl, by rw [held, ← rate]; rfl, by rw [held]; rfl, by rw [held]; rfl, by rw [held]; rfl,
            by rw [held]; rfl, by rw [held]; rfl, by rw [held]; rfl, by rw [held, ← abilities]; rfl, by rw [held]; rfl,
            by rw [held]; rfl, linkUp_requests ((settling_bit p (by decide : 4 < 7)).trans has)⟩
        · rw [if_neg has] at held ⊢
          refine ⟨by rw [held]; rfl, by rw [held, ← rate]; rfl, by rw [held]; rfl, by rw [held]; rfl, by rw [held]; rfl,
            by rw [held]; rfl, by rw [held]; rfl, by rw [held]; rfl, by rw [held, ← abilities]; rfl, by rw [held]; rfl,
            _, by rw [held], rfl, rfl⟩
  case classes =>
    intro x word whole
    have classed : ∀ {e}, linkEventOf x.msg w = e → word e := fun h => by
      simp only [word, State.wordFor, if_pos running]
      exact congrArg some h
    have finishes : ∀ {bytes}, linkEventOf x.msg w = completed bytes → whole bytes := fun h =>
      ⟨fun m msg => classed (h.trans ((completed_eq _).1 m msg)), fun none => classed (h.trans ((completed_eq _).2 none))⟩
    refine ⟨fun length bad => classed (by simp only [linkEventOf, linkWordOf_bad length bad]), fun p length good payload => ?_⟩
    intro kind
    have shape := linkWordOf_good length good
    rw [← payload] at shape
    refine ⟨fun unlisted => classed (by simp only [linkEventOf, linkWordOf_unlisted length good unlisted]),
      fun k => classed ?_, fun k => classed ?_, fun k => finishes ?_, fun k => classed ?_, fun k none => classed ?_,
      fun b msg => ⟨fun k => classed ?_, fun k => finishes ?_⟩⟩
    · simp only [linkEventOf, shape, show (byteAt w 0).toNat = _ from k]
    · simp only [linkEventOf, shape, show (byteAt w 0).toNat = _ from k]
    · simp only [linkEventOf, shape, show (byteAt w 0).toNat = _ from k]
    · simp only [linkEventOf, shape, show (byteAt w 0).toNat = _ from k]
    · obtain k | k := k
      · simp only [linkEventOf, shape, show (byteAt w 0).toNat = _ from k, none]
      · simp only [linkEventOf, shape, show (byteAt w 0).toNat = _ from k, none]
    · simp only [linkEventOf, shape, show (byteAt w 0).toNat = _ from k, msg]
    · simp only [linkEventOf, shape, show (byteAt w 0).toNat = _ from k, msg]
  case words =>
  intro x noted work
  refine ⟨fun down => ?down, fun up => ?up⟩
  case down =>
    intro i m damaged stale works listed seen go
    have run := exec_down down listed
    simp only at run
    have goes : ∀ {y : Station}, wordDown (s.setStation n noted) n m damaged stale = s.setStation n y → go y := fun same => by
      simp only [go, ← same]
      exact run
    have state : ((s.setStation n noted).stations[n]'n.isLt) = noted := setStation_get _ _ _
    refine ⟨fun rests absent => goes ?_, fun rests other => goes ?_, fun awake absent => goes ?_,
      fun awake linking => goes ?_, fun awake notAbsent notLinking => goes ?_⟩
    · exact wordDown_absentRest (by rw [state]; exact rests) (by rw [state]; exact absent)
    · rw [wordDown_rest (by rw [state]; exact rests) (by rw [state]; exact other), state, setStation_setStation]
      rfl
    · rw [wordDown_absent (by rw [state]; exact awake) (by rw [state]; exact absent), state, setStation_setStation]
      rfl
    · rw [wordDown_linking (by rw [state]; exact awake) (by rw [state]; exact linking), state, setStation_setStation,
        modStation_setStation]
      rfl
    · rw [wordDown_other (by rw [state]; exact awake) (by rw [state]; exact notAbsent) (by rw [state]; exact notLinking),
        state, setStation_setStation]
      rfl
  case up =>
    intro go
    have rises := linkUp_of x up
    refine ⟨fun word => ?_, fun m word => ?_, fun i word => ?_⟩
    · exact (exec_linkIdleWord word).trans (by rw [if_pos rises]; rfl)
    · exact (exec_linkMessageWord word).trans (by rw [if_pos rises]; rfl)
    · intro y
      have run := exec_damaged word
      rw [if_pos rises] at run
      refine ⟨fun reached => ?_, fun below room => ?_⟩
      · rw [damagedUp_over (by rw [setStation_get]; exact reached), setStation_get, setStation_setStation] at run
        exact run
      · rw [damagedUp_counted (by rw [setStation_get]; exact below) (by rw [setStation_get]; exact room), setStation_get,
          setStation_setStation] at run
        exact run

end Sys2Proof.Machine
end

