-- ==== Sys2Proof/Proofs/Profile.lean ====
section
/-! The profile load page by page, and the ranges of a completed profile (R138 to R141). -/

namespace Sys2Proof.Machine

-- Checked one after another, as in the tests: a theorem checked alongside others holds its memory.
set_option Elab.async false

/-! ## The completed profile (R141, R198) -/

theorem clampTo_of_bounds {lo hi v : Int} (low : lo ≤ v) (high : v ≤ hi) : clampTo lo hi v = v := by
  simp only [clampTo]
  omega

section scalars
variable {defaults raw : List Int} {emax : Int}

/-- The Emax of a load: the region's, bounded above, or section 4's for a 0 (R141). -/
def loadEmax (defaults raw : List Int) : Int := if raw.getD 0 0 = 0 then defaults.getD 0 1 else min (raw.getD 0 0) 1023

theorem clampScalars_eq (defaults raw : List Int) : clampScalars defaults raw =
    List.zipWith (clampField (loadEmax defaults raw)) scalarSpec (loadEmax defaults raw :: raw.drop 1) := rfl

/-- Every scalar is its own field clamped (R141). -/
theorem clampScalars_get (length : raw.length = 16) {i : Nat} (below : i < 16) : ∃ f v, scalarSpec[i]? = some f ∧
    (clampScalars defaults raw).getD i 0 = clampField (loadEmax defaults raw) f v ∧ (i = 0 → v = loadEmax defaults raw) := by
  have fields : scalarSpec.length = 16 := rfl
  have values : (loadEmax defaults raw :: raw.drop 1).length = 16 := by simp [length]
  refine ⟨scalarSpec[i], (loadEmax defaults raw :: raw.drop 1)[i], List.getElem?_eq_getElem (by omega), ?_, fun zero => ?_⟩
  · rw [clampScalars_eq, List.getD_eq_getElem?_getD, List.getElem?_zipWith, List.getElem?_eq_getElem (by omega),
      List.getElem?_eq_getElem (by omega)]
    rfl
  · subst zero
    rfl

theorem clampScalars_num (length : raw.length = 16) {i : Nat} {lo hi : Int} (below : i < 16)
    (kind : (scalarSpec.map FieldSpec.kind)[i]? = some (.num lo hi)) (ordered : lo ≤ hi) :
    lo ≤ (clampScalars defaults raw).getD i 0 ∧ (clampScalars defaults raw).getD i 0 ≤ hi := by
  obtain ⟨f, v, field, value, -⟩ := clampScalars_get (defaults := defaults) length below
  rw [List.getElem?_map, field] at kind
  rw [value, clampField, Option.some.inj kind]
  exact clampTo_bounds ordered v

theorem clampScalars_emax (length : raw.length = 16) (low : 1 ≤ loadEmax defaults raw) (high : loadEmax defaults raw ≤ 1023) :
    (clampScalars defaults raw).getD 0 0 = loadEmax defaults raw := by
  obtain ⟨f, v, field, value, same⟩ := clampScalars_get (defaults := defaults) length (i := 0) (by decide)
  obtain rfl : numField 0 2 1 1023 = f := Option.some.inj field
  rw [value, same rfl]
  exact clampTo_of_bounds low high

theorem clampScalars_energy (length : raw.length = 16) {i : Nat} (below : i < 16) (low : 1 ≤ loadEmax defaults raw)
    (high : loadEmax defaults raw ≤ 1023) (kind : (scalarSpec.map FieldSpec.kind)[i]? = some .energy) :
    0 ≤ (clampScalars defaults raw).getD i 0 ∧
      (clampScalars defaults raw).getD i 0 ≤ (clampScalars defaults raw).getD 0 0 := by
  obtain ⟨f, v, field, value, -⟩ := clampScalars_get (defaults := defaults) length below
  rw [List.getElem?_map, field] at kind
  rw [clampScalars_emax length low high, value, clampField, Option.some.inj kind]
  exact clampTo_bounds (by omega) v

/-- Section 4 part 0 in range holds an Emax of 1 to 1,023 (R183). -/
theorem emax_inRange (range : PartInRange 4 defaults) : ∃ v t, defaults = v :: t ∧ 1 ≤ v ∧ v ≤ 1023 := by
  have length : defaults.length = 16 := range.length
  obtain ⟨v, t, rfl⟩ := List.exists_cons_of_ne_nil (fun h : defaults = [] => by rw [h] at length; exact nomatch length)
  have same := congrArg (fun l : List Int => l[0]?) range.clamped
  rw [show partSpec 4 = scalarSpec from rfl, clampFields_getElem?] at same
  have value : clampTo 1 1023 v = v := Option.some.inj same
  exact ⟨v, t, rfl, value ▸ clampTo_bounds (by decide) v⟩

end scalars

section loaded
variable {s : State} {ident : Nat} {passed : List (List Byte)}

/-- The scalars a load starts from: the engine's region 0, or section 4 (R141). -/
def rawScalars (s : State) (passed : List (List Byte)) : List Int :=
  match passed[0]? with
  | some bytes => readFields scalarSpec bytes
  | none => (s.settings[(4 : Fin 11)]'(Fin.isLt _))

theorem loadedProfile_scalar (s : State) (ident : Nat) (passed : List (List Byte)) (i : Nat) :
    (loadedProfile s ident passed).scalar i = (clampScalars (s.settings[(4 : Fin 11)]'(Fin.isLt _)) (rawScalars s passed)).getD i 0 := rfl

theorem rawScalars_none (empty : passed[0]? = none) : rawScalars s passed = (s.settings[(4 : Fin 11)]'(Fin.isLt _)) := by
  rw [rawScalars, empty]

theorem rawScalars_some {bytes : List Byte} (first : passed[0]? = some bytes) :
    rawScalars s passed = readFields scalarSpec bytes := by
  rw [rawScalars, first]

theorem rawScalars_length (range : PartInRange 4 (s.settings[(4 : Fin 11)]'(Fin.isLt _))) (passed : List (List Byte)) :
    (rawScalars s passed).length = 16 := by
  cases first : passed[0]? with
  | none =>
    rw [rawScalars_none first]
    exact range.length
  | some bytes =>
    rw [rawScalars_some first]
    exact List.length_map _

/-- The Emax of a region 0 that gives one (R141). -/
theorem loadEmax_region {defaults : List Int} (bytes : List Byte) : loadEmax defaults (readFields scalarSpec bytes) =
    if fieldLe bytes 0 2 = 0 then defaults.getD 0 1 else min (fieldLe bytes 0 2 : Int) 1023 := by
  have first : (readFields scalarSpec bytes).getD 0 0 = (fieldLe bytes 0 2 : Int) := rfl
  rw [loadEmax, first]
  simp only [Int.natCast_eq_zero]

theorem loadEmax_range (range : PartInRange 4 (s.settings[(4 : Fin 11)]'(Fin.isLt _))) (passed : List (List Byte)) :
    1 ≤ loadEmax (s.settings[(4 : Fin 11)]'(Fin.isLt _)) (rawScalars s passed) ∧
      loadEmax (s.settings[(4 : Fin 11)]'(Fin.isLt _)) (rawScalars s passed) ≤ 1023 := by
  obtain ⟨v, t, same, low, high⟩ := emax_inRange range
  cases first : passed[0]? with
  | none =>
    rw [rawScalars_none first, same, loadEmax]
    simp only [List.getD_cons_zero]
    split
    · exact ⟨low, high⟩
    · omega
  | some bytes =>
    rw [rawScalars_some first, same, loadEmax_region]
    split
    · exact ⟨low, high⟩
    · omega

/-- A tone table of the profile is clamped, from the engine or from section 4 (R141). -/
theorem toneRegion_range (region : Option (List Byte)) (lo hi : Fin 11) : ∀ e ∈ toneRegion s region lo hi, 0 ≤ e ∧ e ≤ 1023 := by
  intro e mem
  unfold toneRegion at mem
  split at mem
  · obtain ⟨i, -, rfl⟩ := List.mem_map.mp mem
    exact clampTo_bounds (by decide) _
  · obtain ⟨v, -, rfl⟩ := List.mem_map.mp mem
    exact clampTo_bounds (by decide) v

/-- Without the engine's region 0 the scalars are section 4's as they stand (R141). -/
theorem loadedProfile_default (range : PartInRange 4 (s.settings[(4 : Fin 11)]'(Fin.isLt _))) :
    (loadedProfile s ident []).scalars = (s.settings[(4 : Fin 11)]'(Fin.isLt _)) := by
  obtain ⟨v, t, same, low, high⟩ := emax_inRange range
  have scalars : (loadedProfile s ident []).scalars = clampScalars (s.settings[(4 : Fin 11)]'(Fin.isLt _)) (s.settings[(4 : Fin 11)]'(Fin.isLt _)) := rfl
  have emax : loadEmax (v :: t) (v :: t) = v := by
    rw [loadEmax]
    simp only [List.getD_cons_zero]
    rw [if_neg (by omega), min_eq_left high]
  have clamped := range.clamped
  rw [scalars, clampScalars_eq]
  rw [same] at clamped ⊢
  rw [emax, List.drop_one, List.tail_cons]
  rw [clampFields, show partEmax (v :: t) = v from clampTo_of_bounds low high] at clamped
  exact clamped

end loaded

/-! ## The page that arrives (R139, R140) -/

section pages
variable {s : State} {n : Fin 3} {l : Load} {payload : List Byte} {page sum : Nat} {toggle : Byte}

theorem exec_page {w : List Byte} (message : s.messageFor n w = some (.page page toggle payload sum))
    (up : (s.stations[n]'n.isLt).rate ≠ .none) : exec (.page n w) s = .next (afterWork s (pageArrives
      (s.setStation n { (s.stations[n]'n.isLt) with lastWord := some s.clock, msg := none }) n page toggle payload sum)) := by
  have taken : messageTaken s n = s.setStation n { (s.stations[n]'n.isLt) with lastWord := some s.clock, msg := none } := by
    simp only [messageTaken, noteWord, modStation_eq, setStation_get, setStation_setStation]
  show execPage n w s = _
  rw [execPage, message]
  exact (messageArrives_up up _ _).trans (by rw [taken])

theorem pageArrives_stale (none : (s.stations[n]'n.isLt).load = none) : pageArrives s n page toggle payload sum =
    s.setStation n { (s.stations[n]'n.isLt) with stales := sat16 (s.stations[n]'n.isLt).stales } := by
  rw [pageArrives, none]
  rfl

theorem pageArrives_mismatch (load : (s.stations[n]'n.isLt).load = some l) (other : page ≠ l.page ∨ toggle.toNat ≠ flag l.toggle) :
    pageArrives s n page toggle payload sum = pageMismatch s n l := by
  rw [pageArrives, load]
  exact if_neg fun h => other.elim (fun p => p h.1) (fun t => t h.2)

theorem pageArrives_accepted (load : (s.stations[n]'n.isLt).load = some l) (same : page = l.page) (asked : toggle.toNat = flag l.toggle) :
    pageArrives s n page toggle payload sum = pageAccepted s n l payload sum := by
  rw [pageArrives, load]
  exact if_pos ⟨same, asked⟩

theorem pageMismatch_again (first : l.mismatch = false) :
    pageMismatch s n l = requestPage s n { l with mismatch := true } := by
  rw [pageMismatch, first]
  rfl

theorem pageMismatch_down (second : l.mismatch = true) : pageMismatch s n l = linkDown s n .profile .link := by
  rw [pageMismatch, second]
  rfl

theorem pageAccepted_header (zero : l.page = 0) (magic : fieldLe payload 0 2 = 0x9E21) (low : 1 ≤ (byteAt payload 2).toNat)
    (high : (byteAt payload 2).toNat ≤ 4) : pageAccepted s n l payload sum =
      nextPage s n { l with regions := (byteAt payload 2).toNat, ident := fieldLe payload 4 4 } := by
  rw [pageAccepted, if_pos zero]
  exact if_pos ⟨magic, low, high⟩

theorem pageAccepted_badHeader (zero : l.page = 0) (bad : fieldLe payload 0 2 ≠ 0x9E21 ∨ (byteAt payload 2).toNat < 1 ∨
    4 < (byteAt payload 2).toNat) : pageAccepted s n l payload sum = loadEnd s n 0 [] := by
  rw [pageAccepted, if_pos zero]
  exact if_neg fun ⟨magic, low, high⟩ => bad.elim (fun h => h magic) fun h => h.elim (Nat.not_lt.mpr low) (Nat.not_lt.mpr high)

theorem lastPage_iff (p : Nat) : lastPage p = true ↔ p = 2 ∨ p = 18 ∨ p = 34 ∨ p = 50 := by
  simp [lastPage, or_assoc]

theorem pageAccepted_middle (header : l.page ≠ 0) (middle : ¬ lastPage l.page = true) : pageAccepted s n l payload sum =
    nextPage s n { l with gathered := l.gathered ++ payload } := by
  rw [pageAccepted, if_neg header]
  exact if_neg middle

theorem pageAccepted_badSum (last : lastPage l.page = true) (bad : sumBytes (l.gathered ++ payload) % 65536 ≠ sum) :
    pageAccepted s n l payload sum = loadEnd s n l.ident l.passed := by
  have header : l.page ≠ 0 := fun zero => by rw [zero] at last; exact nomatch last
  rw [pageAccepted, if_neg header]
  exact (if_pos last).trans (if_neg bad)

theorem pageAccepted_region (last : lastPage l.page = true) (good : sumBytes (l.gathered ++ payload) % 65536 = sum) :
    pageAccepted s n l payload sum = if l.passed.length + 1 < l.regions
      then nextPage s n { l with gathered := [], passed := l.passed ++ [l.gathered ++ payload] }
      else loadEnd s n l.ident (l.passed ++ [l.gathered ++ payload]) := by
  have header : l.page ≠ 0 := fun zero => by rw [zero] at last; exact nomatch last
  rw [pageAccepted, if_neg header]
  refine (if_pos last).trans ((if_pos good).trans ?_)
  simp only [List.length_append, List.length_singleton]

theorem pausedOrReady_eq {x : Station} {st : EngineStatus} (status : x.status = some st) : x.pausedOrReady =
    { x with state := if st.pauses then .paused else .ready, pauseCause := if st.pauses then st.cause else .none } := by
  rw [Station.pausedOrReady, status]
  cases pauses : st.pauses <;> simp [pauses]

theorem pausedOrReady_keeps (x : Station) : x.pausedOrReady =
    { x with state := x.pausedOrReady.state, pauseCause := x.pausedOrReady.pauseCause } := by
  rw [Station.pausedOrReady]
  split
  · split <;> rfl
  · rfl

theorem settleState_station (s : State) (n : Fin 3) :
    ((settleState s n).stations[n]'n.isLt) = { (s.stations[n]'n.isLt).pausedOrReady with takenCell := none } := by
  rw [settleState, answerStation_station, modStation_eq, setStation_get]

/-- What the end of the load leaves of its station (R141). -/
theorem loadEnd_station (s : State) (n : Fin 3) (ident : Nat) (passed : List (List Byte)) :
    ((loadEnd s n ident passed).stations[n]'n.isLt) =
      let y : Station := { (s.stations[n]'n.isLt) with load := none, profile := some (loadedProfile s ident passed) }
      if (s.stations[n]'n.isLt).statusSeen then { y.pausedOrReady with takenCell := none } else y := by
  rw [loadEnd_eq]
  dsimp only
  split
  · rw [settleState_station, setStation_get]
  · rw [setStation_get]

theorem loadEnd_fields (s : State) (n : Fin 3) (ident : Nat) (passed : List (List Byte)) : ∃ state cause cell,
    ((loadEnd s n ident passed).stations[n]'n.isLt) = { (s.stations[n]'n.isLt) with
      load := none, profile := some (loadedProfile s ident passed)
      state := state, pauseCause := cause, takenCell := cell } := by
  rw [loadEnd_station]
  dsimp only
  split
  · exact ⟨_, _, _, by rw [pausedOrReady_keeps]⟩
  · exact ⟨_, _, _, rfl⟩

theorem loadEnd_settles {ident : Nat} {passed : List (List Byte)} {st : EngineStatus} (seen : (s.stations[n]'n.isLt).statusSeen = true)
    (status : (s.stations[n]'n.isLt).status = some st) : ((loadEnd s n ident passed).stations[n]'n.isLt) = { (s.stations[n]'n.isLt) with
      load := none, profile := some (loadedProfile s ident passed), state := if st.pauses then .paused else .ready
      pauseCause := if st.pauses then st.cause else .none, takenCell := none } := by
  rw [loadEnd_station]
  dsimp only
  rw [if_pos seen]
  have settles := pausedOrReady_eq (x := { (s.stations[n]'n.isLt) with
    load := none, profile := some (loadedProfile s ident passed) }) status
  rw [settles]

theorem exec_pageTimeout (load : (s.stations[n]'n.isLt).load = some l) (due : l.timer.due s.clock = true) :
    exec (.pageTimeout n) s = .next (afterWork s (pageMismatch s n l)) := by
  show execPageTimeout n s = _
  rw [execPageTimeout, load]
  exact if_pos due

end pages

/-- Settles O52: the page by its place in the load, the timeout, and the ranges of the completed profile. -/
theorem profileLoadsPageByPage : Obligations.ProfileLoadsPageByPage := by
  unfold Obligations.ProfileLoadsPageByPage
  refine ⟨fun s n w payload page sum toggle message up => ?page, fun s n l load due => ⟨fun first => ?again, fun second => ?down⟩,
    fun s ident passed ranges => ?ranges⟩
  case page =>
    intro x u go asking ends
    have run := exec_page message up
    have state : (u.stations[n]'n.isLt) = x := setStation_get _ _ _
    have goes : ∀ {t : State}, pageArrives u n page toggle payload sum = t → go t := fun h => h ▸ run
    have asks : ∀ l : Load, requestPage u n l = asking l := fun l => by
      rw [requestPage_eq, state]
      rfl
    have ended : ∀ {id : Nat} {ps : List (List Byte)},
        pageArrives u n page toggle payload sum = loadEnd u n id ps → ends id ps := fun {id ps} h => by
      have station := loadEnd_station u n id ps
      rw [state] at station
      refine ⟨_, loadedProfile u id ps, goes h, ?_, ?_, rfl, rfl, fun unseen => ?_, fun st seen status => ?_⟩
      · obtain ⟨state, cause, cell, fields⟩ := loadEnd_fields u n id ps
        rw [fields]
      · obtain ⟨state, cause, cell, fields⟩ := loadEnd_fields u n id ps
        rw [fields]
      · rw [station, if_neg (by rw [unseen]; decide)]
      · rw [loadEnd_settles (by rw [state]; exact seen) (by rw [state]; exact status)]
        exact ⟨rfl, rfl⟩
    refine ⟨fun none => goes ?_, fun l load => ⟨fun other => ⟨fun first => goes ?_, fun second => goes ?_⟩,
      fun same asked => ?_⟩⟩
    · rw [pageArrives_stale (by rw [state]; exact none), state]
    · rw [pageArrives_mismatch (by rw [state]; exact load) other, pageMismatch_again first, asks]
    · rw [pageArrives_mismatch (by rw [state]; exact load) other, pageMismatch_down second]
    · have accepted := pageArrives_accepted (s := u) (n := n) (payload := payload) (sum := sum)
        (by rw [state]; exact load) same asked
      intro further regions
      refine ⟨fun zero magic low high => goes ?_, fun zero bad => ended ?_, fun p0 p2 p18 p34 p50 => goes ?_,
        fun last => ⟨fun bad => ended ?_, fun good => ⟨fun more => goes ?_, fun done => ended ?_⟩⟩⟩
      · rw [accepted, pageAccepted_header zero magic low high, nextPage, asks]
      · rw [accepted, pageAccepted_badHeader zero bad]
      · rw [accepted, pageAccepted_middle p0 (by rw [lastPage_iff]; omega), nextPage, asks]
      · rw [accepted, pageAccepted_badSum ((lastPage_iff _).mpr last) bad]
      · rw [accepted, pageAccepted_region ((lastPage_iff _).mpr last) good, if_pos more, nextPage, asks]
      · rw [accepted, pageAccepted_region ((lastPage_iff _).mpr last) good, if_neg (Nat.not_lt.mpr done)]
  case again => rw [exec_pageTimeout load due, pageMismatch_again first, requestPage_eq]
  case down => rw [exec_pageTimeout load due, pageMismatch_down second]
  case ranges =>
    intro q
    have range := ranges 4
    have length := rawScalars_length range passed
    obtain ⟨low, high⟩ := loadEmax_range range passed
    refine ⟨clampScalars_num length (by decide) rfl (by decide), clampScalars_num length (by decide) rfl (by decide),
      clampScalars_num length (by decide) rfl (by decide), clampScalars_num length (by decide) rfl (by decide),
      fun i above below => clampScalars_energy length (by omega) low high ?_,
      fun i above below => clampScalars_num length (by omega) ?_ (by decide), fun tone listed => ?_,
      fun region first some => ?_, fun region first zero => ?_, fun none => ?_⟩
    · exact (by decide : ∀ i < 7, 4 ≤ i → (scalarSpec.map FieldSpec.kind)[i]? = some .energy) i (by omega) above
    · exact (by decide : ∀ i < 16, 7 ≤ i → (scalarSpec.map FieldSpec.kind)[i]? = some (.num (-2048) 2047)) i (by omega) above
    · simp only [List.mem_cons, List.not_mem_nil, or_false] at listed
      obtain rfl | rfl | rfl := listed
      · exact toneRegion_range _ _ _
      · exact toneRegion_range _ _ _
      · exact toneRegion_range _ _ _
    · rw [loadedProfile_scalar, clampScalars_emax length low high, rawScalars_some first, loadEmax_region, if_neg some]
      omega
    · obtain ⟨v, t, same, -⟩ := emax_inRange range
      rw [loadedProfile_scalar, clampScalars_emax length low high, rawScalars_some first, loadEmax_region, if_pos zero, setting,
        same]
      rfl
    · subst none
      exact loadedProfile_default range

end Sys2Proof.Machine
end

