-- ==== Sys2Proof/Proofs/StatusWord.lean ====
section
/-! Engine status words: the state they lead to, the media account, and what they do to a copy (R142, R143, R145, R147). -/

namespace Sys2Proof.Machine

-- Checked one after another, as in the tests: a theorem checked alongside others holds its memory.
set_option Elab.async false

section account
variable {s : State} {n : Fin 3} {st : EngineStatus}

/-- The new account of a status word: taken over at the first word and at a new media counter (R143). -/
def Account.follows (a : Account) (st : EngineStatus) (first : Bool) : Account :=
  if first = true ∨ st.mediaCounter ≠ a.mediaCounter then a.takeWord st else a

/-- The reservation is given up at the first word, and where a new account no longer serves it (R143, R164). -/
def Account.givesUp (a : Account) (st : EngineStatus) (first : Bool) : Bool :=
  first || (st.mediaCounter != a.mediaCounter && (a.takeWord st).misfit)

theorem releaseReservation_station (s : State) (n : Fin 3) : ∃ r,
    ((releaseReservation s n).stations[n]'n.isLt) = { (s.stations[n]'n.isLt) with account := { (s.stations[n]'n.isLt).account with reservation := r } } ∧
      ((s.reservations[n]'n.isLt) = (s.stations[n]'n.isLt).account.reservation → r = none) := by
  cases held : (s.reservations[n]'n.isLt) with
  | none =>
    have same : releaseReservation s n = s := by rw [releaseReservation, held]
    exact ⟨(s.stations[n]'n.isLt).account.reservation, by rw [same], fun h => h.symm⟩
  | some r =>
    have station := eq_of_unreserved (releaseReservation_unreserved s n n)
    rw [releaseReservation_account s held] at station
    exact ⟨none, station, fun _ => rfl⟩

theorem accountFollows_first : accountFollows s n st true =
    (releaseReservation s n).modStation n fun x => { x with account := x.account.takeWord st } := rfl

theorem accountFollows_same (same : st.mediaCounter = (s.stations[n]'n.isLt).account.mediaCounter) :
    accountFollows s n st false = s := if_pos same

theorem accountFollows_new (new : st.mediaCounter ≠ (s.stations[n]'n.isLt).account.mediaCounter) : accountFollows s n st false =
    let t := s.setStation n { (s.stations[n]'n.isLt) with account := (s.stations[n]'n.isLt).account.takeWord st }
    if ((s.stations[n]'n.isLt).account.takeWord st).misfit then releaseReservation t n else t := by
  refine (if_neg new).trans ?_
  simp only [modStation_eq, setStation_get]

/-- What the account's turn leaves of its station: the account, and its reservation unless that is given up (R143). -/
theorem accountFollows_station (s : State) (n : Fin 3) (st : EngineStatus) (first : Bool) : ∃ r,
    ((accountFollows s n st first).stations[n]'n.isLt) = { (s.stations[n]'n.isLt) with
      account := { (s.stations[n]'n.isLt).account.follows st first with reservation := r } } ∧
    ((s.reservations[n]'n.isLt) = (s.stations[n]'n.isLt).account.reservation →
      r = if (s.stations[n]'n.isLt).account.givesUp st first then none else (s.stations[n]'n.isLt).account.reservation) := by
  cases first with
  | true =>
    obtain ⟨r, station, gone⟩ := releaseReservation_station s n
    refine ⟨r, ?_, gone⟩
    rw [accountFollows_first, modStation_eq, setStation_get, station]
    rfl
  | false =>
    by_cases same : st.mediaCounter = (s.stations[n]'n.isLt).account.mediaCounter
    · refine ⟨(s.stations[n]'n.isLt).account.reservation, ?_, fun _ => ?_⟩
      · rw [accountFollows_same same, Account.follows, if_neg (by simp [same, -Fin.getElem_fin])]
      · rw [Account.givesUp, same]
        simp
    · have account : (s.stations[n]'n.isLt).account.follows st false = (s.stations[n]'n.isLt).account.takeWord st :=
        if_pos (.inr same)
      have givesUp : (s.stations[n]'n.isLt).account.givesUp st false = ((s.stations[n]'n.isLt).account.takeWord st).misfit := by
        simp [Account.givesUp, same, -Fin.getElem_fin]
      rw [accountFollows_new same, account, givesUp]
      dsimp only
      split
      · obtain ⟨r, station, gone⟩ := releaseReservation_station
          (s.setStation n { (s.stations[n]'n.isLt) with account := (s.stations[n]'n.isLt).account.takeWord st }) n
        rw [setStation_get] at station gone
        exact ⟨r, station, gone⟩
      · exact ⟨(s.stations[n]'n.isLt).account.reservation, setStation_get _ _ _, fun _ => rfl⟩

theorem accountFollows_keeps (s : State) (n : Fin 3) (st : EngineStatus) (first : Bool) : accountFollows s n st first = { s with
    orders := (accountFollows s n st first).orders, stations := (accountFollows s n st first).stations
    reservations := if (s.stations[n]'n.isLt).account.givesUp st first then s.reservations.set n none else s.reservations } := by
  cases first with
  | true =>
    rw [accountFollows_first, releaseReservation_keeps]
    rfl
  | false =>
    by_cases same : st.mediaCounter = (s.stations[n]'n.isLt).account.mediaCounter
    · have keeps : (s.stations[n]'n.isLt).account.givesUp st false = false := by simp [Account.givesUp, same, -Fin.getElem_fin]
      rw [accountFollows_same same, keeps]
      rfl
    · have givesUp : (s.stations[n]'n.isLt).account.givesUp st false = ((s.stations[n]'n.isLt).account.takeWord st).misfit := by
        simp [Account.givesUp, same, -Fin.getElem_fin]
      rw [accountFollows_new same, givesUp]
      dsimp only
      split
      · rw [releaseReservation_keeps]
        rfl
      · rfl

theorem givesUp_reservation (a : Account) (st : EngineStatus) (seen : Bool) :
    (if a.givesUp st (!seen) then none else a.reservation) = match a.reservation with
      | none => none
      | some r => if seen = false ∨ (st.mediaCounter ≠ a.mediaCounter ∧
          (st.ribbonLeft = 0 ∨ st.paperLeft = 0 ∨ st.ribbon.takes r.size = false)) then none else some r := by
  cases reservation : a.reservation with
  | none => simp
  | some r => simp [Account.givesUp, Account.misfit, Account.takeWord, reservation, or_assoc]

theorem follows_counts (a : Account) (st : EngineStatus) (seen : Bool) :
    ((a.follows st (!seen)).ribbonLeft, (a.follows st (!seen)).paperLeft, (a.follows st (!seen)).ribbon,
      (a.follows st (!seen)).mediaCounter) =
    if seen = false ∨ st.mediaCounter ≠ a.mediaCounter then (st.ribbonLeft, st.paperLeft, st.ribbon, st.mediaCounter)
    else (a.ribbonLeft, a.paperLeft, a.ribbon, a.mediaCounter) := by
  rw [Account.follows]
  cases seen with
  | false => rfl
  | true => by_cases new : st.mediaCounter = a.mediaCounter <;> simp [new, Account.takeWord]

end account

/-! ## A panel that starts (R145, R167) -/

section panel
variable {s : State} {n : Fin 3} {c : Copy}

/-- The copy at the start of a panel. -/
def Copy.inPanel (c : Copy) : Copy := { c with phase := .inPanel, nextLine := 0, failedAnswers := 0, answer := none }

theorem enterPanel_eq (s : State) (n : Fin 3) (c : Copy) (th : Nat) : enterPanel s n c th = { s with
    sent := s.sent ++ [.link n (messageWords 0x21 (le 2 c.seq ++ [BitVec.ofNat 8 c.panel.code]))]
    stations := s.stations.set n
      { (s.stations[n]'n.isLt) with state := .printing, pauseCause := .none, copy := some c.inPanel } n.isLt
    heads := s.heads.set n (panelHead (s.stations[n]'n.isLt).profile th (s.heads[n]'n.isLt)) n.isLt } := rfl

theorem startPanel_cool {st : EngineStatus} (status : (s.stations[n]'n.isLt).status = some st) (cool : st.temp ≤ hotLimit s.settings) :
    startPanel s n c = enterPanel s n c st.temp := by
  rw [startPanel, status]
  exact if_pos cool

theorem startPanel_hot {st : EngineStatus} (status : (s.stations[n]'n.isLt).status = some st) (hot : hotLimit s.settings < st.temp) :
    startPanel s n c = s.setStation n { (s.stations[n]'n.isLt) with
      state := .paused, pauseCause := .hot, copy := some { c with phase := .waitStart } } := by
  rw [startPanel, status]
  exact if_neg (by simpa using hot)

end panel

/-! ## A copy that the part ends while the link stays up (R147) -/

section abort
variable {s : State} {n : Fin 3} {c : Copy}

theorem abortCopy_some (copy : (s.stations[n]'n.isLt).copy = some c) (outcome : CopyOutcome) : abortCopy s n outcome =
    settleState (failCopy (s.sendLink n 0x23 (le 2 c.seq)) n outcome 0) n := by
  rw [abortCopy, copy]

theorem ended_some {x : Station} (copy : x.copy = some c) (outcome : CopyOutcome) (reason : Byte) :
    x.ended outcome reason = { x with copy := none, outcome := outcome, reason := reason } :=
  if_pos (by rw [copy]; rfl)

theorem settleState_keeps (s : State) (n : Fin 3) : settleState s n = { s with
    stations := (settleState s n).stations, cells := (settleState s n).cells } := by
  rw [settleState, answerStation_keeps]
  rfl

/-- The station at which a copy has failed and the link stays up. -/
theorem settled_failCopy_station (copy : (s.stations[n]'n.isLt).copy = some c) (outcome : CopyOutcome) (reason : Byte) : ∃ acc,
    ((settleState (failCopy s n outcome reason) n).stations[n]'n.isLt) =
      { ({ (s.stations[n]'n.isLt) with copy := none, outcome := outcome, reason := reason, account := acc } : Station).pausedOrReady
        with takenCell := none } := by
  have station := eq_of_unreserved (failCopy_spec s n outcome reason).1
  rw [ended_some copy] at station
  exact ⟨_, by rw [settleState_station, station]⟩

theorem abortCopy_station (copy : (s.stations[n]'n.isLt).copy = some c) (outcome : CopyOutcome) : ∃ acc,
    ((abortCopy s n outcome).stations[n]'n.isLt) =
      { ({ (s.stations[n]'n.isLt) with copy := none, outcome := outcome, reason := 0, account := acc } : Station).pausedOrReady
        with takenCell := none } := by
  rw [abortCopy_some copy]
  exact settled_failCopy_station (s := s.sendLink n 0x23 (le 2 c.seq)) copy outcome 0

theorem abortCopy_sent (copy : (s.stations[n]'n.isLt).copy = some c) (outcome : CopyOutcome) :
    (abortCopy s n outcome).sent = s.sent ++ [.link n (messageWords 0x23 (le 2 c.seq))] := by
  rw [abortCopy_some copy, settleState_keeps, (failCopy_spec _ n outcome 0).2]
  rfl

end abort

/-! ## The word itself (R142) -/

section word
variable {s v : State} {n : Fin 3} {st : EngineStatus}

theorem exec_engineStatusWord {w : List Byte} (message : s.messageFor n w = some (.status st))
    (up : (s.stations[n]'n.isLt).rate ≠ .none) : exec (.engineStatusWord n w) s = .next (afterWork s (statusArrives
      (s.setStation n { (s.stations[n]'n.isLt) with lastWord := some s.clock, msg := none }) n st)) := by
  have taken : messageTaken s n = s.setStation n { (s.stations[n]'n.isLt) with lastWord := some s.clock, msg := none } := by
    simp only [messageTaken, noteWord, modStation_eq, setStation_get, setStation_setStation]
  show execEngineStatusWord n w s = _
  rw [execEngineStatusWord, message]
  exact (messageArrives_up up _ _).trans (by rw [taken])

/-- The state that a status word leads a station without a copy to (R142, R147). -/
def Station.statusState (x : Station) (st : EngineStatus) : StationState :=
  match x.state with
  | .ready => if st.pauses then .paused else .ready
  | .paused => if st.pauses then .paused else if st.cond = .idle then .ready else .paused
  | .profiling => if x.load.isSome then .profiling else if st.pauses then .paused else .ready
  | other => other

/-- Without a copy a status word leaves the state as it is, or lets the station be PAUSED or READY by its condition. -/
theorem statusActs_none (idle : (v.stations[n]'n.isLt).copy = none) : statusActs v n st =
    match (v.stations[n]'n.isLt).state with
    | .ready => if st.pauses then v.modStation n Station.pausedOrReady else v
    | .paused => if st.pauses then v.modStation n Station.pausedOrReady
        else if st.cond = .idle then v.modStation n Station.pausedOrReady else v
    | .profiling => if (v.stations[n]'n.isLt).load.isNone then settleState v n else v
    | _ => v := by
  have aborts : abortCopy v n .engine = v := by rw [abortCopy, idle]
  simp only [statusActs, idle]
  cases (v.stations[n]'n.isLt).state with
  | printing => exact (congrArg (fun t => if st.pauses then t else v) aborts).trans (ite_self v)
  | _ => rfl

/-- A station without a copy after a status word: its state, its pause cause and perhaps the cell held. -/
def Station.ActedOn (x y : Station) (st : EngineStatus) : Prop :=
  ∃ cause cell, y = { x with state := x.statusState st, pauseCause := cause, takenCell := cell } ∧
    (x.statusState st = .paused → x.state = .ready ∨ x.state = .profiling ∨ st.pauses = true → cause = st.cause)

theorem Station.actedOn_stays {x : Station} (same : x.statusState st = x.state)
    (quiet : x.state = .paused → ¬ st.pauses = true) : x.ActedOn x st := by
  refine ⟨x.pauseCause, x.takenCell, by rw [same], fun paused why => ?_⟩
  have state := same.symm.trans paused
  rcases why with ready | profiling | pauses
  · exact absurd (ready.symm.trans state) (by decide)
  · exact absurd (profiling.symm.trans state) (by decide)
  · exact absurd pauses (quiet state)

theorem Station.actedOn_settles {x : Station} (status : x.status = some st)
    (next : x.statusState st = if st.pauses then .paused else .ready) (cell : Option (Fin 64)) :
    x.ActedOn { x.pausedOrReady with takenCell := cell } st := by
  refine ⟨if st.pauses then st.cause else .none, cell, by rw [pausedOrReady_eq status, next], fun paused _ => ?_⟩
  by_cases pauses : st.pauses = true
  · exact if_pos pauses
  · rw [next, if_neg pauses] at paused
    exact absurd paused (by decide)

/-- What a status word does to a station without a copy, and that no reservation goes with it. -/
theorem statusActs_idle (status : (v.stations[n]'n.isLt).status = some st) (idle : (v.stations[n]'n.isLt).copy = none) :
    (statusActs v n st).reservations = v.reservations ∧
      (v.stations[n]'n.isLt).ActedOn ((statusActs v n st).stations[n]'n.isLt) st := by
  have mods : ((v.modStation n Station.pausedOrReady).stations[n]'n.isLt) =
      { (v.stations[n]'n.isLt).pausedOrReady with takenCell := (v.stations[n]'n.isLt).takenCell } := by
    rw [modStation_eq, setStation_get, pausedOrReady_keeps]
  have settles := settleState_station v n
  have kept : (settleState v n).reservations = v.reservations := by rw [settleState_keeps]
  rw [statusActs_none idle]
  generalize station : (v.stations[n]'n.isLt) = x at *
  cases state : x.state with
  | ready =>
    have next : x.statusState st = if st.pauses then .paused else .ready := by rw [Station.statusState, state]
    dsimp only
    split
    · exact ⟨rfl, by rw [mods]; exact Station.actedOn_settles status next _⟩
    · next awake =>
      have same : x.statusState st = x.state := by rw [next, if_neg awake, state]
      exact ⟨rfl, by rw [station]; exact Station.actedOn_stays same fun _ => awake⟩
  | paused =>
    dsimp only
    split
    · next pauses =>
      have next : x.statusState st = if st.pauses then .paused else .ready := by simp [Station.statusState, state, pauses]
      exact ⟨rfl, by rw [mods]; exact Station.actedOn_settles status next _⟩
    · next awake =>
      split
      · next cond =>
        have next : x.statusState st = if st.pauses then .paused else .ready := by simp [Station.statusState, state, awake, cond]
        exact ⟨rfl, by rw [mods]; exact Station.actedOn_settles status next _⟩
      · next cond =>
        have same : x.statusState st = x.state := by simp [Station.statusState, state, awake, cond]
        exact ⟨rfl, by rw [station]; exact Station.actedOn_stays same fun _ => awake⟩
  | profiling =>
    dsimp only
    split
    · next loaded =>
      have next : x.statusState st = if st.pauses then .paused else .ready := by
        simp [Station.statusState, state, Option.isNone_iff_eq_none.mp loaded]
      exact ⟨kept, by rw [settles]; exact Station.actedOn_settles status next _⟩
    · next loads =>
      have same : x.statusState st = x.state := by
        rw [Station.statusState, state]
        exact if_pos (by simpa [Option.isSome_iff_ne_none] using loads)
      exact ⟨rfl, by rw [station]; exact Station.actedOn_stays same (by rw [state]; exact fun h => absurd h (by decide))⟩
  | _ =>
    have same : x.statusState st = x.state := by rw [Station.statusState, state]
    exact ⟨rfl, by rw [station]; exact Station.actedOn_stays same (by rw [state]; exact fun h => absurd h (by decide))⟩

end word

/-- Settles O53: the word is noted, the account follows, and then the word acts by the station's state. -/
theorem statusWordsActByTheStationState : Obligations.StatusWordsActByTheStationState := by
  intro s n w st message up x work
  have run := exec_engineStatusWord message up
  generalize hu : s.setStation n { x with lastWord := some s.clock, msg := none, status := some st, statusSeen := true } = u
  have arrives : statusArrives (s.setStation n { x with lastWord := some s.clock, msg := none }) n st =
      statusActs (accountFollows u n st (!x.statusSeen)) n st := by
    simp only [statusArrives, modStation_setStation, setStation_get, hu]
  rw [arrives] at run
  have noted : (u.stations[n]'n.isLt) = { x with lastWord := some s.clock, msg := none, status := some st, statusSeen := true } := by
    rw [← hu, setStation_get]
  have kept : u.reservations = s.reservations := by rw [← hu]; rfl
  obtain ⟨r, station, released⟩ := accountFollows_station u n st (!x.statusSeen)
  have keeps := accountFollows_keeps u n st (!x.statusSeen)
  rw [noted] at station released keeps
  generalize accountFollows u n st (!x.statusSeen) = v at *
  refine ⟨fun idle => ⟨statusActs v n st, run, ?_⟩, ?aborts, ?starts⟩
  · obtain ⟨same, cause, cell, acted, shown⟩ := statusActs_idle (v := v) (n := n) (st := st) (by rw [station]) (by rw [station]; exact idle)
    rw [station] at acted shown
    refine ⟨by rw [acted], by rw [acted], by rw [acted]; exact idle, by rw [acted]; rfl, ?_, ?_, fun reserved => ?_⟩
    · intro paused
      rw [acted] at paused ⊢
      exact shown paused
    · rw [acted]
      exact follows_counts x.account st x.statusSeen
    · have gone := released ((congrArg (fun v : Vector (Option Reservation) 3 => v[n]) kept).trans reserved)
      have held : ((statusActs v n st).reservations[n]'n.isLt) = r := by
        rw [congrArg (fun t : Vector (Option Reservation) 3 => t[n]) (same.trans (congrArg State.reservations keeps))]
        dsimp only
        rw [gone]
        split
        · rw [vector_set_get, if_pos rfl]
        · rw [kept, reserved]
      refine ⟨held.trans (gone.trans ?_), by rw [acted, held]⟩
      exact givesUp_reservation x.account st x.statusSeen
  case aborts =>
    intro c copy seen state pauses
    have copies : (v.stations[n]'n.isLt).copy = some c := by rw [station]; exact copy
    have acts : statusActs v n st = abortCopy v n .engine := by
      have was : (v.stations[n]'n.isLt).state = x.state := by rw [station]
      simp only [statusActs, copies, was]
      rcases state with printing | paused
      · rw [printing]; exact if_pos pauses
      · rw [paused]; exact if_pos pauses
    obtain ⟨acc, ended⟩ := abortCopy_station copies .engine
    have settled := pausedOrReady_eq (x := { (v.stations[n]'n.isLt) with
      copy := none, outcome := .engine, reason := 0, account := acc }) (st := st) (by rw [station])
    rw [settled, if_pos pauses, if_pos pauses] at ended
    refine ⟨_, run, ?_⟩
    rw [acts, ended, abortCopy_sent copies]
    exact ⟨rfl, rfl, rfl, rfl, rfl, List.mem_append_right _ (List.mem_singleton.mpr rfl)⟩
  case starts =>
    intro c copy seen paused awake
    have copies : (v.stations[n]'n.isLt).copy = some c := by rw [station]; exact copy
    have status : (v.stations[n]'n.isLt).status = some st := by rw [station]
    have settings : v.settings = s.settings := by rw [keeps, ← hu]; rfl
    have acts : statusActs v n st = if st.temp ≤ hotLimit s.settings - 3 then startPanel v n c else v := by
      have was : (v.stations[n]'n.isLt).state = x.state := by rw [station]
      simp only [statusActs, copies, was, paused, settings]
      exact if_neg (by rw [awake]; decide)
    refine ⟨_, run, fun cool => ?_, fun hot => ?_⟩
    · rw [acts, if_pos cool, startPanel_cool status (by rw [settings]; omega), enterPanel_eq]
      dsimp only
      rw [vector_set_get, if_pos rfl, vector_set_get, if_pos rfl]
      exact ⟨rfl, rfl, rfl, List.mem_append_right _ (List.mem_singleton.mpr rfl), rfl, rfl, rfl⟩
    · rw [acts, if_neg (by omega), station]
      exact ⟨paused, copy⟩

end Sys2Proof.Machine
end

