-- ==== Sys2Proof/Proofs/CopyFlow.lean ====
section
/-! The messages of a copy in flight: lines requested, answered and sent again, panels and their ends (R144 to R148, R178). -/

namespace Sys2Proof.Machine

-- Checked one after another, as in the tests: a theorem checked alongside others holds its memory.
set_option Elab.async false

/-! ## A message that arrives, and the copy it names (R148) -/

section message
variable {s : State} {n : Fin 3} {w : List Byte} {seq panel line : Nat}

/-- The station once the word of a complete message is noted. -/
def Station.messaged (x : Station) (now : Word) : Station := { x with lastWord := some now, msg := none }

theorem messageTaken_eq (s : State) (n : Fin 3) :
    messageTaken s n = s.setStation n ((s.stations[n]'n.isLt).messaged s.clock) := by
  simp only [messageTaken, noteWord, modStation_eq, setStation_get, setStation_setStation]
  rfl

/-- A complete message while the link is up takes effect with its word noted. -/
theorem messageArrives_taken (up : (s.stations[n]'n.isLt).rate ≠ .none) (f : State → State) :
    messageArrives s n true (f (messageTaken s n)) =
      .next (afterWork s (f (s.setStation n ((s.stations[n]'n.isLt).messaged s.clock)))) := by
  rw [messageArrives_up up, messageTaken_eq]

/-- The copy message that a command carries: its sequence number, and what it does to the copy it names. -/
def CopyMessage (s : State) (n : Fin 3) (w : List Byte) (i : Instr) (seq : Nat) (f : State → Copy → State) : Prop :=
  (∃ panel line, i = .lineRequest n w ∧ s.messageFor n w = some (.lineRequest seq panel line) ∧
    f = fun t c => lineRequested t n c panel line) ∨
  (∃ panel line, i = .lineAck n w ∧ s.messageFor n w = some (.lineAck seq panel line) ∧
    f = fun t c => lineAcked t n c panel line) ∨
  (∃ panel line, i = .lineNak n w ∧ s.messageFor n w = some (.lineNak seq panel line) ∧
    f = fun t c => lineNaked t n c panel line) ∨
  (∃ panel, i = .panelDone n w ∧ s.messageFor n w = some (.panelDone seq panel) ∧ f = fun t c => panelEnds t n c panel) ∨
  (i = .copyOk n w ∧ s.messageFor n w = some (.copyOk seq) ∧ f = fun t c => copyOk t n c) ∨
  (∃ reason, i = .copyFault n w ∧ s.messageFor n w = some (.copyFault seq reason) ∧ f = fun t _ => copyFault t n reason)

theorem exec_copyMessage {i : Instr} {f : State → Copy → State} (message : CopyMessage s n w i seq f)
    (up : (s.stations[n]'n.isLt).rate ≠ .none) : exec i s = .next (afterWork s
      (withCopy (s.setStation n ((s.stations[n]'n.isLt).messaged s.clock)) n seq
        (f (s.setStation n ((s.stations[n]'n.isLt).messaged s.clock))))) := by
  rcases message with ⟨panel, line, rfl, word, rfl⟩ | ⟨panel, line, rfl, word, rfl⟩ | ⟨panel, line, rfl, word, rfl⟩ |
    ⟨panel, rfl, word, rfl⟩ | ⟨rfl, word, rfl⟩ | ⟨reason, rfl, word, rfl⟩
  · show execLineRequest n w s = _
    rw [execLineRequest, word]
    exact messageArrives_taken up fun t => withCopy t n seq fun c => lineRequested t n c panel line
  · show execLineAck n w s = _
    rw [execLineAck, word]
    exact messageArrives_taken up fun t => withCopy t n seq fun c => lineAcked t n c panel line
  · show execLineNak n w s = _
    rw [execLineNak, word]
    exact messageArrives_taken up fun t => withCopy t n seq fun c => lineNaked t n c panel line
  · show execPanelDone n w s = _
    rw [execPanelDone, word]
    exact messageArrives_taken up fun t => withCopy t n seq fun c => panelEnds t n c panel
  · show execCopyOk n w s = _
    rw [execCopyOk, word]
    exact messageArrives_taken up fun t => withCopy t n seq fun c => copyOk t n c
  · show execCopyFault n w s = _
    rw [execCopyFault, word]
    exact messageArrives_taken up fun t => withCopy t n seq fun _ => copyFault t n reason

theorem withCopy_stale (other : ∀ c, (s.stations[n]'n.isLt).copy = some c → c.seq ≠ seq) (f : Copy → State) :
    withCopy s n seq f = s.setStation n { (s.stations[n]'n.isLt) with stales := sat16 (s.stations[n]'n.isLt).stales } := by
  rw [withCopy]
  split
  · next c copy => exact if_neg (other c copy)
  · rfl

theorem withCopy_named {c : Copy} (copy : (s.stations[n]'n.isLt).copy = some c) (f : Copy → State) :
    withCopy s n c.seq f = f c := by
  rw [withCopy, copy]
  exact if_pos rfl

/-- A copy message that names the copy in flight does to it what it says. -/
theorem exec_copyMessage_named {i : Instr} {f : State → Copy → State} {c : Copy} (message : CopyMessage s n w i c.seq f)
    (up : (s.stations[n]'n.isLt).rate ≠ .none) (copy : (s.stations[n]'n.isLt).copy = some c) : exec i s =
      .next (afterWork s (f (s.setStation n ((s.stations[n]'n.isLt).messaged s.clock)) c)) := by
  rw [exec_copyMessage message up, withCopy_named (c := c) (by rw [setStation_get]; exact copy)]

end message

/-! ## A bank found by its state (R178, R179) -/

theorem bankIn_first {h : Head} {p : Bank → Bool} {i : Fin 2} (at_ : p (h.banks[i]'i.isLt) = true)
    (first : ∀ j : Fin 2, j < i → ¬ p (h.banks[j]'j.isLt) = true) : h.bankIn p = some i := by
  rw [Head.bankIn]
  match i with
  | 0 => exact if_pos at_
  | 1 => exact (if_neg (first 0 (by decide))).trans (if_pos at_)

theorem bankIn_none {h : Head} {p : Bank → Bool} (no : ∀ j : Fin 2, ¬ p (h.banks[j]'j.isLt) = true) : h.bankIn p = none := by
  rw [Head.bankIn]
  exact (if_neg (no 0)).trans (if_neg (no 1))

/-! ## Lines requested and acknowledged (R146, R178) -/

section lines
variable {s : State} {n : Fin 3} {c : Copy} {panel line : Nat}

/-- A LINE_REQUEST that fits the flow (R148). -/
def Copy.requests (c : Copy) (held : Option HeldRequest) (panel line : Nat) : Prop :=
  c.phase = .inPanel ∧ panel = c.panel.code ∧ line = c.nextLine ∧ line < c.lines ∧ c.answer = none ∧ held = none

theorem lineRequested_violates (bad : ¬ c.requests (s.heads[n]'n.isLt).held panel line) :
    lineRequested s n c panel line = flowViolation s n := by
  refine if_pos ?_
  simp only [Copy.requests, not_and_or, Nat.not_lt, ← Option.not_isSome_iff_eq_none, not_not] at bad
  exact bad

theorem lineRequested_fits (fits : c.requests (s.heads[n]'n.isLt).held panel line) : lineRequested s n c panel line =
    match (s.heads[n]'n.isLt).bankIn fun b => b.state == .ready && b.line == line with
    | some i => sendFrom s n i
    | none => s.modHead n fun h => { h with held := some ⟨line, s.clock, ⟨s.clock, holdLimit s.settings⟩⟩ } := by
  obtain ⟨phase, panels, lines, below, answer, held⟩ := fits
  refine if_neg ?_
  rw [answer, held]
  simp only [phase, panels, lines, ne_eq, not_true_eq_false, false_or, Option.isSome_none, Bool.false_eq_true, or_false]
  omega

theorem sendFrom_eq (copy : (s.stations[n]'n.isLt).copy = some c) (i : Fin 2) : sendFrom s n i = { s with
    heads := s.heads.set n { (s.heads[n]'n.isLt) with
      banks := (s.heads[n]'n.isLt).banks.set i { ((s.heads[n]'n.isLt).banks[i]'i.isLt) with state := .sending } i.isLt } n.isLt
    stations := s.stations.set n
      { (s.stations[n]'n.isLt) with copy := some { c with answer := some ⟨s.clock, 20⟩ } } n.isLt
    sent := s.sent ++ [.link n (messageWords 0x22 (lineBody ((s.heads[n]'n.isLt).banks[i]'i.isLt)))] } := by
  have answered : (s.stations[n]'n.isLt).copy.map (fun c : Copy => { c with answer := some ⟨s.clock, 20⟩ }) =
      some { c with answer := some ⟨s.clock, 20⟩ } := by rw [copy]; rfl
  rw [← answered]
  rfl

theorem answeredBy_iff : c.answeredBy panel line = true ↔ c.answer.isSome ∧ panel = c.panel.code ∧ line = c.nextLine := by
  simp [Copy.answeredBy, and_assoc]

theorem lineAcked_violates (bad : ¬ (c.answer.isSome ∧ panel = c.panel.code ∧ line = c.nextLine)) :
    lineAcked s n c panel line = flowViolation s n :=
  if_neg (fun answered => bad (answeredBy_iff.mp answered))

theorem lineNaked_violates (bad : ¬ (c.answer.isSome ∧ panel = c.panel.code ∧ line = c.nextLine)) :
    lineNaked s n c panel line = flowViolation s n :=
  if_neg (fun answered => bad (answeredBy_iff.mp answered))

theorem lineNaked_fails (fits : c.answer.isSome ∧ panel = c.panel.code ∧ line = c.nextLine) :
    lineNaked s n c panel line = failedAnswer s n c :=
  if_pos (answeredBy_iff.mpr fits)

/-- The copy once its line is done (R146). -/
def Copy.lineDone (c : Copy) : Copy := { c with nextLine := c.nextLine + 1, failedAnswers := 0, answer := none }

theorem lineDone_station (copy : (s.stations[n]'n.isLt).copy = some c) :
    ((lineDone s n).stations[n]'n.isLt) = { (s.stations[n]'n.isLt) with copy := some c.lineDone } := by
  have copies : (s.stations[n]'n.isLt).copy.map Copy.lineDone = some c.lineDone := by rw [copy]; rfl
  have mods : ((s.modCopy n Copy.lineDone).stations[n]'n.isLt) = { (s.stations[n]'n.isLt) with copy := some c.lineDone } := by
    rw [State.modCopy, modStation_eq, setStation_get, copies]
  rw [lineDone]
  dsimp only
  split
  · exact mods
  · exact mods

/-- The bank that holds the line answered is EMPTY (R179). -/
theorem lineDone_bank {i : Fin 2} (sending : ((s.heads[n]'n.isLt).banks[i]'i.isLt).state = .sending)
    (first : ∀ j : Fin 2, j < i → ((s.heads[n]'n.isLt).banks[j]'j.isLt).state ≠ .sending) :
    ((((lineDone s n).heads[n]'n.isLt).banks)[i]'i.isLt).state = .empty := by
  have found : (s.heads[n]'n.isLt).bankIn (fun b => b.state == .sending) = some i :=
    bankIn_first (by simpa using sending) fun j below => by simpa using first j below
  have outcome : lineDone s n = (s.modCopy n Copy.lineDone).modHead n fun h => h.setBank i emptyBank := by
    simp only [lineDone]
    rw [show (s.modCopy n _).heads = s.heads from rfl, found]
    rfl
  have heads : ((lineDone s n).heads[n]'n.isLt) = (s.heads[n]'n.isLt).setBank i emptyBank := by
    rw [outcome, State.modHead, State.setHead, vector_set_get, if_pos rfl]
    rfl
  rw [heads, Head.setBank, vector_set_get, if_pos rfl]
  rfl

theorem lineAcked_counted (fits : c.answer.isSome ∧ panel = c.panel.code ∧ line = c.nextLine)
    (below : (s.stations[n]'n.isLt).winErrors < linkThreshold s.settings) : lineAcked s n c panel line =
      lineDone (s.setStation n (
        if linkWindow s.settings ≤ (s.stations[n]'n.isLt).winTransfers + 1
        then { (s.stations[n]'n.isLt).windowed true false with winTransfers := 0, winErrors := 0 }
        else (s.stations[n]'n.isLt).windowed true false)) n := by
  refine (if_pos (answeredBy_iff.mpr fits)).trans ?_
  rw [countLink_below (transfer := true) (error := false) below]
  rfl

end lines

/-! ## The end of a panel (R147) -/

section panels
variable {s : State} {n : Fin 3} {c : Copy} {panel : Nat}

theorem panelEnds_violates (bad : ¬ (c.phase = .inPanel ∧ panel = c.panel.code ∧ c.nextLine = c.lines)) :
    panelEnds s n c panel = flowViolation s n := by
  refine if_pos ?_
  simpa only [not_and_or] using bad

theorem panelEnds_next {p : Panel} (fits : c.phase = .inPanel ∧ panel = c.panel.code ∧ c.nextLine = c.lines)
    (next : c.panel.next = some p) : panelEnds s n c panel = startPanel s n { c with panel := p, phase := .waitStart } := by
  obtain ⟨phase, panels, lines⟩ := fits
  refine (if_neg (by simp [phase, panels, lines])).trans ?_
  rw [next]

theorem panelEnds_last (fits : c.phase = .inPanel ∧ panel = c.panel.code ∧ c.nextLine = c.lines) (last : c.panel = .o)
    (copy : (s.stations[n]'n.isLt).copy = some c) :
    panelEnds s n c panel = s.setStation n { (s.stations[n]'n.isLt) with copy := some { c with phase := .waitOk } } := by
  obtain ⟨phase, panels, lines⟩ := fits
  have none : c.panel.next = none := by rw [last]; rfl
  refine (if_neg (by simp [phase, panels, lines])).trans ?_
  rw [none]
  dsimp only
  rw [State.modCopy, modStation_eq, copy]
  rfl

end panels

end Sys2Proof.Machine
end

