-- ==== Sys2Proof/Proofs/CopyEnds.lean ====
section
/-! The end of a copy: its item's counters, the settlement of its order, and what ends it (R137, R146, R147, R161, R163,
R178, R180). -/

namespace Sys2Proof.Machine

-- Checked one after another, as in the tests: a theorem checked alongside others holds its memory.
set_option Elab.async false

/-! ## An order whose copy has ended (R89, R90, R161, R163) -/

/-- An item as it is but for its reservations and its raster's reference. -/
def Item.core (it : Item) : Item := { it with reserved := 0, refHeld := false }

/-- Two orders have the same items but for reservations and references. -/
def Order.SameItems (p o : Order) : Prop := p.items.map Item.core = o.items.map Item.core

section items
variable {o p : Order}

theorem Order.SameItems.map (same : p.SameItems o) {α : Type} (f : Item → α) (free : ∀ it : Item, f it.core = f it) :
    p.items.map f = o.items.map f := by
  have core : ∀ q : Order, (q.items.map Item.core).map f = q.items.map f := fun q => by
    rw [List.map_map]
    exact List.map_congr_left fun it _ => free it
  rw [← core p, ← core o, same]

theorem Order.SameItems.all (same : p.SameItems o) {q : Item → Prop} (free : ∀ it : Item, q it.core = q it) :
    (∀ a ∈ p.items, q a) ↔ ∀ a ∈ o.items, q a := by
  have props := same.map q free
  have all : ∀ x : Order, (∀ a ∈ x.items, q a) ↔ ∀ b ∈ x.items.map q, b := fun x => (List.forall_mem_map (P := fun b => b)).symm
  rw [all p, all o, props]

theorem Order.SameItems.get (same : p.SameItems o) {i : Nat} {a : Item} (at_ : o.items[i]? = some a) :
    ∃ b, p.items[i]? = some b ∧ b.core = a.core := by
  have both : (p.items.map Item.core)[i]? = (o.items.map Item.core)[i]? := by rw [same]
  rw [List.getElem?_map, List.getElem?_map, at_] at both
  exact Option.map_eq_some_iff.mp both

theorem sameItems_of_bare (bare : p.bare = o.bare) : p.SameItems o := bare_items bare Item.core fun _ => rfl

theorem settled_sameItems (o : Order) : o.settled.SameItems o := by
  obtain ⟨out, settled⟩ := settled_eq o
  rw [settled, Order.SameItems, List.map_map]
  exact List.map_congr_left fun _ _ => rfl

theorem modItem_get {i : Nat} {it : Item} (at_ : o.items[i]? = some it) (f : Item → Item) :
    (o.modItem i f).items[i]? = some (f it) := by
  rw [Order.modItem]
  simp [at_]

end items

section settles
variable {s : State} {h : Handle} {m : Fin 48} {o p : Order}

/-- What settlement does to an order `o`, now `p`, and to the queue: all where its items are final and idle, else nothing. -/
def OrderSettles (s t : State) (h : Handle) (o p : Order) : Prop :=
  let settles := (o.state = .printing ∨ o.state = .cancelling) ∧
    ∀ a ∈ p.items, (a.state = .done ∨ a.state = .failed ∨ a.state = .cancelled) ∧ a.inFlight = 0
  let captured : Nat := (p.items.map fun a => a.done * a.unitPrice).sum
  (settles → p.captured = captured ∧ p.state = (if captured = 0 ∧ o.authorised = 0 then .closed else .settling) ∧
    t.pay.queue = s.pay.queue ++ (if captured ≠ 0 then [⟨h, .capture, captured, o.code.getD []⟩]
      else if o.authorised ≠ 0 then [⟨h, .void, o.authorised, o.code.getD []⟩] else [])) ∧
  (¬ settles → p.state = o.state ∧ t.pay.queue = s.pay.queue)

theorem checkSettle_settles (found : s.orderAt h = some (m, p)) (state : p.state = o.state)
    (authorised : p.authorised = o.authorised) (code : p.code = o.code) : ∃ q,
    ((checkSettle s h).orders[m]'m.isLt).order = some q ∧ q.SameItems p ∧ OrderSettles s (checkSettle s h) h o q := by
  have readies : ∀ q : Order, q.SameItems p → (((o.state = .printing ∨ o.state = .cancelling) ∧
      ∀ a ∈ q.items, (a.state = .done ∨ a.state = .failed ∨ a.state = .cancelled) ∧ a.inFlight = 0) ↔ p.ready = true) := by
    intro q same
    rw [ready_iff, state, same.all (q := fun a => (a.state = .done ∨ a.state = .failed ∨ a.state = .cancelled) ∧ a.inFlight = 0)
      fun _ => rfl]
  by_cases ready : p.ready = true
  · have outcome := checkSettle_ready found ready
    have same := settled_sameItems p
    have sum : capturedSum p.items = (p.settled.items.map fun a => a.done * a.unitPrice).sum :=
      (congrArg List.sum (same.map (fun a => a.done * a.unitPrice) fun _ => rfl)).symm
    obtain ⟨out, settled⟩ := settled_eq p
    have fields : p.settled.captured = capturedSum p.items ∧
        p.settled.state = (if capturedSum p.items = 0 ∧ o.authorised = 0 then .closed else .settling) := by
      rw [settled, ← authorised]
      exact ⟨rfl, rfl⟩
    refine ⟨p.settled, ?_, same, fun _ => ?_, fun no => absurd ((readies _ same).mpr ready) no⟩
    · rw [outcome, vector_set_get, if_pos rfl]
    · rw [outcome, ← sum, fields.1, fields.2]
      refine ⟨rfl, rfl, ?_⟩
      dsimp only
      rw [Order.settleActions, code, authorised]
  · have outcome := checkSettle_not found ready
    refine ⟨p, ?_, rfl, fun settles => absurd ((readies p rfl).mp settles) ready, fun _ => ?_⟩
    · rw [outcome]
      exact (orderAt_some found).2.1
    · rw [outcome]
      exact ⟨state, rfl⟩

/-- What the Dispatcher's share of a copy's end leaves of the order: its item as moved, and perhaps the settlement. -/
def CopyMoves (s t : State) (h : Handle) (i : Nat) (m : Fin 48) (o : Order) (moved : Item) : Prop :=
  ∃ p q, (t.orders[m]'m.isLt).order = some p ∧ p.items[i]? = some q ∧ q.core = moved.core ∧ OrderSettles s t h o p

variable {i : Nat} {it : Item}

theorem copyCompleted_moves (found : s.orderAt h = some (m, o)) (item : o.items[i]? = some it) :
    CopyMoves s (copyCompleted s h i) h i m o it.complete := by
  have now : (s.modOrder h fun o => o.modItem i Item.complete).orderAt h = some (m, o.modItem i Item.complete) := by
    rw [modOrder_some found]
    exact orderAt_putOrder found _
  obtain ⟨p, order, same, settles⟩ := checkSettle_settles (o := o) now rfl rfl rfl
  obtain ⟨q, at_, core⟩ := same.get (modItem_get item Item.complete)
  rw [modOrder_keeps] at settles
  exact ⟨p, q, order, at_, core, by rw [copyCompleted, modOrder_keeps]; exact settles⟩

theorem copyFailed_moves (found : s.orderAt h = some (m, o)) (item : o.items[i]? = some it) :
    CopyMoves s (copyFailed s h i) h i m o (it.fail o.failureLimit) ∧
    ((it.fail o.failureLimit).state = .failed → ∀ (k : Fin 3) r, (s.reservations[k]'k.isLt) = some r → r.order = h →
      r.item = i → ((copyFailed s h i).reservations[k]'k.isLt) = none) := by
  generalize hv : s.modOrder h (fun o => o.modItem i fun it => it.fail o.failureLimit) = v
  have now : v.orderAt h = some (m, o.modItem i fun it => it.fail o.failureLimit) := by
    rw [← hv, modOrder_some found]
    exact orderAt_putOrder found _
  have kept : v.pay = s.pay ∧ v.reservations = s.reservations := by
    rw [← hv, modOrder_keeps]
    exact ⟨rfl, rfl⟩
  have failed : v.itemFailed h i = ((it.fail o.failureLimit).state == .failed) := by
    rw [State.itemFailed, now]
    dsimp only
    rw [modItem_get item]
  have outcome : copyFailed s h i = checkSettle (if v.itemFailed h i then releaseWhere v fun r => r.order == h && r.item == i
      else v) h := by rw [← hv]; rfl
  generalize hu : (if v.itemFailed h i then releaseWhere v fun r => r.order == h && r.item == i else v) = u at outcome
  have found' : ∃ o2, u.orderAt h = some (m, o2) ∧ o2.bare = (o.modItem i fun it => it.fail o.failureLimit).bare := by
    rw [← hu]
    split
    · exact releaseWhere_orderAt now _
    · exact ⟨_, now, rfl⟩
  have pay : u.pay = s.pay := by
    rw [← hu, ← kept.1]
    split
    · rw [releaseWhere_keeps]
    · rfl
  obtain ⟨o2, found2, bare⟩ := found'
  obtain ⟨p, order, same, settles⟩ := checkSettle_settles (o := o) found2
    (congrArg Order.state bare :) (congrArg Order.authorised bare :) (congrArg Order.code bare :)
  obtain ⟨b, at2, core2⟩ := (sameItems_of_bare bare).get (modItem_get item _)
  obtain ⟨q, at_, core⟩ := same.get at2
  refine ⟨⟨p, q, ?_, at_, core.trans core2, ?_⟩, fun state k r held order item => ?_⟩
  · rw [outcome]
    exact order
  · rw [outcome]
    rw [OrderSettles, pay] at settles
    exact settles
  · have released : u = releaseWhere v fun r => r.order == h && r.item == i := by
      rw [← hu, if_pos (by rw [failed, state]; rfl)]
    have gone : (u.reservations[k]'k.isLt) = none := by
      rw [released, releaseWhere_reservations, kept.2, held, Option.filter_some]
      simp [order, item]
    rw [outcome, checkSettle_keeps]
    exact gone

end settles

/-! ## A copy that ends at its station (R147, R161, R163) -/

section ends
variable {s : State} {n : Fin 3} {c : Copy} {m : Fin 48} {o : Order} {it : Item}

/-- What the end of a copy leaves while the link stays up: the station, the head, the order's item and its reservations. -/
def CopyEnded (s t : State) (n : Fin 3) (c : Copy) (m : Fin 48) (o : Order) (moved : Item) (outcome : CopyOutcome)
    (reason : Byte) : Prop :=
  (t.stations[n]'n.isLt).copy = none ∧ (t.stations[n]'n.isLt).outcome = outcome ∧ (t.stations[n]'n.isLt).reason = reason ∧
  (∀ st, (s.stations[n]'n.isLt).status = some st →
    (t.stations[n]'n.isLt).state = if st.pauses then .paused else .ready) ∧
  (t.heads[n]'n.isLt) = resetHead ∧ t.sent = s.sent ∧ CopyMoves s t c.order c.item m o moved

/-- A state whose orders, reservations and queue are those of `s` after the end of a copy at a station. -/
theorem settleState_ends {v : State} {y : Station} {moved : Item} {outcome : CopyOutcome} {reason : Byte}
    (heads : (v.heads[n]'n.isLt) = resetHead) (sent : v.sent = s.sent)
    (station : (v.stations[n]'n.isLt) = { y with copy := none, outcome := outcome, reason := reason })
    (status : y.status = (s.stations[n]'n.isLt).status) (moves : CopyMoves s v c.order c.item m o moved) :
    CopyEnded s (settleState v n) n c m o moved outcome reason := by
  have keeps := settleState_keeps v n
  have settled := settleState_station v n
  rw [station, pausedOrReady_keeps] at settled
  refine ⟨by rw [settled], by rw [settled], by rw [settled], fun st shown => ?_, by rw [keeps]; exact heads,
    by rw [keeps]; exact sent, ?_⟩
  · rw [settled]
    exact congrArg Station.state (pausedOrReady_eq (st := st)
      (x := { y with copy := none, outcome := outcome, reason := reason }) (status.trans shown))
  · obtain ⟨p, q, order, at_, core, settles⟩ := moves
    refine ⟨p, q, by rw [keeps]; exact order, at_, core, ?_⟩
    rw [keeps]
    exact settles

theorem completeCopy_ends (copy : (s.stations[n]'n.isLt).copy = some c) (found : s.orderAt c.order = some (m, o))
    (item : o.items[c.item]? = some it) :
    CopyEnded s (settleState (completeCopy s n) n) n c m o it.complete .completed 0 := by
  have ended := completeCopy_some copy
  have render := renderEnd_keeps s n
  generalize hv : (renderEnd s n).setStation n
    { (s.stations[n]'n.isLt) with copy := none, outcome := .completed, reason := 0 } = v at ended
  have found' : v.orderAt c.order = some (m, o) := by rw [← hv, State.setStation, render]; exact found
  have keeps := copyCompleted_keeps v c.order c.item
  rw [ended]
  refine settleState_ends (y := (s.stations[n]'n.isLt)) ?_ ?_ ?_ rfl ?_
  · rw [keeps, ← hv, State.setStation, render, vector_set_get, if_pos rfl]
  · rw [keeps, ← hv, State.setStation, render]
  · rw [keeps, ← hv, setStation_get]
  · have pay : v.pay = s.pay := by rw [← hv, State.setStation, render]
    have moves := copyCompleted_moves found' item
    rw [CopyMoves] at moves ⊢
    simp only [OrderSettles, pay] at moves ⊢
    exact moves

theorem failCopy_ends (copy : (s.stations[n]'n.isLt).copy = some c) (found : s.orderAt c.order = some (m, o))
    (item : o.items[c.item]? = some it) (outcome : CopyOutcome) (reason : Byte) :
    CopyEnded s (settleState (failCopy s n outcome reason) n) n c m o (it.fail o.failureLimit) outcome reason ∧
    ((it.fail o.failureLimit).state = .failed → ∀ (k : Fin 3) r, (s.reservations[k]'k.isLt) = some r → r.order = c.order →
      r.item = c.item → ((settleState (failCopy s n outcome reason) n).reservations[k]'k.isLt) = none) := by
  have station := eq_of_unreserved (failCopy_spec s n outcome reason).1
  rw [ended_some copy] at station
  have ended := failCopy_some (outcome := outcome) (reason := reason) copy
  have render := renderEnd_keeps s n
  generalize hv : (renderEnd s n).setStation n
    { (s.stations[n]'n.isLt) with copy := none, outcome := outcome, reason := reason } = v at ended
  have found' : v.orderAt c.order = some (m, o) := by rw [← hv, State.setStation, render]; exact found
  have keeps := copyFailed_keeps v c.order c.item
  have pay : v.pay = s.pay := by rw [← hv, State.setStation, render]
  have held : v.reservations = s.reservations := by rw [← hv, State.setStation, render]
  obtain ⟨moves, released⟩ := copyFailed_moves found' item
  refine ⟨settleState_ends (y := { (s.stations[n]'n.isLt) with account := ((failCopy s n outcome reason).stations[n]'n.isLt).account })
    ?_ ?_ station rfl ?_, fun failed k r was order item => ?_⟩
  · rw [ended, keeps, ← hv, State.setStation, render, vector_set_get, if_pos rfl]
  · rw [ended, keeps, ← hv, State.setStation, render]
  · rw [ended]
    rw [CopyMoves] at moves ⊢
    simp only [OrderSettles, pay] at moves ⊢
    exact moves
  · rw [settleState_keeps, ended]
    exact released failed k r (by rw [held]; exact was) order item

end ends

/-! ## A failed answer of a line (R146) -/

section answers
variable {s : State} {n : Fin 3} {c : Copy}

/-- The copy after one more failed answer. -/
def Copy.refused (c : Copy) : Copy := { c with failedAnswers := c.failedAnswers + 1, answer := none }

/-- Below the threshold of the link window a failed answer is counted, and the line is sent again or the copy fails. -/
theorem failedAnswer_below (copy : (s.stations[n]'n.isLt).copy = some c)
    (below : (s.stations[n]'n.isLt).winErrors + 1 < linkThreshold s.settings) : ∃ z : Station,
    z.copy = some c.refused ∧ z.status = (s.stations[n]'n.isLt).status ∧ z.naks = sat16 (s.stations[n]'n.isLt).naks ∧
    failedAnswer s n c = if 3 ≤ c.failedAnswers + 1 then abortCopy (s.setStation n z) n .link
      else match (s.heads[n]'n.isLt).bankIn fun b => b.state == .sending with
        | some i => sendLine (s.setStation n z) n ((s.heads[n]'n.isLt).banks[i]'i.isLt)
        | none => s.setStation n z := by
  generalize hx : (s.stations[n]'n.isLt) = x at *
  generalize hy : (if linkWindow s.settings ≤ x.winTransfers + 1
    then { ({ x with naks := sat16 x.naks } : Station).windowed true true with winTransfers := 0, winErrors := 0 }
    else ({ x with naks := sat16 x.naks } : Station).windowed true true : Station) = y
  have fields : y.copy = some c ∧ y.status = x.status ∧ y.naks = sat16 x.naks := by
    rw [← hy]
    split
    · exact ⟨copy, rfl, rfl⟩
    · exact ⟨copy, rfl, rfl⟩
  obtain ⟨copied, status, naks⟩ := fields
  refine ⟨{ y with copy := some c.refused }, rfl, status, naks, ?_⟩
  have counted : countLink (s.setStation n { x with naks := sat16 x.naks }) n true true = (s.setStation n y, true) := by
    rw [countLink_below (by rw [setStation_get]; exact below), setStation_get, setStation_setStation]
    exact congrArg (fun y => (s.setStation n y, true)) hy
  have refused : (s.setStation n y).modCopy n Copy.refused = s.setStation n { y with copy := some c.refused } := by
    rw [State.modCopy, modStation_setStation, copied]
    rfl
  rw [failedAnswer, modStation_eq, hx, counted]
  exact congrArg (fun v : State => if 3 ≤ c.failedAnswers + 1 then abortCopy v n .link
    else match (v.heads[n]'n.isLt).bankIn fun b => b.state == .sending with
      | some i => sendLine v n ((v.heads[n]'n.isLt).banks[i]'i.isLt)
      | none => v) refused

end answers

section fields
variable {it q : Item} {limit : Nat}

theorem complete_fields (same : q.core = it.complete.core) : q.inFlight = it.inFlight - 1 ∧ q.done = it.done + 1 ∧
    q.failures = it.failures ∧
    q.state = if it.state ≠ .active then it.state else if q.done = it.copies then .done else .active := by
  have done : q.done = it.complete.done := (congrArg Item.done same :)
  have state : q.state = it.complete.state := (congrArg Item.state same :)
  have inFlight : q.inFlight = it.complete.inFlight := (congrArg Item.inFlight same :)
  have failures : q.failures = it.complete.failures := (congrArg Item.failures same :)
  rw [inFlight, state, done, failures, Item.complete]
  by_cases active : it.state = .active
  · by_cases all : it.done + 1 = it.copies
    · simp [active, all]
    · simp [active, all]
  · simp [active]

theorem fail_fields (same : q.core = (it.fail limit).core) : q.inFlight = it.inFlight - 1 ∧ q.done = it.done ∧
    q.failures = (if it.failures < limit then it.failures + 1 else it.failures) ∧
    q.state = if it.state ≠ .active then it.state else if limit ≤ q.failures then .failed else .active := by
  have done : q.done = (it.fail limit).done := (congrArg Item.done same :)
  have state : q.state = (it.fail limit).state := (congrArg Item.state same :)
  have inFlight : q.inFlight = (it.fail limit).inFlight := (congrArg Item.inFlight same :)
  have failures : q.failures = (it.fail limit).failures := (congrArg Item.failures same :)
  rw [inFlight, state, done, failures, Item.fail]
  by_cases active : it.state = .active
  · by_cases reached : limit ≤ if it.failures < limit then it.failures + 1 else it.failures
    · simp [active, reached]
    · simp [active, reached]
  · simp [active]

end fields

/-- Settles O54: the copy's messages by the flow, and the ends of a copy by what ends it. -/
theorem copyMessagesFollowTheFlow : Obligations.CopyMessagesFollowTheFlow := by
  refine ⟨fun s n w up => ?flow, ?ends⟩
  case flow =>
    intro x u go violation
    have took : s.setStation n ((s.stations[n]'n.isLt).messaged s.clock) = u := rfl
    have station : (u.stations[n]'n.isLt) = x := setStation_get _ _ _
    refine ⟨fun i seq message other => ?stale, fun c copy => ?named⟩
    case stale =>
      have stale : ∀ f : State → Copy → State, CopyMessage s n w i seq f → go i (u.setStation n { x with stales := sat16 x.stales }) := by
        intro f message
        have run := exec_copyMessage message up
        rw [took, withCopy_stale (by rw [station]; exact other), station] at run
        exact run
      obtain ⟨panel, line, message⟩ := message
      rcases message with ⟨rfl, word⟩ | ⟨rfl, word⟩ | ⟨rfl, word⟩ | ⟨rfl, word⟩ | ⟨rfl, word⟩ | ⟨rfl, reason, word⟩
      · exact stale _ (.inl ⟨panel, line, rfl, word, rfl⟩)
      · exact stale _ (.inr (.inl ⟨panel, line, rfl, word, rfl⟩))
      · exact stale _ (.inr (.inr (.inl ⟨panel, line, rfl, word, rfl⟩)))
      · exact stale _ (.inr (.inr (.inr (.inl ⟨panel, rfl, word, rfl⟩))))
      · exact stale _ (.inr (.inr (.inr (.inr (.inl ⟨rfl, word, rfl⟩)))))
      · exact stale _ (.inr (.inr (.inr (.inr (.inr ⟨reason, rfl, word, rfl⟩)))))
    case named =>
      intro h tm
      have copies : (u.stations[n]'n.isLt).copy = some c := by rw [station]; exact copy
      have goes : ∀ (i : Instr) (f : State → Copy → State) (t : State), CopyMessage s n w i c.seq f → f u c = t → go i t := by
        intro i f t message does
        have run := exec_copyMessage_named message up copy
        rw [took, does] at run
        exact run
      refine ⟨fun panel line word => ?request, fun panel line word => ?ack, fun panel line word bad => ?nak,
        fun panel word => ?done, fun word bad => ?ok⟩
      case request =>
        intro fits
        have request := fun t => goes (.lineRequest n w) _ t (.inl ⟨panel, line, rfl, word, rfl⟩)
        refine ⟨fun bad => request _ (lineRequested_violates bad), fun i good ready lines first => request _ ?_,
          fun good no => request _ ?_⟩
        · refine (lineRequested_fits (s := u) (n := n) good).trans ?_
          rw [show (u.heads[n]'n.isLt) = h from rfl, bankIn_first (i := i) (by simpa using ⟨ready, lines⟩) (fun j below => by simpa using first j below)]
          exact (sendFrom_eq copies i).trans (by rw [station]; rfl)
        · refine (lineRequested_fits (s := u) (n := n) good).trans ?_
          rw [show (u.heads[n]'n.isLt) = h from rfl, bankIn_none fun j => by simpa using no j]
          rfl
      case ack =>
        intro fits
        have acks := fun t => goes (.lineAck n w) _ t (.inr (.inl ⟨panel, line, rfl, word, rfl⟩))
        refine ⟨fun bad => acks _ (lineAcked_violates bad), fun good below => ⟨_, acks _ (lineAcked_counted (s := u) good
          (by rw [station]; exact below)), ?_⟩⟩
        rw [station]
        generalize counts : (if linkWindow u.settings ≤ x.winTransfers + 1 then
          { x.windowed true false with winTransfers := 0, winErrors := 0 } else x.windowed true false : Station) = y
        have copied : y.copy = some c := by
          rw [← counts]
          split
          · exact copy
          · exact copy
        have transfers : y.winTransfers = if linkWindow s.settings ≤ x.winTransfers + 1 then 0 else x.winTransfers + 1 := by
          rw [← counts]
          split
          · next full => exact (if_pos full).symm
          · next room => exact (if_neg room).symm
        rw [lineDone_station (c := c) (by rw [setStation_get]; exact copied), setStation_get]
        exact ⟨rfl, transfers, fun i => lineDone_bank (s := u.setStation n y)⟩
      case nak => exact goes (.lineNak n w) _ _ (.inr (.inr (.inl ⟨panel, line, rfl, word, rfl⟩))) (lineNaked_violates bad)
      case done =>
        intro fits
        have ends := fun t => goes (.panelDone n w) _ t (.inr (.inr (.inr (.inl ⟨panel, rfl, word, rfl⟩))))
        refine ⟨fun bad => ends _ (panelEnds_violates bad), fun good last => ends _ ?_, fun p st good next status =>
          ⟨fun cool => ?_, fun hot => ends _ ?_⟩⟩
        · exact (panelEnds_last good last copies).trans (by rw [station])
        · refine ⟨_, ends _ ((panelEnds_next good next).trans (startPanel_cool (s := u) (by rw [station]; exact status) cool)), ?_⟩
          rw [enterPanel_eq]
          dsimp only
          rw [vector_set_get, if_pos rfl]
          exact ⟨rfl, rfl, List.mem_append_right _ (List.mem_singleton.mpr rfl)⟩
        · refine (panelEnds_next good next).trans ((startPanel_hot (s := u) (by rw [station]; exact status) hot).trans ?_)
          rw [station]
      case ok =>
        exact goes (.copyOk n w) _ _ (.inr (.inr (.inr (.inr (.inl ⟨rfl, word, rfl⟩))))) (if_neg bad)
  case ends =>
    intro s n c o m it copy found item x ends failed
    have ends_of : ∀ (u t : State) (i : Instr) (outcome : CopyOutcome) (reason : Byte) (aborts : Bool),
        (u.stations[n]'n.isLt).status = x.status → u.pay = s.pay →
        u.sent = s.sent ++ (if aborts then [.link n (messageWords 0x23 (le 2 c.seq))] else []) →
        exec i s = .next (afterWork s t) → ∀ good : Bool,
        CopyEnded u t n c m o (if good then it.complete else it.fail o.failureLimit) outcome reason →
        (good = false → (it.fail o.failureLimit).state = .failed → ∀ (k : Fin 3) r, (s.reservations[k]'k.isLt) = some r →
          r.order = c.order → r.item = c.item → (t.reservations[k]'k.isLt) = none) → ends i outcome reason good aborts := by
      intro u t i outcome reason aborts status pay sent run good ended released
      obtain ⟨cleared, out, why, state, head, sends, p, q, order, at_, core, settles⟩ := ended
      rw [OrderSettles, pay] at settles
      rw [status] at state
      refine ⟨t, p, q, run, cleared, out, why, state, head, sends.trans sent, order, at_, ?_⟩
      cases good with
      | true =>
        obtain ⟨inFlight, done, failures, state⟩ := complete_fields core
        exact ⟨inFlight, done, failures, state, fun h => absurd h (by decide), settles⟩
      | false =>
        obtain ⟨inFlight, done, failures, state⟩ := fail_fields core
        refine ⟨inFlight, done, ?_, state, fun _ failed => released rfl ((congrArg Item.state core).symm.trans failed :), settles⟩
        rw [failures]
        simp
    have third : ∀ (v t : State) (i : Instr) (outcome : CopyOutcome) (d : Copy), (v.stations[n]'n.isLt).copy = some d → d.seq = c.seq →
        d.order = c.order → d.item = c.item → (v.stations[n]'n.isLt).status = x.status → v.pay = s.pay → v.sent = s.sent →
        v.orders = s.orders → v.reservations = s.reservations → exec i s = .next (afterWork s (abortCopy v n outcome)) →
        failed i outcome 0 true := by
      intro v t i outcome d copied seq order it_ status pay sent orders reservations run
      have at_ : (v.sendLink n 0x23 (le 2 d.seq)).orderAt d.order = some (m, o) := by
        rw [order]
        simp only [State.orderAt, State.sendLink, State.emit, orders] at found ⊢
        exact found
      obtain ⟨ended, released⟩ := failCopy_ends (s := v.sendLink n 0x23 (le 2 d.seq)) copied at_ (by rw [it_]; exact item) outcome 0
      rw [abortCopy_some copied] at run
      rw [CopyEnded, order, it_] at ended
      refine ends_of (v.sendLink n 0x23 (le 2 d.seq)) _ i outcome 0 true status pay ?_ run false ended fun _ failed k r held order' item' => ?_
      · rw [← sent, ← seq]
        rfl
      · exact released failed k r (by rw [← held, ← reservations]; rfl) (order'.trans order.symm) (item'.trans it_.symm)
    refine ⟨fun w up word phase => ?ok, fun w reason up word => ?fault, fun r held due => ?hold, fun i below which => ?answer⟩
    case ok =>
      have run := exec_copyMessage_named (.inr (.inr (.inr (.inr (.inl ⟨rfl, word, rfl⟩))))) up copy
      generalize hu : s.setStation n ((s.stations[n]'n.isLt).messaged s.clock) = u at run
      have station : (u.stations[n]'n.isLt) = x.messaged s.clock := by rw [← hu, setStation_get]
      have does : copyOk u n c = settleState (completeCopy u n) n := if_pos phase
      rw [does] at run
      exact ends_of u _ _ _ _ false (by rw [station]; rfl) (by rw [← hu]; rfl) (by rw [← hu]; simp [State.setStation]) run true
        (completeCopy_ends (by rw [station]; exact copy) (by rw [← hu]; exact found) item) (fun h => absurd h (by decide))
    case fault =>
      have run := exec_copyMessage_named (.inr (.inr (.inr (.inr (.inr ⟨reason, rfl, word, rfl⟩))))) up copy
      generalize hu : s.setStation n ((s.stations[n]'n.isLt).messaged s.clock) = u at run
      have station : (u.stations[n]'n.isLt) = x.messaged s.clock := by rw [← hu, setStation_get]
      obtain ⟨ended, released⟩ := failCopy_ends (s := u) (n := n) (c := c) (by rw [station]; exact copy)
        (by rw [← hu]; exact found) item .engine reason
      exact ends_of u _ _ _ _ false (by rw [station]; rfl) (by rw [← hu]; rfl) (by rw [← hu]; simp [State.setStation]) run false
        ended (fun _ failed k r held => released failed k r (by rw [← hu]; exact held))
    case hold =>
      refine third s s _ _ c copy rfl rfl rfl rfl rfl rfl rfl rfl ?_
      show execLineHoldExpiry n s = _
      rw [execLineHoldExpiry, held]
      exact if_pos due
    case answer =>
      have fails : ∃ v : State, exec i s = .next (afterWork s (failedAnswer v n c)) ∧
          (v = s ∨ v = s.setStation n (x.messaged s.clock)) := by
        rcases which with ⟨tm, rfl, waits, due⟩ | ⟨w, up, rfl, word, waits⟩
        · refine ⟨s, ?_, .inl rfl⟩
          show execLineAnswerTimeout n s = _
          rw [execLineAnswerTimeout, copy]
          exact if_pos (by rw [waits]; exact due)
        · refine ⟨_, ?_, .inr rfl⟩
          rw [exec_copyMessage_named (.inr (.inr (.inl ⟨_, _, rfl, word, rfl⟩))) up copy]
          exact congrArg (fun t => Host.Outcome.next (afterWork s t)) (lineNaked_fails ⟨waits, rfl, rfl⟩)
      obtain ⟨v, run, which⟩ := fails
      have station : (v.stations[n]'n.isLt).copy = some c ∧ (v.stations[n]'n.isLt).winErrors = x.winErrors ∧
          (v.stations[n]'n.isLt).status = x.status ∧ (v.stations[n]'n.isLt).naks = x.naks ∧ ∀ y, v.setStation n y = s.setStation n y := by
        rcases which with rfl | rfl
        · exact ⟨copy, rfl, rfl, rfl, fun _ => rfl⟩
        · rw [setStation_get]
          exact ⟨copy, rfl, rfl, rfl, fun y => setStation_setStation _ _ _ _⟩
      have settings : v.settings = s.settings ∧ v.heads = s.heads := by
        rcases which with rfl | rfl
        · exact ⟨rfl, rfl⟩
        · exact ⟨rfl, rfl⟩
      obtain ⟨copies, errors, shown, naks, sets⟩ := station
      obtain ⟨z, copied, status, counted, outcome⟩ := failedAnswer_below copies (by rw [errors, settings.1]; exact below)
      rw [sets] at outcome
      refine ⟨fun last => ?_, fun b more sending first => ⟨_, run, ?_⟩⟩
      · rw [outcome, if_pos (by omega)] at run
        exact third (s.setStation n z) s i .link c.refused (by rw [setStation_get]; exact copied) rfl rfl rfl
          (by rw [setStation_get]; exact status.trans shown) rfl rfl rfl rfl run
      · have found : (s.heads[n]'n.isLt).bankIn (fun b => b.state == .sending) = some b :=
          bankIn_first (by simpa using sending) fun j below => by simpa using first j below
        have again : failedAnswer v n c = sendLine (s.setStation n z) n ((s.heads[n]'n.isLt).banks[b]'b.isLt) := by
          rw [outcome, if_neg (by omega), settings.2, found]
        have sent : ((failedAnswer v n c).stations[n]'n.isLt) =
            { z with copy := some { c with failedAnswers := c.failedAnswers + 1, answer := some ⟨s.clock, 20⟩ } } := by
          rw [again, sendLine, modStation_eq, setStation_get]
          have station : (((s.setStation n z).sendLink n 0x22 (lineBody ((s.heads[n]'n.isLt).banks[b]'b.isLt))).stations[n]'n.isLt) = z :=
            setStation_get s n z
          rw [station, copied]
          rfl
        refine ⟨by rw [sent]; exact counted.trans (congrArg sat16 naks), by rw [again]; rfl, by rw [sent], ?_⟩
        rw [again]
        exact List.mem_append_right _ (List.mem_singleton.mpr rfl)

end Sys2Proof.Machine
end

