-- ==== Sys2Proof/Proofs/Ranking.lean ====
section
/-! The choices that go through a table and keep the best entry so far: the first of the best comes out (R158, R177). -/

namespace Sys2Proof.Machine

-- Checked one after another, as in the tests: a theorem checked alongside others holds its memory.
set_option Elab.async false

section pick
variable {α : Type} {k : Nat} (cand : Fin k → Option α) (before : α → α → Bool)

/-- One step of a choice: the candidate of an entry takes the place of the best so far if it comes strictly before it. -/
def pickStep (best : Option α) (m : Fin k) : Option α :=
  match cand m with
  | none => best
  | some x => match best with
    | none => some x
    | some b => if before x b then some x else some b

/-- The candidate that a choice keeps. -/
def pick (ms : List (Fin k)) : Option α := ms.foldl (pickStep cand before) none

variable {cand before}

/-- What is known of the best candidate of some entries: none comes before it by `key`, and of those that are its equals,
where `strict` says that the comparison tells keys apart, it is the first. -/
def Best (cand : Fin k → Option α) (key : α → Nat) (at_ : α → Fin k) (strict : Nat → Prop) (ms : List (Fin k)) :
    Option α → Prop
  | none => ∀ m ∈ ms, cand m = none
  | some x => (∃ m ∈ ms, cand m = some x) ∧
      ∀ m ∈ ms, ∀ y, cand m = some y → key x ≤ key y ∧ (key x = key y → strict (key x) → at_ x ≤ m)

variable {key : α → Nat} {at_ : α → Fin k} {strict : Nat → Prop}

/-- The comparison follows the key: never against it, and strictly where `strict` holds. -/
structure Follows (before : α → α → Bool) (key : α → Nat) (strict : Nat → Prop) (x y : α) : Prop where
  le : before x y = true → key x ≤ key y
  ge : ¬ before x y = true → key y ≤ key x
  lt : before x y = true → strict (key x) → key x < key y

/-- A choice keeps the first of the best, if the comparison of candidates follows the key. -/
theorem pick_best (place : ∀ m x, cand m = some x → at_ x = m)
    (follows : ∀ m a x y, cand m = some x → cand a = some y → Follows before key strict x y) {ms : List (Fin k)} (sorted : ms.Pairwise (· < ·)) :
    Best cand key at_ strict ms (pick cand before ms) := by
  induction ms using List.reverseRecOn with
  | nil => exact fun m mem => absurd mem List.not_mem_nil
  | append_singleton ms m ih =>
    obtain ⟨sorted, -, after⟩ := List.pairwise_append.mp sorted
    have best := ih sorted
    have last : ∀ a ∈ ms, a ≤ m := fun a mem => Fin.le_of_lt (after a mem m (List.mem_singleton.mpr rfl))
    have step : pick cand before (ms ++ [m]) = pickStep cand before (pick cand before ms) m := by
      rw [pick, List.foldl_append]
      rfl
    rw [step]
    generalize pick cand before ms = chosen at best
    rw [pickStep]
    cases cands : cand m with
    | none =>
      cases chosen with
      | none =>
        intro a mem
        rcases List.mem_append.mp mem with mem | mem
        · exact best a mem
        · rw [List.mem_singleton.mp mem]; exact cands
      | some b =>
        obtain ⟨⟨a, mem, at_a⟩, least⟩ := best
        refine ⟨⟨a, List.mem_append_left _ mem, at_a⟩, fun d mem y at_d => ?_⟩
        rcases List.mem_append.mp mem with mem | mem
        · exact least d mem y at_d
        · rw [List.mem_singleton.mp mem, cands] at at_d
          exact absurd at_d (by simp)
    | some x =>
      have here : ∀ d ∈ [m], ∀ y, cand d = some y → y = x ∧ d = m := by
        intro d mem y at_d
        rw [List.mem_singleton.mp mem, cands] at at_d
        exact ⟨(Option.some.inj at_d).symm, List.mem_singleton.mp mem⟩
      have new : ∃ d ∈ ms ++ [m], cand d = some x := ⟨m, List.mem_append_right _ (List.mem_singleton.mpr rfl), cands⟩
      have self : key x ≤ key x ∧ (key x = key x → strict (key x) → at_ x ≤ m) :=
        ⟨le_rfl, fun _ _ => le_of_eq (place m x cands)⟩
      cases chosen with
      | none =>
        refine ⟨new, fun d mem y at_d => ?_⟩
        rcases List.mem_append.mp mem with mem | mem
        · exact absurd ((best d mem).symm.trans at_d) (by simp)
        · obtain ⟨rfl, rfl⟩ := here d mem y at_d
          exact self
      | some b =>
        obtain ⟨⟨a, mem_a, at_a⟩, least⟩ := best
        show Best cand key at_ strict (ms ++ [m]) (if before x b = true then some x else some b)
        have order := follows m a x b cands at_a
        by_cases first : before x b = true
        · rw [if_pos first]
          refine ⟨new, fun d mem y at_d => ?_⟩
          rcases List.mem_append.mp mem with mem | mem
          · obtain ⟨low, -⟩ := least d mem y at_d
            refine ⟨(order.le first).trans low, fun same tells => ?_⟩
            have := order.lt first tells
            omega
          · obtain ⟨rfl, rfl⟩ := here d mem y at_d
            exact self
        · rw [if_neg first]
          refine ⟨⟨a, List.mem_append_left _ mem_a, at_a⟩, fun d mem y at_d => ?_⟩
          rcases List.mem_append.mp mem with mem | mem
          · exact least d mem y at_d
          · obtain ⟨rfl, rfl⟩ := here d mem y at_d
            refine ⟨order.ge first, fun _ _ => ?_⟩
            rw [place a b at_a]
            exact last a mem_a

/-- A choice finds something exactly if there is a candidate. -/
theorem pick_isSome (ms : List (Fin k)) : (pick cand before ms).isSome ↔ ∃ m ∈ ms, (cand m).isSome := by
  have steps : ∀ (ms : List (Fin k)) (best : Option α), (ms.foldl (pickStep cand before) best).isSome ↔
      best.isSome ∨ ∃ m ∈ ms, (cand m).isSome := by
    intro ms
    induction ms with
    | nil => simp
    | cons m ms ih =>
      intro best
      have step : (pickStep cand before best m).isSome ↔ best.isSome ∨ (cand m).isSome := by
        rw [pickStep]
        cases cand m with
        | none => simp
        | some x =>
          cases best with
          | none => simp
          | some b =>
            dsimp only
            split <;> simp
      rw [List.foldl_cons, ih, step, or_assoc]
      simp
  rw [pick, steps]
  simp

theorem finRange_sorted (k : Nat) : (List.finRange k).Pairwise (· < ·) := List.pairwise_lt_finRange k

end pick

/-! ## Earlier times (R3) -/

/-- Of two times not more than half the clock's range ago the earlier is the one that is longer ago. -/
theorem earlier_iff {now a b : Word} (near_a : elapsed now a < 2147483648) (near_b : elapsed now b < 2147483648) :
    earlier a b = true ↔ elapsed now b < elapsed now a := by
  rw [elapsed] at near_a near_b ⊢
  rw [earlier, elapsed]
  simp only [Bool.and_eq_true, bne_iff_ne, ne_eq, decide_eq_true_eq]
  bv_omega

end Sys2Proof.Machine
end

