-- ==== Sys2Proof/Proofs/Render.lean ====
section
/-! The render arbiter and the lines of a copy: whose line is next, the line that starts, and what a completed line leaves in
its bank (R168 to R178). -/

namespace Sys2Proof.Machine

-- Checked one after another, as in the tests: a theorem checked alongside others holds its memory.
set_option Elab.async false

/-! ## The arbiter's choice (R177) -/

section choice
variable (s : State)

theorem renderChoice_eq : s.renderChoice = pick (fun n => if s.waitsToRender n then some n else none)
    (fun a b => rendersBefore (s.heads[a]'a.isLt) (s.heads[b]'b.isLt)) (List.finRange 3) := by
  rw [State.renderChoice, pick]
  refine congrArg (fun f => List.foldl f none (List.finRange 3)) ?_
  funext best n
  rw [pickStep]
  by_cases waits : s.waitsToRender n = true
  · rw [if_pos waits, if_pos waits]
    cases best with
    | none => rfl
    | some b => rfl
  · rw [if_neg waits, if_neg waits]

/-- The rank of a station by its READY banks, and then by whether a request is held. -/
def Head.rank (h : Head) : Nat := 2 * h.readyBanks + flag h.held.isNone

/-- Less for a request held longer, and the most where none is held. -/
def Head.haste (h : Head) (now : Word) : Nat :=
  match h.held with
  | some r => 4294967296 - elapsed now r.arrival
  | none => 8589934591

theorem Head.haste_some {h : Head} {r : HeldRequest} (held : h.held = some r) (now : Word) :
    h.haste now = 4294967296 - elapsed now r.arrival := by
  rw [Head.haste, held]

theorem Head.haste_le (h : Head) (now : Word) : h.haste now ≤ 8589934591 := by
  rw [Head.haste]
  split
  · omega
  · exact le_rfl

theorem flag_le (b : Bool) : flag b ≤ 1 := by cases b <;> decide

/-- The rank by READY banks, and then by how long a held request has waited. -/
def Head.wait (h : Head) (now : Word) : Nat := 8589934592 * h.readyBanks + h.haste now

variable {a b : Head} {now : Word}

theorem rendersBefore_fewer (fewer : a.readyBanks ≠ b.readyBanks) :
    rendersBefore a b = decide (a.readyBanks < b.readyBanks) := if_pos fewer

theorem rendersBefore_rank (before : rendersBefore a b = true) : a.rank ≤ b.rank ∧ (a.rank % 2 = 1 → a.rank < b.rank) := by
  rw [Head.rank, Head.rank]
  by_cases same : a.readyBanks = b.readyBanks
  · rw [rendersBefore, if_neg (not_not.mpr same)] at before
    cases held : a.held with
    | none => rw [held] at before; exact absurd before (by simp)
    | some r => cases b.held <;> simp [flag, same]
  · rw [rendersBefore_fewer same, decide_eq_true_eq] at before
    have low : flag a.held.isNone ≤ 1 := by cases a.held <;> simp [flag]
    omega

theorem not_rendersBefore_rank (after : rendersBefore a b = false) : b.rank ≤ a.rank := by
  rw [Head.rank, Head.rank]
  by_cases same : a.readyBanks = b.readyBanks
  · rw [rendersBefore, if_neg (not_not.mpr same)] at after
    cases held : a.held with
    | none => cases b.held <;> simp [flag, same]
    | some r =>
      cases other : b.held with
      | none => rw [held, other] at after; exact absurd after (by simp)
      | some q => simp [flag, same]
  · rw [rendersBefore_fewer same, decide_eq_false_iff_not] at after
    have low : flag b.held.isNone ≤ 1 := by cases b.held <;> simp [flag]
    omega

/-- A held request has waited for at most half the clock's range. -/
def Head.near (h : Head) (now : Word) : Prop := ∀ r, h.held = some r → elapsed now r.arrival < 2147483648

theorem rendersBefore_iff_wait (near_a : a.near now) (near_b : b.near now) :
    rendersBefore a b = true ↔ a.wait now < b.wait now := by
  rw [Head.wait, Head.wait]
  by_cases same : a.readyBanks = b.readyBanks
  · rw [rendersBefore, if_neg (not_not.mpr same), same, Head.haste, Head.haste]
    cases held_a : a.held with
    | none =>
      cases held_b : b.held with
      | none => simp
      | some q =>
        simp only [Bool.false_eq_true, false_iff]
        omega
    | some r =>
      have near_r := near_a r held_a
      cases held_b : b.held with
      | none =>
        simp only [true_iff]
        omega
      | some q =>
        have near_q := near_b q held_b
        simp only [earlier_iff near_r near_q]
        omega
  · rw [rendersBefore_fewer same, decide_eq_true_eq]
    have := a.haste_le now
    have := b.haste_le now
    omega

variable {s} {n k : Fin 3}

/-- The station chosen waits, no waiting station has a lower rank, and without a held request it is the first of its rank. -/
theorem renderChoice_rank (choice : s.renderChoice = some n) : s.waitsToRender n = true ∧
    ∀ k, s.waitsToRender k = true → (s.heads[n]'n.isLt).rank ≤ (s.heads[k]'k.isLt).rank ∧
      ((s.heads[n]'n.isLt).rank = (s.heads[k]'k.isLt).rank → (s.heads[n]'n.isLt).rank % 2 = 1 → n ≤ k) := by
  have best := pick_best (cand := fun n => if s.waitsToRender n then some n else none)
    (before := fun a b => rendersBefore (s.heads[a]'a.isLt) (s.heads[b]'b.isLt))
    (key := fun a => (s.heads[a]'a.isLt).rank) (at_ := id) (strict := fun rank => rank % 2 = 1)
    (fun m x at_ => (Option.some.inj (Option.ite_none_right_eq_some.mp at_).2).symm)
    (fun _ _ _ _ _ _ => ⟨fun before => (rendersBefore_rank before).1, fun after => not_rendersBefore_rank (by simpa using after),
      fun before odd => (rendersBefore_rank before).2 odd⟩) (finRange_sorted 3)
  rw [← renderChoice_eq, choice] at best
  obtain ⟨⟨m, -, at_m⟩, least⟩ := best
  obtain ⟨waits, same⟩ := Option.ite_none_right_eq_some.mp at_m
  rw [Option.some.inj same] at waits
  exact ⟨waits, fun k waits => least k (List.mem_finRange k) k (if_pos waits)⟩

/-- Of the waiting stations the one chosen waits longest, and is the first of those that wait as long. -/
theorem renderChoice_wait (choice : s.renderChoice = some n) (near : ∀ j : Fin 3, (s.heads[j]'j.isLt).near s.clock)
    (waits : s.waitsToRender k = true) : (s.heads[n]'n.isLt).wait s.clock ≤ (s.heads[k]'k.isLt).wait s.clock ∧
      ((s.heads[n]'n.isLt).wait s.clock = (s.heads[k]'k.isLt).wait s.clock → n ≤ k) := by
  have iff := fun a b : Fin 3 => rendersBefore_iff_wait (near a) (near b)
  have best := pick_best (cand := fun n => if s.waitsToRender n then some n else none)
    (before := fun a b => rendersBefore (s.heads[a]'a.isLt) (s.heads[b]'b.isLt))
    (key := fun a => (s.heads[a]'a.isLt).wait s.clock) (at_ := id) (strict := fun _ => True)
    (fun m x at_ => (Option.some.inj (Option.ite_none_right_eq_some.mp at_).2).symm)
    (fun _ _ a b _ _ => ⟨fun before => Nat.le_of_lt ((iff a b).mp before),
      fun after => Nat.not_lt.mp fun lt => after ((iff a b).mpr lt), fun before _ => (iff a b).mp before⟩) (finRange_sorted 3)
  rw [← renderChoice_eq, choice] at best
  obtain ⟨low, first⟩ := best.2 k (List.mem_finRange k) k (if_pos waits)
  exact ⟨low, fun same => first same trivial⟩

end choice

/-! ## The line that starts (R175, R176) -/

section start
variable {s : State} {n : Fin 3} {c : Copy} {l : Nat} {i : Fin 2}

theorem startLine_eq (copy : (s.stations[n]'n.isLt).copy = some c) (cursor : (s.heads[n]'n.isLt).cursor = some l)
    (bank : (s.heads[n]'n.isLt).bankIn (fun b => b.state == .empty) = some i) : startLine s n = { s with
      heads := s.heads.set n { (s.heads[n]'n.isLt) with
        banks := (s.heads[n]'n.isLt).banks.set i ⟨.filling, c.seq, c.panel, l, []⟩ i.isLt, cursor := some (l + 1) } n.isLt
      job := some ⟨n, c.seq, c.panel, l, i, s.runsFor c l, []⟩ } := by
  rw [startLine, copy, cursor, bank]
  rfl

theorem bankIn_some {h : Head} {p : Bank → Bool} (found : h.bankIn p = some i) : p (h.banks[i]'i.isLt) = true := by
  rw [Head.bankIn] at found
  split at found
  · next first => rw [← Option.some.inj found]; exact first
  · obtain ⟨second, same⟩ := Option.ite_none_right_eq_some.mp found
    rw [← Option.some.inj same]
    exact second

/-- A line that starts leaves every history, and every bank that is not EMPTY. -/
theorem startLine_heads (s : State) (m n : Fin 3) : ((startLine s m).heads[n]'n.isLt).history = (s.heads[n]'n.isLt).history ∧
    ∀ i : Fin 2, ((s.heads[n]'n.isLt).banks[i]'i.isLt).state ≠ .empty →
      (((startLine s m).heads[n]'n.isLt).banks[i]'i.isLt) = ((s.heads[n]'n.isLt).banks[i]'i.isLt) := by
  cases copy : (s.stations[m]'m.isLt).copy with
  | none => simp only [startLine, copy, implies_true, and_self]
  | some c =>
    cases cursor : (s.heads[m]'m.isLt).cursor with
    | none => simp only [startLine, copy, cursor, implies_true, and_self]
    | some l =>
      cases bank : (s.heads[m]'m.isLt).bankIn (fun b => b.state == .empty) with
      | none => simp only [startLine, copy, cursor, bank, implies_true, and_self]
      | some d =>
        have empty : ((s.heads[m]'m.isLt).banks[d]'d.isLt).state = .empty := by simpa using bankIn_some bank
        rw [startLine_eq copy cursor bank]
        dsimp only
        rw [vector_set_get]
        split
        · next same =>
          subst same
          refine ⟨rfl, fun i full => ?_⟩
          rw [vector_set_get, if_neg]
          rintro rfl
          exact full empty
        · exact ⟨rfl, fun _ _ => rfl⟩

theorem renderGrant_heads (s : State) (n : Fin 3) : ((renderGrant s).heads[n]'n.isLt).history = (s.heads[n]'n.isLt).history ∧
    ∀ i : Fin 2, ((s.heads[n]'n.isLt).banks[i]'i.isLt).state ≠ .empty →
      (((renderGrant s).heads[n]'n.isLt).banks[i]'i.isLt) = ((s.heads[n]'n.isLt).banks[i]'i.isLt) := by
  rw [renderGrant]
  split
  · exact startLine_heads s _ n
  · exact ⟨rfl, fun _ _ => rfl⟩

theorem renderGrant_free (free : s.job = none) (choice : s.renderChoice = some n) : renderGrant s = startLine s n := by
  rw [renderGrant, free, choice]

end start

/-! ## The pulses of a dot (R168 to R173) -/

section dots
variable {p : Profile}

theorem pulse_scaled (emax factor e1 : Int) :
    pulse emax (scaled factor e1) = (max 0 (min emax (Int.fdiv (e1 * factor + 128) 256))).toNat := by
  rw [pulse, scaled, clampTo, Int.fdiv_eq_ediv_of_nonneg _ (by decide)]

/-- A share of a length stays below the length. -/
theorem share_lt {d n w : Nat} (below : d < n) (wide : 1 ≤ w) : d * w / n < w := by
  refine Nat.div_lt_of_lt_mul ?_
  exact Nat.mul_lt_mul_of_pos_right below wide

theorem rotatedCrop_turned {it : Item} (turned : it.rotation = .r90 ∨ it.rotation = .r270) :
    it.rotatedCrop = (it.ch, it.cw) := by
  rw [Item.rotatedCrop]
  rcases turned with turn | turn
  · rw [turn]
  · rw [turn]

theorem rotatedCrop_flat {it : Item} (flat : ¬ (it.rotation = .r90 ∨ it.rotation = .r270)) :
    it.rotatedCrop = (it.cw, it.ch) := by
  rw [Item.rotatedCrop]
  split
  · rfl
  · rfl
  · next turn => exact absurd (.inl turn) flat
  · next turn => exact absurd (.inr turn) flat

theorem getD_map_range {n d : Nat} (below : d < n) (f : Nat → Nat) : ((List.range n).map f).getD d 0 = f d := by
  simp [below]

theorem colourLine_get {panel : Panel} {factor : Int} {it : Item} {lines l d : Nat} {fetched : List Pixel} {history : List Nat}
    (below : d < headDots) : (colourLine p panel factor it lines l fetched history).getD d 0 =
      colourPulse p panel factor ((pixelAt fetched (samplePixel it lines d l)).density p panel) (history.getD d 0) :=
  getD_map_range below _

end dots

/-! ## The completed line (R173, R176, R178) -/

section completion
variable {s : State} {j : RenderJob} {c : Copy} {p : Profile}

/-- The state with the line's values in its bank and the engine free, as the arbiter finds it. -/
def State.lineDone (s : State) (j : RenderJob) (values history : List Nat) : State := { s with
  job := none
  heads := s.heads.set j.station { (s.heads[j.station]'j.station.isLt) with
    banks := (s.heads[j.station]'j.station.isLt).banks.set j.bank ⟨.ready, j.seq, j.panel, j.line, values⟩ j.bank.isLt
    history := history } j.station.isLt }

theorem completeLine_eq (copy : (s.stations[j.station]'j.station.isLt).copy = some c)
    (profile : (s.stations[j.station]'j.station.isLt).profile = some p) :
    completeLine s j = renderGrant (
      if (s.heads[j.station]'j.station.isLt).held.any fun r => r.line == j.line then
        sendFrom ((s.lineDone j (s.jobLine j c p).1 (s.jobLine j c p).2).modHead j.station fun h => { h with held := none })
          j.station j.bank
      else s.lineDone j (s.jobLine j c p).1 (s.jobLine j c p).2) := by
  generalize hd : s.lineDone j (s.jobLine j c p).1 (s.jobLine j c p).2 = done
  have head : (done.heads[j.station]'j.station.isLt).held = (s.heads[j.station]'j.station.isLt).held := by
    rw [← hd, State.lineDone, vector_set_get, if_pos rfl]
  have body : completeLine s j = renderGrant (match (done.heads[j.station]'j.station.isLt).held with
      | some r => if r.line = j.line then sendFrom (done.modHead j.station fun h => { h with held := none }) j.station j.bank
        else done
      | none => done) := by
    rw [← hd]
    simp only [completeLine, copy, profile] <;> rfl
  rw [body, head]
  cases (s.heads[j.station]'j.station.isLt).held with
  | none => rfl
  | some r => exact congrArg renderGrant (if_congr (by simp) rfl rfl)

theorem completeLine_bank (copy : (s.stations[j.station]'j.station.isLt).copy = some c)
    (profile : (s.stations[j.station]'j.station.isLt).profile = some p)
    (other : ∀ r, (s.heads[j.station]'j.station.isLt).held = some r → r.line ≠ j.line) :
    completeLine s j = renderGrant (s.lineDone j (s.jobLine j c p).1 (s.jobLine j c p).2) := by
  rw [completeLine_eq copy profile, if_neg]
  cases held : (s.heads[j.station]'j.station.isLt).held with
  | none => exact Bool.false_ne_true
  | some r => simpa using other r held

theorem completeLine_sends {r : HeldRequest} (copy : (s.stations[j.station]'j.station.isLt).copy = some c)
    (profile : (s.stations[j.station]'j.station.isLt).profile = some p)
    (held : (s.heads[j.station]'j.station.isLt).held = some r) (same : r.line = j.line) :
    completeLine s j = renderGrant (
      sendFrom ((s.lineDone j (s.jobLine j c p).1 (s.jobLine j c p).2).modHead j.station fun h => { h with held := none })
        j.station j.bank) := by
  rw [completeLine_eq copy profile, held, if_pos (by simpa using same)]

theorem jobLine_overcoat (panel : j.panel = .o) : s.jobLine j c p =
    (overcoatLine p c.finish (s.heads[j.station]'j.station.isLt).factor j.line, (s.heads[j.station]'j.station.isLt).history) := by
  rw [State.jobLine]
  exact if_pos panel

theorem overcoatPulse_eq (f : Finish) (factor : Int) (d l : Nat) : overcoatPulse p f factor d l =
    (max 0 (min (p.scalar 0) (Int.fdiv (overcoatEnergy p f d l * factor + 128) 256))).toNat := pulse_scaled _ _ _

theorem jobLine_colour {it : Item} (colour : j.panel ≠ .o) (item : s.itemOf c = some it) :
    (s.jobLine j c p).1 = colourLine p j.panel (s.heads[j.station]'j.station.isLt).factor it c.lines j.line j.fetched
      (s.heads[j.station]'j.station.isLt).history ∧
    (s.jobLine j c p).2 = (List.range headDots).map fun d =>
      nextHistory ((s.heads[j.station]'j.station.isLt).history.getD d 0) ((s.jobLine j c p).1.getD d 0) := by
  simp only [State.jobLine, if_neg colour, item, and_self]

end completion

/-- Settles O56: the arbiter's choice by its ranks, the line that starts, an overcoat line, the pixel of a dot, and a
colour line dot by dot. -/
theorem linesAreArbitratedAndRendered : Obligations.LinesAreArbitratedAndRendered := by
  refine ⟨⟨fun s n choice => ?choice, fun s n c l i free choice copy cursor empty first => ?grant,
    fun s j c p job panel copy profile => ?overcoat⟩, fun it lines d l below line wide high => ?sample,
    fun s j c p it copy profile item colour noRequest => ?colour⟩
  case choice =>
    obtain ⟨waits, ranks⟩ := renderChoice_rank choice
    refine ⟨waits, fun k wait => ?_, fun k wait same => ⟨fun alone => ?_, fun r q held other near => ?_⟩⟩
    · obtain ⟨low, -⟩ := ranks k wait
      rw [Head.rank, Head.rank] at low
      have := flag_le (s.heads[k]'k.isLt).held.isNone
      omega
    · obtain ⟨low, first⟩ := ranks k wait
      have none : flag (s.heads[n]'n.isLt).held.isNone = 1 := by rw [alone]; rfl
      rw [Head.rank, Head.rank, none, same] at low first
      have both : flag (s.heads[k]'k.isLt).held.isNone = 1 := by
        have := flag_le (s.heads[k]'k.isLt).held.isNone
        omega
      refine ⟨?_, first (by rw [both]) (by omega)⟩
      simpa [flag] using both
    · obtain ⟨low, first⟩ := renderChoice_wait choice near wait
      have near_r := near n r held
      have near_q := near k q other
      rw [Head.wait, Head.wait, Head.haste_some held, Head.haste_some other, same] at low first
      refine ⟨by omega, fun together => first (by rw [together])⟩
  case grant =>
    intro h
    have found : (s.heads[n]'n.isLt).bankIn (fun b => b.state == .empty) = some i :=
      bankIn_first (by simpa using empty) fun j below => by simpa using first j below
    rw [← startLine_eq copy cursor found, ← renderGrant_free free choice]
    show execRenderGrant s = _
    exact if_pos ⟨free, by rw [choice]; rfl⟩
  case overcoat =>
    intro h energy values bank
    have line : s.jobLine j c p = (values, h.history) := by
      rw [jobLine_overcoat panel]
      refine congrArg (fun vs => (vs, h.history)) (List.map_congr_left fun d _ => ?_)
      rw [overcoatPulse_eq]
      rfl
    have run : exec .overcoatLineCompletion s = .next (finish s (completeLine s j)) := by
      show execOvercoatLineCompletion s = _
      rw [execOvercoatLineCompletion, job]
      exact if_pos panel
    clear_value values
    refine ⟨fun other => ?_, fun r held same => ?_⟩
    · rw [run, completeLine_bank copy profile other, line, State.lineDone, panel]
    · have sends := sendFrom_eq (s := (s.lineDone j values h.history).modHead j.station fun h => { h with held := none })
        (n := j.station) (c := c) copy j.bank
      rw [run, completeLine_sends copy profile held same, line, sends, State.lineDone, State.modHead, State.setHead, panel]
      dsimp only
      rw [vector_set_get, if_pos rfl, Vector.set_set, vector_set_get, if_pos rfl]
      dsimp only
      rw [vector_set_get, if_pos rfl, Vector.set_set, Vector.set_set]
      rfl
  case sample =>
    intro turned u v q
    have flat (h : ¬ turned) : u < it.cw ∧ v < it.ch := by
      have us : u = d * it.cw / 1824 := by simp only [u, if_neg h]
      have vs : v = l * it.ch / lines := by simp only [v, if_neg h]
      rw [us, vs]
      exact ⟨share_lt below wide, share_lt line high⟩
    have steep (h : turned) : u < it.ch ∧ v < it.cw := by
      have us : u = d * it.ch / 1824 := by simp only [u, if_pos h]
      have vs : v = l * it.cw / lines := by simp only [v, if_pos h]
      rw [us, vs]
      exact ⟨share_lt below high, share_lt line wide⟩
    have crop : it.rotatedCrop = (if turned then it.ch else it.cw, if turned then it.cw else it.ch) := by
      by_cases h : turned
      · rw [if_pos h, if_pos h, rotatedCrop_turned h]
      · rw [if_neg h, if_neg h, rotatedCrop_flat h]
    have place : q = match it.rotation with
        | .r0 => (it.x0 + u, it.y0 + v)
        | .r90 => (it.x0 + v, it.y0 + it.ch - 1 - u)
        | .r180 => (it.x0 + it.cw - 1 - u, it.y0 + it.ch - 1 - v)
        | .r270 => (it.x0 + it.cw - 1 - v, it.y0 + u) := by
      simp only [q, samplePixel, crop] <;> rfl
    rw [place]
    clear_value u v
    cases turn : it.rotation with
    | r0 =>
      obtain ⟨us, vs⟩ := flat (by simp [turned, turn])
      exact ⟨by dsimp only; omega, rfl⟩
    | r90 =>
      obtain ⟨us, vs⟩ := steep (by simp [turned, turn])
      exact ⟨by dsimp only; omega, by dsimp only; congr 1; omega⟩
    | r180 =>
      obtain ⟨us, vs⟩ := flat (by simp [turned, turn])
      exact ⟨by dsimp only; omega, by dsimp only; congr 1 <;> omega⟩
    | r270 =>
      obtain ⟨us, vs⟩ := steep (by simp [turned, turn])
      exact ⟨by dsimp only; omega, by dsimp only; congr 1; omega⟩
  case colour =>
    intro h k tone t b
    obtain ⟨first, second⟩ := jobLine_colour (j := j) (c := c) (p := p) colour item
    generalize hl : s.jobLine j c p = vals at first second
    have done : t = renderGrant (s.lineDone j vals.1 vals.2) := by
      rw [← hl]
      exact completeLine_bank copy profile fun r held => by rw [noRequest] at held; exact absurd held (by simp)
    obtain ⟨history, banks⟩ := renderGrant_heads (s.lineDone j vals.1 vals.2) j.station
    have head : ((s.lineDone j vals.1 vals.2).heads[j.station]'j.station.isLt) =
        { h with banks := h.banks.set j.bank ⟨.ready, j.seq, j.panel, j.line, vals.1⟩ j.bank.isLt, history := vals.2 } := by
      rw [State.lineDone, vector_set_get, if_pos rfl]
    have filled : (((s.lineDone j vals.1 vals.2).heads[j.station]'j.station.isLt).banks[j.bank]'j.bank.isLt) =
        ⟨.ready, j.seq, j.panel, j.line, vals.1⟩ := by
      rw [head, vector_set_get, if_pos rfl]
    have bank : b = ⟨.ready, j.seq, j.panel, j.line, vals.1⟩ := by
      rw [← filled]
      refine Eq.trans ?_ (banks j.bank (by rw [filled]; exact BankState.noConfusion))
      rw [← done]
    have past : (t.heads[j.station]'j.station.isLt).history = vals.2 := by
      rw [done, history, head]
    rw [past, bank]
    refine ⟨rfl, rfl, rfl, rfl, by rw [first]; simp [colourLine, headDots], by rw [second]; simp [headDots], fun d below px found => ?_⟩
    intro dens e1 pulse'
    have inside : d < headDots := below
    have fetched : pixelAt j.fetched (samplePixel it c.lines d j.line) = px := by
      have same : (fun q : Pixel => q.x == (samplePixel it c.lines d j.line).1 && q.y == (samplePixel it c.lines d j.line).2) =
          fun q => decide ((q.x, q.y) = samplePixel it c.lines d j.line) := by
        funext q
        rw [Bool.eq_iff_iff]
        simp [Prod.ext_iff]
      rw [pixelAt, same, found]
      rfl
    have value : (colourLine p j.panel h.factor it c.lines j.line j.fetched h.history).getD d 0 = pulse' := by
      rw [colourLine_get inside, fetched, colourPulse_eq, pulse_scaled, afterHistory_eq_fdiv]
      have tones : p.tone j.panel = tone := rfl
      have row : j.panel.row = k := rfl
      have density : px.density p j.panel = dens := by
        rw [pixelDensity_eq_row, row, density_eq_fdiv]
        rfl
      rw [tones, density]
    rw [← first] at value
    refine ⟨value, ?_⟩
    rw [second, getD_map_range inside, value]
    rfl

end Sys2Proof.Machine
end

