-- ==== Sys2Proof/Proofs/Selection.lean ====
section
/-! The Dispatcher: promotion, the ranking of orders, the reservation of a copy and its start (R143 to R145, R155 to R160). -/

namespace Sys2Proof.Machine

-- Checked one after another, as in the tests: a theorem checked alongside others holds its memory.
set_option Elab.async false

/-! ## Eligible items (R156, R158) -/

section eligible
variable {s : State} {n : Fin 3} {x : Station} {o : Order} {it : Item}

/-- An item that a station may print (R156). -/
def Eligible (x : Station) (o : Order) (it : Item) : Prop :=
  (o.state = .paid ∨ o.state = .printing) ∧ (it.state = .waiting ∨ it.state = .active) ∧
  1 ≤ it.copies - it.done - it.inFlight - it.reserved ∧ x.account.ribbon.takes it.size = true ∧
  (it.finish = .gloss ∨ ∃ a, x.abilities = some a ∧ a.flags.getLsbD 2 = true)

theorem matteCapable_iff : x.matteCapable = true ↔ ∃ a, x.abilities = some a ∧ a.flags.getLsbD 2 = true := by
  rw [Station.matteCapable]
  cases x.abilities with
  | none => simp
  | some a => simp

theorem eligible_iff : eligible x o it = true ↔ Eligible x o it := by
  simp only [eligible, Eligible, Bool.and_eq_true, Bool.or_eq_true, beq_iff_eq, decide_eq_true_eq, matteCapable_iff,
    and_assoc]
  rfl

/-- The place of an order's first eligible item, and the item. -/
def FirstEligible (s : State) (n : Fin 3) (m : Fin 48) (o : Order) (i : Nat) (it : Item) : Prop :=
  (s.orders[m]'m.isLt).order = some o ∧ o.items[i]? = some it ∧ Eligible (s.stations[n]'n.isLt) o it ∧
  ∀ j jt, j < i → o.items[j]? = some jt → ¬ Eligible (s.stations[n]'n.isLt) o jt

theorem findIdx_eligible {i : Nat} : o.items.findIdx? (eligible x o) = some i ↔
    ∃ it, o.items[i]? = some it ∧ Eligible x o it ∧ ∀ j jt, j < i → o.items[j]? = some jt → ¬ Eligible x o jt := by
  rw [List.findIdx?_eq_some_iff_getElem]
  constructor
  · rintro ⟨below, first, before⟩
    refine ⟨o.items[i], List.getElem?_eq_getElem below, eligible_iff.mp first, fun j jt earlier at_ => ?_⟩
    obtain ⟨inside, rfl⟩ := List.getElem?_eq_some_iff.mp at_
    exact fun fits => before j earlier (eligible_iff.mpr fits)
  · rintro ⟨it, at_, fits, before⟩
    obtain ⟨inside, rfl⟩ := List.getElem?_eq_some_iff.mp at_
    exact ⟨inside, eligible_iff.mpr fits, fun j earlier good =>
      before j _ earlier (List.getElem?_eq_getElem (Nat.lt_trans earlier inside)) (eligible_iff.mp good)⟩

/-- A candidate of the ranking: an order with its first eligible item (R158). -/
def State.candidate (s : State) (n : Fin 3) (m : Fin 48) : Option (Fin 48 × Order × Nat) :=
  match (s.orders[m]'m.isLt).order with
  | some o => (o.items.findIdx? (eligible (s.stations[n]'n.isLt) o)).map fun i => (m, o, i)
  | none => none

theorem candidate_iff {m k : Fin 48} {i : Nat} : s.candidate n m = some (k, o, i) ↔
    k = m ∧ ∃ it, FirstEligible s n m o i it := by
  rw [State.candidate]
  cases order : (s.orders[m]'m.isLt).order with
  | none => simp [FirstEligible, order, -Fin.getElem_fin]
  | some p =>
    simp only [FirstEligible, order, Option.some.injEq, Option.map_eq_some_iff, Prod.mk.injEq]
    constructor
    · rintro ⟨d, index, rfl, rfl, rfl⟩
      obtain ⟨it, first⟩ := findIdx_eligible.mp index
      exact ⟨rfl, it, rfl, first⟩
    · rintro ⟨rfl, it, rfl, first⟩
      exact ⟨i, findIdx_eligible.mpr ⟨it, first⟩, rfl, rfl, rfl⟩

theorem selection_eq (s : State) (n : Fin 3) : s.selection n =
    pick (s.candidate n) (fun a b => a.2.1.ranksBefore b.2.1) (List.finRange 48) := by
  rw [State.selection, pick]
  refine congrArg (fun f => List.foldl f none (List.finRange 48)) ?_
  funext best m
  rw [pickStep, State.candidate, State.firstEligible]
  cases (s.orders[m]'m.isLt).order with
  | none => rfl
  | some o =>
    dsimp only
    cases o.items.findIdx? (eligible (s.stations[n]'n.isLt) o) with
    | none => rfl
    | some i =>
      cases best with
      | none => rfl
      | some b => rfl

/-- A selection is found exactly if some order has an eligible item. -/
theorem selection_isSome : (s.selection n).isSome ↔ ∃ (m : Fin 48) (o : Order) (it : Item),
    (s.orders[m]'m.isLt).order = some o ∧ it ∈ o.items ∧ Eligible (s.stations[n]'n.isLt) o it := by
  rw [selection_eq, pick_isSome]
  refine exists_congr fun m => ?_
  rw [State.candidate]
  simp only [List.mem_finRange, true_and]
  cases order : (s.orders[m]'m.isLt).order with
  | none => simp
  | some o =>
    simp only [Option.isSome_map, List.findIdx?_isSome, List.any_eq_true, eligible_iff, Option.some.injEq, exists_eq_left',
      exists_and_left]

end eligible

/-! ## Promotion and the ranking (R157, R158) -/

section ranking
variable {s : State} {n : Fin 3} {o p : Order}

/-- An order after promotion: PAID, not promoted, paid for longer than the wait limit (R157). -/
def Order.promote (o : Order) (s : State) : Order :=
  if o.state = .paid ∧ o.promoted = false ∧ (o.paidTime.any fun p => decide (waitLimit s.settings < elapsed s.clock p)) = true
  then { o with promoted := true } else o

theorem duePromotion_iff : o.duePromotion s.clock (waitLimit s.settings) = true ↔ o.state = .paid ∧ o.promoted = false ∧
    (o.paidTime.any fun p => decide (waitLimit s.settings < elapsed s.clock p)) = true := by
  rw [Order.duePromotion]
  cases o.paidTime with
  | none => simp
  | some t => simp [and_assoc]

theorem promote_eq (o : Order) (s : State) : ∃ b, o.promote s = { o with promoted := b } := by
  rw [Order.promote]
  split
  · exact ⟨true, rfl⟩
  · exact ⟨o.promoted, rfl⟩

theorem promoteAll_orders (s : State) (m : Fin 48) : ((promoteAll s).orders[m]'m.isLt) =
    { (s.orders[m]'m.isLt) with order := (s.orders[m]'m.isLt).order.map fun o => o.promote s } := by
  rw [promoteAll]
  dsimp only
  rw [tab_get]
  refine congrArg (fun f => ({ (s.orders[m]'m.isLt) with order := (s.orders[m]'m.isLt).order.map f } : OrderEntry)) ?_
  funext o
  exact if_congr duePromotion_iff rfl rfl

/-- Promotion changes no item and no state, so an order's first eligible item stays the same. -/
theorem firstEligible_promoteAll {m : Fin 48} {q : Order} {i : Nat} {it : Item} :
    FirstEligible (promoteAll s) n m q i it ↔ ∃ o, q = o.promote s ∧ FirstEligible s n m o i it := by
  have same : ∀ (o : Order) (jt : Item), Eligible (s.stations[n]'n.isLt) (o.promote s) jt ↔ Eligible (s.stations[n]'n.isLt) o jt := by
    intro o jt
    obtain ⟨b, promoted⟩ := promote_eq o s
    rw [promoted]
    rfl
  have items : ∀ o : Order, (o.promote s).items = o.items := by
    intro o
    obtain ⟨b, promoted⟩ := promote_eq o s
    rw [promoted]
  simp only [FirstEligible, promoteAll_orders]
  constructor
  · rintro ⟨order, rest⟩
    obtain ⟨o, held, rfl⟩ := Option.map_eq_some_iff.mp order
    simp only [items, same o, show (promoteAll s).stations = s.stations from rfl] at rest
    exact ⟨o, rfl, held, rest⟩
  · rintro ⟨o, rfl, held, rest⟩
    refine ⟨by rw [held]; rfl, ?_⟩
    simp only [items, same o, show (promoteAll s).stations = s.stations from rfl]
    exact rest

/-- The rank of an order: priority orders first, then the longest open. -/
def Order.rank (o : Order) (now : Word) : Nat :=
  (if o.priority = true then 0 else 8589934592) + (4294967296 - elapsed now o.openTime)

theorem ranksBefore_iff {now : Word} (near_o : elapsed now o.openTime < 2147483648) (near_p : elapsed now p.openTime < 2147483648) :
    o.ranksBefore p = true ↔ o.rank now < p.rank now := by
  rw [Order.ranksBefore, Order.rank, Order.rank]
  cases first : o.priority <;> cases second : p.priority
  · simp only [bne_self_eq_false, Bool.false_eq_true, if_false, earlier_iff near_o near_p]
    omega
  · simp
    omega
  · simp
    omega
  · simp only [bne_self_eq_false, Bool.false_eq_true, if_false, if_true, earlier_iff near_o near_p]
    omega

/-- Order `o` at `m` comes before `p` at `k` in the ranking of a selection (R158). -/
def Ahead (s : State) (m k : Fin 48) (o p : Order) : Prop :=
  let po : Bool := o.cls == .express || (o.promote s).promoted
  let pp : Bool := p.cls == .express || (p.promote s).promoted
  (po = true ∧ pp = false) ∨ (po = pp ∧ (elapsed s.clock p.openTime < elapsed s.clock o.openTime ∨
    (o.openTime = p.openTime ∧ m < k)))

theorem ahead_rank {m k : Fin 48} (near_o : elapsed s.clock o.openTime < 2147483648)
    (near_p : elapsed s.clock p.openTime < 2147483648) (ahead : Ahead s m k o p) :
    (o.promote s).rank s.clock < (p.promote s).rank s.clock ∨
      ((o.promote s).rank s.clock = (p.promote s).rank s.clock ∧ m < k) := by
  have priority : ∀ q : Order, (q.promote s).priority = (q.cls == .express || (q.promote s).promoted) := by
    intro q
    obtain ⟨b, promoted⟩ := promote_eq q s
    rw [promoted]
    rfl
  have opened : ∀ q : Order, (q.promote s).openTime = q.openTime := by
    intro q
    obtain ⟨b, promoted⟩ := promote_eq q s
    rw [promoted]
  rw [Order.rank, Order.rank, priority, priority, opened, opened]
  rcases ahead with ⟨first, second⟩ | ⟨same, longer | ⟨together, lower⟩⟩
  · rw [first, second]
    left
    simp only [if_true, Bool.false_eq_true, if_false]
    omega
  · rw [same]
    left
    omega
  · rw [same, together]
    exact .inr ⟨rfl, lower⟩

/-- The first of the ranking with its first eligible item, promotion done (R158). -/
theorem selection_promoteAll {m : Fin 48} {i : Nat} {it : Item}
    (near : ∀ (m : Fin 48) (o : Order), (s.orders[m]'m.isLt).order = some o → elapsed s.clock o.openTime < 2147483648)
    (first : FirstEligible s n m o i it)
    (ahead : ∀ k p j jt, FirstEligible s n k p j jt → k ≠ m → Ahead s m k o p) :
    (promoteAll s).selection n = some (m, o.promote s, i) := by
  have cands : ∀ (k a : Fin 48) (q : Order) (d : Nat), (promoteAll s).candidate n k = some (a, q, d) →
      a = k ∧ ∃ p jt, q = p.promote s ∧ FirstEligible s n k p d jt := by
    intro k a q d cand
    obtain ⟨place, jt, found⟩ := candidate_iff.mp cand
    obtain ⟨p, promoted, found⟩ := firstEligible_promoteAll.mp found
    exact ⟨place, p, jt, promoted, found⟩
  have times : ∀ q : Order, (q.promote s).openTime = q.openTime := by
    intro q
    obtain ⟨b, promoted⟩ := promote_eq q s
    rw [promoted]
  have nears : ∀ (k a : Fin 48) (q : Order) (d : Nat), (promoteAll s).candidate n k = some (a, q, d) →
      elapsed s.clock q.openTime < 2147483648 := by
    intro k a q d cand
    obtain ⟨-, p, jt, rfl, found⟩ := cands k a q d cand
    rw [times]
    exact near k p found.1
  have here : (promoteAll s).candidate n m = some (m, o.promote s, i) :=
    candidate_iff.mpr ⟨rfl, it, firstEligible_promoteAll.mpr ⟨o, rfl, first⟩⟩
  have best := pick_best (cand := (promoteAll s).candidate n) (before := fun a b => a.2.1.ranksBefore b.2.1)
    (key := fun a => a.2.1.rank s.clock) (at_ := fun a => a.1) (strict := fun _ => True)
    (fun k x cand => (cands k x.1 x.2.1 x.2.2 cand).1)
    (fun k a x y at_x at_y => by
      have order := ranksBefore_iff (nears k x.1 x.2.1 x.2.2 at_x) (nears a y.1 y.2.1 y.2.2 at_y)
      exact ⟨fun before => Nat.le_of_lt (order.mp before), fun after => Nat.not_lt.mp fun lt => after (order.mpr lt),
        fun before _ => order.mp before⟩) (finRange_sorted 48)
  rw [← selection_eq] at best
  cases chosen : (promoteAll s).selection n with
  | none =>
    rw [chosen] at best
    exact absurd ((best m (List.mem_finRange m)).symm.trans here) (by simp)
  | some x =>
    rw [chosen] at best
    obtain ⟨⟨k, -, at_k⟩, least⟩ := best
    by_cases same : k = m
    · rw [same] at at_k
      exact (at_k.symm.trans here : _)
    · obtain ⟨place, p, jt, promoted, found⟩ := cands k x.1 x.2.1 x.2.2 at_k
      obtain ⟨low, tie⟩ := least m (List.mem_finRange m) _ here
      have order := ahead_rank (near m o first.1) (near k p found.1) (ahead k p _ jt found same)
      rw [← promoted] at order
      dsimp only at low tie
      rcases order with lower | ⟨level, before⟩
      · omega
      · have := tie level.symm trivial
        rw [place] at this
        omega

end ranking

/-! ## The reservation (R159) -/

section reservation
variable {s : State} {n : Fin 3} {m : Fin 48} {o : Order} {i : Nat} {it : Item}

theorem orderAt_orderHandle (order : (s.orders[m]'m.isLt).order = some o) : s.orderAt (s.orderHandle m) = some (m, o) := by
  have := m.isLt
  refine orderAt_of ?_ order rfl
  rw [State.orderHandle, BitVec.toNat_ofNat]
  omega

theorem modify_eq_set_of_get {l : List Item} (at_ : l[i]? = some it) (f : Item → Item) : l.modify i f = l.set i (f it) := by
  obtain ⟨inside, rfl⟩ := List.getElem?_eq_some_iff.mp at_
  rw [List.modify_eq_set_getElem?, List.getElem?_eq_getElem inside]
  rfl

/-- An item with one more copy reserved (R159). -/
def Item.reserve (it : Item) : Item :=
  { it with reserved := it.reserved + 1, state := if it.state = .waiting then .active else it.state }

/-- The reservation of a copy (R159). -/
def State.reservationOf (s : State) (m : Fin 48) (i : Nat) (it : Item) : Reservation :=
  ⟨⟨BitVec.ofNat 8 m.val, (s.orders[m]'m.isLt).gen⟩, i, it.size, it.finish⟩

theorem reserve_eq (order : (s.orders[m]'m.isLt).order = some o) (item : o.items[i]? = some it) : reserve s n m i it =
    { s with
      reservations := s.reservations.set n (some (s.reservationOf m i it)) n.isLt
      stations := s.stations.set n { (s.stations[n]'n.isLt) with
        account := { (s.stations[n]'n.isLt).account with reservation := some (s.reservationOf m i it) } } n.isLt
      orders := s.orders.set m { (s.orders[m]'m.isLt) with
        order := some { o with items := o.items.set i it.reserve } } m.isLt } := by
  have found : ({ s with
      reservations := s.reservations.set n (some (s.reservationOf m i it)) n.isLt
      stations := s.stations.set n { (s.stations[n]'n.isLt) with
        account := { (s.stations[n]'n.isLt).account with reservation := some (s.reservationOf m i it) } } n.isLt } : State).orderAt (s.orderHandle m) =
      some (m, o) := orderAt_orderHandle (s := s) order
  refine (modOrder_some found fun o => o.modItem i Item.reserve).trans ?_
  rw [Order.modItem, modify_eq_set_of_get item]
  rfl

/-- The selection of an order's first eligible item reserves one copy of it for the station. -/
theorem selectCopy_reserves (choice : (promoteAll s).selection n = some (m, o, i))
    (item : o.items[i]? = some it) : selectCopy s n = reserve (promoteAll s) n m i it := by
  simp only [selectCopy, choice, item]

theorem exec_copySelection (due : s.selectionDue n = true) :
    exec (.copySelection n) s = .next (afterWork s (selectCopy s n)) := by
  show execCopySelection n s = _
  exact if_pos due

/-- A station that a selection is due for (R155). -/
def Selects (s : State) (n : Fin 3) : Prop :=
  let x := (s.stations[n]'n.isLt)
  s.running = true ∧ (x.state = .ready ∨ x.state = .printing) ∧ (s.reservations[n]'n.isLt) = none ∧
  1 ≤ x.account.ribbonLeft ∧ 1 ≤ x.account.paperLeft ∧
  ∃ (m : Fin 48) (o : Order) (it : Item), (s.orders[m]'m.isLt).order = some o ∧ it ∈ o.items ∧ Eligible x o it

theorem selectionDue_iff : s.selectionDue n = true ↔ Selects s n := by
  simp only [State.selectionDue, State.stationOpen, Bool.and_eq_true, Bool.or_eq_true, beq_iff_eq, decide_eq_true_eq,
    Option.isNone_iff_eq_none, selection_isSome, and_assoc]
  rfl

end reservation

/-! ## The copy that starts (R144, R160) -/

section start
variable {s : State} {n : Fin 3} {m : Fin 48} {o : Order} {r : Reservation} {it : Item}

theorem startDue_iff : s.startDue n = some r ↔ (s.stations[n]'n.isLt).state = .ready ∧ (s.stations[n]'n.isLt).copy = none ∧
    (s.reservations[n]'n.isLt) = some r := by
  rw [State.startDue]
  by_cases idle : (s.stations[n]'n.isLt).state = .ready ∧ (s.stations[n]'n.isLt).copy = none
  · rw [if_pos idle]
    exact ⟨fun held => ⟨idle.1, idle.2, held⟩, fun h => h.2.2⟩
  · rw [if_neg idle]
    exact ⟨fun h => absurd h (by simp), fun h => absurd ⟨h.1, h.2.1⟩ idle⟩

theorem started_eq (item : o.items[r.item]? = some it) (now : Word) : o.started r.item now = { o with
    state := if o.state = .paid then .printing else o.state
    firstStart := if o.state = .paid then some now else o.firstStart
    items := o.items.set r.item { it with reserved := it.reserved - 1, inFlight := it.inFlight + 1 } } := by
  rw [Order.started, Order.modItem, modify_eq_set_of_get item]
  dsimp only
  split
  · rfl
  · rfl

/-- The copy of a reservation, before its first panel (R144). -/
def Reservation.copy (r : Reservation) (seq : Nat) : Copy where
  seq := seq
  order := r.order
  item := r.item
  size := r.size
  finish := r.finish
  lines := r.size.lines
  panel := .y
  phase := .waitStart
  nextLine := 0
  failedAnswers := 0
  answer := none

/-- The state in which a copy's first panel starts: its order prints, its account is charged, COPY_START is sent (R160). -/
def State.copyTaken (s : State) (n : Fin 3) (m : Fin 48) (o : Order) (r : Reservation) : State := { s with
  reservations := s.reservations.set n none n.isLt
  orders := s.orders.set m { (s.orders[m]'m.isLt) with order := some (o.started r.item s.clock) } m.isLt
  stations := s.stations.set n { (s.stations[n]'n.isLt) with
    state := .printing
    nextSeq := seqAfter (s.stations[n]'n.isLt).nextSeq
    account := { (s.stations[n]'n.isLt).account with
      ribbonLeft := (s.stations[n]'n.isLt).account.ribbonLeft - 1
      paperLeft := (s.stations[n]'n.isLt).account.paperLeft - 1
      reservation := none }
    copy := some (r.copy (s.stations[n]'n.isLt).nextSeq) } n.isLt
  sent := s.sent ++ [.link n (messageWords 0x20 (le 2 (s.stations[n]'n.isLt).nextSeq ++
    [BitVec.ofNat 8 r.size.code, BitVec.ofNat 8 r.finish.code] ++ le 2 r.size.lines))] }

theorem startCopy_eq (found : s.orderAt r.order = some (m, o)) : startCopy s n r =
    startPanel (s.copyTaken n m o r) n (r.copy (s.stations[n]'n.isLt).nextSeq) := by
  have mods : ({ s with reservations := s.reservations.set n none n.isLt } : State).modOrder r.order
      (fun o => o.started r.item s.clock) = { s with
        reservations := s.reservations.set n none n.isLt
        orders := s.orders.set m { (s.orders[m]'m.isLt) with order := some (o.started r.item s.clock) } m.isLt } :=
    modOrder_some (s := { s with reservations := s.reservations.set n none n.isLt }) found _
  rw [startCopy]
  simp only [mods]
  rfl

theorem exec_copyStart (due : s.startDue n = some r) : exec (.copyStart n) s = .next (afterWork s (startCopy s n r)) := by
  show execCopyStart n s = _
  rw [execCopyStart, due]
  rfl

end start

end Sys2Proof.Machine
end

