-- ==== Sys2Proof/Proofs/FollowUp.lean ====
section
/-! What follows an event: the starts and the lines it brings, and the selections after it, each an event of its own, until
none is due (R155, R160, R177). -/

namespace Sys2Proof.Machine

-- Checked one after another, as in the tests: a theorem checked alongside others holds its memory.
set_option Elab.async false

/-! ## What may still be due -/

section due
variable {s : State} {n k : Fin 3}

/-- A copy may start at the station (R160). -/
def Starts (s : State) (n : Fin 3) : Prop :=
  (s.stations[n]'n.isLt).state = .ready ∧ (s.stations[n]'n.isLt).copy = none ∧ (s.reservations[n]'n.isLt).isSome

/-- A line of the station may go to the free engine (R177). -/
def Renders (s : State) (n : Fin 3) : Prop := s.job = none ∧ s.waitsToRender n = true

theorem starts_iff : Starts s n ↔ (s.startDue n).isSome := by
  rw [Option.isSome_iff_exists]
  simp only [startDue_iff, Starts, Option.isSome_iff_exists, exists_and_left]

theorem finish_due (s t : State) (n : Fin 3) : (Selects (finish s t) n ↔ Selects t n) ∧ (Starts (finish s t) n ↔ Starts t n) ∧
    (Renders (finish s t) n ↔ Renders t n) := by
  rw [finish_eq]
  exact ⟨Iff.rfl, Iff.rfl, Iff.rfl⟩

/-! ## The arbiter -/

theorem waitsToRender_parts (waits : s.waitsToRender n = true) : ∃ c l i, (s.stations[n]'n.isLt).copy = some c ∧
    (s.heads[n]'n.isLt).cursor = some l ∧ (s.heads[n]'n.isLt).bankIn (fun b => b.state == .empty) = some i := by
  rw [State.waitsToRender] at waits
  split at waits
  · next c l copy cursor =>
    simp only [Bool.and_eq_true, Option.isSome_iff_exists] at waits
    obtain ⟨-, i, bank⟩ := waits
    exact ⟨c, l, i, copy, cursor, bank⟩
  · exact absurd waits (by decide)

theorem renderChoice_isSome : s.renderChoice.isSome ↔ ∃ n, s.waitsToRender n = true := by
  rw [renderChoice_eq, pick_isSome]
  refine exists_congr fun n => ?_
  by_cases waits : s.waitsToRender n = true
  · simp [waits]
  · simp [waits]

theorem renderGrant_keeps (s : State) : renderGrant s = { s with
    heads := (renderGrant s).heads, job := (renderGrant s).job } := by
  unfold renderGrant startLine
  split
  · split
    · rfl
    · rfl
  · rfl

theorem renderGrant_idle (idle : ∀ n, ¬ Renders s n) : renderGrant s = s := by
  rw [renderGrant]
  split
  · next n free choice => exact absurd ⟨free, (renderChoice_rank choice).1⟩ (idle n)
  · rfl

/-- The arbiter leaves no line to a free engine. -/
theorem renderGrant_rests (s : State) (n : Fin 3) : ¬ Renders (renderGrant s) n := by
  rintro ⟨free, waits⟩
  cases job : s.job with
  | some j =>
    have same : renderGrant s = s := by rw [renderGrant, job]
    rw [same, job] at free
    exact absurd free (by simp)
  | none =>
    cases choice : s.renderChoice with
    | none =>
      have same : renderGrant s = s := by rw [renderGrant, job, choice]
      rw [same] at waits
      have some_ := renderChoice_isSome.mpr ⟨n, waits⟩
      rw [choice] at some_
      exact absurd some_ (by simp)
    | some k =>
      obtain ⟨c, l, i, copy, cursor, bank⟩ := waitsToRender_parts (renderChoice_rank choice).1
      rw [renderGrant_free job choice, startLine_eq copy cursor bank] at free
      exact absurd free (by simp)

end due

/-! ## A start and what it leaves due -/

section starts
variable {s : State} {n k : Fin 3} {r : Reservation}

theorem startPanel_station (s : State) (n : Fin 3) (c : Copy) : ∃ y : Station, y.copy.isSome ∧ y.state ≠ .ready ∧
    (startPanel s n c).stations = s.stations.set n y n.isLt ∧ (startPanel s n c).reservations = s.reservations := by
  rw [startPanel]
  split
  · rw [enterPanel_eq]
    exact ⟨_, rfl, StationState.noConfusion, rfl, rfl⟩
  · exact ⟨_, rfl, StationState.noConfusion, rfl, rfl⟩

/-- A start takes the reservation of its station, gives it a copy, and leaves the others. -/
theorem startCopy_spec (s : State) (n : Fin 3) (r : Reservation) : ∃ y : Station, y.copy.isSome ∧ y.state ≠ .ready ∧
    (startCopy s n r).stations = s.stations.set n y n.isLt ∧
    (startCopy s n r).reservations = s.reservations.set n none n.isLt := by
  generalize hu : ({ s with reservations := s.reservations.set n none n.isLt } : State).modOrder r.order
    (fun o => o.started r.item s.clock) = u
  have stations : u.stations = s.stations ∧ u.reservations = s.reservations.set n none n.isLt := by
    rw [← hu, modOrder_keeps]
    exact ⟨rfl, rfl⟩
  have starts : ∃ (v : State) (z : Station) (c : Copy), startCopy s n r = startPanel v n c ∧
      v.stations = u.stations.set n z n.isLt ∧ v.reservations = u.reservations := by
    rw [← hu]
    exact ⟨_, _, _, rfl, rfl, rfl⟩
  obtain ⟨v, z, c, starts, set, kept⟩ := starts
  obtain ⟨y, copy, state, panel, held⟩ := startPanel_station v n c
  refine ⟨y, copy, state, ?_, ?_⟩
  · rw [starts, panel, set, stations.1, Vector.set_set]
  · rw [starts, held, kept, stations.2]

theorem startIfDue_none (idle : ¬ Starts s n) : startIfDue s n = s := by
  rw [starts_iff, Option.not_isSome_iff_eq_none] at idle
  rw [startIfDue, idle]

theorem startIfDue_some (due : s.startDue n = some r) : startIfDue s n = renderGrant (startCopy s n r) := by
  rw [startIfDue, due]

/-- The stations and the reservations after the start that is due, if any. -/
theorem startIfDue_spec (due : Starts s n) : ∃ y : Station, y.copy.isSome ∧ y.state ≠ .ready ∧
    (startIfDue s n).stations = s.stations.set n y n.isLt ∧
    (startIfDue s n).reservations = s.reservations.set n none n.isLt := by
  obtain ⟨r, start⟩ := Option.isSome_iff_exists.mp (starts_iff.mp due)
  obtain ⟨y, copy, state, stations, reservations⟩ := startCopy_spec s n r
  rw [startIfDue_some start, renderGrant_keeps]
  exact ⟨y, copy, state, stations, reservations⟩

theorem startIfDue_starts (s : State) (n k : Fin 3) : Starts (startIfDue s n) k ↔ Starts s k ∧ k ≠ n := by
  by_cases due : Starts s n
  · obtain ⟨y, copy, state, stations, reservations⟩ := startIfDue_spec due
    by_cases same : k = n
    · subst same
      refine ⟨fun again => absurd again.1 ?_, fun h => absurd rfl h.2⟩
      rw [stations, vector_set_get, if_pos rfl]
      exact state
    · have station : ((startIfDue s n).stations[k]'k.isLt) = (s.stations[k]'k.isLt) := by
        rw [stations, vector_set_get, if_neg (Ne.symm same)]
      have reservation : ((startIfDue s n).reservations[k]'k.isLt) = (s.reservations[k]'k.isLt) := by
        rw [reservations, vector_set_get, if_neg (Ne.symm same)]
      rw [Starts, station, reservation]
      exact ⟨fun h => ⟨h, same⟩, fun h => h.1⟩
  · rw [startIfDue_none due]
    exact ⟨fun h => ⟨h, fun same => due (same ▸ h)⟩, fun h => h.1⟩

theorem startIfDue_renders (rests : ∀ k, ¬ Renders s k) (n k : Fin 3) : ¬ Renders (startIfDue s n) k := by
  by_cases due : Starts s n
  · obtain ⟨r, start⟩ := Option.isSome_iff_exists.mp (starts_iff.mp due)
    rw [startIfDue_some start]
    exact renderGrant_rests _ k
  · rw [startIfDue_none due]
    exact rests k

/-- What follows an event leaves no start and no line to a free engine. -/
theorem followUp_rests (s : State) (n : Fin 3) : ¬ Starts (followUp s) n ∧ ¬ Renders (followUp s) n := by
  have steps : ∀ (ns : List (Fin 3)) (u : State), (∀ k, ¬ Renders u k) → ∀ k,
      (Starts (ns.foldl startIfDue u) k → Starts u k ∧ k ∉ ns) ∧ ¬ Renders (ns.foldl startIfDue u) k := by
    intro ns
    induction ns with
    | nil => exact fun u rests k => ⟨fun h => ⟨h, List.not_mem_nil⟩, rests k⟩
    | cons m ns ih =>
      intro u rests k
      obtain ⟨left, rests'⟩ := ih (startIfDue u m) (startIfDue_renders rests m) k
      refine ⟨fun starts => ?_, rests'⟩
      obtain ⟨before, later⟩ := left starts
      obtain ⟨was, other⟩ := (startIfDue_starts u m k).mp before
      exact ⟨was, by simp [other, later]⟩
  obtain ⟨starts, renders⟩ := steps (List.finRange 3) (renderGrant s) (renderGrant_rests s) n
  exact ⟨fun h => (starts h).2 (List.mem_finRange n), renders⟩

theorem followUp_idle (starts : ∀ n, ¬ Starts s n) (renders : ∀ n, ¬ Renders s n) : followUp s = s := by
  rw [followUp, renderGrant_idle renders]
  generalize List.finRange 3 = ns
  induction ns with
  | nil => rfl
  | cons n ns ih => rw [List.foldl_cons, startIfDue_none (starts n), ih]

end starts

/-! ## A selection and what it leaves due -/

section selections
variable {s u : State} {n k : Fin 3}

theorem selection_candidate {x : Fin 48 × Order × Nat} (choice : s.selection n = some x) : ∃ m, s.candidate n m = some x := by
  have best := pick_best (cand := s.candidate n) (before := fun a b => a.2.1.ranksBefore b.2.1) (key := fun _ => 0)
    (at_ := fun a => a.1) (strict := fun _ => False) (fun k x cand => (candidate_iff (i := x.2.2) (o := x.2.1)).mp cand |>.1)
    (fun _ _ _ _ _ _ => ⟨fun _ => le_rfl, fun _ => le_rfl, fun _ h => absurd h id⟩) (finRange_sorted 48)
  rw [← selection_eq, choice] at best
  obtain ⟨⟨m, -, cand⟩, -⟩ := best
  exact ⟨m, cand⟩

/-- A selection reserves a copy for its station, and leaves the other stations and their reservations. -/
theorem selectCopy_spec (due : Selects s n) : ∃ r acc, (selectCopy s n).reservations = s.reservations.set n (some r) n.isLt ∧
    (selectCopy s n).stations = s.stations.set n { (s.stations[n]'n.isLt) with account := acc } n.isLt ∧
    (selectCopy s n).heads = s.heads ∧ (selectCopy s n).job = s.job := by
  obtain ⟨-, -, -, -, -, m, o, it, order, mem, fits⟩ := due
  have found : ((promoteAll s).selection n).isSome := by
    refine selection_isSome.mpr ⟨m, o.promote s, it, ?_, ?_, ?_⟩
    · rw [promoteAll_orders, order]
      rfl
    · obtain ⟨b, promoted⟩ := promote_eq o s
      rw [promoted]
      exact mem
    · obtain ⟨b, promoted⟩ := promote_eq o s
      rw [promoted]
      exact fits
  obtain ⟨⟨a, q, i⟩, choice⟩ := Option.isSome_iff_exists.mp found
  obtain ⟨k, cand⟩ := selection_candidate choice
  obtain ⟨rfl, jt, first⟩ := candidate_iff.mp cand
  obtain ⟨held, item, -⟩ := first
  rw [selectCopy_reserves choice item, reserve_eq held item]
  exact ⟨_, _, rfl, rfl, rfl, rfl⟩

/-- A selection with its start leaves every other station, and on its own it uses up the free entry or the idle station. -/
theorem serveStation_spec (due : Selects s n) :
    (∀ k, k ≠ n → ((serveStation s n).stations[k]'k.isLt) = (s.stations[k]'k.isLt) ∧
      ((serveStation s n).reservations[k]'k.isLt) = (s.reservations[k]'k.isLt)) ∧
    (if (s.stations[n]'n.isLt).state = .ready ∧ (s.stations[n]'n.isLt).copy = none
      then ((serveStation s n).stations[n]'n.isLt).copy.isSome
      else ((serveStation s n).reservations[n]'n.isLt).isSome) := by
  obtain ⟨r, acc, reservations, stations, -, -⟩ := selectCopy_spec due
  have station : ((selectCopy s n).stations[n]'n.isLt) = { (s.stations[n]'n.isLt) with account := acc } := by
    rw [stations, vector_set_get, if_pos rfl]
  have held : ((selectCopy s n).reservations[n]'n.isLt) = some r := by rw [reservations, vector_set_get, if_pos rfl]
  have others : ∀ k, k ≠ n → ((selectCopy s n).stations[k]'k.isLt) = (s.stations[k]'k.isLt) ∧
      ((selectCopy s n).reservations[k]'k.isLt) = (s.reservations[k]'k.isLt) := by
    intro k other
    rw [stations, reservations, vector_set_get, vector_set_get, if_neg (Ne.symm other), if_neg (Ne.symm other)]
    exact ⟨rfl, rfl⟩
  rw [serveStation]
  by_cases idle : (s.stations[n]'n.isLt).state = .ready ∧ (s.stations[n]'n.isLt).copy = none
  · have starts : Starts (selectCopy s n) n := by
      rw [Starts, station, held]
      exact ⟨idle.1, idle.2, rfl⟩
    obtain ⟨y, copy, -, stations', reservations'⟩ := startIfDue_spec starts
    rw [if_pos idle, stations', reservations']
    refine ⟨fun k other => ?_, ?_⟩
    · rw [vector_set_get, vector_set_get, if_neg (Ne.symm other), if_neg (Ne.symm other)]
      exact others k other
    · rw [vector_set_get, if_pos rfl]
      exact copy
  · have waits : ¬ Starts (selectCopy s n) n := by
      rw [Starts, station]
      exact fun starts => idle ⟨starts.1, starts.2.1⟩
    rw [startIfDue_none waits, if_neg idle, held]
    exact ⟨others, rfl⟩

theorem serveStation_rests (due : Selects s n) (starts : ∀ k, ¬ Starts s k) (renders : ∀ k, ¬ Renders s k) (k : Fin 3) :
    ¬ Starts (serveStation s n) k ∧ ¬ Renders (serveStation s n) k := by
  obtain ⟨r, acc, reservations, stations, heads, job⟩ := selectCopy_spec due
  have copies : ∀ k : Fin 3, ((selectCopy s n).stations[k]'k.isLt).copy = (s.stations[k]'k.isLt).copy := by
    intro k
    rw [stations, vector_set_get]
    split
    · next same => rw [same]
    · rfl
  refine ⟨fun again => ?_, startIfDue_renders (fun k => ?_) n k⟩
  · obtain ⟨was, other⟩ := (startIfDue_starts _ n k).mp again
    rw [Starts, stations, reservations, vector_set_get, vector_set_get, if_neg (Ne.symm other), if_neg (Ne.symm other)] at was
    exact starts k was
  · have waits : (selectCopy s n).waitsToRender k = s.waitsToRender k := by
      rw [State.waitsToRender, State.waitsToRender, copies k, heads]
    rw [Renders, job, waits]
    exact renders k

/-- How many selections a station may still have: an idle READY station starts the first and reserves the next (log 51). -/
def State.openings (s : State) (n : Fin 3) : Nat :=
  if (s.reservations[n]'n.isLt).isSome then 0
  else if (s.stations[n]'n.isLt).state = .ready ∧ (s.stations[n]'n.isLt).copy = none then 2 else 1

/-- How many selections there may still be. -/
def State.allOpenings (s : State) : Nat := s.openings 0 + s.openings 1 + s.openings 2

theorem finish_allOpenings (s t : State) : (finish s t).allOpenings = t.allOpenings := by
  simp only [State.allOpenings, State.openings, finish_stations, finish_reservations]

theorem allOpenings_le (s : State) : s.allOpenings ≤ 6 := by
  have each : ∀ n, s.openings n ≤ 2 := by
    intro n
    rw [State.openings]
    split
    · omega
    · split
      · omega
      · omega
  have := each 0
  have := each 1
  have := each 2
  rw [State.allOpenings]
  omega

theorem sum_lt_of_one {f g : Fin 3 → Nat} {n : Fin 3} (same : ∀ k, k ≠ n → f k = g k) (down : f n < g n) :
    f 0 + f 1 + f 2 < g 0 + g 1 + g 2 := by
  match n with
  | 0 =>
    have := same 1 (by decide)
    have := same 2 (by decide)
    omega
  | 1 =>
    have := same 0 (by decide)
    have := same 2 (by decide)
    omega
  | 2 =>
    have := same 0 (by decide)
    have := same 1 (by decide)
    omega

/-- A selection uses up one of the selections there may still be. -/
theorem serveStation_openings (due : Selects s n) : (serveStation s n).allOpenings < s.allOpenings := by
  obtain ⟨others, own⟩ := serveStation_spec due
  have same : ∀ k, k ≠ n → (serveStation s n).openings k = s.openings k := by
    intro k other
    obtain ⟨station, reservation⟩ := others k other
    rw [State.openings, State.openings, station, reservation]
  have down : (serveStation s n).openings n < s.openings n := by
    obtain ⟨-, -, free, -⟩ := due
    have closed : ¬ (s.reservations[n]'n.isLt).isSome := by rw [free]; decide
    by_cases idle : (s.stations[n]'n.isLt).state = .ready ∧ (s.stations[n]'n.isLt).copy = none
    · rw [if_pos idle] at own
      have two : s.openings n = 2 := by rw [State.openings, if_neg closed, if_pos idle]
      have one : (serveStation s n).openings n ≤ 1 := by
        rw [State.openings]
        split
        · exact Nat.zero_le 1
        · split
          · next again => rw [again.2] at own; exact absurd own (by decide)
          · exact Nat.le_refl 1
      rw [two]
      exact Nat.lt_of_le_of_lt one (by decide)
    · rw [if_neg idle] at own
      have one : s.openings n = 1 := by rw [State.openings, if_neg closed, if_neg idle]
      have zero : (serveStation s n).openings n = 0 := by rw [State.openings, if_pos own]
      rw [one, zero]
      exact Nat.one_pos
  exact sum_lt_of_one same down

theorem mem_dueStations : n ∈ s.dueStations ↔ Selects s n := by
  rw [State.dueStations, List.mem_filter, selectionDue_iff]
  exact ⟨fun h => h.2, fun h => ⟨List.mem_finRange n, h⟩⟩

theorem dueStations_nil : s.dueStations = [] ↔ ∀ n, ¬ Selects s n := by
  rw [List.eq_nil_iff_forall_not_mem]
  exact forall_congr' fun n => not_congr mem_dueStations

theorem selectAll_idle (f : Nat) (idle : ∀ n, ¬ Selects s n) : selectAll f s = s := selectAll_none f (dueStations_nil.mpr idle)

/-- While a selection is due the next event is one of a station that has one due. -/
theorem selectAll_step (f : Nat) (due : ∃ n, Selects s n) : ∃ (n : Fin 3) (v : State), Selects s n ∧
    v = { s with stationChoices := v.stationChoices } ∧ ((∀ m, Selects s m → m = n) → v = s) ∧
    selectAll (f + 1) s = selectAll f (selectionEvent v n) := by
  have nodup : s.dueStations.Nodup := (List.nodup_finRange 3).filter _
  have here : ∀ m, m ∈ s.dueStations ↔ Selects s m := fun m => mem_dueStations
  rw [selectAll]
  cases stations : s.dueStations with
  | nil => exact absurd due (by simpa using dueStations_nil.mp stations)
  | cons n rest =>
    rw [stations] at here nodup
    cases rest with
    | nil => exact ⟨n, s, (here n).mp (by simp), rfl, fun _ => rfl, rfl⟩
    | cons m rest =>
      have chosen : ∀ i, (n :: m :: rest).getD (i % (n :: m :: rest).length) n ∈ n :: m :: rest := by
        intro i
        have inside : i % (n :: m :: rest).length < (n :: m :: rest).length := Nat.mod_lt _ (by simp)
        rw [List.getD_eq_getElem _ _ inside]
        exact List.getElem_mem inside
      refine ⟨_, { s with stationChoices := s.stationChoices + 1 }, (here _).mp (chosen _), rfl, fun only => ?_, rfl⟩
      have first := only n ((here n).mp (by simp))
      have second := only m ((here m).mp (by simp))
      have apart : n ≠ m := fun same => by simp [same] at nodup
      exact absurd (first.trans second.symm) apart

/-- Six selections are enough: none is due after them, nor a start or a line. -/
theorem selectAll_rests (f : Nat) (few : s.allOpenings ≤ f) (starts : ∀ n, ¬ Starts s n) (renders : ∀ n, ¬ Renders s n) (n : Fin 3) :
    ¬ Selects (selectAll f s) n ∧ ¬ Starts (selectAll f s) n ∧ ¬ Renders (selectAll f s) n := by
  induction f generalizing s with
  | zero =>
    have idle : ∀ m, ¬ Selects s m := by
      intro m due
      have fewer := serveStation_openings due
      exact absurd (Nat.lt_of_lt_of_le fewer few) (Nat.not_lt_zero _)
    exact ⟨idle n, starts n, renders n⟩
  | succ f ih =>
    by_cases due : ∃ m, Selects s m
    · obtain ⟨m, v, selects, same, -, next⟩ := selectAll_step f due
      have selects' : Selects v m := by rw [same]; exact selects
      have starts' : ∀ k, ¬ Starts v k := fun k => by rw [same]; exact starts k
      have renders' : ∀ k, ¬ Renders v k := fun k => by rw [same]; exact renders k
      have openings : v.allOpenings = s.allOpenings := by rw [same]; rfl
      have rests := serveStation_rests selects' starts' renders'
      have fewer := serveStation_openings selects'
      have after : (selectionEvent v m).allOpenings = (serveStation v m).allOpenings := finish_allOpenings _ _
      rw [next]
      refine ih ?_ (fun k => ?_) (fun k => ?_)
      · rw [after]
        exact Nat.le_of_lt_succ (Nat.lt_of_lt_of_le fewer (openings.trans_le few))
      · rw [selectionEvent, (finish_due v _ k).2.1]
        exact (rests k).1
      · rw [selectionEvent, (finish_due v _ k).2.2]
        exact (rests k).2
    · have idle : ∀ m, ¬ Selects s m := fun m selects => due ⟨m, selects⟩
      rw [selectAll_idle _ idle]
      exact ⟨idle n, starts n, renders n⟩

end selections

/-- Settles O55: the ranking with promotion, the start of a copy, and the closure of what follows an event. -/
theorem copiesAreRankedReservedAndStarted : Obligations.CopiesAreRankedReservedAndStarted := by
  refine ⟨fun s n => ?selects, fun s n r m o it st => ?starts, fun s₀ s => ?follows⟩
  case selects =>
    intro x promote eligible first ahead running state free ribbon paper near m o i it found others r
    have best : (promoteAll s).selection n = some (m, o.promote s, i) := selection_promoteAll near found others
    have due : s.selectionDue n = true :=
      selectionDue_iff.mpr ⟨running, state, free, ribbon, paper, m, o, it, found.1, List.mem_of_getElem? found.2.1, found.2.2.1⟩
    have items : (o.promote s).items = o.items := by
      obtain ⟨b, promoted⟩ := promote_eq o s
      rw [promoted]
    have order : ((promoteAll s).orders[m]'m.isLt).order = some (o.promote s) := by rw [promoteAll_orders, found.1]; rfl
    have item : (o.promote s).items[i]? = some it := by rw [items]; exact found.2.1
    have gens : ((promoteAll s).orders[m]'m.isLt).gen = (s.orders[m]'m.isLt).gen := by rw [promoteAll_orders]
    have same : (promoteAll s).reservationOf m i it = r := by rw [State.reservationOf, gens]
    refine ⟨_, exec_copySelection due, ?_⟩
    rw [selectCopy_reserves best item, reserve_eq order item, same]
    refine ⟨rfl, rfl, fun k other => ?_, ?_⟩
    · dsimp only
      rw [vector_set_get, if_neg (Ne.symm other), promoteAll_orders]
      rfl
    · dsimp only
      rw [vector_set_get, if_pos rfl, promoteAll_orders, items]
      rfl
  case starts =>
    intro x held ready idle status found item lines c started account next taken
    have run := exec_copyStart (startDue_iff.mpr ⟨ready, idle, held⟩)
    rw [startCopy_eq found] at run
    have station : ((s.copyTaken n m o r).stations[n]'n.isLt) = { x with
        state := .printing, nextSeq := next, account := account, copy := some c } := by
      rw [State.copyTaken, vector_set_get, if_pos rfl]
      rfl
    have took : s.copyTaken n m o r = { taken with
        stations := (s.copyTaken n m o r).stations, sent := s.sent ++ [started] } := by
      rw [State.copyTaken, started_eq item]
      rfl
    have sets : ∀ y : Station, (s.copyTaken n m o r).stations.set n y n.isLt = s.stations.set n y n.isLt := fun y => by
      rw [State.copyTaken, Vector.set_set]
    have shown : ((s.copyTaken n m o r).stations[n]'n.isLt).status = some st := by
      rw [station]
      exact status
    refine ⟨fun cool => ⟨panelHead x.profile st.temp (s.heads[n]'n.isLt), run.trans ?_, rfl, rfl, rfl, rfl, fun p profile => ?_⟩,
      fun hot => run.trans ?_⟩
    · rw [startPanel_cool shown cool, enterPanel_eq, station, sets, took]
      refine congrArg (fun sent => Host.Outcome.next (afterWork s { taken with
        stations := s.stations.set n { x with
          state := .printing, pauseCause := .none, nextSeq := next, account := account
          copy := some { c with phase := .inPanel } } n.isLt
        heads := s.heads.set n (panelHead x.profile st.temp (s.heads[n]'n.isLt)) n.isLt
        sent := sent })) ?_
      exact List.append_assoc ..
    · simp only [panelHead, profile]
      rfl
    · rw [startPanel_hot shown hot, State.setStation, station, sets, took]
      rfl
  case follows =>
    intro t selects starts renders follows
    have selects_iff : ∀ (u : State) (n : Fin 3), selects u n ↔ Selects u n := fun _ _ => Iff.rfl
    have starts_iff : ∀ (u : State) (n : Fin 3), starts u n ↔ Starts u n := fun _ _ => Iff.rfl
    have renders_iff : ∀ (u : State) (n : Fin 3), renders u n ↔ Renders u n := fun _ _ => Iff.rfl
    have rests := followUp_rests s
    have all : ∀ n, ¬ Selects t n ∧ ¬ Starts t n ∧ ¬ Renders t n :=
      selectAll_rests (s := finish s₀ (followUp s)) 6 (allOpenings_le _)
        (fun n => fun h => (rests n).1 ((finish_due s₀ _ n).2.1.mp h)) (fun n => fun h => (rests n).2 ((finish_due s₀ _ n).2.2.mp h))
    simp only [selects_iff, starts_iff, renders_iff]
    refine ⟨all, fun idle => ?_, followUp_work s, rests, rfl, fun f u idle => selectAll_idle f idle, fun f u due => ?_⟩
    · have same : followUp s = s := followUp_idle (fun n => (idle n).2.1) (fun n => (idle n).2.2)
      have done : ∀ n, ¬ Selects (finish s₀ (followUp s)) n := fun n => by
        rw [(finish_due s₀ _ n).1, same]
        exact (idle n).1
      show selectAll 6 (finish s₀ (followUp s)) = finish s₀ s
      rw [selectAll_idle 6 done, same]
    · obtain ⟨n, v, selects, same, only, next⟩ := selectAll_step f due
      refine ⟨n, v, selects, same, only, next, ?_⟩
      have work := serveStation_work v n
      exact WorkFrame.trans (s := u) (t := v) (by rw [WorkFrame, same]) work

end Sys2Proof.Machine
end

