-- ==== Sys2Proof/Proofs/Accounts.lean ====
section
/-! The accounts of the work cells (R9): in how many places a cell stands, in the intake lists and with the blocks, and the
rules for a take, an answer, a post and a withdraw. A cell that was taken and is not yet with a block or answered is loose. -/

namespace Sys2Proof.Machine

-- Checked one after another, as in the tests: a theorem checked alongside others holds its memory.
set_option Elab.async false

/-! ## Counting over tables -/

theorem List.count_flatMap_set {α : Type} (f : α → List (Fin 64)) (l : List α) {i : Nat} (h : i < l.length) (x : α) (c : Fin 64) :
    ((l.set i x).flatMap f).count c + (f l[i]).count c = (l.flatMap f).count c + (f x).count c := by
  induction l generalizing i with
  | nil => exact nomatch h
  | cons a l ih =>
    cases i with
    | zero =>
      simp only [List.set_cons_zero, List.flatMap_cons, List.count_append, List.getElem_cons_zero]
      omega
    | succ i =>
      have rest := ih (Nat.lt_of_succ_lt_succ h)
      simp only [List.set_cons_succ, List.flatMap_cons, List.count_append, List.getElem_cons_succ]
      omega

/-- Replacing one entry of a table moves what it holds out and what the new one holds in. -/
theorem count_flatMap_vector_set {α : Type} {n : Nat} (f : α → List (Fin 64)) (v : Vector α n) (i : Fin n) (x : α) (c : Fin 64) :
    ((v.set i x).toList.flatMap f).count c + (f (v[i]'i.isLt)).count c = (v.toList.flatMap f).count c + (f x).count c := by
  have set := List.count_flatMap_set f v.toList (i := i) (by simp) x c
  simpa [Vector.toList_set] using set

theorem flatMap_vector_congr {α : Type} {n : Nat} {f : α → List (Fin 64)} {v w : Vector α n}
    (h : ∀ i : Fin n, f (w[i]'i.isLt) = f (v[i]'i.isLt)) : w.toList.flatMap f = v.toList.flatMap f := by
  have maps : v.map f = w.map f := by
    ext1 i hi
    simpa using (h ⟨i, hi⟩).symm
  rw [List.flatMap_def, List.flatMap_def, ← Vector.toList_map, ← Vector.toList_map, maps]

/-! ## The accounts (R9) -/

/-- An order with a pay cell is AUTHORIZING. -/
def Order.PaySound (o : Order) : Prop := o.payCell.isSome → o.state = .authorizing

/-- Every FILLED cell stands in one list and no other does; every TAKEN cell is held by one block or is one of the loose
cells `L`, and no other is. -/
structure Accounts (L : List (Fin 64)) (s : State) : Prop where
  filled (c : Fin 64) : s.listed.count c = if (s.cells[c]'c.isLt).hand = .filled then 1 else 0
  taken (c : Fin 64) : L.count c + s.held.count c = if (s.cells[c]'c.isLt).hand = .taken then 1 else 0
  slots (k : Fin 4) : (s.slots[k]'k.isLt).holdsByState
  orders (n : Fin 48) (o : Order) : (s.orders[n]'n.isLt).order = some o → o.PaySound

theorem count_eq_ite {l : List (Fin 64)} {p : Fin 64 → Prop} [DecidablePred p] (once : ∀ c, l.count c ≤ 1) (mem : ∀ c, p c ↔ c ∈ l)
    (c : Fin 64) : l.count c = if p c then 1 else 0 := by
  have one := once c
  split
  · rename_i holds
    have positive := List.count_pos_iff.mpr ((mem c).mp holds)
    omega
  · rename_i fails
    exact List.count_eq_zero.mpr fun h => fails ((mem c).mpr h)

theorem count_le_of_ite {n : Nat} {p : Prop} [Decidable p] (h : n = if p then 1 else 0) : n ≤ 1 ∧ (p ↔ 0 < n) := by
  split at h <;> simp_all

/-- The accounts without loose cells are what R9 says. -/
theorem accounts_iff {s : State} : CellsAccounted s ↔ Accounts [] s ∧ (s.running = !s.autoload.isSome) ∧
    (s.running = false → ∀ k : Fin 4, (s.slots[k]'k.isLt).state = .empty) := by
  constructor
  · intro h
    have once (c : Fin 64) := List.nodup_iff_count_le_one.mp h.once c
    simp only [List.count_append] at once
    refine ⟨⟨count_eq_ite (fun c => ?_) h.filled, fun c => ?_, h.slots, h.orders⟩, h.starting, h.resting⟩
    · exact (Nat.le_add_right ..).trans (once c)
    · rw [List.count_nil, Nat.zero_add]
      exact count_eq_ite (fun c => (Nat.le_add_left ..).trans (once c)) h.taken c
  · rintro ⟨h, starting, resting⟩
    have taken (c : Fin 64) := h.taken c
    simp only [List.count_nil, Nat.zero_add] at taken
    refine ⟨List.nodup_iff_count_le_one.mpr fun c => ?_, fun c => ?_, fun c => ?_, h.slots, h.orders, starting, resting⟩
    · rw [List.count_append, h.filled, taken]
      split
      · rename_i filled
        rw [if_neg (by rw [filled]; decide)]
      · split <;> omega
    · rw [← List.count_pos_iff]
      exact (count_le_of_ite (h.filled c)).2
    · rw [← List.count_pos_iff]
      exact (count_le_of_ite (taken c)).2

/-! ## What the blocks hold -/

theorem held_count (s : State) (c : Fin 64) : s.held.count c = (s.slots.toList.flatMap Slot.held).count c +
    (s.orders.toList.flatMap fun e => (e.order.bind Order.payCell).toList).count c +
    ((s.pay.loop.map Loopback.cell).toList).count c + (s.stations.toList.flatMap fun x => x.takenCell.toList).count c +
    ((s.store.map Store.cell).toList).count c := by
  simp only [State.held, List.count_append]

/-- A cell of a list is FILLED. -/
theorem Accounts.filled_of_mem {L : List (Fin 64)} {s : State} (h : Accounts L s) {c : Fin 64} (mem : c ∈ s.listed) :
    (s.cells[c]'c.isLt).hand = .filled := (count_le_of_ite (h.filled c)).2.mpr (List.count_pos_iff.mpr mem)

/-- A loose cell is TAKEN. -/
theorem Accounts.taken_of_loose {L : List (Fin 64)} {s : State} (h : Accounts L s) {c : Fin 64} (mem : c ∈ L) :
    (s.cells[c]'c.isLt).hand = .taken :=
  (count_le_of_ite (h.taken c)).2.mpr (Nat.add_pos_left (List.count_pos_iff.mpr mem) _)

/-- A change of what the blocks hold, with the loose cells changed to match. -/
theorem Accounts.move {L M : List (Fin 64)} {s t : State} (h : Accounts L s) (cells : t.cells = s.cells)
    (intake : t.intake = s.intake) (held : ∀ c, M.count c + t.held.count c = L.count c + s.held.count c)
    (slots : ∀ k : Fin 4, (t.slots[k]'k.isLt).holdsByState)
    (orders : ∀ (n : Fin 48) (o : Order), (t.orders[n]'n.isLt).order = some o → o.PaySound) : Accounts M t where
  filled c := by
    rw [State.listed, intake, cells]
    exact h.filled c
  taken c := by
    rw [held, cells]
    exact h.taken c
  slots := slots
  orders := orders

/-- What holds cells stays as it is. -/
theorem Accounts.same {L : List (Fin 64)} {s t : State} (h : Accounts L s) (cells : t.cells = s.cells) (intake : t.intake = s.intake)
    (slots : t.slots = s.slots) (orders : t.orders = s.orders) (loop : t.pay.loop.map Loopback.cell = s.pay.loop.map Loopback.cell)
    (stations : t.stations = s.stations) (store : t.store.map Store.cell = s.store.map Store.cell) : Accounts L t :=
  h.move cells intake (fun c => by rw [held_count, held_count, slots, orders, loop, stations, store])
    (by rw [slots]; exact h.slots) (by rw [orders]; exact h.orders)

section holders
variable {L M : List (Fin 64)} {s : State}

theorem Accounts.setSlot {k : Fin 4} {x : Slot} (h : Accounts L s)
    (held : ∀ c, M.count c + x.held.count c = L.count c + (s.slots[k]'k.isLt).held.count c)
    (slot : x.holdsByState) : Accounts M (s.setSlot k x) := by
  refine h.move rfl rfl (fun c => ?_) (fun j => ?_) h.orders
  · have set := count_flatMap_vector_set Slot.held s.slots k x c
    have one := held c
    rw [held_count, held_count, State.setSlot_slots, State.setSlot_orders, State.setSlot_pay, State.setSlot_stations,
      State.setSlot_store]
    omega
  · rw [setSlot_get]
    split
    · exact slot
    · exact h.slots j

theorem Accounts.setStation {n : Fin 3} {x : Station} (h : Accounts L s)
    (held : ∀ c, M.count c + x.takenCell.toList.count c = L.count c + (s.stations[n]'n.isLt).takenCell.toList.count c) :
    Accounts M (s.setStation n x) := by
  refine h.move rfl rfl (fun c => ?_) h.slots h.orders
  have set := count_flatMap_vector_set (fun x : Station => x.takenCell.toList) s.stations n x c
  have one := held c
  rw [held_count, held_count, State.setStation_stations, State.setStation_slots, State.setStation_pay, State.setStation_orders,
    State.setStation_store]
  omega

theorem Accounts.setOrder {n : Fin 48} {e : OrderEntry} (h : Accounts L s)
    (held : ∀ c, M.count c + (e.order.bind Order.payCell).toList.count c =
      L.count c + ((s.orders[n]'n.isLt).order.bind Order.payCell).toList.count c)
    (sound : ∀ o, e.order = some o → o.PaySound) : Accounts M (s.setOrder n e) := by
  refine h.move rfl rfl (fun c => ?_) h.slots fun m o found => ?_
  · have set := count_flatMap_vector_set (fun e : OrderEntry => (e.order.bind Order.payCell).toList) s.orders n e c
    have one := held c
    rw [held_count, held_count, State.setOrder_orders, State.setOrder_slots, State.setOrder_pay, State.setOrder_stations,
      State.setOrder_store]
    omega
  · rw [show ((s.setOrder n e).orders[m]'m.isLt) = if n = m then e else s.orders[m]'m.isLt from vector_set_get ..] at found
    split at found
    · exact sound o found
    · exact h.orders m o found

theorem Accounts.modPay {f : Pay → Pay} (h : Accounts L s)
    (held : ∀ c, M.count c + (((f s.pay).loop.map Loopback.cell).toList).count c =
      L.count c + ((s.pay.loop.map Loopback.cell).toList).count c) : Accounts M (s.modPay f) := by
  refine h.move rfl rfl (fun c => ?_) h.slots h.orders
  have one := held c
  rw [held_count, held_count, State.modPay_pay, State.modPay_slots, State.modPay_orders, State.modPay_stations, State.modPay_store]
  omega

theorem Accounts.setStore {st : Option Store} (h : Accounts L s)
    (held : ∀ c, M.count c + ((st.map Store.cell).toList).count c = L.count c + ((s.store.map Store.cell).toList).count c) :
    Accounts M { s with store := st } := by
  refine h.move rfl rfl (fun c => ?_) h.slots h.orders
  have one := held c
  rw [held_count, held_count]
  dsimp only
  omega

end holders

/-! ## Changes of the hand (R7, R10 to R13) -/

section hands
variable {L : List (Fin 64)} {s : State}

theorem listed_unlist (s : State) (c : Fin 64) : (s.unlist c).listed = s.listed.filter (· != c) := by
  have lists : (s.unlist c).intake = s.intake.map (List.filter (· != c)) := by
    ext1 l hl
    simp [State.unlist]
  rw [State.listed, lists, Vector.toList_map, State.listed, List.filter_flatten]

theorem listed_unlist_count (s : State) (c d : Fin 64) :
    (s.unlist c).listed.count d = if c = d then 0 else s.listed.count d := by
  rw [listed_unlist]
  split
  · rename_i same
    exact List.count_eq_zero.mpr (by simp [same])
  · rename_i other
    exact List.count_filter (by simpa using Ne.symm other)

theorem mem_listed {s : State} {c : Fin 64} {l : Fin 11} (mem : c ∈ (s.intake[l]'l.isLt)) : c ∈ s.listed :=
  List.mem_flatten.mpr ⟨_, Vector.mem_toList_iff.mpr (Vector.getElem_mem l.isLt), mem⟩

theorem setCell_get (s : State) (c d : Fin 64) (x : WorkCell) :
    ((s.setCell c x).cells[d]'d.isLt) = if c = d then x else s.cells[d]'d.isLt := vector_set_get ..

/-- The rule for a change of one cell's hand: the cell's places before and after are those its hand gives. -/
theorem Accounts.setHand {M : List (Fin 64)} {t : State} {c : Fin 64} {x : WorkCell} (h : Accounts L s)
    (listed : ∀ d, c ≠ d → t.listed.count d = s.listed.count d) (loose : ∀ d, c ≠ d → M.count d = L.count d)
    (own : t.listed.count c = if x.hand = .filled then 1 else 0)
    (ownHeld : M.count c + s.held.count c = if x.hand = .taken then 1 else 0)
    (held : t.held = s.held := by exact rfl) (cells : t.cells = s.cells := by exact rfl)
    (slots : t.slots = s.slots := by exact rfl) (orders : t.orders = s.orders := by exact rfl) :
    Accounts M (t.setCell c x) where
  filled d := by
    show t.listed.count d = _
    rw [setCell_get]
    split
    · rename_i same
      exact same ▸ own
    · rename_i other
      rw [listed d other, cells]
      exact h.filled d
  taken d := by
    show _ + t.held.count d = _
    rw [setCell_get, held]
    split
    · rename_i same
      exact same ▸ ownHeld
    · rename_i other
      rw [loose d other, cells]
      exact h.taken d
  slots := by rw [State.setCell_slots, slots]; exact h.slots
  orders := by rw [State.setCell_orders, orders]; exact h.orders

/-- A cell keeps its hand. -/
theorem Accounts.setCell {c : Fin 64} {x : WorkCell} (h : Accounts L s) (hand : x.hand = (s.cells[c]'c.isLt).hand) :
    Accounts L (s.setCell c x) :=
  h.setHand (fun _ _ => rfl) (fun _ _ => rfl) (hand ▸ h.filled c) (hand ▸ h.taken c)

/-- The places of a FILLED cell. -/
theorem Accounts.of_filled {c : Fin 64} (h : Accounts L s) (filled : (s.cells[c]'c.isLt).hand = .filled) :
    s.listed.count c = 1 ∧ L.count c + s.held.count c = 0 :=
  ⟨by rw [h.filled, if_pos filled], by rw [h.taken, if_neg (by rw [filled]; decide)]⟩

/-- The places of a TAKEN cell. -/
theorem Accounts.of_taken {c : Fin 64} (h : Accounts L s) (taken : (s.cells[c]'c.isLt).hand = .taken) :
    s.listed.count c = 0 ∧ L.count c + s.held.count c = 1 :=
  ⟨by rw [h.filled, if_neg (by rw [taken]; decide)], by rw [h.taken, if_pos taken]⟩

/-- The places of a FREE or ANSWERED cell. -/
theorem Accounts.of_other {c : Fin 64} (h : Accounts L s)
    (other : (s.cells[c]'c.isLt).hand = .free ∨ (s.cells[c]'c.isLt).hand = .answered) :
    s.listed.count c = 0 ∧ L.count c + s.held.count c = 0 := by
  obtain free | answered := other
  · exact ⟨by rw [h.filled, if_neg (by rw [free]; decide)], by rw [h.taken, if_neg (by rw [free]; decide)]⟩
  · exact ⟨by rw [h.filled, if_neg (by rw [answered]; decide)], by rw [h.taken, if_neg (by rw [answered]; decide)]⟩

/-- A take makes a FILLED cell loose (R10). -/
theorem Accounts.take {c : Fin 64} (h : Accounts L s) (mem : c ∈ s.listed) : Accounts (c :: L) (s.take c) := by
  obtain ⟨-, held⟩ := h.of_filled (h.filled_of_mem mem)
  refine h.setHand (t := s.unlist c) (fun d other => ?_) (fun d other => ?_) ?_ ?_
  · rw [listed_unlist_count, if_neg other]
  · rw [List.count_cons_of_ne other]
  · rw [listed_unlist_count, if_pos rfl, if_neg (by exact nofun)]
  · rw [List.count_cons_self, show ((s.cells[c]'c.isLt).taken).hand = .taken from rfl, if_pos rfl]
    omega

/-- An answer ends the accounts of a loose cell (R12). -/
theorem Accounts.answer {c : Fin 64} (h : Accounts (c :: L) s) (a : Answer) : Accounts L (s.answer c a) := by
  obtain ⟨listed, held⟩ := h.of_taken (h.taken_of_loose (List.mem_cons_self ..))
  refine h.setHand (t := s) (fun _ _ => rfl) (fun d other => (List.count_cons_of_ne other).symm) ?_ ?_
  · rw [listed, if_neg (by exact nofun)]
  · rw [List.count_cons_self] at held
    rw [if_neg (by exact nofun)]
    omega

/-- A post puts a FREE cell into one list (R7). -/
theorem Accounts.post {c : Fin 64} (h : Accounts L s) (free : (s.cells[c]'c.isLt).hand = .free) (l : Fin 11) :
    Accounts L ((s.setIntake l ((s.intake[l]'l.isLt) ++ [c])).setCell c { (s.cells[c]'c.isLt) with hand := .filled }) := by
  obtain ⟨listed, held⟩ := h.of_other (.inl free)
  have joins (d : Fin 64) : (s.setIntake l ((s.intake[l]'l.isLt) ++ [c])).listed.count d = s.listed.count d + [c].count d := by
    have set := count_flatMap_vector_set id s.intake l ((s.intake[l]'l.isLt) ++ [c]) d
    simp only [List.flatMap_id, id, List.count_append] at set
    show ((s.intake.set l _ l.isLt).toList.flatten).count d = s.intake.toList.flatten.count d + _
    omega
  refine h.setHand (t := s.setIntake l _) (fun d other => ?_) (fun _ _ => rfl) ?_ ?_
  · rw [joins, List.count_cons_of_ne other, List.count_nil, Nat.add_zero]
  · rw [joins, listed, List.count_singleton_self, if_pos rfl]
  · rw [held, if_neg (by exact nofun)]

/-- A withdraw takes a FILLED cell out of its list (R11). -/
theorem Accounts.withdraw {c : Fin 64} (h : Accounts L s) (filled : (s.cells[c]'c.isLt).hand = .filled) :
    Accounts L ((s.unlist c).setCell c { (s.cells[c]'c.isLt) with hand := .free }) := by
  obtain ⟨-, held⟩ := h.of_filled filled
  refine h.setHand (t := s.unlist c) (fun d other => ?_) (fun _ _ => rfl) ?_ ?_
  · rw [listed_unlist_count, if_neg other]
  · rw [listed_unlist_count, if_pos rfl, if_neg (by exact nofun)]
  · rw [held, if_neg (by exact nofun)]

/-- A FREE or ANSWERED cell may become the other (R7, R13). -/
theorem Accounts.turn {c : Fin 64} {x : WorkCell} (h : Accounts L s)
    (before : (s.cells[c]'c.isLt).hand = .free ∨ (s.cells[c]'c.isLt).hand = .answered)
    (after : x.hand = .free ∨ x.hand = .answered) : Accounts L (s.setCell c x) := by
  obtain ⟨listed, held⟩ := h.of_other before
  have neither : x.hand ≠ .filled ∧ x.hand ≠ .taken := by
    obtain free | answered := after
    · rw [free]
      decide
    · rw [answered]
      decide
  refine h.setHand (t := s) (fun _ _ => rfl) (fun _ _ => rfl) ?_ ?_
  · rw [listed, if_neg neither.1]
  · rw [held, if_neg neither.2]

theorem Accounts.takeAnswer {c : Fin 64} (h : Accounts L s) (mem : c ∈ s.listed) (a : Answer) : Accounts L (s.takeAnswer c a) :=
  (h.take mem).answer a

/-- No cell stands in a list twice. -/
theorem Accounts.intake_nodup (h : Accounts L s) (l : Fin 11) : (s.intake[l]'l.isLt).Nodup := by
  refine List.nodup_iff_count_le_one.mpr fun c => ?_
  have once := (count_le_of_ite (h.filled c)).1
  have set := count_flatMap_vector_set id s.intake l [] c
  simp only [List.flatMap_id, id, List.count_nil] at set
  rw [State.listed] at once
  omega

/-- The cells of a list are taken and answered one after another. -/
theorem Accounts.takeAnswers {cs : List (Fin 64)} (h : Accounts L s) (nodup : cs.Nodup) (mem : ∀ c ∈ cs, c ∈ s.listed)
    (a : Answer) : Accounts L (cs.foldl (fun t c => t.takeAnswer c a) s) := by
  induction cs generalizing s with
  | nil => exact h
  | cons c cs ih =>
    obtain ⟨fresh, nodup⟩ := List.nodup_cons.mp nodup
    refine ih (h.takeAnswer (mem c (List.mem_cons_self ..)) a) nodup fun d later => ?_
    have other : d ≠ c := fun same => fresh (same ▸ later)
    show d ∈ (s.unlist c).listed
    rw [listed_unlist]
    exact List.mem_filter.mpr ⟨mem d (List.mem_cons_of_mem _ later), by simpa using other⟩

theorem Accounts.stray (h : Accounts L s) (w : Window) (offset : Nat) : Accounts L (s.strayAt w offset) :=
  ⟨h.filled, h.taken, h.slots, h.orders⟩

theorem Accounts.postCell {c : Fin 64} (h : Accounts L s) (free : (s.cells[c]'c.isLt).hand = .free) : Accounts L (postCell s c) := by
  cases list : (s.cells[c]'c.isLt).kind.bind fun k => intakeOf k (s.cells[c]'c.isLt).unit with
  | some l =>
    unfold Machine.postCell
    simp only [list]
    exact h.post free l
  | none =>
    have away (l : Fin 11) (mem : c ∈ (s.intake[l]'l.isLt)) : False := by
      have filled := h.filled_of_mem (mem_listed mem)
      exact nomatch free.symm.trans filled
    rw [postCell_badKind list away]
    exact h.turn (.inl free) (.inr rfl)

/-- A write to a hand keeps the accounts, whatever it does (R5, R7, R11, R13). -/
theorem Accounts.handWrite (h : Accounts L s) (c : Fin 64) (v : Word) (en : BitVec 4) : Accounts L (handWrite s c v en) := by
  unfold Machine.handWrite
  dsimp only
  split
  · exact h.stray ..
  · split
    · rename_i free _
      exact h.postCell free
    · rename_i filled _
      exact h.withdraw filled
    · exact (h.stray ..).setCell rfl
    · rename_i answered _
      exact h.turn (.inr answered) (.inl rfl)
    · exact h.stray ..

end hands

end Sys2Proof.Machine
end

