-- ==== Sys2Proof/Proofs/Kept.lean ====
section
/-! What a change of the state keeps: the relation that every operation of a block meets, as its frame says which parts it
can change, with one rule for each update of one part. The invariants of a step rest on it. -/

namespace Sys2Proof.Machine

-- Checked one after another, as in the tests: a theorem checked alongside others holds its memory.
set_option Elab.async false

/-! ## The parts of the invariants -/

/-- A slot is off and at T0 and 1-bit where it has no power, and reads only in READING and RELEASING. -/
structure Slot.Sound (x : Slot) : Prop where
  off : x.state = .empty ∨ x.state = .settling ∨ x.state = .removeReady ∨ x.state = .fault →
    x.power = false ∧ x.workTier = .t0 ∧ x.workWide = false
  reads : x.read.isSome → x.state = .reading ∨ x.state = .releasing

/-- Whether a transaction came from the queue, as a number. -/
def Txn.queued (t : Txn) : Nat := if t.origin = .queue then 1 else 0

/-- The number of current transactions from the queue. -/
def Pay.queued (p : Pay) : Nat := (p.current.map Txn.queued).getD 0

/-- The bounds of the payment side (R99, R103, R117, R123). -/
structure Pay.Bounded (p : Pay) : Prop where
  txFifo : p.txFifo.length ≤ 16
  rxFifo : p.rxFifo.length ≤ 16
  number : 1 ≤ p.nextNumber ∧ p.nextNumber ≤ 255
  doubts : p.doubts.length + p.queued ≤ 4

/-- A station's sequence is in range (R144). -/
def Station.InSequence (x : Station) : Prop := 1 ≤ x.nextSeq ∧ x.nextSeq ≤ 65535

theorem withinBounds_iff {s : State} : WithinBounds s ↔ s.pay.Bounded ∧ (∀ n : Fin 3, (s.stations[n]'n.isLt).InSequence) ∧
    ∀ r : Fin 9, (s.marks[r]'r.isLt).count ≤ 255 := by
  constructor
  · intro h
    refine ⟨⟨h.txFifo, h.rxFifo, h.number, ?_⟩, h.sequence, h.counts⟩
    have doubts := h.doubts
    unfold Pay.queued Txn.queued
    cases current : s.pay.current with
    | none => simpa [current] using doubts
    | some t => simpa [current] using doubts
  · rintro ⟨p, sequence, counts⟩
    refine ⟨p.txFifo, p.rxFifo, p.number, ?_, sequence, counts⟩
    have doubts := p.doubts
    unfold Pay.queued Txn.queued at doubts
    cases current : s.pay.current with
    | none => simpa [current] using doubts
    | some t => simpa [current] using doubts

/-! ## The relation -/

/-- What no block changes in the events of others: the queue, the endpoint, time, CONTROL, the start-up, the settings with
their source, and the store with the EEPROM. -/
structure Shared (s t : State) : Prop where
  pending : t.pending = s.pending := by exact rfl
  msiAllowed : t.msiAllowed = s.msiAllowed := by exact rfl
  clock : t.clock = s.clock := by exact rfl
  irqEnable : t.irqEnable = s.irqEnable := by exact rfl
  running : t.running = s.running := by exact rfl
  autoload : t.autoload = s.autoload := by exact rfl
  settings : t.settings = s.settings := by exact rfl
  source : t.source = s.source := by exact rfl
  store : t.store = s.store := by exact rfl
  eeprom : t.eeprom = s.eeprom := by exact rfl

theorem Shared.trans {s t u : State} (h : Shared s t) (k : Shared t u) : Shared s u :=
  ⟨k.pending.trans h.pending, k.msiAllowed.trans h.msiAllowed, k.clock.trans h.clock, k.irqEnable.trans h.irqEnable,
    k.running.trans h.running, k.autoload.trans h.autoload, k.settings.trans h.settings, k.source.trans h.source,
    k.store.trans h.store, k.eeprom.trans h.eeprom⟩

/-- What a change may do with the slots: leave them, or leave the sound ones sound. -/
inductive SlotChange | still | sound

/-- The change of the slots is one of the kind. -/
def SlotChange.allows (m : SlotChange) (s t : State) : Prop :=
  match m with
  | .still => t.slots = s.slots
  | .sound => ∀ k : Fin 4, (s.slots[k]'k.isLt).Sound → (t.slots[k]'k.isLt).Sound

theorem SlotChange.allows_of_slots {m : SlotChange} {s t : State} (h : t.slots = s.slots) : m.allows s t := by
  cases m with
  | still => exact h
  | sound => exact fun k w => by rw [h]; exact w

theorem SlotChange.allows_trans {m : SlotChange} {s t u : State} (h : m.allows s t) (k : m.allows t u) : m.allows s u := by
  cases m with
  | still => exact Eq.trans k h
  | sound => exact fun n w => k n (h n w)

/-- Every part of an invariant that held, but for the slots, still holds. -/
structure Carries (s t : State) : Prop where
  dram : s.dram.wf = true → t.dram.wf = true := by exact id
  cells : ∀ c : Fin 64, (s.cells[c]'c.isLt).mem.wf = true → (t.cells[c]'c.isLt).mem.wf = true := by exact fun _ => id
  staging : StagingSound s → StagingSound t := by exact fun h => ⟨h.rising, h.pages, h.owned⟩
  pay : s.pay.Bounded → t.pay.Bounded := by exact id
  sequence : ∀ n : Fin 3, (s.stations[n]'n.isLt).InSequence → (t.stations[n]'n.isLt).InSequence := by exact fun _ => id
  counts : (∀ r : Fin 9, (s.marks[r]'r.isLt).count ≤ 255) → ∀ r : Fin 9, (t.marks[r]'r.isLt).count ≤ 255 := by exact id
  agree : ReservationsAgree s → ReservationsAgree t := by exact id

theorem Carries.trans {s t u : State} (h : Carries s t) (k : Carries t u) : Carries s u where
  dram := k.dram ∘ h.dram
  cells c := k.cells c ∘ h.cells c
  staging := k.staging ∘ h.staging
  pay := k.pay ∘ h.pay
  sequence n := k.sequence n ∘ h.sequence n
  counts := k.counts ∘ h.counts
  agree := k.agree ∘ h.agree

/-- From the one state to the other what is shared stays, the slots change as the kind of change allows, and every part of
an invariant that held still holds. The cells of `L`, loose before, are accounted for after it, and those of `M` are loose. -/
structure Moves (μ : SlotChange) (L M : List (Fin 64)) (s t : State) : Prop extends Carries s t where
  shared : Shared s t := by exact {}
  slots : μ.allows s t := by exact SlotChange.allows_of_slots rfl
  accounts : ∀ N, Accounts (L ++ N) s → Accounts (M ++ N) t := by exact fun _ h => ⟨h.filled, h.taken, h.slots, h.orders⟩

/-- A change that leaves no cell loose and accounts for none that was. -/
abbrev Keeps (μ : SlotChange) (s t : State) : Prop := Moves μ [] [] s t

section keeps
variable {μ : SlotChange} {L M P : List (Fin 64)}

theorem Moves.trans {s t u : State} (h : Moves μ L M s t) (k : Moves μ M P t u) : Moves μ L P s u :=
  { h.toCarries.trans k.toCarries with
    shared := h.shared.trans k.shared
    slots := SlotChange.allows_trans h.slots k.slots
    accounts := fun N => k.accounts N ∘ h.accounts N }

theorem Keeps.refl (s : State) : Keeps μ s s := {}

theorem Keeps.trans {s t u : State} (h : Keeps μ s t) (k : Keeps μ t u) : Keeps μ s u := Moves.trans h k

/-- What keeps the accounts keeps them beside loose cells. -/
theorem Keeps.beside {s t : State} (h : Keeps μ s t) (L : List (Fin 64)) : Moves μ L L s t :=
  { h.toCarries with shared := h.shared, slots := h.slots, accounts := fun N => h.accounts (L ++ N) }

/-- A change that leaves the slots leaves them sound. -/
theorem Moves.sound {s t : State} (h : Moves μ L M s t) : Moves .sound L M s t := by
  refine { h.toCarries with shared := h.shared, slots := ?_, accounts := h.accounts }
  cases μ with
  | still => exact SlotChange.allows_of_slots h.slots
  | sound => exact h.slots

/-- A change of parts that no invariant speaks of, and then a change that keeps them. -/
theorem Keeps.after {s t u : State} (k : Keeps μ t u) (h : Keeps μ s t := by exact {}) : Keeps μ s u := h.trans k

theorem Moves.ite {s t u : State} {p : Prop} [Decidable p] (h : Moves μ L M s t) (k : Moves μ L M s u) :
    Moves μ L M s (if p then t else u) := by
  split
  · exact h
  · exact k

theorem Keeps.ite {s t u : State} {p : Prop} [Decidable p] (h : Keeps μ s t) (k : Keeps μ s u) :
    Keeps μ s (if p then t else u) := Moves.ite h k

/-- A fold of operations that each keep it. -/
theorem foldl_kept {α : Type} {f : State → α → State} (h : ∀ s a, Keeps μ s (f s a)) (as : List α) (s : State) :
    Keeps μ s (as.foldl f s) := by
  induction as generalizing s with
  | nil => exact .refl s
  | cons a as ih => exact (h s a).trans (ih _)

end keeps

/-! ## Updates of one part -/

section updates
variable {μ : SlotChange} {L M : List (Fin 64)} (s : State)

theorem emit_kept (o : Output) : Keeps μ s (s.emit o) := {}

theorem setCell_carries {c : Fin 64} {x : WorkCell} (h : (s.cells[c]'c.isLt).mem.wf = true → x.mem.wf = true) :
    Carries s (s.setCell c x) :=
  { cells := fun d w => by
      rw [setCell_get]
      split
      · rename_i same
        exact h (same ▸ w)
      · exact w }

/-- A change of a cell that keeps its hand. -/
theorem setCell_kept {c : Fin 64} {x : WorkCell} (h : (s.cells[c]'c.isLt).mem.wf = true → x.mem.wf = true)
    (hand : x.hand = (s.cells[c]'c.isLt).hand := by exact rfl) : Keeps μ s (s.setCell c x) :=
  { setCell_carries s h with accounts := fun _ accounts => accounts.setCell hand }

/-- An answer accounts for a loose cell. -/
theorem answer_moves (c : Fin 64) (a : Answer) : Moves μ [c] [] s (s.answer c a) :=
  { setCell_carries s fun w => answered_mem_wf w a with accounts := fun _ accounts => accounts.answer a }

/-- A take leaves a cell of a list loose. -/
theorem take_moves {c : Fin 64} (mem : c ∈ s.listed) : Moves μ [] [c] s (s.take c) :=
  { setCell_carries (s.unlist c) taken_mem_wf with
    staging := fun h => ⟨h.rising, h.pages, h.owned⟩
    accounts := fun _ accounts => accounts.take mem }

theorem takeAnswer_kept {c : Fin 64} (mem : c ∈ s.listed) (a : Answer) : Keeps μ s (s.takeAnswer c a) :=
  (take_moves s mem).trans (answer_moves _ c a)

/-- A cell is taken and answered, with a change between that keeps all else. -/
theorem served_kept {t : State} {c : Fin 64} (mem : c ∈ s.listed) (h : Keeps μ (s.take c) t) (a : Answer) :
    Keeps μ s (t.answer c a) := ((take_moves s mem).trans (h.beside [c])).trans (answer_moves t c a)

theorem setSlot_moves {k : Fin 4} {x : Slot} (sound : (s.slots[k]'k.isLt).Sound → x.Sound)
    (held : (s.slots[k]'k.isLt).holdsByState → (M ++ x.held).Perm (L ++ (s.slots[k]'k.isLt).held) ∧ x.holdsByState) :
    Moves .sound L M s (s.setSlot k x) :=
  { slots := fun j w => by
      rw [setSlot_get]
      split
      · rename_i same
        exact sound (same ▸ w)
      · exact w
    accounts := fun N h => by
      obtain ⟨cells, slot⟩ := held (h.slots k)
      refine h.setSlot (fun c => ?_) slot
      have count := cells.count_eq c
      simp only [List.count_append] at count ⊢
      omega }

theorem modSlot_moves {k : Fin 4} {f : Slot → Slot} (sound : (s.slots[k]'k.isLt).Sound → (f (s.slots[k]'k.isLt)).Sound)
    (held : (s.slots[k]'k.isLt).holdsByState →
      (M ++ (f (s.slots[k]'k.isLt)).held).Perm (L ++ (s.slots[k]'k.isLt).held) ∧ (f (s.slots[k]'k.isLt)).holdsByState) :
    Moves .sound L M s (s.modSlot k f) := setSlot_moves s sound held

theorem modPay_moves {f : Pay → Pay} (bounded : s.pay.Bounded → (f s.pay).Bounded)
    (loop : (M ++ ((f s.pay).loop.map Loopback.cell).toList).Perm (L ++ (s.pay.loop.map Loopback.cell).toList)) :
    Moves μ L M s (s.modPay f) :=
  { pay := bounded
    accounts := fun N h => h.modPay fun c => by
      have count := loop.count_eq c
      simp only [List.count_append] at count ⊢
      omega }

theorem modPay_kept {f : Pay → Pay} (bounded : s.pay.Bounded → (f s.pay).Bounded)
    (loop : (f s.pay).loop.map Loopback.cell = s.pay.loop.map Loopback.cell := by exact rfl) : Keeps μ s (s.modPay f) :=
  modPay_moves s bounded (by rw [loop])

theorem setStation_moves {n : Fin 3} {x : Station}
    (sequence : (s.stations[n]'n.isLt).InSequence → x.InSequence)
    (reservation : x.account.reservation = (s.stations[n]'n.isLt).account.reservation)
    (taken : (M ++ x.takenCell.toList).Perm (L ++ (s.stations[n]'n.isLt).takenCell.toList)) : Moves μ L M s (s.setStation n x) :=
  { sequence := fun j w => by
      rw [State.setStation_stations]
      rw [show (s.stations.set n x n.isLt)[j]'j.isLt = if n = j then x else s.stations[j]'j.isLt from vector_set_get ..]
      split
      · rename_i same
        exact sequence (same ▸ w)
      · exact w
    agree := fun w j => by
      refine (w j).trans ?_
      rw [show ((s.setStation n x).stations[j]'j.isLt) = if n = j then x else s.stations[j]'j.isLt from vector_set_get ..]
      split
      · rename_i same
        subst same
        exact reservation.symm
      · rfl
    accounts := fun N h => h.setStation fun c => by
      have count := taken.count_eq c
      simp only [List.count_append] at count ⊢
      omega }

theorem setStation_kept {n : Fin 3} {x : Station}
    (sequence : (s.stations[n]'n.isLt).InSequence → x.InSequence)
    (reservation : x.account.reservation = (s.stations[n]'n.isLt).account.reservation)
    (taken : x.takenCell = (s.stations[n]'n.isLt).takenCell := by exact rfl) : Keeps μ s (s.setStation n x) :=
  setStation_moves s sequence reservation (by rw [taken])

/-- A change of a station that leaves its sequence, its reservation and the cell it holds. -/
theorem modStation_kept {n : Fin 3} {f : Station → Station} (sequence : ∀ x, (f x).nextSeq = x.nextSeq := by intro _; rfl)
    (reservation : ∀ x, (f x).account.reservation = x.account.reservation := by intro _; rfl)
    (taken : ∀ x, (f x).takenCell = x.takenCell := by intro _; rfl) : Keeps μ s (s.modStation n f) :=
  setStation_kept s (fun w => by unfold Station.InSequence; rw [sequence]; exact w) (reservation _) (taken _)

theorem setOrder_moves {n : Fin 48} {e : OrderEntry}
    (held : (∀ o, (s.orders[n]'n.isLt).order = some o → o.PaySound) →
      (M ++ (e.order.bind Order.payCell).toList).Perm (L ++ ((s.orders[n]'n.isLt).order.bind Order.payCell).toList))
    (sound : (∀ o, (s.orders[n]'n.isLt).order = some o → o.PaySound) → ∀ o, e.order = some o → o.PaySound) :
    Moves μ L M s (s.setOrder n e) :=
  { accounts := fun N h => h.setOrder (fun c => by
      have count := (held (h.orders n)).count_eq c
      simp only [List.count_append] at count ⊢
      omega) (sound (h.orders n)) }

theorem sendLink_kept (n : Fin 3) (type : Byte) (body : List Byte) : Keeps μ s (s.sendLink n type body) := {}

theorem sendCard_kept (k : Fin 4) (bytes : List Byte) : Keeps μ s (s.sendCard k bytes) := {}

theorem modHead_kept (n : Fin 3) (f : Head → Head) : Keeps μ s (s.modHead n f) := {}

theorem setChannel_kept (c : Fin 2) (x : Channel) : Keeps μ s (s.setChannel c x) := {}

theorem strayAt_kept (w : Window) (offset : Nat) : Keeps μ s (s.strayAt w offset) := {}

/-- The end of an event marks and counts, at most to 255. -/
theorem finish_kept (t : State) : Keeps μ t (finish s t) where
  shared := by rw [finish_eq]; exact {}
  dram := by rw [finish_dram]; exact id
  cells := by rw [finish_cells]; exact fun _ => id
  staging h := by
    rw [finish_eq]
    exact ⟨h.rising, h.pages, h.owned⟩
  pay := by rw [finish_pay]; exact id
  sequence := by rw [finish_stations]; exact fun _ => id
  counts _ r := by
    rw [finish_marks_get]
    exact Nat.min_le_left ..
  agree := by rw [finish_eq]; exact id
  slots := SlotChange.allows_of_slots (finish_slots ..)
  accounts _ h := by
    rw [finish_eq]
    exact ⟨h.filled, h.taken, h.slots, h.orders⟩

/-- What the exchange window's own events do at their end sends at most an MSI. -/
theorem notified_kept (b : Bool) : Keeps μ s (notified b s) := by
  rw [notified_eq]
  exact {}

end updates

end Sys2Proof.Machine
end

