-- ==== Sys2Proof/Proofs/KeptPayments.lean ====
section
/-! What the payment side keeps: its FIFOs, its next number and the actions in doubt stay in their bounds, and a loopback
keeps its cell (R99, R103, R117, R123). -/

namespace Sys2Proof.Machine

-- Checked one after another, as in the tests: a theorem checked alongside others holds its memory.
set_option Elab.async false

variable {μ : SlotChange}

/-! ## The relation -/

/-- The cell a loopback holds (R109). -/
def Pay.loopCell (p : Pay) : Option (Fin 64) := p.loop.map Loopback.cell

/-- The payment side alone changes, in its bounds, and a loopback keeps its cell. -/
structure PayKeeps (s t : State) : Prop where
  frame : PayFrame s t
  bounded : s.pay.Bounded → t.pay.Bounded
  loopCell : t.pay.loopCell = s.pay.loopCell

theorem PayKeeps.refl (s : State) : PayKeeps s s := ⟨.refl s, id, rfl⟩

theorem PayKeeps.trans {s t u : State} (h : PayKeeps s t) (k : PayKeeps t u) : PayKeeps s u :=
  ⟨h.frame.trans k.frame, k.bounded ∘ h.bounded, k.loopCell.trans h.loopCell⟩

theorem PayKeeps.keeps {s t : State} (h : PayKeeps s t) : Keeps μ s t := by
  obtain ⟨frame, bounded, loopCell⟩ := h
  rw [show t = _ from frame]
  exact { pay := bounded, accounts := fun _ accounts => accounts.same rfl rfl rfl rfl loopCell rfl rfl }

theorem PayKeeps.mod {s : State} {f : Pay → Pay} (bounded : s.pay.Bounded → (f s.pay).Bounded)
    (loopCell : (f s.pay).loopCell = s.pay.loopCell) : PayKeeps s (s.modPay f) := ⟨rfl, bounded, loopCell⟩

/-- A change of what no bound speaks of. -/
theorem PayKeeps.rest {s : State} {f : Pay → Pay} (txFifo : (f s.pay).txFifo = s.pay.txFifo := by exact rfl)
    (rxFifo : (f s.pay).rxFifo = s.pay.rxFifo := by exact rfl) (number : (f s.pay).nextNumber = s.pay.nextNumber := by exact rfl)
    (doubts : (f s.pay).doubts = s.pay.doubts := by exact rfl) (queued : (f s.pay).queued = s.pay.queued := by exact rfl)
    (loopCell : (f s.pay).loopCell = s.pay.loopCell := by exact rfl) : PayKeeps s (s.modPay f) :=
  .mod (fun h => ⟨txFifo ▸ h.txFifo, rxFifo ▸ h.rxFifo, number ▸ h.number, by rw [doubts, queued]; exact h.doubts⟩) loopCell

theorem PayKeeps.ite {s t u : State} {p : Prop} [Decidable p] (h : PayKeeps s t) (k : PayKeeps s u) :
    PayKeeps s (if p then t else u) := by
  split
  · exact h
  · exact k

/-! ## The transactions counted -/

theorem queued_map (current : Option Txn) {f : Txn → Txn} (origin : ∀ t, (f t).origin = t.origin) :
    ((current.map f).map Txn.queued).getD 0 = (current.map Txn.queued).getD 0 := by
  cases current with
  | none => rfl
  | some t => simp [Txn.queued, origin]

theorem Pay.queued_none {p : Pay} (none : p.current = none) : p.queued = 0 := by
  rw [Pay.queued, none]
  rfl

theorem Pay.queued_queue {p : Pay} {t : Txn} (current : p.current = some t) (origin : t.origin = .queue) : p.queued = 1 := by
  rw [Pay.queued, current]
  exact if_pos origin

/-- A transaction that ends leaves room. -/
theorem Pay.Bounded.ends {p q : Pay} (h : p.Bounded) (ended : q.current = none) (txFifo : q.txFifo = p.txFifo := by exact rfl)
    (rxFifo : q.rxFifo = p.rxFifo := by exact rfl) (number : q.nextNumber = p.nextNumber := by exact rfl)
    (doubts : q.doubts = p.doubts := by exact rfl) : q.Bounded :=
  ⟨txFifo ▸ h.txFifo, rxFifo ▸ h.rxFifo, number ▸ h.number, by
    rw [Pay.queued_none ended, doubts]
    exact (Nat.le_add_right ..).trans h.doubts⟩

/-! ## The transmitter (R99, R113) -/

theorem fill_bounded {p : Pay} (h : p.Bounded) : p.fill.Bounded where
  txFifo := (fill_bound h.txFifo).1
  rxFifo := by rw [fill_eq]; exact h.rxFifo
  number := by rw [fill_eq]; exact h.number
  doubts := by
    rw [Pay.queued, fill_eq]
    refine Nat.le_trans (Nat.le_of_eq (congrArg (p.doubts.length + ·) (queued_map _ fun t => ?_))) h.doubts
    unfold Txn.entered
    split <;> rfl

theorem fill_kept (s : State) : PayKeeps s (s.modPay Pay.fill) := .mod fill_bounded (by rw [fill_eq]; rfl)

theorem startChar_kept (s : State) : PayKeeps s (startChar s) := by
  refine ⟨startChar_frame s, fun h => ?_, ?_⟩
  · have fits := (startChar_bound s).trans h.txFifo
    obtain ⟨b, rest, -, same⟩ | same := startChar_cases s
    · rw [same] at fits ⊢
      exact ⟨fits, h.rxFifo, h.number, h.doubts⟩
    · rw [same]
      exact h
  · obtain ⟨b, rest, -, same⟩ | same := startChar_cases s
    · rw [same]
      rfl
    · rw [same]

theorem pumpTx_kept (s : State) : PayKeeps s (pumpTx s) :=
  ((fill_kept s).trans (startChar_kept _)).trans (fill_kept _)

theorem sendFrame_kept (s : State) (body : List Byte) : PayKeeps s (sendFrame s body) :=
  PayKeeps.trans .rest (pumpTx_kept _)

theorem sendCurrent_kept (s : State) (body : List Byte) : PayKeeps s (sendCurrent s body) := by
  refine PayKeeps.trans (.rest (queued := ?_)) (sendFrame_kept _ body)
  exact queued_map _ fun _ => rfl

/-! ## The engine's frames (R117, R118, R124) -/

theorem numberAfter_bounds {n : Nat} (h : 1 ≤ n ∧ n ≤ 255) : 1 ≤ numberAfter n ∧ numberAfter n ≤ 255 := by
  unfold numberAfter
  split <;> omega

theorem freeNumber_bounds (doubts : List DoubtRec) (f : Nat) {n : Nat} (h : 1 ≤ n ∧ n ≤ 255) :
    1 ≤ freeNumber doubts f n ∧ freeNumber doubts f n ≤ 255 := by
  induction f generalizing n with
  | zero => exact h
  | succ f ih =>
    rw [freeNumber]
    split
    · exact ih (numberAfter_bounds h)
    · exact h

theorem startAction_kept {s : State} (room : s.pay.doubts.length < 4) (a : QueuedAction) (rest : List QueuedAction) :
    PayKeeps s (startAction s a rest) := by
  refine PayKeeps.trans ?_ (sendCurrent_kept _ _)
  exact .mod (fun h => ⟨h.txFifo, h.rxFifo, numberAfter_bounds (freeNumber_bounds _ _ h.number), room⟩) rfl

theorem doubtQuery_kept (s : State) (b : Bool) : PayKeeps s (doubtQuery s b) := by
  unfold doubtQuery
  split
  · exact .refl s
  · exact .trans (.mod (fun h => ⟨h.txFifo, h.rxFifo, h.number, (Nat.le_add_right ..).trans h.doubts⟩) rfl)
      (sendCurrent_kept _ _)

/-- A current transaction from the queue is replaced by what it becomes. -/
theorem replaceCurrent_kept {s : State} {t u : Txn} (current : s.pay.current = some t) (origin : u.origin = t.origin) :
    PayKeeps s (s.modPay fun p => { p with current := some u }) := by
  refine .rest (queued := ?_)
  simp [Pay.queued, current, Txn.queued, origin]

/-! ## The receiver (R103, R104) -/

/-- An entry joins the receive FIFO while there is room. -/
theorem entered_bounded {p : Pay} (h : p.Bounded) (e : RxEntry) :
    (if decide (16 ≤ p.rxFifo.length) then p else { p with rxFifo := p.rxFifo ++ [e] }).Bounded := by
  split
  · exact h
  · rename_i room
    refine ⟨h.txFifo, ?_, h.number, h.doubts⟩
    simp only [decide_eq_true_eq] at room
    simp only [List.length_append, List.length_cons, List.length_nil]
    omega

/-- What an entry's arrival marks: the sticky errors, or in LOOPBACK the flagged count and the wait (R104, R110). -/
def Pay.marked (q : Pay) (now : Word) (full par fr brk : Bool) : Pay :=
  if q.line = .loopback then
    { q with loop := q.loop.map fun l => { l with flagged := l.flagged + flag full, lastSent := now } }
  else { q with overrun := q.overrun || full, parityErr := q.parityErr || par, framingErr := q.framingErr || fr,
                breakErr := q.breakErr || brk }

theorem marked_bounded {q : Pay} (now : Word) (full par fr brk : Bool) (h : q.Bounded) :
    (q.marked now full par fr brk).Bounded := by
  unfold Pay.marked
  split
  · exact ⟨h.txFifo, h.rxFifo, h.number, h.doubts⟩
  · exact ⟨h.txFifo, h.rxFifo, h.number, h.doubts⟩

theorem marked_loopCell (q : Pay) (now : Word) (full par fr brk : Bool) :
    (q.marked now full par fr brk).loopCell = q.loopCell := by
  unfold Pay.marked
  split
  · simp [Pay.loopCell, Function.comp_def]
  · rfl

theorem storeEntry_kept (s : State) (b : Byte) (p f k : Bool) : PayKeeps s (storeEntry s b p f k) := by
  refine .mod (fun h => marked_bounded _ _ _ _ _ (entered_bounded h _)) ((marked_loopCell _ _ _ _ _ _).trans ?_)
  split <;> rfl

theorem rxCharacter_kept (s : State) (start : Word) (re : Bool) (data : Byte) (par stop : Bool) :
    PayKeeps s (rxCharacter s start re data par stop) := by
  unfold rxCharacter
  dsimp only
  split
  · exact (storeEntry_kept ..).trans .rest
  · split
    · exact (storeEntry_kept ..).trans .rest
    · exact .rest

theorem loopDelivered_kept (s : State) (b : TxByte) : PayKeeps s (loopDelivered s b) := by
  unfold loopDelivered
  split
  · exact rxCharacter_kept ..
  · exact .refl s

theorem characterSent_kept (s : State) (now : Word) (b : TxByte) : PayKeeps s (s.modPay fun p => characterSent p now b) := by
  refine .rest (queued := ?_) (loopCell := ?_)
  · refine queued_map _ fun t => ?_
    split <;> rfl
  · unfold Pay.loopCell characterSent
    cases s.pay.loop with
    | none => rfl
    | some l =>
      simp only [Option.map_some, Option.some.injEq]
      split <;> rfl

/-! ## The pins, the format and the loopback (R105 to R110) -/

theorem takeReady_bounded {p : Pay} (now : Word) (level : Bool) (h : p.Bounded) : (p.takeReady now level).Bounded := by
  unfold Pay.takeReady
  split
  · exact h
  · exact ⟨h.txFifo, h.rxFifo, h.number, h.doubts⟩

theorem takeReady_loop (p : Pay) (now : Word) (level : Bool) : (p.takeReady now level).loop = p.loop := by
  unfold Pay.takeReady
  split <;> rfl

theorem applyFormat_bounded {p : Pay} (h : p.Bounded) : p.applyFormat.Bounded := by
  unfold Pay.applyFormat
  split
  · exact ⟨h.txFifo, h.rxFifo, h.number, h.doubts⟩
  · exact h

theorem applyFormat_loop (p : Pay) : p.applyFormat.loop = p.loop := by
  unfold Pay.applyFormat
  split <;> rfl

theorem takeValues_bounded {p : Pay} (h : p.Bounded) : p.takeValues.Bounded := by
  unfold Pay.takeValues
  split
  · exact ⟨h.txFifo, h.rxFifo, h.number, h.doubts⟩
  · exact h

theorem takeValues_loop (p : Pay) : p.takeValues.loop = p.loop := by
  unfold Pay.takeValues
  split <;> rfl

theorem loopbackBegin_kept {s : State} {l : Loopback} (loop : s.pay.loop = some l) : PayKeeps s (loopbackBegin s l) := by
  refine .trans (.mod (fun h => ?_) ?_) (pumpTx_kept _)
  · have ready := takeReady_bounded s.clock false (applyFormat_bounded h)
    exact ⟨ready.txFifo, Nat.zero_le _, ready.number, ready.doubts⟩
  · simp [Pay.loopCell, loop]

theorem payIdle_kept (s : State) : PayKeeps s (payIdle s) := by
  have values : ∀ u : State, PayKeeps u (u.modPay fun p => (if p.formatFree then p.applyFormat else p).takeValues) := by
    intro u
    refine .mod (fun h => ?_) ?_
    · split
      · exact takeValues_bounded (applyFormat_bounded h)
      · exact takeValues_bounded h
    · rw [Pay.loopCell, takeValues_loop]
      split
      · rw [applyFormat_loop]; rfl
      · rfl
  unfold payIdle
  split
  · rename_i l loop
    exact (PayKeeps.ite (loopbackBegin_kept loop) (.refl s)).trans (values _)
  · exact values s

theorem takeAlert_kept (s : State) (level : Bool) : PayKeeps s (takeAlert s level) := by
  unfold takeAlert
  split
  · exact .ite (PayKeeps.trans .rest (doubtQuery_kept _ _)) .rest
  · exact .rest

theorem handLine_kept (s : State) : PayKeeps s (handLine s) := PayKeeps.trans .rest (payIdle_kept _)

theorem clearSticky_kept (s : State) : PayKeeps s (s.modPay Pay.clearSticky) := .rest

end Sys2Proof.Machine
end

