-- ==== Sys2Proof/Proofs/KeptOrders.lean ====
section
/-! What the staging and the order operations keep: the extents, the free pages and the pictures stay consistent, and a
reservation stands with the Dispatcher and the station alike (R23 to R26, R154). -/

namespace Sys2Proof.Machine

-- Checked one after another, as in the tests: a theorem checked alongside others holds its memory.
set_option Elab.async false

variable {μ : SlotChange}

/-! ## Extents (R23 to R25) -/

theorem extentsFrom_mono {lo lo' : Nat} {es : List Extent} (h : extentsFrom lo es) (le : lo' ≤ lo) : extentsFrom lo' es := by
  cases es with
  | nil => exact le.trans h
  | cons e es => exact ⟨le.trans h.1, h.2⟩

theorem extentsFrom_filter {lo : Nat} {es : List Extent} (p : Extent → Bool) (h : extentsFrom lo es) :
    extentsFrom lo (es.filter p) := by
  induction es generalizing lo with
  | nil => exact h
  | cons e es ih =>
    obtain ⟨start, pages, rest⟩ := h
    rw [List.filter_cons]
    split
    · exact ⟨start, pages, ih rest⟩
    · exact extentsFrom_mono (ih rest) (by omega)

/-- The pages of the extents without a picture's one. -/
theorem pagesUsed_filter {i : Fin 256} {es : List Extent} (one : es.countP (fun e => e.pic == i) = 1) :
    pagesUsed (es.filter (·.pic != i)) + ((es.find? (·.pic == i)).map (·.pages)).getD 0 = pagesUsed es := by
  induction es with
  | nil => simp at one
  | cons e es ih =>
    by_cases own : e.pic = i
    · have others : es.filter (·.pic != i) = es := by
        rw [List.filter_eq_self]
        intro x listed
        have absent : es.countP (fun e => e.pic == i) = 0 := by simpa [own] using one
        simpa using List.countP_eq_zero.mp absent x listed
      simp [own, others, pagesUsed, Nat.add_comm]
    · have rest := ih (by simpa [own] using one)
      simp only [bne_iff_ne, ne_eq, own, not_false_eq_true, List.filter_cons_of_pos, pagesUsed, beq_iff_eq,
        List.find?_cons_of_neg]
      omega

theorem countP_filter_other {i j : Fin 256} (es : List Extent) :
    (es.filter (·.pic != i)).countP (fun e => e.pic == j) = if i = j then 0 else es.countP (fun e => e.pic == j) := by
  rw [List.countP_filter]
  split
  · rename_i same
    subst same
    rw [List.countP_eq_zero]
    intro e _
    simp
  · rename_i other
    refine List.countP_congr fun e _ => ?_
    simp only [Bool.and_eq_true, beq_iff_eq, bne_iff_ne, ne_eq, and_iff_left_iff_imp]
    exact fun own same => other (same.symm.trans own)

theorem firstFit_ge {n cur b : Nat} {es : List Extent} (rising : extentsFrom cur es) (h : firstFit n cur es = some b) : cur ≤ b :=
  (firstFit_some rising h).1

theorem insertExtent_rising {n cur b : Nat} {i : Fin 256} {es : List Extent} (some_ : 1 ≤ n) (rising : extentsFrom cur es)
    (h : firstFit n cur es = some b) : extentsFrom cur (insertExtent ⟨b, n, i⟩ es) := by
  induction es generalizing cur with
  | nil =>
    rw [firstFit] at h
    split at h
    · cases h
      exact ⟨Nat.le_refl _, some_, by assumption⟩
    · exact nomatch h
  | cons e es ih =>
    obtain ⟨start, pages, rest⟩ := rising
    rw [firstFit] at h
    split at h
    · rename_i fits
      have here : cur = b := Option.some.inj h
      subst here
      rw [insertExtent, if_pos (show cur < e.base by omega)]
      exact ⟨Nat.le_refl _, some_, fits, pages, rest⟩
    · have beyond := firstFit_ge rest h
      rw [insertExtent, if_neg (show ¬ b < e.base by omega)]
      exact ⟨start, pages, ih rest h⟩

theorem pagesUsed_insertExtent (x : Extent) (es : List Extent) : pagesUsed (insertExtent x es) = x.pages + pagesUsed es := by
  induction es with
  | nil => rfl
  | cons e es ih =>
    rw [insertExtent]
    split
    · rfl
    · rw [pagesUsed, ih, pagesUsed]
      omega

theorem countP_insertExtent (x : Extent) (es : List Extent) (p : Extent → Bool) :
    (insertExtent x es).countP p = (x :: es).countP p := by
  induction es with
  | nil => rfl
  | cons e es ih =>
    rw [insertExtent]
    split
    · rfl
    · simp only [List.countP_cons, ih]
      omega

/-! ## Pictures (R25, R26) -/

/-- Changes of pictures that leave which entries are in use keep the staging sound. -/
theorem staging_of_pictures {s t : State} (extents : t.extents = s.extents) (freePages : t.freePages = s.freePages)
    (used : ∀ i : Fin 256, (t.pictures[i]'i.isLt).pic.isSome = (s.pictures[i]'i.isLt).pic.isSome) (h : StagingSound s) :
    StagingSound t where
  rising := extents ▸ h.rising
  pages := by rw [extents, freePages]; exact h.pages
  owned i := by
    rw [extents, used]
    exact h.owned i

theorem putPicture_used {s : State} {i : Fin 256} (used : (s.pictures[i]'i.isLt).pic.isSome = true) (p : Picture) (j : Fin 256) :
    ((s.putPicture i p).pictures[j]'j.isLt).pic.isSome = (s.pictures[j]'j.isLt).pic.isSome := by
  rw [State.putPicture, State.setPicture, vector_set_get]
  split
  · rename_i same
    rw [← same]
    exact used.symm
  · rfl

theorem putPicture_kept {s : State} {i : Fin 256} (used : (s.pictures[i]'i.isLt).pic.isSome = true) (p : Picture) :
    Keeps μ s (s.putPicture i p) := { staging := staging_of_pictures rfl rfl (putPicture_used used p) }

theorem pictureAt_used {s : State} {h : Handle} {i : Fin 256} {p : Picture} (found : s.pictureAt h = some (i, p)) :
    (s.pictures[i]'i.isLt).pic.isSome = true := by
  rw [(pictureAt_some found).2.1]
  rfl

theorem freePicture_kept {s : State} {i : Fin 256} (used : (s.pictures[i]'i.isLt).pic.isSome = true) :
    Keeps μ s (s.freePicture i) :=
  { staging := fun h => {
      rising := extentsFrom_filter _ h.rising
      pages := by
        have one := h.owned i
        rw [if_pos used] at one
        have split : pagesUsed (s.extents.filter (·.pic != i)) + s.pagesOf i = pagesUsed s.extents := pagesUsed_filter one
        have pages := h.pages
        show s.freePages + s.pagesOf i + pagesUsed (s.extents.filter (·.pic != i)) = 4096
        omega
      owned := fun j => by
        show (s.extents.filter (·.pic != i)).countP _ = if ((s.pictures.set i _ i.isLt)[j]'j.isLt).pic.isSome then 1 else 0
        rw [countP_filter_other, vector_set_get]
        split
        · rfl
        · exact h.owned j } }

theorem allocated_kept {s : State} {i : Fin 256} {n base : Nat} (entry : s.freeEntry = some i)
    (room : firstFit n 0 s.extents = some base) (some_ : 1 ≤ n) (p : Picture) : Keeps μ s (s.allocated n p i base) :=
  { staging := fun h => by
      have rising := insertExtent_rising (i := i) some_ h.rising room
      refine ⟨rising, ?_, fun j => ?_⟩
      · have inside := pagesUsed_le rising
        have pages := h.pages
        rw [pagesUsed_insertExtent] at inside
        show s.freePages - n + pagesUsed (insertExtent ⟨base, n, i⟩ s.extents) = 4096
        rw [pagesUsed_insertExtent]
        dsimp only at inside ⊢
        omega
      · show (insertExtent ⟨base, n, i⟩ s.extents).countP _ =
          if ((s.pictures.set i ⟨_, some p⟩ i.isLt)[j]'j.isLt).pic.isSome then 1 else 0
        have owned := h.owned j
        rw [countP_insertExtent, List.countP_cons, vector_set_get]
        by_cases own : i = j
        · subst own
          rw [freeEntry_spec entry] at owned
          simp [owned]
        · simp only [owned, own, beq_iff_eq, if_false, Nat.add_zero] }

theorem pagesFor_pos {n : Nat} (h : 1 ≤ n) : 1 ≤ pagesFor n := by
  unfold pagesFor
  omega

theorem allocate_kept {s t : State} {n base : Nat} {p : Picture} {hd : Handle}
    (h : s.allocate n p = some (t, hd, base)) (some_ : 1 ≤ n) : Keeps μ s t := by
  obtain ⟨i, entry, room, rfl, -⟩ := allocate_cases h
  exact allocated_kept entry room some_ p

theorem addRef_kept (s : State) (h : Handle) : Keeps μ s (s.addRef h) := by
  unfold State.addRef
  split
  · rename_i found
    exact putPicture_kept (pictureAt_used found) _
  · exact .refl s

theorem claim_kept (s : State) (hs : List Handle) : Keeps μ s (s.claim hs) := foldl_kept addRef_kept hs s

theorem dropRef_kept (s : State) (h : Handle) : Keeps μ s (s.dropRef h) := by
  unfold State.dropRef
  split
  · rename_i found
    exact .ite (freePicture_kept (pictureAt_used found)) (putPicture_kept (pictureAt_used found) _)
  · exact .refl s

theorem dropRefs_kept (hs : List Handle) (s : State) : Keeps μ s (hs.foldl State.dropRef s) := foldl_kept dropRef_kept hs s

/-! ## Orders and their references (R77, R93) -/

/-- The order can take the place of the one at an entry: it has the same pay cell, and one only in AUTHORIZING. -/
structure State.Fits (s : State) (n : Fin 48) (o : Order) : Prop where
  cell : o.payCell = (s.orders[n]'n.isLt).order.bind Order.payCell
  sound : (∀ q, (s.orders[n]'n.isLt).order = some q → q.PaySound) → o.PaySound

section fits
variable {s : State} {n : Fin 48} {o q : Order}

/-- What an order becomes in the same state fits. -/
theorem State.Fits.of_same (found : (s.orders[n]'n.isLt).order = some q) (state : o.state = q.state := by exact rfl)
    (cell : o.payCell = q.payCell := by exact rfl) : s.Fits n o where
  cell := by rw [found]; exact cell
  sound h := by
    unfold Order.PaySound
    rw [cell, state]
    exact h q found

/-- What an order that is not AUTHORIZING becomes fits: it has no pay cell. -/
theorem State.Fits.of_other (found : (s.orders[n]'n.isLt).order = some q) (other : q.state ≠ .authorizing)
    (cell : o.payCell = q.payCell := by exact rfl) : s.Fits n o where
  cell := by rw [found]; exact cell
  sound h held := absurd (h q found (cell ▸ held)) other

theorem State.Fits.pays (h : s.Fits n o) {p : Order} (state : p.state = o.state := by exact rfl)
    (cell : p.payCell = o.payCell := by exact rfl) : s.Fits n p where
  cell := cell.trans h.cell
  sound q := by
    unfold Order.PaySound
    rw [cell, state]
    exact h.sound q

theorem putOrder_kept (fits : s.Fits n o) : Keeps μ s (s.putOrder n o) := by
  refine setOrder_moves s (fun _ => ?_) fun sound p same => ?_
  · show ([] ++ o.payCell.toList).Perm _
    rw [fits.cell]
  · rw [← Option.some.inj same]
    exact fits.sound sound

end fits

/-- A change of orders that leaves their pay cells, and their states or only those of orders that are not AUTHORIZING. -/
theorem modOrder_kept (s : State) (h : Handle) (f : Order → Order) (cell : ∀ o, (f o).payCell = o.payCell)
    (state : ∀ o : Order, o.state = .authorizing → (f o).state = .authorizing) : Keeps μ s (s.modOrder h f) := by
  unfold State.modOrder
  split
  · rename_i n o found
    have entry := (orderAt_some found).2.1
    refine putOrder_kept ⟨?_, fun sound held => ?_⟩
    · rw [entry]
      exact cell o
    · exact state o (sound o entry (cell o ▸ held))
  · exact .refl s

theorem modItem_kept (s : State) (h : Handle) (i : Nat) (f : Item → Item) : Keeps μ s (s.modOrder h fun o => o.modItem i f) :=
  modOrder_kept s h _ (fun _ => rfl) fun _ same => same

theorem queueAction_kept (s : State) (a : QueuedAction) : Keeps μ s (s.queueAction a) :=
  (PayKeeps.rest (f := fun p => { p with queue := p.queue ++ [a] })).keeps

theorem dropRefs_orders (hs : List Handle) (s : State) : (hs.foldl State.dropRef s).orders = s.orders := by
  rw [dropRefs_keeps]

theorem State.Fits.of_orders {s t : State} {n : Fin 48} {o : Order} (h : s.Fits n o) (orders : t.orders = s.orders) :
    t.Fits n o := ⟨by rw [orders]; exact h.cell, by rw [orders]; exact h.sound⟩

theorem releaseReferences_kept {s : State} {n : Fin 48} {o : Order} (fits : s.Fits n o) :
    Keeps μ s (releaseReferences s n o) :=
  (dropRefs_kept _ s).trans (putOrder_kept (fits.pays.of_orders (dropRefs_orders ..)))

theorem voidOrClose_kept {s : State} {n : Fin 48} {o q : Order} (found : (s.orders[n]'n.isLt).order = some q)
    (other : q.state ≠ .authorizing) (cell : o.payCell = q.payCell := by exact rfl) : Keeps μ s (voidOrClose s n o) :=
  .ite ((releaseReferences_kept (.of_other found other (by exact cell))).trans (queueAction_kept ..))
    (releaseReferences_kept (.of_other found other (by exact cell)))

/-! ## Reservations and settlement (R89, R154, R164) -/

/-- An entry of the Dispatcher and the station's account change together. -/
theorem reservation_kept (s : State) (n : Fin 3) (r : Option Reservation) (f : Station → Station)
    (sequence : (s.stations[n]'n.isLt).InSequence → (f (s.stations[n]'n.isLt)).InSequence)
    (reservation : (f (s.stations[n]'n.isLt)).account.reservation = r)
    (taken : (f (s.stations[n]'n.isLt)).takenCell = (s.stations[n]'n.isLt).takenCell) :
    Keeps μ s (({ s with reservations := s.reservations.set n r } : State).modStation n f) :=
  { sequence := fun m h => by
      show ((s.stations.set n (f (s.stations[n]'n.isLt)) n.isLt)[m]'m.isLt).InSequence
      rw [vector_set_get]
      split
      · rename_i same
        exact sequence (same ▸ h)
      · exact h
    agree := fun h m => by
      show (s.reservations.set n r n.isLt)[m]'m.isLt =
        ((s.stations.set n (f (s.stations[n]'n.isLt)) n.isLt)[m]'m.isLt).account.reservation
      rw [vector_set_get, vector_set_get]
      split
      · exact reservation.symm
      · exact h m
    accounts := fun _ h => Accounts.setStation (s := { s with reservations := s.reservations.set n r })
      ⟨h.filled, h.taken, h.slots, h.orders⟩ (x := f (s.stations[n]'n.isLt)) fun c => by rw [taken] }

theorem releaseReservation_kept (s : State) (n : Fin 3) : Keeps μ s (releaseReservation s n) := by
  unfold releaseReservation
  split
  · exact .refl s
  · exact Keeps.trans (reservation_kept s n none _ id rfl rfl) (modItem_kept ..)

theorem releaseWhere_kept (s : State) (p : Reservation → Bool) : Keeps μ s (releaseWhere s p) := by
  refine foldl_kept (fun u n => ?_) _ s
  split
  · exact .ite (releaseReservation_kept u n) (.refl u)
  · exact .refl u

theorem Order.ready_other {o : Order} (h : o.ready = true) : o.state ≠ .authorizing := by
  intro authorizing
  simp [Order.ready, authorizing] at h

theorem checkSettle_kept (s : State) (h : Handle) : Keeps μ s (checkSettle s h) := by
  unfold checkSettle
  split
  · exact .refl s
  · rename_i n o found
    have entry := (orderAt_some found).2.1
    dsimp only
    split
    · rename_i ready
      have other := Order.ready_other ready
      exact .ite ((releaseReferences_kept (.of_other entry other)).trans (queueAction_kept ..)) (voidOrClose_kept entry other)
    · exact .refl s

theorem copyCompleted_kept (s : State) (h : Handle) (i : Nat) : Keeps μ s (copyCompleted s h i) := by
  have moved : Keeps μ s (s.modOrder h fun o => o.modItem i Item.complete) := modItem_kept s h i Item.complete
  exact moved.trans (checkSettle_kept _ h)

theorem copyFailed_kept (s : State) (h : Handle) (i : Nat) : Keeps μ s (copyFailed s h i) := by
  have failed : Keeps μ s (s.modOrder h fun o => o.modItem i fun it => it.fail o.failureLimit) :=
    modOrder_kept s h _ (fun _ => rfl) fun _ same => same
  exact failed.trans ((Keeps.ite (releaseWhere_kept ..) (.refl _)).trans (checkSettle_kept _ h))

/-! ## Outcomes of the Payment Engine (R85, R86, R91) -/

theorem putOrder_putOrder (s : State) (n : Fin 48) (o p : Order) : (s.putOrder n o).putOrder n p = s.putOrder n p := by
  unfold State.putOrder State.setOrder
  simp [-Fin.getElem_fin]

theorem answerPayAt_queueAction (s : State) (a : QueuedAction) (n : Fin 48) (st : Status) (d : Nat) :
    answerPayAt (s.queueAction a) n st d = (answerPayAt s n st d).queueAction a := by
  unfold answerPayAt
  rw [show (s.queueAction a).orders = s.orders from rfl]
  cases (s.orders[n]'n.isLt).order with
  | none => rfl
  | some o =>
    dsimp only
    unfold answerPay
    cases o.payCell <;> rfl

/-- An order is replaced and its pay cell, when it holds one, answered: whatever its new state, it holds none. -/
theorem putAnswered_kept {s : State} {n : Fin 48} {o q : Order} (found : (s.orders[n]'n.isLt).order = some q)
    {st : Status} {d : Nat} (cell : o.payCell = q.payCell := by exact rfl) : Keeps μ s (answerPayAt (s.putOrder n o) n st d) := by
  have put : ((s.putOrder n o).orders[n]'n.isLt).order = some o := by rw [putOrder_entry]
  have held : (s.orders[n]'n.isLt).order.bind Order.payCell = o.payCell := by rw [found]; exact cell.symm
  unfold answerPayAt answerPay
  rw [put]
  dsimp only
  cases payCell : o.payCell with
  | none =>
    dsimp only
    rw [putOrder_putOrder]
    refine putOrder_kept ⟨held.symm, fun _ some_ => ?_⟩
    rw [payCell] at some_
    exact nomatch some_
  | some c =>
    dsimp only
    rw [putOrder_putOrder]
    refine Moves.trans (setOrder_moves s (fun _ => ?_) fun _ p same => ?_) (answer_moves _ c _)
    · rw [held, payCell]
      exact .refl _
    · rw [← Option.some.inj same]
      exact fun some_ => nomatch some_

theorem releasedAnswered_kept {s : State} {n : Fin 48} {o q : Order} (found : (s.orders[n]'n.isLt).order = some q)
    {st : Status} {d : Nat} (cell : o.payCell = q.payCell := by exact rfl) : Keeps μ s (answerPayAt (releaseReferences s n o) n st d) :=
  (dropRefs_kept _ s).trans (putAnswered_kept (dropRefs_orders _ s ▸ found) (by exact cell))

theorem voidAnswered_kept {s : State} {n : Fin 48} {o q : Order} (found : (s.orders[n]'n.isLt).order = some q)
    {st : Status} {d : Nat} (cell : o.payCell = q.payCell := by exact rfl) : Keeps μ s (answerPayAt (voidOrClose s n o) n st d) := by
  unfold voidOrClose
  split
  · rw [answerPayAt_queueAction]
    refine Keeps.trans ?_ (queueAction_kept ..)
    exact releasedAnswered_kept found (by exact cell)
  · exact releasedAnswered_kept found (by exact cell)

section outcomes
variable {s : State} {n : Fin 48} {o : Order} (found : (s.orders[n]'n.isLt).order = some o)
include found

theorem applyApproval_kept (a : Nat) (c : List Byte) : Keeps μ s (applyApproval s n o a c) := by
  unfold applyApproval
  dsimp only
  split
  · exact voidAnswered_kept found
  · split
    · exact putAnswered_kept found
    · exact putAnswered_kept found

theorem applyNoApproval_kept (r : Option Byte) (st : Status) (d : Nat) : Keeps μ s (applyNoApproval s n o r st d) := by
  unfold applyNoApproval
  dsimp only
  split
  · exact releasedAnswered_kept found
  · exact putAnswered_kept found

end outcomes

theorem authOutcome_kept (s : State) (h : Handle) (out : AuthOutcome) : Keeps μ s (authOutcome s h out) := by
  unfold authOutcome
  split
  · exact .refl s
  · rename_i n o at_
    have found := (orderAt_some at_).2.1
    split
    · split
      · exact applyNoApproval_kept found ..
      · exact applyApproval_kept found ..
      · exact applyNoApproval_kept found ..
      · exact putAnswered_kept found
      · exact applyNoApproval_kept found ..
    · exact .refl s

theorem settleOutcome_kept (s : State) (h : Handle) (a : PayAction) (r : Option Byte) : Keeps μ s (settleOutcome s h a r) := by
  refine modOrder_kept s h _ (fun o => ?_) fun o authorizing => ?_
  · split
    · split <;> rfl
    · rfl
  · rw [if_neg (by rw [authorizing]; decide)]
    exact authorizing

/-! ## Transactions and doubt (R119 to R127) -/

/-- A transaction from the queue leaves as many in doubt as it was counted for (R123). -/
theorem goToDoubt_kept {s : State} {t : Txn} (current : s.pay.current = some t) (origin : t.origin = .queue) :
    Keeps μ s (goToDoubt s t) := by
  have joins : ∀ p : Pay, p.current = some t → p.Bounded → ∀ (d : DoubtRec) (timer : Option Timer),
      ({ p with doubts := p.doubts ++ [d], current := none, pingTimer := timer } : Pay).Bounded := by
    intro p current h d timer
    refine ⟨h.txFifo, h.rxFifo, h.number, ?_⟩
    have doubts := h.doubts
    rw [Pay.queued_queue current origin] at doubts
    rw [Pay.queued_none rfl]
    simpa using doubts
  unfold goToDoubt
  dsimp only
  refine Keeps.trans ?_ (.ite (authOutcome_kept ..) (.refl _))
  exact modPay_kept s fun h => joins _ current h _ _

theorem removeDoubt_bounded {p : Pay} (n : Nat) (h : p.Bounded) : (p.removeDoubt n).Bounded :=
  ⟨h.txFifo, h.rxFifo, h.number, (Nat.add_le_add_right (List.length_filter_le ..) _).trans h.doubts⟩

theorem endCurrent_bounded {p : Pay} (h : p.Bounded) : p.endCurrent.Bounded := h.ends rfl

theorem endCurrent_kept (s : State) : PayKeeps s (s.modPay Pay.endCurrent) := .mod endCurrent_bounded rfl

theorem stale_kept (s : State) : PayKeeps s (s.modPay Pay.stale) := .rest

theorem resolveDoubt_kept (s : State) (d : DoubtRec) (m : TermMsg) : Keeps μ s (resolveDoubt s d m) := by
  have removed := modPay_kept (μ := μ) s (f := fun p => p.removeDoubt d.number) (removeDoubt_bounded d.number)
  unfold resolveDoubt
  dsimp only
  split
  · exact removed.trans (authOutcome_kept ..)
  · exact removed.trans (authOutcome_kept ..)
  · exact removed.trans (authOutcome_kept ..)
  · exact .refl s
  · exact removed.trans (settleOutcome_kept ..)
  · exact removed.trans (settleOutcome_kept ..)
  · exact removed.trans (settleOutcome_kept ..)
  · exact removed.trans (settleOutcome_kept ..)
  · exact removed.trans (queueAction_kept ..)
  · exact removed.trans (queueAction_kept ..)
  · exact (stale_kept s).keeps

theorem acceptCurrent_kept {s : State} {t : Txn} (current : s.pay.current = some t) : PayKeeps s (acceptCurrent s t) := by
  unfold acceptCurrent
  dsimp only
  split
  · exact replaceCurrent_kept current rfl
  · exact .refl s
  · exact .ite (.refl s) (replaceCurrent_kept current rfl)

theorem answerCurrent_kept {s : State} {t : Txn} (current : s.pay.current = some t) (m : TermMsg) :
    Keeps μ s (answerCurrent s t m) := by
  have ended := PayKeeps.keeps (μ := μ) (endCurrent_kept s)
  unfold answerCurrent
  dsimp only
  split
  · exact (acceptCurrent_kept current).keeps
  · exact ended.trans (authOutcome_kept ..)
  · exact ended.trans (authOutcome_kept ..)
  · exact ended.trans (authOutcome_kept ..)
  · exact ended.trans (settleOutcome_kept ..)
  · exact ended.trans (settleOutcome_kept ..)
  · exact ended.trans (settleOutcome_kept ..)
  · exact ended.trans (settleOutcome_kept ..)
  · exact ended.trans (queueAction_kept ..)
  · exact ended.trans (queueAction_kept ..)
  · exact (stale_kept s).keeps

theorem handleMessage_kept (s : State) (n : Nat) (m : TermMsg) : Keeps μ s (handleMessage s n m) := by
  have byDoubt : Keeps μ s (match s.pay.doubts.find? fun d => d.number == n with
      | some d => resolveDoubt s d m
      | none => if m = .pong then (if s.pay.freeToQuery then doubtQuery s false else s) else s.modPay Pay.stale) := by
    split
    · exact resolveDoubt_kept ..
    · exact .ite (.ite (doubtQuery_kept ..).keeps (.refl s)) (stale_kept s).keeps
  unfold handleMessage
  dsimp only
  split
  · rename_i t current
    split
    · split
      · exact answerCurrent_kept current m
      · split
        · exact (endCurrent_kept s).keeps.trans (resolveDoubt_kept ..)
        · exact (endCurrent_kept s).keeps
    · exact byDoubt
  · exact byDoubt

theorem queryOrDoubt_kept {s : State} {t : Txn} (current : s.pay.current = some t) (origin : t.origin = .queue) :
    Keeps μ s (queryOrDoubt s t) := by
  have counted : PayKeeps s (s.modPay fun p => { p with timeoutsCount := sat16 p.timeoutsCount }) := .rest
  unfold queryOrDoubt
  refine counted.keeps.trans ?_
  dsimp only
  generalize counts : s.modPay (fun p => { p with timeoutsCount := sat16 p.timeoutsCount }) = u
  have still : u.pay.current = some t := by
    rw [← counts]
    exact current
  refine Keeps.ite (PayKeeps.trans ?_ (sendCurrent_kept ..)).keeps (goToDoubt_kept still origin)
  exact replaceCurrent_kept still rfl

end Sys2Proof.Machine
end

