-- ==== Sys2Proof/Proofs/KeptCards.lean ====
section
/-! What the card operations keep: a slot without power is off and at T0 and 1-bit, and a slot reads only in READING and
RELEASING (R43, R45, R53). Most of them are quiet: they leave every slot's state and the cells it holds. -/

namespace Sys2Proof.Machine

-- Checked one after another, as in the tests: a theorem checked alongside others holds its memory.
set_option Elab.async false

/-! ## Quiet changes -/

/-- A state in which the slot has no power. -/
def SlotState.Unpowered (st : SlotState) : Prop := st = .empty ∨ st = .settling ∨ st = .removeReady ∨ st = .fault

/-- The slot keeps its state and the cells it holds, and while it is unpowered its power and its working tier and width. -/
structure Slot.Quiet (x y : Slot) : Prop where
  state : y.state = x.state := by exact rfl
  cell : y.read.map ReadRec.cell = x.read.map ReadRec.cell := by exact rfl
  other : y.otherCell = x.otherCell := by exact rfl
  unpowered : x.state.Unpowered → y.power = x.power ∧ y.workTier = x.workTier ∧ y.workWide = x.workWide := by
    exact fun _ => ⟨rfl, rfl, rfl⟩

theorem Slot.Quiet.trans {x y z : Slot} (h : x.Quiet y) (k : y.Quiet z) : x.Quiet z where
  state := k.state.trans h.state
  cell := k.cell.trans h.cell
  other := k.other.trans h.other
  unpowered off := by
    obtain ⟨power, tier, wide⟩ := h.unpowered off
    obtain ⟨power', tier', wide'⟩ := k.unpowered (h.state ▸ off)
    exact ⟨power'.trans power, tier'.trans tier, wide'.trans wide⟩

theorem read_isSome_of_cell {a b : Option ReadRec} (h : b.map ReadRec.cell = a.map ReadRec.cell) : b.isSome = a.isSome := by
  simpa using congrArg Option.isSome h

theorem Slot.Quiet.reads {x y : Slot} (h : x.Quiet y) : y.read.isSome = x.read.isSome := read_isSome_of_cell h.cell

theorem Slot.Quiet.sound {x y : Slot} (h : x.Quiet y) (sound : x.Sound) : y.Sound where
  off off := by
    rw [h.state] at off
    obtain ⟨power, tier, wide⟩ := h.unpowered off
    rw [power, tier, wide]
    exact sound.off off
  reads reading := by
    rw [h.state]
    exact sound.reads (h.reads ▸ reading)

/-- Every slot is quiet, the cells stay, and no entry of the Picture Table is taken or freed. -/
structure CardQuiet (s t : State) : Prop where
  frame : CardFrame s t := by exact rfl
  cells : t.cells = s.cells := by exact rfl
  pictures : ∀ i : Fin 256, (t.pictures[i]'i.isLt).pic.isSome = (s.pictures[i]'i.isLt).pic.isSome := by exact fun _ => rfl
  slots : ∀ k : Fin 4, (s.slots[k]'k.isLt).Quiet (t.slots[k]'k.isLt) := by exact fun _ => {}

theorem CardQuiet.refl (s : State) : CardQuiet s s := {}

theorem CardQuiet.trans {s t u : State} (h : CardQuiet s t) (k : CardQuiet t u) : CardQuiet s u where
  frame := h.frame.trans k.frame
  cells := k.cells.trans h.cells
  pictures i := (k.pictures i).trans (h.pictures i)
  slots n := (h.slots n).trans (k.slots n)

theorem CardQuiet.after {s t u : State} (k : CardQuiet t u) (h : CardQuiet s t := by exact {}) : CardQuiet s u := h.trans k

theorem CardQuiet.ite {s t u : State} {p : Prop} [Decidable p] (h : CardQuiet s t) (k : CardQuiet s u) :
    CardQuiet s (if p then t else u) := by
  split
  · exact h
  · exact k

theorem Slot.Quiet.held {x y : Slot} (h : x.Quiet y) : y.held = x.held := by
  unfold Slot.held
  rw [h.cell, h.other]

theorem Slot.Quiet.holdsByState {x y : Slot} (h : x.Quiet y) (holds : x.holdsByState) : y.holdsByState := by
  unfold Slot.holdsByState at holds ⊢
  rw [h.reads, h.state, h.other]
  exact holds

theorem CardFrame.kept {s t : State} (frame : CardFrame s t)
    (cells : ∀ c : Fin 64, (s.cells[c]'c.isLt).mem.wf = true → (t.cells[c]'c.isLt).mem.wf = true)
    (pictures : ∀ i : Fin 256, (t.pictures[i]'i.isLt).pic.isSome = (s.pictures[i]'i.isLt).pic.isSome)
    (slots : ∀ k : Fin 4, (s.slots[k]'k.isLt).Sound → (t.slots[k]'k.isLt).Sound)
    (accounts : ∀ L, Accounts L s → Accounts L t) : Keeps .sound s t where
  shared := by rw [show t = _ from frame]; exact {}
  dram := by rw [show t = _ from frame]; exact id
  cells := cells
  staging := staging_of_pictures (by rw [show t = _ from frame]) (by rw [show t = _ from frame]) pictures
  pay := by rw [show t = _ from frame]; exact id
  sequence := by rw [show t = _ from frame]; exact fun _ => id
  counts := by rw [show t = _ from frame]; exact id
  agree := by rw [show t = _ from frame]; exact id
  slots := slots
  accounts N := accounts N

theorem CardQuiet.accounts {s t : State} (quiet : CardQuiet s t) {L : List (Fin 64)} (h : Accounts L s) : Accounts L t := by
  have frame := quiet.frame
  refine h.move quiet.cells (by rw [show t = _ from frame]) (fun c => ?_) (fun k => (quiet.slots k).holdsByState (h.slots k)) ?_
  · rw [held_count, held_count, flatMap_vector_congr fun k => (quiet.slots k).held, show t = _ from frame]
  · rw [show t = _ from frame]
    exact h.orders

theorem CardQuiet.keeps {s t : State} (h : CardQuiet s t) : Keeps .sound s t :=
  h.frame.kept (by rw [h.cells]; exact fun _ => id) h.pictures (fun k => (h.slots k).sound) fun _ => h.accounts

theorem setSlot_quiet {s : State} {k : Fin 4} {x : Slot} (h : (s.slots[k]'k.isLt).Quiet x) : CardQuiet s (s.setSlot k x) where
  slots j := by
    rw [setSlot_get]
    split
    · rename_i same
      exact same ▸ h
    · exact {}

theorem modSlot_quiet {s : State} {k : Fin 4} {f : Slot → Slot} (h : (s.slots[k]'k.isLt).Quiet (f (s.slots[k]'k.isLt))) :
    CardQuiet s (s.modSlot k f) := setSlot_quiet h

theorem slotWait_quiet (s : State) (k : Fin 4) (w : SlotWait) (d : Nat) : CardQuiet s (s.slotWait k w d) := modSlot_quiet {}

theorem slotNoWait_quiet (s : State) (k : Fin 4) : CardQuiet s (s.slotNoWait k) := modSlot_quiet {}

theorem sendCard_quiet (s : State) (k : Fin 4) (bytes : List Byte) : CardQuiet s (s.sendCard k bytes) := {}

theorem modRead_quiet (s : State) (k : Fin 4) {f : ReadRec → ReadRec} (cell : ∀ r, (f r).cell = r.cell := by intro _; rfl) :
    CardQuiet s (s.modRead k f) := by
  refine modSlot_quiet { cell := ?_ }
  cases (s.slots[k]'k.isLt).read with
  | none => rfl
  | some r => exact congrArg some (cell r)

theorem showRead_quiet (s : State) (k : Fin 4) (a : Bool) : CardQuiet s (showRead s k a) := by
  refine modSlot_quiet ?_
  split <;> exact {}

theorem setBus_quiet (x : Slot) (t : Tier) (wide : Bool) : x.Quiet (x.setBus t wide) := by
  unfold Slot.setBus
  split
  · rename_i settling
    refine { unpowered := fun off => ?_ }
    rw [settling] at off
    obtain h | h | h | h := off <;> exact nomatch h
  · exact {}

theorem endFill_quiet (s : State) (h : Handle) (final : PicState) : CardQuiet s (s.endFill h final) := by
  unfold State.endFill
  split
  · rename_i found
    exact .ite { pictures := putPicture_used (pictureAt_used found) _ } (.refl s)
  · exact .refl s

/-! ## Channels and the course of a read (R60 to R67) -/

theorem goIssuing_quiet (s : State) (k : Fin 4) : CardQuiet s (goIssuing s k) := by
  unfold goIssuing
  split
  · exact .refl s
  · split
    · exact .refl s
    · exact ((modRead_quiet s k).trans (sendCard_quiet ..)).trans (slotWait_quiet ..)

theorem grantChannel_quiet (s : State) (k : Fin 4) (c : Fin 2) : CardQuiet s (grantChannel s k c) :=
  CardQuiet.after (t := s.setChannel c _) ((modRead_quiet _ k).trans (goIssuing_quiet ..))

theorem releaseChannel_quiet (s : State) (c : Fin 2) : CardQuiet s (releaseChannel s c) := by
  unfold releaseChannel
  dsimp only
  split
  · rename_i k rest _
    exact CardQuiet.after (t := { s.setChannel c freeChannel with chanWait := rest }) (grantChannel_quiet ..)
  · exact {}

theorem askChannel_quiet (s : State) (k : Fin 4) : CardQuiet s (askChannel s k) := by
  unfold askChannel
  dsimp only
  refine (modRead_quiet s k (f := fun r => { r with channel := none, phase := .waitChannel })).trans ?_
  generalize s.modRead k _ = t
  exact .ite (grantChannel_quiet ..) (.ite (grantChannel_quiet ..) {})

theorem putBlock_quiet (s : State) (k : Fin 4) (d : Option (List Byte)) : CardQuiet s (putBlock s k d) := by
  unfold putBlock
  split
  · split
    · exact {}
    · exact .refl s
  · exact .refl s

theorem advance_quiet (s : State) (k : Fin 4) : CardQuiet s (s.modRead k ReadRec.advance) := modRead_quiet s k

theorem putMarker_quiet (s : State) (k : Fin 4) : CardQuiet s (putMarker s k) :=
  (putBlock_quiet s k none).trans (advance_quiet ..)

theorem stopAndIssue_quiet (s : State) (k : Fin 4) : CardQuiet s (stopAndIssue s k) :=
  (sendCard_quiet ..).trans (goIssuing_quiet ..)

theorem afterPut_quiet {s : State} {k : Fin 4} {next : State → State} (h : CardQuiet s (next s)) :
    CardQuiet s (afterPut s k next) := by
  unfold afterPut
  split
  · exact .ite (modRead_quiet s k) h
  · exact .refl s

theorem nextRun_quiet (s : State) (k : Fin 4) : CardQuiet s (showRead (s.modRead k ReadRec.nextRun) k true) :=
  (modRead_quiet s k).trans (showRead_quiet ..)

theorem tryTier_quiet (s : State) (k : Fin 4) (t : Tier) : CardQuiet s (tryTier s k t) := by
  refine CardQuiet.trans (modSlot_quiet ?_) ((sendCard_quiet ..).trans (slotWait_quiet ..))
  exact (setBus_quiet ..).trans {}

theorem goChecking_quiet (s : State) (k : Fin 4) (cause : CheckCause) : CardQuiet s (goChecking s k cause) :=
  (sendCard_quiet ..).trans ((modRead_quiet _ k).trans (slotWait_quiet ..))

theorem setModeAccepted_quiet (s : State) (k : Fin 4) : CardQuiet s (setModeAccepted s k) := by
  refine CardQuiet.trans ?_ ((sendCard_quiet ..).trans (slotWait_quiet ..))
  exact modSlot_quiet (setBus_quiet ..)

theorem countWindow_quiet (x : Slot) (transfer error : Bool) : x.Quiet (x.countWindow transfer error).1 := by
  unfold Slot.countWindow
  dsimp only
  split
  · exact {}
  · split <;> exact {}

theorem blockArrives_quiet (s : State) (k : Fin 4) (data : List Byte) : CardQuiet s (blockArrives s k data) := by
  unfold blockArrives
  refine CardQuiet.trans ?_ (afterPut_quiet (CardQuiet.refl _))
  refine CardQuiet.trans ?_ ((putBlock_quiet ..).trans (advance_quiet ..))
  exact setSlot_quiet ((countWindow_quiet _ true false).trans {})

theorem identify_quiet (s : State) (k : Fin 4) (n : Nat) : CardQuiet s (identify s k n) :=
  (modSlot_quiet {}).trans ((sendCard_quiet ..).trans (slotWait_quiet ..))

/-! ## Power off and the ends of a slot's work (R49, R52, R55) -/

theorem enter_sound {x : Slot} {now : Word} {st : SlotState} (off : st.Unpowered → x.power = false ∧ x.workTier = .t0 ∧ x.workWide = false)
    (reads : x.read.isSome → st = .reading ∨ st = .releasing) : (x.enter now st).Sound := by
  unfold Slot.enter
  split <;> exact ⟨off, reads⟩

/-- A slot in a state with power is sound when it reads only where it may. -/
theorem Slot.Sound.of_powered {x : Slot} {st : SlotState} (state : x.state = st) (on : ¬ st.Unpowered)
    (reads : x.read.isSome → st = .reading ∨ st = .releasing) : x.Sound := by
  subst state
  exact ⟨fun off => absurd off on, reads⟩

/-- Without power and without a read a slot may enter any state. -/
theorem powerOff_sound {x : Slot} (now : Word) (st : SlotState) (idle : x.read = none) : (x.powerOff.enter now st).Sound :=
  enter_sound (fun _ => ⟨rfl, rfl, rfl⟩) fun reading => by
    rw [show x.powerOff.read = none from idle] at reading
    exact nomatch reading

/-- The slot reads only in READING and RELEASING. -/
def Slot.Reads (x : Slot) : Prop := x.read.isSome → x.state = .reading ∨ x.state = .releasing

/-- A slot in a state without a read has none. -/
theorem Slot.Reads.idle {x : Slot} (h : x.Reads) (state : x.state ≠ .reading ∧ x.state ≠ .releasing) : x.read = none := by
  cases reading : x.read with
  | none => rfl
  | some r =>
    obtain on | on := h (by rw [reading]; rfl)
    · exact absurd on state.1
    · exact absurd on state.2

/-- A slot that is not RELEASING holds no release's cell. -/
theorem Slot.holdsByState.noRelease {x : Slot} (h : x.holdsByState) (state : x.state ≠ .releasing) (c : Fin 64) :
    x.otherCell ≠ some (.release c) := by
  intro release
  have other := h.2
  rw [release] at other
  exact state other

/-- A slot that is not on its way from power off to READY or FAULT holds no reset's cell. -/
theorem Slot.holdsByState.noReset {x : Slot} (h : x.holdsByState)
    (state : x.state ≠ .powering ∧ x.state ≠ .identifying ∧ x.state ≠ .tierSettle) (c : Fin 64) :
    x.otherCell ≠ some (.reset c) := by
  intro reset
  have other := h.2
  rw [reset] at other
  obtain on | on | on := other
  · exact state.1 on
  · exact state.2.1 on
  · exact state.2.2 on

theorem Slot.holdsByState.noOther {x : Slot} (h : x.holdsByState)
    (state : x.state ≠ .releasing ∧ x.state ≠ .powering ∧ x.state ≠ .identifying ∧ x.state ≠ .tierSettle) : x.otherCell = none := by
  cases other : x.otherCell with
  | none => rfl
  | some o =>
    cases o with
    | release c => exact absurd other (h.noRelease state.1 c)
    | reset c => exact absurd other (h.noReset state.2 c)

theorem holdsByState_of_none {x : Slot} (other : x.otherCell = none) (reads : x.Reads) : x.holdsByState := by
  refine ⟨reads, ?_⟩
  rw [other]
  trivial

theorem enter_read (x : Slot) (now : Word) (st : SlotState) : (x.enter now st).read = x.read := by
  unfold Slot.enter
  split <;> rfl

theorem enter_otherCell (x : Slot) (now : Word) (st : SlotState) : (x.enter now st).otherCell = x.otherCell := by
  unfold Slot.enter
  split <;> rfl

/-- A change of a slot that leaves the cells it holds. -/
theorem modSlot_kept {s : State} {k : Fin 4} {f : Slot → Slot}
    (sound : (s.slots[k]'k.isLt).Sound → (f (s.slots[k]'k.isLt)).Sound)
    (holds : (s.slots[k]'k.isLt).holdsByState → (f (s.slots[k]'k.isLt)).holdsByState)
    (read : (f (s.slots[k]'k.isLt)).read.map ReadRec.cell = (s.slots[k]'k.isLt).read.map ReadRec.cell := by exact rfl)
    (other : (f (s.slots[k]'k.isLt)).otherCell = (s.slots[k]'k.isLt).otherCell := by exact rfl) :
    Keeps .sound s (s.modSlot k f) :=
  modSlot_moves s sound fun h => ⟨by rw [Slot.held, read, other]; exact .refl _, holds h⟩

/-- The cell of a release or a reset leaves the slot. -/
theorem dropOther_moves {s : State} {k : Fin 4} {o : OtherCell} (other : (s.slots[k]'k.isLt).otherCell = some o) {f : Slot → Slot}
    (sound : (s.slots[k]'k.isLt).Sound → (f (s.slots[k]'k.isLt)).Sound)
    (reads : (s.slots[k]'k.isLt).Reads → (f (s.slots[k]'k.isLt)).Reads)
    (read : (f (s.slots[k]'k.isLt)).read.map ReadRec.cell = (s.slots[k]'k.isLt).read.map ReadRec.cell := by exact rfl)
    (dropped : (f (s.slots[k]'k.isLt)).otherCell = none := by exact rfl) : Moves .sound [] [o.cell] s (s.modSlot k f) := by
  refine modSlot_moves s sound fun h => ⟨?_, holdsByState_of_none dropped (reads h.1)⟩
  rw [Slot.held, Slot.held, read, dropped, other]
  exact (List.perm_append_comm (l₁ := [o.cell])).trans (by rw [List.append_assoc]; exact .refl _)

/-- A slot changes its state, and then a waiting SLOT_RESET is answered. -/
theorem answerReset_after {s : State} {k : Fin 4} {f : Slot → Slot}
    (sound : (s.slots[k]'k.isLt).Sound → (f (s.slots[k]'k.isLt)).Sound)
    (reads : (s.slots[k]'k.isLt).Reads → (f (s.slots[k]'k.isLt)).Reads)
    (noRelease : (s.slots[k]'k.isLt).holdsByState → ∀ c, (s.slots[k]'k.isLt).otherCell ≠ some (.release c))
    (read : (f (s.slots[k]'k.isLt)).read.map ReadRec.cell = (s.slots[k]'k.isLt).read.map ReadRec.cell := by exact rfl)
    (other : (f (s.slots[k]'k.isLt)).otherCell = (s.slots[k]'k.isLt).otherCell := by exact rfl) :
    Keeps .sound s (answerReset (s.modSlot k f) k) := by
  have own : ((s.modSlot k f).slots[k]'k.isLt).otherCell = (s.slots[k]'k.isLt).otherCell := by
    rw [modSlot_get, if_pos rfl]
    exact other
  unfold answerReset
  dsimp only
  rw [own]
  cases held : (s.slots[k]'k.isLt).otherCell with
  | none => exact modSlot_kept sound (fun h => holdsByState_of_none (other.trans held) (reads h.1)) read other
  | some o =>
    cases o with
    | release c => exact modSlot_kept sound (fun h => absurd held (noRelease h c)) read other
    | reset c =>
      dsimp only
      rw [modSlot_modSlot]
      have dropped : Moves .sound [] [c] s (s.modSlot k ((fun x => { x with otherCell := none }) ∘ f)) :=
        dropOther_moves held (fun h => ⟨(sound h).off, (sound h).reads⟩) reads read
      exact dropped.trans (answer_moves _ c _)

theorem answerOther_kept (s : State) (k : Fin 4) (st : Status) : Keeps .sound s (answerOther s k st) := by
  unfold answerOther
  split
  · rename_i o other
    exact (dropOther_moves other (fun h => ⟨h.off, h.reads⟩) id).trans (answer_moves ..)
  · exact .refl s

theorem powerOff_reads {x : Slot} (now : Word) (st : SlotState) (idle : x.read = none) : (x.powerOff.enter now st).Reads :=
  (powerOff_sound now st idle).reads

theorem powerOff_read (x : Slot) (now : Word) (st : SlotState) : (x.powerOff.enter now st).read = x.read := enter_read ..

theorem powerOff_otherCell (x : Slot) (now : Word) (st : SlotState) : (x.powerOff.enter now st).otherCell = x.otherCell :=
  enter_otherCell ..

theorem toFault_kept {s : State} {k : Fin 4} (idle : (s.slots[k]'k.isLt).Reads → (s.slots[k]'k.isLt).read = none)
    (noRelease : (s.slots[k]'k.isLt).holdsByState → ∀ c, (s.slots[k]'k.isLt).otherCell ≠ some (.release c))
    (cause : SlotFault) : Keeps .sound s (toFault s k cause) := by
  refine answerReset_after (fun h => ?_) (fun h => ?_) noRelease ?_ ?_
  · have sound := powerOff_sound s.clock .fault (idle h.reads)
    exact ⟨sound.off, sound.reads⟩
  · exact powerOff_reads s.clock .fault (idle h)
  · exact congrArg _ (powerOff_read ..)
  · exact powerOff_otherCell ..

/-- A release is carried out for a loose cell. -/
theorem doRelease_moves {s : State} {k : Fin 4} (idle : (s.slots[k]'k.isLt).Reads → (s.slots[k]'k.isLt).read = none)
    (noOther : (s.slots[k]'k.isLt).holdsByState → (s.slots[k]'k.isLt).otherCell = none)
    (c : Fin 64) : Moves .sound [c] [] s (doRelease s k c) := by
  have sent : Keeps .sound s (s.sendCard k stopCommand) := sendCard_kept ..
  refine Moves.trans (sent.beside [c]) (Moves.trans (modSlot_moves _ (fun h => ?_) fun h => ?_) (answer_moves ..))
  · have sound := powerOff_sound s.clock .removeReady (idle h.reads)
    exact ⟨sound.off, sound.reads⟩
  · refine ⟨?_, holdsByState_of_none rfl (powerOff_reads s.clock .removeReady (idle h.1))⟩
    unfold Slot.held
    rw [show ((s.sendCard k stopCommand).slots[k]'k.isLt).otherCell = none from noOther h]
    exact .of_eq (congrArg (fun r : Option ReadRec => [c] ++ ((r.map ReadRec.cell).toList ++ [])) (powerOff_read ..))

/-- A release that the slot held is carried out. -/
theorem doRelease_kept {s : State} {k : Fin 4} (idle : (s.slots[k]'k.isLt).Reads → (s.slots[k]'k.isLt).read = none)
    {c : Fin 64} (held : (s.slots[k]'k.isLt).otherCell = some (.release c)) : Keeps .sound s (doRelease s k c) := by
  have sent : Keeps .sound s (s.sendCard k stopCommand) := sendCard_kept ..
  refine sent.trans (Moves.trans (dropOther_moves (s := s.sendCard k stopCommand) held (fun h => ?_) (fun h => ?_) ?_) (answer_moves ..))
  · have sound := powerOff_sound s.clock .removeReady (idle h.reads)
    exact ⟨sound.off, sound.reads⟩
  · exact powerOff_reads s.clock .removeReady (idle h)
  · exact congrArg _ (powerOff_read ..)

/-! ## The end of a read (R70 to R74) -/

/-- What the end of a read leaves before the slot moves on: the fill ended, the channel released, the cell answered, the
record shown and dropped. -/
def readDone (s : State) (k : Fin 4) (r : ReadRec) : State :=
  let s := s.endFill r.picture .complete
  let s := match r.channel with
    | some c => releaseChannel s c
    | none => s
  let s := s.answer r.cell { status := if r.failedTotal = 0 then .done else .partly,
                             body := readBody s r (s.slots[k]'k.isLt).workTier }
  (showRead s k false).modSlot k fun x => { x with read := none, timer := none }

theorem readEnd_none {s : State} {k : Fin 4} (idle : (s.slots[k]'k.isLt).read = none) : readEnd s k = s := by
  unfold readEnd
  simp only [idle]

theorem readEnd_done {s : State} {k : Fin 4} {r : ReadRec} (reading : (s.slots[k]'k.isLt).read = some r) :
    readEnd s k = match ((readDone s k r).slots[k]'k.isLt).otherCell with
      | some (.release c) => doRelease (readDone s k r) k c
      | _ => if r.phase = .failing then toFault (readDone s k r) k .noMode
        else (readDone s k r).modSlot k fun x => x.enter (readDone s k r).clock .ready := by
  unfold readEnd readDone
  simp only [reading] <;> rfl

theorem dropRead_sound {x : Slot} (h : x.Sound) : ({ x with read := none, timer := none } : Slot).Sound :=
  ⟨h.off, fun reading => nomatch reading⟩

/-- The read leaves the slot, and its cell is loose. -/
theorem dropRead_moves {s : State} {k : Fin 4} {c : Fin 64} (cell : (s.slots[k]'k.isLt).read.map ReadRec.cell = some c)
    {f : Slot → Slot} (sound : (s.slots[k]'k.isLt).Sound → (f (s.slots[k]'k.isLt)).Sound)
    (holds : (s.slots[k]'k.isLt).holdsByState → (f (s.slots[k]'k.isLt)).holdsByState)
    (read : (f (s.slots[k]'k.isLt)).read = none := by exact rfl)
    (other : (f (s.slots[k]'k.isLt)).otherCell = (s.slots[k]'k.isLt).otherCell := by exact rfl) :
    Moves .sound [] [c] s (s.modSlot k f) := by
  refine modSlot_moves s sound fun h => ⟨?_, holds h⟩
  rw [Slot.held, Slot.held, read, other, cell]
  exact .refl _

theorem dropRead_holds {x : Slot} (h : x.holdsByState) : ({ x with read := none, timer := none } : Slot).holdsByState :=
  ⟨fun reading => (nomatch reading), h.2⟩

/-- An answer and what a slot shows are changes of different parts. -/
theorem showAnswered_eq (s : State) (k : Fin 4) (c : Fin 64) (a : Answer) :
    (showRead (s.answer c a) k false).modSlot k (fun x => { x with read := none, timer := none }) =
      ((showRead s k false).modSlot k fun x => { x with read := none, timer := none }).answer c a := rfl

/-- The end of a read drops it and answers its cell, after changes that leave the slots quiet. -/
theorem readDone_eq (s : State) (k : Fin 4) (r : ReadRec) : ∃ a u, CardQuiet s u ∧
    readDone s k r = (u.modSlot k fun x => { x with read := none, timer := none }).answer r.cell a := by
  have ended := endFill_quiet s r.picture .complete
  cases channel : r.channel with
  | none =>
    have shown := ended.trans (showRead_quiet _ k false)
    unfold readDone
    rw [channel]
    exact ⟨_, _, shown, showAnswered_eq ..⟩
  | some c =>
    have shown := (ended.trans (releaseChannel_quiet _ c)).trans (showRead_quiet _ k false)
    unfold readDone
    rw [channel]
    exact ⟨_, _, shown, showAnswered_eq ..⟩

theorem readDone_kept {s : State} {k : Fin 4} {r : ReadRec} (reading : (s.slots[k]'k.isLt).read = some r) :
    Keeps .sound s (readDone s k r) := by
  obtain ⟨a, u, quiet, same⟩ := readDone_eq s k r
  rw [same]
  refine quiet.keeps.trans (Moves.trans (dropRead_moves ?_ dropRead_sound dropRead_holds) (answer_moves ..))
  rw [(quiet.slots k).cell, reading]
  rfl

/-- The read is done and the slot READY. -/
theorem readDone_ready {s : State} {k : Fin 4} {r : ReadRec} (reading : (s.slots[k]'k.isLt).read = some r)
    (noRelease : ∀ c, ((readDone s k r).slots[k]'k.isLt).otherCell ≠ some (.release c)) :
    Keeps .sound s ((readDone s k r).modSlot k fun x => x.enter (readDone s k r).clock .ready) := by
  obtain ⟨a, u, quiet, same⟩ := readDone_eq s k r
  have other : ((readDone s k r).slots[k]'k.isLt).otherCell = (u.slots[k]'k.isLt).otherCell := by
    rw [same]
    show (((u.modSlot k fun x => { x with read := none, timer := none })).slots[k]'k.isLt).otherCell = _
    rw [modSlot_get, if_pos rfl]
  have cell : (u.slots[k]'k.isLt).read.map ReadRec.cell = some r.cell := by
    rw [(quiet.slots k).cell, reading]
    rfl
  let f : Slot → Slot := (·.enter u.clock .ready) ∘ fun x => { x with read := none, timer := none }
  have clear (x : Slot) : (f x).read = none := enter_read ..
  have both : (readDone s k r).modSlot k (fun x => x.enter (readDone s k r).clock .ready) = (u.modSlot k f).answer r.cell a := by
    rw [same]
    exact congrArg (fun t : State => t.answer r.cell a) (modSlot_modSlot u k (fun x => { x with read := none, timer := none })
        (·.enter u.clock .ready))
  rw [both]
  refine quiet.keeps.trans (Moves.trans (dropRead_moves cell (fun h => ?_) (fun h => ?_) (clear _) (enter_otherCell ..))
    (answer_moves ..))
  · exact enter_sound (fun off => by obtain h | h | h | h := off <;> exact nomatch h) fun reading => nomatch reading
  · have on := h.1 (read_isSome_of_cell (b := (u.slots[k]'k.isLt).read) (a := some r) cell)
    have noReset : ∀ c, (u.slots[k]'k.isLt).otherCell ≠ some (.reset c) := h.noReset (by
      obtain on | on := on <;> rw [on] <;> decide)
    refine holdsByState_of_none ((enter_otherCell ..).trans ?_) fun reading => ?_
    · show (u.slots[k]'k.isLt).otherCell = none
      rw [other] at noRelease
      cases held : (u.slots[k]'k.isLt).otherCell with
      | none => rfl
      | some o =>
        cases o with
        | release c => exact absurd held (noRelease c)
        | reset c => exact absurd held (noReset c)
    · rw [clear] at reading
      exact nomatch reading

theorem readDone_idle (s : State) (k : Fin 4) (r : ReadRec) : ((readDone s k r).slots[k]'k.isLt).read = none := by
  unfold readDone
  dsimp only
  rw [modSlot_get, if_pos rfl]

theorem readEnd_kept (s : State) (k : Fin 4) : Keeps .sound s (readEnd s k) := by
  cases reading : (s.slots[k]'k.isLt).read with
  | none => rw [readEnd_none reading]; exact .refl s
  | some r =>
    rw [readEnd_done reading]
    have idle := readDone_idle s k r
    split
    · rename_i c held
      exact (readDone_kept reading).trans (doRelease_kept (fun _ => idle) held)
    · rename_i other
      exact .ite ((readDone_kept reading).trans (toFault_kept (fun _ => idle) (fun _ => other) _)) (readDone_ready reading other)

theorem runEnd_kept (s : State) (k : Fin 4) : Keeps .sound s (runEnd s k) := by
  unfold runEnd
  split
  · exact .refl s
  · split
    · refine (nextRun_quiet s k).keeps.trans ?_
      dsimp only
      split
      · exact .ite (goIssuing_quiet ..).keeps ((releaseChannel_quiet ..).trans (askChannel_quiet ..)).keeps
      · exact .refl _
    · exact readEnd_kept s k

theorem pump_kept (s : State) (k : Fin 4) : Keeps .sound s (pump s k) := by
  unfold pump
  split
  · exact .refl s
  · split
    · split
      · exact (slotWait_quiet ..).keeps
      · exact runEnd_kept s k
      · exact .refl s
    · have put : CardQuiet s ((putMarker s k).modRead k fun r => { r with owed := .none }) :=
        (putMarker_quiet s k).trans (modRead_quiet _ k)
      exact .ite put.keeps (put.trans (afterPut_quiet (stopAndIssue_quiet ..))).keeps
    · refine ((putMarker_quiet s k).trans ((afterPut_quiet (.refl _)).trans (modRead_quiet _ k fun r => ?_))).keeps
      split <;> rfl
    · exact .ite (CardQuiet.trans (.ite (nextRun_quiet s k) (.refl s)) (putMarker_quiet ..)).keeps (readEnd_kept s k)

theorem pumpIfEmpty_kept (s : State) (k : Fin 4) : Keeps .sound s (pumpIfEmpty s k) := by
  unfold pumpIfEmpty
  split
  · exact .ite (pump_kept s k) (.refl s)
  · exact .refl s

theorem goReceiving_kept (s : State) (k : Fin 4) : Keeps .sound s (goReceiving s k) :=
  ((slotNoWait_quiet s k).trans (modRead_quiet _ k)).keeps.trans (pumpIfEmpty_kept ..)

theorem cutRead_eq {s : State} {k : Fin 4} {st : Status} {r : ReadRec} (reading : (s.slots[k]'k.isLt).read = some r) :
    ∃ a u, CardQuiet s u ∧ cutRead s k st =
      (showRead (u.answer r.cell a) k false).modSlot k fun x => { x with read := none, timer := none } := by
  unfold cutRead
  simp only [reading]
  refine ⟨_, _, (endFill_quiet s r.picture .torn).trans ?_, rfl⟩
  cases r.channel with
  | none => exact {}
  | some c => exact releaseChannel_quiet ..

theorem cutRead_kept (s : State) (k : Fin 4) (st : Status) : Keeps .sound s (cutRead s k st) := by
  cases reading : (s.slots[k]'k.isLt).read with
  | none => rw [cutRead_none _ reading]; exact .refl s
  | some r =>
    obtain ⟨a, u, quiet, same⟩ := cutRead_eq (st := st) reading
    rw [same]
    have shown := quiet.trans (showRead_quiet u k false)
    rw [showAnswered_eq]
    refine shown.keeps.trans (Moves.trans (dropRead_moves ?_ dropRead_sound dropRead_holds) (answer_moves ..))
    rw [(shown.slots k).cell, reading]
    rfl

theorem cutRead_idle (s : State) (k : Fin 4) (st : Status) : ((cutRead s k st).slots[k]'k.isLt).read = none := by
  cases reading : (s.slots[k]'k.isLt).read with
  | none => rw [cutRead_none _ reading]; exact reading
  | some r =>
    obtain ⟨a, u, -, same⟩ := cutRead_eq (st := st) reading
    rw [same, modSlot_get, if_pos rfl]

/-! ## The tiers (R47, R48, R66 to R71) -/

/-- A slot that reads nothing and holds no release enters a state on the way to READY or FAULT. -/
theorem enterOnWay_kept {s : State} {k : Fin 4} {f : Slot → Slot} {st : SlotState}
    (onWay : st = .powering ∨ st = .identifying ∨ st = .tierSettle)
    (idle : (s.slots[k]'k.isLt).Reads → (s.slots[k]'k.isLt).read = none)
    (noRelease : (s.slots[k]'k.isLt).holdsByState → ∀ c, (s.slots[k]'k.isLt).otherCell ≠ some (.release c))
    (state : (f (s.slots[k]'k.isLt)).state = st) (read : (f (s.slots[k]'k.isLt)).read = (s.slots[k]'k.isLt).read)
    (other : (f (s.slots[k]'k.isLt)).otherCell = (s.slots[k]'k.isLt).otherCell) : Keeps .sound s (s.modSlot k f) := by
  have reads (h : (s.slots[k]'k.isLt).Reads) : (f (s.slots[k]'k.isLt)).Reads := fun reading => by
    rw [read, idle h] at reading
    exact nomatch reading
  refine modSlot_kept (fun h => ⟨fun off => ?_, reads h.reads⟩) (fun h => ⟨reads h.1, ?_⟩) (congrArg _ read) other
  · rw [state] at off
    obtain rfl | rfl | rfl := onWay <;> simp at off
  · have none_ := noRelease h
    rw [other]
    cases held : (s.slots[k]'k.isLt).otherCell with
    | none => trivial
    | some o =>
      cases o with
      | release c => exact absurd held (none_ c)
      | reset c => exact state ▸ onWay

/-- A slot that reads nothing and holds no other cell changes its state. -/
theorem enterIdle_kept {s : State} {k : Fin 4} {f : Slot → Slot}
    (idle : (s.slots[k]'k.isLt).Reads → (s.slots[k]'k.isLt).read = none)
    (noOther : (s.slots[k]'k.isLt).holdsByState → (s.slots[k]'k.isLt).otherCell = none)
    (sound : (s.slots[k]'k.isLt).Sound → (f (s.slots[k]'k.isLt)).Sound)
    (read : (f (s.slots[k]'k.isLt)).read = (s.slots[k]'k.isLt).read)
    (other : (f (s.slots[k]'k.isLt)).otherCell = (s.slots[k]'k.isLt).otherCell) : Keeps .sound s (s.modSlot k f) :=
  modSlot_kept sound (fun h => holdsByState_of_none (other.trans (noOther h)) fun reading => by
    rw [read, idle h.1] at reading
    exact nomatch reading) (congrArg _ read) other

theorem startSettle_kept {s : State} {k : Fin 4} (idle : (s.slots[k]'k.isLt).Reads → (s.slots[k]'k.isLt).read = none)
    (noRelease : (s.slots[k]'k.isLt).holdsByState → ∀ c, (s.slots[k]'k.isLt).otherCell ≠ some (.release c)) :
    Keeps .sound s (startSettle s k) := by
  unfold startSettle
  dsimp only
  generalize entered : s.modSlot k _ = t
  have state : (t.slots[k]'k.isLt).state = .tierSettle := by
    rw [← entered, modSlot_get, if_pos rfl]
    exact enter_state ..
  have kept : Keeps .sound s t := by
    rw [← entered]
    exact enterOnWay_kept (.inr (.inr rfl)) idle noRelease (enter_state ..) (enter_read ..) (enter_otherCell ..)
  refine kept.trans ?_
  split
  · exact (tryTier_quiet ..).keeps
  · exact toFault_kept (fun h => h.idle (by rw [state]; decide)) (fun h => h.noRelease (by rw [state]; decide)) _

theorem startFailing_kept (s : State) (k : Fin 4) : Keeps .sound s (startFailing s k) :=
  ((modSlot_quiet {}).trans (modRead_quiet _ k)).keeps.trans (pumpIfEmpty_kept ..)

theorem fallBackFrom_kept (s : State) (k : Fin 4) (n : Nat) : Keeps .sound s (fallBackFrom s k n) := by
  unfold fallBackFrom
  split
  · exact (tryTier_quiet ..).keeps
  · refine Keeps.trans ?_ (startFailing_kept ..)
    refine Keeps.trans ?_ (showRead_quiet ..).keeps
    exact (modSlot_quiet (setBus_quiet _ .t0 false)).keeps

theorem startFallBack_kept (s : State) (k : Fin 4) : Keeps .sound s (startFallBack s k) :=
  ((modRead_quiet s k).trans (sendCard_quiet ..)).keeps.trans (fallBackFrom_kept ..)

theorem resumeRead_kept (s : State) (k : Fin 4) : Keeps .sound s (resumeRead s k) := by
  refine (showRead_quiet s k true).keeps.trans ?_
  unfold resumeRead
  generalize showRead s k true = u
  dsimp only
  split
  · exact .refl u
  · exact .ite (modRead_quiet u k).keeps
      (.ite ((modRead_quiet u k).keeps.trans (pumpIfEmpty_kept ..)) (goIssuing_quiet ..).keeps)

/-- The state in which a failed attempt is looked at: its errors and attempts counted (R66, R68). -/
def attemptCounted (s : State) (k : Fin 4) (transfer crc : Bool) : State :=
  let x := ((s.slots[k]'k.isLt).countWindow transfer true).1
  (s.setSlot k { x with crcErrs := if crc then sat16 x.crcErrs else x.crcErrs
                        timeouts := if crc then x.timeouts else sat16 x.timeouts
                        timer := none }).modRead k fun r =>
    { r with attempts := r.attempts + 1
             crcErrs := if crc then sat16 r.crcErrs else r.crcErrs
             timeouts := if crc then r.timeouts else sat16 r.timeouts }

theorem attemptCounted_quiet (s : State) (k : Fin 4) (transfer crc : Bool) : CardQuiet s (attemptCounted s k transfer crc) := by
  unfold attemptCounted
  exact (setSlot_quiet ((countWindow_quiet _ transfer true).trans {})).trans (modRead_quiet _ k)

/-- What follows a failed attempt (R66 to R69). -/
def attemptActs (s : State) (k : Fin 4) (fallBack : Bool) : State :=
  match (s.slots[k]'k.isLt).read with
  | none => s
  | some r =>
    if r.attempts ≤ (s.slots[k]'k.isLt).retries then if fallBack then startFallBack s k else stopAndIssue s k
    else
      pumpIfEmpty (if fallBack then startFallBack (s.modRead k fun r => { r with owed := .block, phase := .checking }) k
        else s.modRead k fun r => { r with owed := .block, phase := .checking }) k

theorem attemptFails_acts (s : State) (k : Fin 4) (transfer crc : Bool) : attemptFails s k transfer crc =
    attemptActs (attemptCounted s k transfer crc) k ((s.slots[k]'k.isLt).countWindow transfer true).2 := rfl

theorem attemptFails_kept (s : State) (k : Fin 4) (transfer crc : Bool) : Keeps .sound s (attemptFails s k transfer crc) := by
  rw [attemptFails_acts]
  refine (attemptCounted_quiet s k transfer crc).keeps.trans ?_
  generalize attemptCounted s k transfer crc = u
  unfold attemptActs
  split
  · exact .refl u
  · refine .ite (.ite (startFallBack_kept ..) (stopAndIssue_quiet ..).keeps) ?_
    exact (Keeps.ite ((modRead_quiet u k).keeps.trans (startFallBack_kept ..)) (modRead_quiet u k).keeps).trans
      (pumpIfEmpty_kept ..)

theorem checkingOutcome_kept (s : State) (k : Fin 4) (addressError : Bool) : Keeps .sound s (checkingOutcome s k addressError) := by
  refine .ite (((slotNoWait_quiet s k).trans (modRead_quiet _ k)).keeps.trans (pumpIfEmpty_kept ..)) ?_
  split
  · exact .refl s
  · exact attemptFails_kept ..

theorem tierFails_kept (s : State) (k : Fin 4) : Keeps .sound s (tierFails s k) := by
  unfold tierFails
  dsimp only
  split
  · rename_i settling
    split
    · exact (tryTier_quiet ..).keeps
    · exact toFault_kept (fun h => h.idle (by rw [settling]; decide)) (fun h => h.noRelease (by rw [settling]; decide)) _
  · exact fallBackFrom_kept ..

/-- A tier is confirmed in TIER_SETTLE, or while the slot reads. -/
theorem tierConfirmed_kept {s : State} {k : Fin 4} (trying : (s.slots[k]'k.isLt).trying = true) :
    Keeps .sound s (tierConfirmed s k) := by
  unfold tierConfirmed
  dsimp only
  split
  · rename_i settling
    have idle (h : (s.slots[k]'k.isLt).Reads) : (s.slots[k]'k.isLt).read = none := h.idle (by rw [settling]; decide)
    refine answerReset_after (fun h => ?_) (fun h reading => ?_) (fun h => h.noRelease (by rw [settling]; decide))
      (congrArg _ (enter_read ..)) (enter_otherCell ..)
    · refine .of_powered (enter_state _ _ .ready) (by simp [SlotState.Unpowered]) fun reading => ?_
      rw [show _ = none from (enter_read ..).trans (idle h.reads)] at reading
      exact nomatch reading
    · rw [show _ = none from (enter_read ..).trans (idle h)] at reading
      exact nomatch reading
  · rename_i reading
    refine Keeps.trans (modSlot_kept (fun h => ⟨fun off => ?_, h.reads⟩) id) (resumeRead_kept ..)
    have on : (s.slots[k]'k.isLt).read.isSome = true := by
      rw [Slot.trying, Bool.or_eq_true, beq_iff_eq] at trying
      obtain settling | phase := trying
      · exact absurd settling reading
      · unfold Slot.phaseIs at phase
        split at phase
        · rename_i r read
          rw [read]
          rfl
        · exact nomatch phase
    obtain on | on := h.reads on
    · rw [show (s.slots[k]'k.isLt).state = .reading from on] at off
      obtain h | h | h | h := off <;> exact nomatch h
    · rw [show (s.slots[k]'k.isLt).state = .releasing from on] at off
      obtain h | h | h | h := off <;> exact nomatch h

end Sys2Proof.Machine
end

