-- ==== Sys2Proof/Proofs/KeptStations.lean ====
section
/-! What the stations, the Render Engine and the Dispatcher keep: a station's sequence stays in range, and its account and
the Dispatcher hold the same reservation (R144, R154). -/

namespace Sys2Proof.Machine

-- Checked one after another, as in the tests: a theorem checked alongside others holds its memory.
set_option Elab.async false

variable {μ : SlotChange}

/-! ## Sending, rendering and the ends of a copy (R133, R146, R176 to R180) -/

theorem answerStation_kept (s : State) (n : Fin 3) : Keeps μ s (answerStation s n) := by
  unfold answerStation
  split
  · rename_i c taken
    have dropped : Moves μ [] [c] s (s.modStation n fun x => { x with takenCell := none }) :=
      setStation_moves s (fun h => h) rfl (by rw [taken]; exact .refl _)
    exact dropped.trans (answer_moves _ c _)
  · exact .refl s

theorem sendAbility_kept (s : State) (n : Fin 3) : Keeps μ s (sendAbility s n) := (emit_kept ..).trans (modStation_kept _)

theorem sendIdle_kept (s : State) (n : Fin 3) : Keeps μ s (sendIdle s n) := (emit_kept ..).trans (modStation_kept _)

theorem sendLine_kept (s : State) (n : Fin 3) (b : Bank) : Keeps μ s (sendLine s n b) :=
  (sendLink_kept ..).trans (modStation_kept _)

theorem sendFrom_kept (s : State) (n : Fin 3) (i : Fin 2) : Keeps μ s (sendFrom s n i) :=
  (modHead_kept ..).trans (sendLine_kept ..)

theorem renderEnd_kept (s : State) (n : Fin 3) : Keeps μ s (renderEnd s n) := by
  unfold renderEnd
  dsimp only
  split
  · exact .ite {} {}
  · exact {}

theorem startLine_kept (s : State) (n : Fin 3) : Keeps μ s (startLine s n) := by
  unfold startLine
  split <;> exact {}

theorem renderGrant_kept (s : State) : Keeps μ s (renderGrant s) := by
  unfold renderGrant
  split
  · exact startLine_kept s _
  · exact .refl s

theorem completeLine_kept (s : State) (j : RenderJob) : Keeps μ s (completeLine s j) := by
  unfold completeLine
  split
  · dsimp only
    refine Keeps.trans ?_ (renderGrant_kept _)
    split
    · exact .ite (Keeps.after (sendFrom_kept ..)) {}
    · exact {}
  · exact {}

theorem failCopy_kept (s : State) (n : Fin 3) (out : CopyOutcome) (r : Byte) : Keeps μ s (failCopy s n out r) := by
  unfold failCopy
  split
  · exact .refl s
  · exact (renderEnd_kept ..).trans ((modStation_kept _).trans (copyFailed_kept ..))

theorem completeCopy_kept (s : State) (n : Fin 3) : Keeps μ s (completeCopy s n) := by
  unfold completeCopy
  split
  · exact .refl s
  · exact (renderEnd_kept ..).trans ((modStation_kept _).trans (copyCompleted_kept ..))

/-! ## The link and its states (R133 to R142, R147) -/

theorem countDown_nextSeq (x : Station) : x.countDown.nextSeq = x.nextSeq := by
  unfold Station.countDown
  split <;> rfl

theorem countDown_account (x : Station) : x.countDown.account = x.account := by
  unfold Station.countDown
  split <;> rfl

theorem countDown_takenCell (x : Station) : x.countDown.takenCell = x.takenCell := by
  unfold Station.countDown
  split <;> rfl

theorem linkDown_kept (s : State) (n : Fin 3) (cause : DownCause) (out : CopyOutcome) : Keeps μ s (linkDown s n cause out) := by
  unfold linkDown
  refine Keeps.trans ((failCopy_kept s n out 0).trans (releaseReservation_kept _ n)) ?_
  generalize releaseReservation (failCopy s n out 0) n = u
  have down : Keeps μ u (u.modStation n fun x => x.down u.clock cause) :=
    modStation_kept u (sequence := fun x => countDown_nextSeq x)
      (reservation := fun x => congrArg Account.reservation (countDown_account x)) (taken := fun x => countDown_takenCell x)
  exact .ite (down.trans (answerStation_kept ..)) down

theorem pausedOrReady_nextSeq (x : Station) : x.pausedOrReady.nextSeq = x.nextSeq := by
  rw [pausedOrReady_keeps]

theorem pausedOrReady_account (x : Station) : x.pausedOrReady.account = x.account := by
  rw [pausedOrReady_keeps]

theorem pausedOrReady_takenCell (x : Station) : x.pausedOrReady.takenCell = x.takenCell := by
  rw [pausedOrReady_keeps]

theorem pausedOrReady_kept (s : State) (n : Fin 3) : Keeps μ s (s.modStation n Station.pausedOrReady) :=
  modStation_kept s (sequence := pausedOrReady_nextSeq)
    (reservation := fun x => congrArg Account.reservation (pausedOrReady_account x)) (taken := pausedOrReady_takenCell)

theorem settleState_kept (s : State) (n : Fin 3) : Keeps μ s (settleState s n) :=
  (pausedOrReady_kept ..).trans (answerStation_kept ..)

theorem abortCopy_kept (s : State) (n : Fin 3) (out : CopyOutcome) : Keeps μ s (abortCopy s n out) := by
  unfold abortCopy
  split
  · exact .refl s
  · exact (sendLink_kept ..).trans ((failCopy_kept ..).trans (settleState_kept ..))

theorem loadEnd_kept (s : State) (n : Fin 3) (ident : Nat) (passed : List (List Byte)) :
    Keeps μ s (loadEnd s n ident passed) := by
  refine Keeps.trans ?_ (.ite (settleState_kept ..) (.refl _))
  exact modStation_kept s

theorem requestPage_kept (s : State) (n : Fin 3) (l : Load) : Keeps μ s (requestPage s n l) :=
  (sendLink_kept ..).trans (modStation_kept _)

theorem startLoad_kept (s : State) (n : Fin 3) (hasProfile : Bool) : Keeps μ s (startLoad s n hasProfile) :=
  .ite (requestPage_kept ..) (loadEnd_kept ..)

theorem pageMismatch_kept (s : State) (n : Fin 3) (l : Load) : Keeps μ s (pageMismatch s n l) :=
  .ite (linkDown_kept ..) (requestPage_kept ..)

theorem pageAccepted_kept (s : State) (n : Fin 3) (l : Load) (payload : List Byte) (sum : Nat) :
    Keeps μ s (pageAccepted s n l payload sum) := by
  refine .ite (.ite (requestPage_kept ..) (loadEnd_kept ..)) (.ite (.ite ?_ (loadEnd_kept ..)) (requestPage_kept ..))
  exact .ite (requestPage_kept ..) (loadEnd_kept ..)

theorem pageArrives_kept (s : State) (n : Fin 3) (page : Nat) (toggle : Byte) (payload : List Byte) (sum : Nat) :
    Keeps μ s (pageArrives s n page toggle payload sum) := by
  unfold pageArrives
  split
  · exact modStation_kept s
  · exact .ite (pageAccepted_kept ..) (pageMismatch_kept ..)

theorem linkUp_kept (s : State) (n : Fin 3) (w : List Byte) : Keeps μ s (linkUp s n w) :=
  Keeps.trans (modStation_kept s) (startLoad_kept ..)

theorem abilityInExchange_kept (s : State) (n : Fin 3) (payload : List Byte) : Keeps μ s (abilityInExchange s n payload) := by
  refine .ite (linkDown_kept ..) (.ite (Keeps.trans ?_ (linkUp_kept ..)) ?_)
  · exact modStation_kept s
  · exact modStation_kept s

theorem countLink_kept (s : State) (n : Fin 3) (t e : Bool) : Keeps μ s (countLink s n t e).1 := by
  unfold countLink
  dsimp only
  generalize counts : s.setStation n _ = u
  have counted : Keeps μ s u := counts ▸ setStation_kept s id rfl
  refine counted.trans ?_
  split
  · dsimp only
    exact linkDown_kept ..
  · split
    · dsimp only
      exact modStation_kept u
    · exact .refl u

theorem damagedUp_kept (s : State) (n : Fin 3) : Keeps μ s (damagedUp s n) := (modStation_kept s).trans (countLink_kept ..)

theorem accountFollows_kept (s : State) (n : Fin 3) (w : EngineStatus) (first : Bool) :
    Keeps μ s (accountFollows s n w first) := by
  refine .ite ((releaseReservation_kept ..).trans (modStation_kept _)) (.ite (.refl s) ?_)
  refine Keeps.trans ?_ (.ite (releaseReservation_kept ..) (.refl _))
  exact modStation_kept s

/-! ## Panels and the copy flow (R145 to R148) -/

theorem enterPanel_kept (s : State) (n : Fin 3) (c : Copy) (th : Nat) : Keeps μ s (enterPanel s n c th) :=
  (sendLink_kept ..).trans ((modStation_kept _).trans (modHead_kept ..))

theorem startPanel_kept (s : State) (n : Fin 3) (c : Copy) : Keeps μ s (startPanel s n c) :=
  .ite (enterPanel_kept ..) (modStation_kept s)

theorem statusActs_kept (s : State) (n : Fin 3) (w : EngineStatus) : Keeps μ s (statusActs s n w) := by
  unfold statusActs
  dsimp only
  split
  · exact .ite (pausedOrReady_kept ..) (.refl s)
  · exact .ite (pausedOrReady_kept ..) (.ite (pausedOrReady_kept ..) (.refl s))
  · exact .ite (abortCopy_kept ..) (.ite (startPanel_kept ..) (.refl s))
  · exact .ite (abortCopy_kept ..) (.refl s)
  · exact .ite (settleState_kept ..) (.refl s)
  · exact .refl s

theorem statusArrives_kept (s : State) (n : Fin 3) (w : EngineStatus) : Keeps μ s (statusArrives s n w) := by
  refine Keeps.trans ?_ ((accountFollows_kept ..).trans (statusActs_kept ..))
  exact modStation_kept s

theorem withCopy_kept {s : State} {n : Fin 3} {seq : Nat} {f : Copy → State} (h : ∀ c, Keeps μ s (f c)) :
    Keeps μ s (withCopy s n seq f) := by
  unfold withCopy
  split
  · exact .ite (h _) (modStation_kept s)
  · exact modStation_kept s

theorem flowViolation_kept (s : State) (n : Fin 3) : Keeps μ s (flowViolation s n) := linkDown_kept ..

theorem modCopy_kept (s : State) (n : Fin 3) (f : Copy → Copy) : Keeps μ s (s.modCopy n f) := modStation_kept s

theorem lineRequested_kept (s : State) (n : Fin 3) (c : Copy) (panel line : Nat) : Keeps μ s (lineRequested s n c panel line) := by
  refine .ite (flowViolation_kept ..) ?_
  split
  · exact sendFrom_kept ..
  · exact modHead_kept ..

theorem lineDone_kept (s : State) (n : Fin 3) : Keeps μ s (lineDone s n) := by
  refine Keeps.trans (modCopy_kept s n fun c => { c with nextLine := c.nextLine + 1, failedAnswers := 0, answer := none }) ?_
  unfold lineDone
  dsimp only
  split
  · exact modHead_kept ..
  · exact .refl _

theorem lineAcked_kept (s : State) (n : Fin 3) (c : Copy) (panel line : Nat) : Keeps μ s (lineAcked s n c panel line) :=
  .ite ((countLink_kept s n true false).trans (.ite (lineDone_kept ..) (.refl _))) (flowViolation_kept ..)

theorem failedAnswer_kept (s : State) (n : Fin 3) (c : Copy) : Keeps μ s (failedAnswer s n c) := by
  refine Keeps.trans (Keeps.trans (modStation_kept s) (countLink_kept _ n true true)) (.ite ?_ (.refl _))
  refine Keeps.trans (modCopy_kept _ n fun c => { c with failedAnswers := c.failedAnswers + 1, answer := none })
    (.ite (abortCopy_kept ..) ?_)
  split
  · exact sendLine_kept ..
  · exact .refl _

theorem lineNaked_kept (s : State) (n : Fin 3) (c : Copy) (panel line : Nat) : Keeps μ s (lineNaked s n c panel line) :=
  .ite (failedAnswer_kept ..) (flowViolation_kept ..)

theorem panelEnds_kept (s : State) (n : Fin 3) (c : Copy) (panel : Nat) : Keeps μ s (panelEnds s n c panel) := by
  refine .ite (flowViolation_kept ..) ?_
  split
  · exact startPanel_kept ..
  · exact modCopy_kept ..

theorem copyOk_kept (s : State) (n : Fin 3) (c : Copy) : Keeps μ s (copyOk s n c) :=
  .ite ((completeCopy_kept ..).trans (settleState_kept ..)) (flowViolation_kept ..)

theorem copyFault_kept (s : State) (n : Fin 3) (reason : Byte) : Keeps μ s (copyFault s n reason) :=
  (failCopy_kept ..).trans (settleState_kept ..)

/-! ## Words while the link is not up (R133, R134) -/

theorem noteWord_kept (s : State) (n : Fin 3) : Keeps μ s (noteWord s n) := modStation_kept s

theorem messageTaken_kept (s : State) (n : Fin 3) : Keeps μ s (messageTaken s n) :=
  (noteWord_kept s n).trans (modStation_kept _)

theorem startExchange_kept (s : State) (n : Fin 3) (now : Word) : Keeps μ s (s.modStation n fun x => x.startExchange now) :=
  modStation_kept s

theorem wordDown_kept {s : State} {n : Fin 3} {msg : Option (List Byte)} {damaged stale : Bool} {exchange : State → State}
    (h : ∀ t, Keeps μ t (exchange t)) : Keeps μ s (wordDown s n msg damaged stale exchange) := by
  unfold wordDown
  dsimp only
  refine .ite (.refl s) ?_
  generalize counts : s.modStation n _ = u
  have counted : Keeps μ s u := counts ▸ modStation_kept s
  refine counted.trans (.ite (.refl u) ?_)
  split
  · exact startExchange_kept ..
  · exact h _
  · exact .refl _

theorem unsettle_kept (s : State) (n : Fin 3) : Keeps μ s (s.modStation n Station.unsettle) := modStation_kept s

/-! ## The Dispatcher (R155 to R160) -/

/-- A promotion leaves an order's pay cell and its state. -/
theorem promoteAll_accounts {L : List (Fin 64)} {s : State} (h : Accounts L s) : Accounts L (promoteAll s) := by
  have entry (n : Fin 48) : ((promoteAll s).orders[n]'n.isLt).order = (s.orders[n]'n.isLt).order.map fun o =>
      if o.duePromotion s.clock (waitLimit s.settings) then { o with promoted := true } else o := by
    unfold promoteAll
    rw [tab_get]
  refine h.move rfl rfl (fun c => ?_) h.slots fun n o found => ?_
  · have same : (promoteAll s).orders.toList.flatMap (fun e => (e.order.bind Order.payCell).toList) =
        s.orders.toList.flatMap fun e => (e.order.bind Order.payCell).toList := flatMap_vector_congr fun n => by
      rw [entry]
      cases (s.orders[n]'n.isLt).order with
      | none => rfl
      | some o =>
        dsimp only [Option.map_some, Option.bind_some]
        split <;> rfl
    rw [held_count, held_count, same]
    rfl
  · rw [entry] at found
    obtain ⟨q, before, rfl⟩ := Option.map_eq_some_iff.mp found
    have sound := h.orders n q before
    unfold Order.PaySound at sound ⊢
    split <;> exact sound

theorem promoteAll_kept (s : State) : Keeps μ s (promoteAll s) := { accounts := fun _ => promoteAll_accounts }

theorem reserve_kept (s : State) (n : Fin 3) (m : Fin 48) (i : Nat) (it : Item) : Keeps μ s (reserve s n m i it) := by
  refine Keeps.trans ?_ (modItem_kept ..)
  exact reservation_kept s n _ _ id rfl rfl

theorem selectCopy_kept (s : State) (n : Fin 3) : Keeps μ s (selectCopy s n) := by
  refine (promoteAll_kept s).trans ?_
  unfold selectCopy
  dsimp only
  split
  · split
    · exact reserve_kept ..
    · exact .refl _
  · exact .refl _

theorem seqAfter_inSequence {x : Station} (h : x.InSequence) : 1 ≤ seqAfter x.nextSeq ∧ seqAfter x.nextSeq ≤ 65535 := by
  obtain ⟨lo, hi⟩ := h
  unfold seqAfter
  split <;> omega

theorem started_payCell (i : Nat) (now : Word) (o : Order) : (o.started i now).payCell = o.payCell := by
  unfold Order.started
  dsimp only
  split <;> rfl

theorem started_authorizing (i : Nat) (now : Word) (o : Order) (authorizing : o.state = .authorizing) :
    (o.started i now).state = .authorizing := by
  unfold Order.started
  dsimp only
  split
  · rename_i paid
    exact nomatch authorizing.symm.trans paid
  · exact authorizing

/-- A start uses up the reservation that both hold, and the station's next sequence (R144, R160). -/
theorem startCopy_kept (s : State) (n : Fin 3) (r : Reservation) : Keeps μ s (startCopy s n r) := by
  let c : Copy := { seq := (s.stations[n]'n.isLt).nextSeq, order := r.order, item := r.item, size := r.size,
                    finish := r.finish, lines := r.size.lines, panel := .y, phase := .waitStart, nextLine := 0,
                    failedAnswers := 0, answer := none }
  let f : Station → Station := fun x => { x with
    state := .printing
    nextSeq := seqAfter (s.stations[n]'n.isLt).nextSeq
    account := { x.account with ribbonLeft := x.account.ribbonLeft - 1, paperLeft := x.account.paperLeft - 1,
                                reservation := none }
    copy := some c }
  have orders : startCopy s n r = startPanel (((({ s with reservations := s.reservations.set n none } : State).modStation n f).modOrder
      r.order fun o => o.started r.item s.clock).sendLink n 0x20
        (le 2 (s.stations[n]'n.isLt).nextSeq ++ [BitVec.ofNat 8 r.size.code, BitVec.ofNat 8 r.finish.code] ++
          le 2 r.size.lines)) n c := by
    unfold startCopy
    dsimp only
    unfold State.modOrder
    cases found : ({ s with reservations := s.reservations.set n none } : State).orderAt r.order with
    | none =>
      rw [show (({ s with reservations := s.reservations.set n none } : State).modStation n f).orderAt r.order = none from found]
    | some q =>
      rw [show (({ s with reservations := s.reservations.set n none } : State).modStation n f).orderAt r.order = some q from found]
      rfl
  rw [orders]
  refine Keeps.trans (reservation_kept s n none f (fun h => seqAfter_inSequence h) rfl rfl) ?_
  exact (modOrder_kept _ _ _ (started_payCell r.item s.clock) (started_authorizing r.item s.clock)).trans ((sendLink_kept ..).trans (startPanel_kept ..))

theorem startIfDue_kept (s : State) (n : Fin 3) : Keeps μ s (startIfDue s n) := by
  unfold startIfDue
  split
  · exact (startCopy_kept ..).trans (renderGrant_kept _)
  · exact .refl s

theorem followUp_kept (s : State) : Keeps μ s (followUp s) :=
  (renderGrant_kept s).trans (foldl_kept startIfDue_kept _ _)

theorem selectionEvent_kept (s : State) (n : Fin 3) : Keeps μ s (selectionEvent s n) :=
  ((selectCopy_kept s n).trans (startIfDue_kept _ n)).trans (finish_kept s _)

theorem selectAll_kept (f : Nat) (s : State) : Keeps μ s (selectAll f s) := by
  induction f generalizing s with
  | zero => exact .refl s
  | succ f ih =>
    unfold selectAll
    split
    · exact .refl s
    · exact (selectionEvent_kept s _).trans (ih _)
    · exact Keeps.after (t := { s with stationChoices := s.stationChoices + 1 })
        ((selectionEvent_kept _ _).trans (ih _))

/-- What follows an event keeps what the event kept. -/
theorem afterWork_kept (s t : State) : Keeps μ t (afterWork s t) :=
  (followUp_kept t).trans ((finish_kept s _).trans (selectAll_kept 6 _))

end Sys2Proof.Machine
end

