-- ==== Sys2Proof/Proofs/KeptCommands.lean ====
section
/-! What each command keeps: its effect is made of the operations of the blocks, and an event's end. The commands that
change what the whole machine shares stand apart (`changesShared`). -/

namespace Sys2Proof.Machine

-- Checked one after another, as in the tests: a theorem checked alongside others holds its memory.
set_option Elab.async false

variable {μ : SlotChange}

/-! ## Outcomes -/

/-- Where the command is carried out, the state after it keeps what held before. -/
def KeptBy (μ : SlotChange) (s : State) (o : Host.Outcome State Fault Refusal) : Prop := ∀ t, o = .next t → Keeps μ s t

theorem KeptBy.next {s t : State} (h : Keeps μ s t) : KeptBy μ s (.next t) := by
  intro u same
  cases same
  exact h

theorem KeptBy.stay (s : State) : KeptBy μ s (.next s) := .next (.refl s)

theorem KeptBy.fault (s : State) (f : Fault) : KeptBy μ s (.fault f) := fun _ same => nomatch same

theorem KeptBy.event {s t : State} (h : Keeps μ s t) : KeptBy μ s (event s t) := .next (h.trans (finish_kept s t))

theorem KeptBy.unmarked {s t : State} (h : Keeps μ s t) : KeptBy μ s (eventUnmarked s t) := .next (h.trans (notified_kept t _))

theorem KeptBy.work {s t : State} (h : Keeps μ s t) : KeptBy μ s (workEvent s t) := .next (h.trans (afterWork_kept s t))

theorem KeptBy.pay {s t : State} (h : Keeps μ s t) : KeptBy μ s (payEvent s t) := .event (h.trans (payIdle_kept t).keeps)

theorem KeptBy.payWork {s t : State} (h : Keeps μ s t) : KeptBy μ s (payWorkEvent s t) := .work (h.trans (payIdle_kept t).keeps)

theorem KeptBy.ite {s : State} {p : Prop} [Decidable p] {a b : Host.Outcome State Fault Refusal} (h : KeptBy μ s a)
    (k : KeptBy μ s b) : KeptBy μ s (if p then a else b) := by
  split
  · exact h
  · exact k

/-- The cell at the head of a list is in it. -/
theorem mem_listed_of_head {s : State} {l : Fin 11} {k : Kind} {c : Fin 64} (head : s.headOf l k = some c) : c ∈ s.listed := by
  obtain ⟨-, first, -⟩ := headOf_eq_some.mp head
  exact mem_listed (l := l) (List.mem_of_mem_head? first)

theorem serve_kept {s : State} {l : Fin 11} {k : Kind} {f : State → Fin 64 → State × Answer}
    (h : ∀ u c, Keeps μ u (f u c).1) : KeptBy μ s (serve s l k f) := by
  unfold serve
  split
  · exact .stay s
  · rename_i head
    exact .event (served_kept s (mem_listed_of_head head) (h _ _) _)

theorem serveWork_kept {s : State} {l : Fin 11} {k : Kind} {f : State → Fin 64 → State × Answer}
    (h : ∀ u c, Keeps μ u (f u c).1) : KeptBy μ s (serveWork s l k f) := by
  unfold serveWork
  split
  · exact .stay s
  · rename_i head
    exact .work (served_kept s (mem_listed_of_head head) (h _ _) _)

/-! ## The exchange window (R1, R5 to R7, R11, R13, R16, R18) -/

theorem postCell_carries (s : State) (c : Fin 64) : Carries s (postCell s c) := by
  unfold postCell
  dsimp only
  split
  · exact Carries.trans (t := s.setIntake _ _) {} (setCell_carries _ id)
  · exact Carries.trans (t := s.unlist c) {} ((setCell_carries _ taken_mem_wf).trans (setCell_carries _ fun w => answered_mem_wf w _))

theorem handWrite_carries (s : State) (c : Fin 64) (v : Word) (en : BitVec 4) : Carries s (handWrite s c v en) := by
  unfold handWrite
  dsimp only
  split
  · exact (strayAt_kept (μ := .still) ..).toCarries
  · split
    · exact postCell_carries s c
    · exact Carries.trans (t := s.unlist c) {} (setCell_carries _ id)
    · exact Carries.trans (t := s.strayAt _ _) {} (setCell_carries _ id)
    · exact setCell_carries s id
    · exact (strayAt_kept (μ := .still) ..).toCarries

/-- A write to a hand changes cells and lists, and the stray write's registers. -/
theorem handWrite_frame (s : State) (c : Fin 64) (v : Word) (en : BitVec 4) : handWrite s c v en = { s with
    cells := (handWrite s c v en).cells, intake := (handWrite s c v en).intake, stray := (handWrite s c v en).stray
    strayWindow := (handWrite s c v en).strayWindow, strayOffset := (handWrite s c v en).strayOffset } := by
  unfold handWrite postCell
  dsimp only
  split
  · rfl
  · split
    · split <;> rfl
    all_goals rfl

theorem handWrite_kept (s : State) (c : Fin 64) (v : Word) (en : BitVec 4) : Keeps μ s (handWrite s c v en) :=
  { handWrite_carries s c v en with
    shared := by rw [handWrite_frame]; exact {}
    slots := SlotChange.allows_of_slots (by rw [handWrite_frame])
    accounts := fun _ h => h.handWrite c v en }

theorem cellWrite_kept (s : State) (c : Fin 64) (o : Nat) (v : Word) (en : BitVec 4) : Keeps μ s (cellWrite s c o v en) :=
  .ite (handWrite_kept ..) (.ite (setCell_kept s (fun w => Mem.writeEnabled_wf w o v en)) (strayAt_kept ..))

/-- A change of one record's marks that keeps its count within 255. -/
theorem setMarks_kept {s : State} {r : Fin 9} {m : Marks} (h : (s.marks[r]'r.isLt).count ≤ 255 → m.count ≤ 255) :
    Keeps μ s { s with marks := s.marks.set r m } :=
  { counts := fun w q => by
      show ((s.marks.set r m r.isLt)[q]'q.isLt).count ≤ 255
      rw [vector_set_get]
      split
      · rename_i same
        exact h (same ▸ w r)
      · exact w q }

theorem countOne_le (m : Marks) : m.countOne.count ≤ 255 := Nat.min_le_left ..

theorem countOne_kept (s : State) : Keeps μ s { s with marks := s.marks.set 7 (s.marks[7]).countOne } :=
  setMarks_kept (r := 7) (m := (s.marks[7]).countOne) fun _ => countOne_le _

theorem clearInputLatches_kept (s : State) : Keeps μ s (clearInputLatches s) := by
  have cleared : PayKeeps s (s.modPay fun p => { p with changeLatch := false, alertLatch := false }) := .rest
  exact .ite (cleared.keeps.trans (countOne_kept _)) (.refl s)

theorem clearStickyErrors_kept (s : State) : Keeps μ s (clearStickyErrors s) :=
  .ite ((clearSticky_kept s).keeps.trans (countOne_kept _)) (.refl s)

theorem maskClear_kept (s : State) (r : Fin 9) (v : Word) (en : BitVec 4) : Keeps μ s (maskClear s r v en) := by
  have cleared : Keeps μ s { s with marks := s.marks.set r (clearedMask (s.marks[r]'r.isLt) (enabledBits v en)) } :=
    setMarks_kept id
  unfold maskClear
  dsimp only
  exact .ite (Keeps.trans (.ite (cleared.trans (clearInputLatches_kept _)) cleared) (clearStickyErrors_kept _))
    (.ite (cleared.trans (clearInputLatches_kept _)) cleared)

theorem mapClear_kept (s : State) (high : Bool) (v : Word) (en : BitVec 4) : Keeps μ s (mapClear s high v en) := {}

theorem wordWrite_kept (s : State) {a : Nat} (h : a ≠ 4) (v : Word) (en : BitVec 4) : Keeps μ s (wordWrite s a v en) := by
  unfold wordWrite
  rw [if_neg h]
  split
  · exact {}
  · split
    · exact .ite (maskClear_kept ..) (.ite (mapClear_kept ..) (.ite (mapClear_kept ..) (strayAt_kept ..)))
    · split
      · exact cellWrite_kept ..
      · exact strayAt_kept ..

/-- A host write to any word but CONTROL. -/
theorem exchangeWrite_kept {s : State} {offset : Nat} (h : offset / 4 ≠ 1) (v : Word) (en : BitVec 4) :
    KeptBy μ s (execExchangeWrite offset v en s) := by
  have other : offset / 4 * 4 ≠ 4 := by omega
  unfold execExchangeWrite
  dsimp only
  rw [if_neg other]
  exact .ite (.unmarked (wordWrite_kept s other v en)) (.fault s _)

/-! ## Staging (R29 to R40) -/

theorem strides_pos {w h : Nat} (wide : ¬ (w < 16 ∨ 8192 < w)) (high : ¬ (h < 16 ∨ 8192 < h)) : 1 ≤ strideFor w * h := by
  have stride : 1 ≤ strideFor w := by
    unfold strideFor
    omega
  exact Nat.mul_le_mul stride (show 1 ≤ h by omega)

theorem rasterOpen_kept (s : State) (c : Fin 64) : Keeps μ s (rasterOpen s c).1 := by
  unfold rasterOpen
  dsimp only
  split
  · exact .refl s
  · split
    · exact .refl s
    · rename_i wide high
      split
      · exact .refl s
      · split
        · exact .refl s
        · rename_i found
          exact allocate_kept found (pagesFor_pos (strides_pos wide high))

theorem rasterSeal_kept (s : State) (c : Fin 64) : Keeps μ s (rasterSeal s c).1 := by
  unfold rasterSeal
  split
  · exact .refl s
  · rename_i found
    split
    · exact putPicture_kept (pictureAt_used found) _
    · exact .refl s

theorem pictureFree_kept (s : State) (c : Fin 64) : Keeps μ s (pictureFree s c).1 := by
  unfold pictureFree
  split
  · exact .refl s
  · rename_i found
    split
    · exact .refl s
    · split
      · exact freePicture_kept (pictureAt_used found)
      · exact putPicture_kept (pictureAt_used found) _

theorem pictureInfo_kept (s : State) (c : Fin 64) : Keeps μ s (pictureInfo s c).1 := by
  unfold pictureInfo
  dsimp only
  split <;> exact .refl s

theorem stagingWrite_kept (s : State) (offset : Nat) (words : List StagingWord) : Keeps μ s (stagingWrite s offset words) := by
  unfold stagingWrite
  dsimp only
  generalize strays : List.foldl (fun t w => State.strayAt t .staging (HostWord.offset w)) s _ = t
  have stray : Keeps μ s t := strays ▸ foldl_kept (fun u w => strayAt_kept u _ _) _ s
  exact stray.trans {}

theorem drainHost_kept (s : State) : Keeps μ s (drainHost s) := by
  unfold drainHost
  refine Keeps.trans ?_ (foldl_kept (f := answerZeros) (fun t a => ?_) _ _)
  · exact {}
  · cases a with
    | read offset count => exact emit_kept ..
    | write ws => exact .refl t

theorem stagingRead_kept (s : State) (offset count : Nat) : Keeps μ s (stagingRead s offset count) :=
  Keeps.after (t := s.queueHost _) (drainHost_kept _)

theorem writeWords_wf (ws : List HostWord) {m : Mem} (w : m.wf = true) :
    (ws.foldl (fun m w => m.writeEnabled w.offset w.value w.enables) m).wf = true := by
  induction ws generalizing m with
  | nil => exact w
  | cons x ws ih => exact ih (Mem.writeEnabled_wf w _ _ _)

theorem hostAccess_kept (s : State) (a : HostAccess) : Keeps μ s (hostAccess s a) := by
  cases a with
  | write ws => exact { dram := writeWords_wf ws }
  | read offset count => exact emit_kept ..

theorem grantHost_kept (s : State) : Keeps μ s (grantHost s) := by
  unfold grantHost
  split
  · exact .refl s
  · exact Keeps.after ((hostAccess_kept ..).trans (drainHost_kept _))

theorem grantRun_kept (s : State) : Keeps μ s (grantRun s) := by
  unfold grantRun
  split
  · split
    · exact {}
    · exact .refl s
  · exact .refl s

theorem setDram_kept {s : State} {m : Mem} (h : s.dram.wf = true → m.wf = true) : Keeps μ s { s with dram := m } := { dram := h }

theorem writeBlock_kept (s : State) (b : BlockBuf) : Keeps μ s (s.writeBlock b).1 := by
  unfold State.writeBlock
  split
  · rename_i i p found
    split
    · dsimp only
      generalize written : s.dram.writeBytes _ _ = m
      have dram : Keeps μ s { s with dram := m } := setDram_kept fun w => written ▸ Mem.writeBytes_wf w _ _
      exact dram.trans (putPicture_kept (s := { s with dram := m }) (pictureAt_used found) _)
    · exact .refl s
  · exact .refl s

theorem countPlaced_quiet (s : State) (k : Fin 4) (b : BlockBuf) : CardQuiet s (countPlaced s k b) := by
  unfold countPlaced
  dsimp only
  generalize counts : s.modRead k _ = t
  have counted : CardQuiet s t := by
    rw [← counts]
    refine modRead_quiet s k (cell := fun r => ?_)
    split <;> rfl
  refine counted.trans ?_
  split
  · exact .ite (showRead_quiet ..) (.refl t)
  · exact .refl t

theorem grantBlock_kept (s : State) (c : Fin 2) : Keeps .sound s (grantBlock s c) := by
  unfold grantBlock
  split
  · rename_i b k _ _
    have written := writeBlock_kept (μ := .sound) s b
    generalize s.writeBlock b = q at written ⊢
    dsimp only
    generalize emptied : q.1.setChannel c _ = t
    have empty : Keeps .sound q.1 t := emptied ▸ setChannel_kept ..
    exact (written.trans empty).trans ((Keeps.ite (countPlaced_quiet ..).keeps (.refl t)).trans (pump_kept ..))
  · exact .refl s

theorem grantChannelWrite_kept (s : State) (c : Fin 2) : Keeps .sound s (grantChannelWrite s c) :=
  Keeps.after (t := { s.countHostWait with port := _ }) (grantBlock_kept _ c)

theorem portGrant_kept (s : State) : KeptBy .sound s (execPortGrant s) := by
  refine .ite ?_ (.stay s)
  split
  · exact .event (grantHost_kept s)
  · exact .event (grantRun_kept s)
  · exact .event (grantChannelWrite_kept s _)
  · exact .stay s

theorem runArrives_kept (s : State) (g : RunGrant) : Keeps μ s (runArrives s g) := by
  unfold runArrives
  split
  · exact .ite (completeLine_kept ..) {}
  · exact .refl s

theorem pixelRunReturn_kept (s : State) : KeptBy μ s (execPixelRunReturn s) := by
  unfold execPixelRunReturn
  split
  · exact .event (.ite (Keeps.after (runArrives_kept ..)) {})
  · exact .stay s

end Sys2Proof.Machine
end

