-- ==== Sys2Proof/Proofs/KeptRequests.lean ====
section
/-! What the commands of the slots, the orders, the payment side and the stations keep. -/

namespace Sys2Proof.Machine

-- Checked one after another, as in the tests: a theorem checked alongside others holds its memory.
set_option Elab.async false

variable {μ : SlotChange}

/-! ## Slots (R44 to R60) -/

theorem totalBlocks_pos {capacity n i : Nat} {c : WorkCell} (some_ : 1 ≤ n) (inside : badRun capacity i (runsOf c n) = none) :
    1 ≤ totalBlocks (runsOf c n) := by
  obtain ⟨r, rest, runs⟩ : ∃ r rest, runsOf c n = r :: rest := by
    refine List.exists_cons_of_length_pos ?_
    rw [runsOf, List.length_map, List.length_range]
    exact some_
  rw [runs] at inside ⊢
  have count : r.count ≠ 0 := by
    intro zero
    rw [badRun, if_pos zero] at inside
    exact nomatch inside
  show 1 ≤ r.count + _
  omega

/-- A READY slot's read holds the cell that was taken for it. -/
theorem beginRead_moves {s : State} {k : Fin 4} (ready : (s.slots[k]'k.isLt).state = .ready) {c : Fin 64} (now : Word)
    {r : Slot → ReadRec} (cell : (r (s.slots[k]'k.isLt)).cell = c) :
    Moves .sound [c] [] s (s.modSlot k fun x => { x.enter now .reading with read := some (r x) }) := by
  refine modSlot_moves s (fun _ => .of_powered (enter_state _ _ .reading) (by simp [SlotState.Unpowered]) fun _ => .inl rfl)
    fun holds => ?_
  have idle : (s.slots[k]'k.isLt).read = none := Slot.Reads.idle holds.1 (by rw [ready]; decide)
  have noOther := holds.noOther (by rw [ready]; decide)
  have other : ((s.slots[k]'k.isLt).enter now .reading).otherCell = none := (enter_otherCell ..).trans noOther
  refine ⟨?_, holdsByState_of_none other fun _ => .inl (enter_state ..)⟩
  unfold Slot.held
  rw [idle, noOther, ← cell]
  exact .of_eq (congrArg (fun o : Option OtherCell => [] ++ ([(r (s.slots[k]'k.isLt)).cell] ++ (o.map OtherCell.cell).toList)) other)

/-- CARD_READ in READY: an answer, or the cell held by the read that begins. -/
theorem startRead_moves {s : State} {k : Fin 4} (ready : (s.slots[k]'k.isLt).state = .ready) (c : Fin 64) (rec : CardRecord) :
    Moves .sound [c] [] s (startRead s k c rec) := by
  unfold startRead
  dsimp only
  split
  · exact answer_moves ..
  · split
    · exact answer_moves ..
    · rename_i range _ inside
      split
      · exact answer_moves ..
      · split
        · exact answer_moves ..
        · rename_i t h base room
          have blocks := totalBlocks_pos (by omega) inside
          have some_ := pagesFor_pos (Nat.mul_le_mul blocks (show 1 ≤ 512 by decide))
          have allocated : Keeps .sound s t := allocate_kept room some_
          have slots : t.slots = s.slots := (allocate_kept (μ := .still) room some_).slots
          refine Moves.trans (allocated.beside [c]) ?_
          have begins := beginRead_moves (s := t) (k := k) (by rw [slots]; exact ready) s.clock (c := c)
            (r := fun x => newRead c (runsOf (s.cells[c]'c.isLt) ((s.cells[c]'c.isLt).req 0 1)) h base x.workTier) rfl
          exact begins.trans ((showRead_quiet ..).trans (askChannel_quiet ..)).keeps

theorem cardRead_kept (s : State) (k : Fin 4) : KeptBy .sound s (execCardRead k s) := by
  unfold execCardRead
  split
  · exact .stay s
  · rename_i c head
    have mem := mem_listed_of_head head
    dsimp only
    split
    case h_5 ready =>
      split
      · exact .event ((take_moves s mem).trans (startRead_moves (s := s.take c) ready ..))
      · exact .stay s
    case h_1 | h_2 | h_3 | h_4 => exact .event (takeAnswer_kept s mem _)
    all_goals exact .stay s

/-- A reading slot without another cell holds the one taken for its release. -/
theorem holdRelease_moves {s : State} {k : Fin 4} (reading : (s.slots[k]'k.isLt).state = .reading) (c : Fin 64) :
    Moves .sound [c] [] s (s.modSlot k fun x => { x.enter s.clock .releasing with otherCell := some (.release c) }) := by
  refine modSlot_moves s (fun h => ?_) fun h => ⟨?_, fun _ => .inr (enter_state ..), enter_state ..⟩
  · have sound : ((s.slots[k]'k.isLt).enter s.clock .releasing).Sound :=
      enter_sound (fun off => by obtain h | h | h | h := off <;> exact nomatch h) fun _ => .inr rfl
    exact ⟨sound.off, sound.reads⟩
  · unfold Slot.held
    rw [h.noOther (by rw [reading]; decide),
      show ({ (s.slots[k]'k.isLt).enter s.clock .releasing with otherCell := some (.release c) } : Slot).read =
        (s.slots[k]'k.isLt).read from enter_read ..]
    show ((Option.map ReadRec.cell (s.slots[k]'k.isLt).read).toList ++ [c]).Perm (c :: (_ ++ []))
    rw [List.append_nil]
    exact List.perm_append_singleton c _

theorem cardRelease_kept (s : State) (k : Fin 4) : KeptBy .sound s (execCardRelease k s) := by
  unfold execCardRelease
  split
  · exact .stay s
  · rename_i c head
    have mem := mem_listed_of_head head
    have slots : (s.take c).slots = s.slots := rfl
    dsimp only
    split
    case h_5 ready =>
      refine .event ((take_moves s mem).trans (doRelease_moves (fun h => h.idle ?_) (fun h => h.noOther ?_) c)) <;>
      · rw [slots, ready]
        decide
    case h_6 reading => exact .event ((take_moves s mem).trans (holdRelease_moves (slots ▸ reading) c))
    case h_1 | h_2 | h_3 | h_4 => exact .event (takeAnswer_kept s mem _)
    all_goals exact .stay s

theorem answerOther_read (s : State) (k : Fin 4) (st : Status) :
    ((answerOther s k st).slots[k]'k.isLt).read = (s.slots[k]'k.isLt).read := by
  unfold answerOther
  split
  · rw [State.answer, State.setCell_slots, modSlot_get, if_pos rfl]
  · rfl

theorem answerOther_otherCell (s : State) (k : Fin 4) (st : Status) :
    ((answerOther s k st).slots[k]'k.isLt).otherCell = none := by
  unfold answerOther
  split
  · rw [State.answer, State.setCell_slots, modSlot_get, if_pos rfl]
  · assumption

/-- A reset cuts the slot's work and holds the cell that was taken for it. -/
theorem startReset_moves (s : State) (k : Fin 4) (c : Fin 64) : Moves .sound [c] [] s (startReset s k c) := by
  unfold startReset
  dsimp only
  have idle : ((answerOther (cutRead s k .aborted) k .aborted).slots[k]'k.isLt).read = none :=
    (answerOther_read ..).trans (cutRead_idle ..)
  have noOther := answerOther_otherCell (cutRead s k .aborted) k .aborted
  refine ((cutRead_kept s k .aborted).trans (answerOther_kept _ k .aborted)).beside [c] |>.trans ?_
  generalize answerOther (cutRead s k .aborted) k .aborted = u at idle noOther ⊢
  refine Moves.trans (modSlot_moves u (fun _ => ?_) fun _ => ⟨?_, fun reading => ?_, Or.inl (enter_state ..)⟩)
    (slotWait_quiet ..).keeps
  · have sound := powerOff_sound u.clock .powering idle
    exact ⟨sound.off, sound.reads⟩
  · unfold Slot.held
    rw [idle, noOther]
    exact .of_eq (congrArg (fun r : Option ReadRec => [] ++ ((r.map ReadRec.cell).toList ++ [c])) ((powerOff_read ..).trans idle))
  · exact powerOff_reads u.clock .powering idle reading

theorem slotReset_kept (s : State) (k : Fin 4) : KeptBy .sound s (execSlotReset k s) := by
  unfold execSlotReset
  split
  · exact .stay s
  · rename_i head
    have mem := mem_listed_of_head head
    dsimp only
    split
    · exact .event (takeAnswer_kept s mem _)
    case h_2 | h_3 | h_4 | h_5 | h_6 => exact .event ((take_moves s mem).trans (startReset_moves ..))
    all_goals exact .stay s

/-- A slot that settles was EMPTY, and stays without power. -/
theorem startSettling_kept {s : State} {k : Fin 4} (empty : (s.slots[k]'k.isLt).state = .empty) :
    Keeps .sound s (startSettling s k) := by
  have idle (h : (s.slots[k]'k.isLt).Reads) : (s.slots[k]'k.isLt).read = none := h.idle (by rw [empty]; decide)
  refine Keeps.trans (enterIdle_kept idle (fun h => h.noOther (by rw [empty]; decide)) (fun h => ?_) (enter_read ..)
    (enter_otherCell ..)) (slotWait_quiet ..).keeps
  exact enter_sound (fun _ => h.off (.inl empty)) fun reading => by
    rw [idle h.reads] at reading
    exact nomatch reading

theorem detectClose_kept (s : State) (k : Fin 4) : KeptBy .sound s (execDetectClose k s) := by
  refine .ite (.stay s) ?_
  have closed : CardQuiet s (s.modSlot k fun x => { x with detectClosed := true, openTimer := none }) := modSlot_quiet {}
  split
  · rename_i acts
    refine .event (closed.keeps.trans (startSettling_kept ?_))
    rw [(closed.slots k).state]
    exact acts.2
  · exact .event closed.keeps

/-- The switch opens while the card settles: the slot is EMPTY again. -/
theorem settlingOpens_kept {s : State} {k : Fin 4} (settling : (s.slots[k]'k.isLt).state = .settling) :
    Keeps .sound s (s.modSlot k fun x => { ({ x with detectClosed := false } : Slot).enter s.clock .empty with timer := none }) := by
  have idle (h : (s.slots[k]'k.isLt).Reads) : (s.slots[k]'k.isLt).read = none := h.idle (by rw [settling]; decide)
  refine enterIdle_kept idle (fun h => h.noOther (by rw [settling]; decide)) (fun h => ?_) (enter_read ..) (enter_otherCell ..)
  have sound : (({ (s.slots[k]'k.isLt) with detectClosed := false } : Slot).enter s.clock .empty).Sound :=
    enter_sound (fun _ => h.off (.inr (.inl settling))) fun reading => by
      rw [show ({ (s.slots[k]'k.isLt) with detectClosed := false } : Slot).read = none from idle h.reads] at reading
      exact nomatch reading
  exact ⟨sound.off, sound.reads⟩

/-- What the opening switch makes of a slot (R44). -/
def Slot.opens (x : Slot) (now : Word) : Slot :=
  let x := { x with detectClosed := false }
  match x.state with
  | .empty => x
  | .settling => { x.enter now .empty with timer := none }
  | _ => { x with openTimer := some ⟨now, 1⟩ }

theorem opens_kept (s : State) (k : Fin 4) : Keeps .sound s (s.modSlot k (·.opens s.clock)) := by
  by_cases settling : (s.slots[k]'k.isLt).state = .settling
  · have same : s.modSlot k (·.opens s.clock) =
        s.modSlot k fun x => { ({ x with detectClosed := false } : Slot).enter s.clock .empty with timer := none } := by
      unfold State.modSlot Slot.opens
      simp only [settling]
    rw [same]
    exact settlingOpens_kept settling
  · refine (modSlot_quiet ?_).keeps
    unfold Slot.opens
    dsimp only
    split
    · exact {}
    · contradiction
    · exact {}

theorem detectOpen_kept (s : State) (k : Fin 4) : KeptBy .sound s (execDetectOpen k s) := .ite (.event (opens_kept s k)) (.stay s)

/-- The cells of a list are all taken and answered. -/
theorem emptyList_kept (s : State) (l : Fin 11) (a : Answer) :
    Keeps .sound s ((s.intake[l]'l.isLt).foldl (fun t c => t.takeAnswer c a) s) := by
  have frame := foldl_takeAnswer_frame a (s.intake[l]'l.isLt) s
  have carries (cs : List (Fin 64)) (u : State) : Carries u (cs.foldl (fun t c => t.takeAnswer c a) u) := by
    induction cs generalizing u with
    | nil => exact {}
    | cons c cs ih =>
      refine Carries.trans (t := u.unlist c) {} ((setCell_carries _ taken_mem_wf).trans
        ((setCell_carries _ fun w => answered_mem_wf w a).trans (ih _)))
  exact { carries _ s with
    shared := by rw [frame]; exact {}
    slots := SlotChange.allows_of_slots (by rw [frame])
    accounts := fun _ h => h.takeAnswers (h.intake_nodup l) (fun c mem => mem_listed mem) a }

theorem removeCard_kept (s : State) (k : Fin 4) : Keeps .sound s (removeCard s k) := by
  unfold removeCard
  dsimp only
  have idle : ((answerOther (cutRead s k .removed) k .removed).slots[k]'k.isLt).read = none :=
    (answerOther_read ..).trans (cutRead_idle ..)
  have noOther := answerOther_otherCell (cutRead s k .removed) k .removed
  refine ((cutRead_kept s k .removed).trans (answerOther_kept _ k .removed)).trans ?_
  generalize answerOther (cutRead s k .removed) k .removed = u at idle noOther ⊢
  refine (emptyList_kept u (slotList k) (refuse .removed)).trans ?_
  have slots : ((u.intake[slotList k]'(Fin.isLt _)).foldl (fun t c => t.takeAnswer c (refuse .removed)) u).slots = u.slots := by
    rw [foldl_takeAnswer_frame]
  generalize (u.intake[slotList k]'(Fin.isLt _)).foldl (fun t c => t.takeAnswer c (refuse .removed)) u = v at slots ⊢
  rw [← slots] at idle noOther
  refine enterIdle_kept (fun _ => idle) (fun _ => noOther) (fun _ => ?_) (powerOff_read ..) (powerOff_otherCell ..)
  have sound := powerOff_sound v.clock .empty idle
  exact ⟨sound.off, sound.reads⟩

theorem removal_kept (s : State) (k : Fin 4) : KeptBy .sound s (execRemoval k s) := .ite (.event (removeCard_kept s k)) (.stay s)

theorem writeProtect_kept (s : State) (k : Fin 4) (level : Bool) : KeptBy .sound s (execWriteProtectChange k level s) :=
  .event (modSlot_quiet {}).keeps

/-- Power comes on in SETTLING or POWERING: the slot reads nothing and holds no release. -/
theorem startRamp_kept {s : State} {k : Fin 4}
    (state : (s.slots[k]'k.isLt).state = .settling ∨ (s.slots[k]'k.isLt).state = .powering) : Keeps .sound s (startRamp s k) := by
  refine Keeps.trans (enterOnWay_kept (.inl rfl) (fun h => h.idle ?_) (fun h => h.noRelease ?_) (enter_state ..) (powerOff_read ..)
    (powerOff_otherCell ..)) (slotWait_quiet ..).keeps
  · obtain on | on := state <;> rw [on] <;> decide
  · obtain on | on := state <;> rw [on] <;> decide

theorem settleTimer_kept (s : State) (k : Fin 4) : KeptBy .sound s (execSettleTimerExpiry k s) := by
  unfold execSettleTimerExpiry
  dsimp only
  split
  · rename_i due
    exact .event (startRamp_kept (.inl due.1))
  · exact .stay s

theorem offInterval_kept (s : State) (k : Fin 4) : KeptBy .sound s (execOffIntervalExpiry k s) := by
  unfold execOffIntervalExpiry
  dsimp only
  split
  · rename_i due
    exact .event (startRamp_kept (.inr due.1))
  · exact .stay s

theorem rampTimer_kept (s : State) (k : Fin 4) : KeptBy .sound s (execRampTimerExpiry k s) := by
  unfold execRampTimerExpiry
  dsimp only
  split
  · rename_i due
    refine .event (Keeps.trans (enterOnWay_kept (.inr (.inl rfl)) (fun h => h.idle ?_) (fun h => h.noRelease ?_) (enter_state ..)
      (enter_read ..) (enter_otherCell ..)) (identify_quiet ..).keeps)
    · rw [due.1]
      decide
    · rw [due.1]
      decide
  · exact .stay s

theorem identifyFails_kept {s : State} {k : Fin 4} (state : (s.slots[k]'k.isLt).state = .identifying) :
    Keeps .sound s (identifyFails s k) :=
  .ite (identify_quiet ..).keeps
    (toFault_kept (fun h => h.idle (by rw [state]; decide)) (fun h => h.noRelease (by rw [state]; decide)) _)

theorem identified_kept {s : State} {k : Fin 4} (state : (s.slots[k]'k.isLt).state = .identifying) (rec : CardRecord) :
    Keeps .sound s (identified s k rec) := by
  unfold identified
  generalize recorded : s.modSlot k _ = t
  have quiet : CardQuiet s t := recorded ▸ modSlot_quiet {}
  have still : (t.slots[k]'k.isLt).state = .identifying := (quiet.slots k).state.trans state
  exact quiet.keeps.trans (startSettle_kept (fun h => h.idle (by rw [still]; decide)) fun h => h.noRelease (by rw [still]; decide))

theorem identifyResponse_kept (s : State) (k : Fin 4) (bytes : List Byte) : KeptBy .sound s (execIdentifyResponse k bytes s) := by
  unfold execIdentifyResponse
  dsimp only
  split
  · rename_i due
    split
    · exact .stay s
    · exact .event (identified_kept due.1 _)
    · exact .event (identifyFails_kept due.1)
  · exact .stay s

theorem identifyTimeout_kept (s : State) (k : Fin 4) : KeptBy .sound s (execIdentifyTimeout k s) := by
  unfold execIdentifyTimeout
  dsimp only
  split
  · rename_i due
    exact .event (identifyFails_kept due.1)
  · exact .stay s

theorem setModeResponse_kept (s : State) (k : Fin 4) (bytes : List Byte) : KeptBy .sound s (execSetModeResponse k bytes s) := by
  refine .ite ?_ (.stay s)
  split
  · exact .stay s
  · exact .event (.ite (setModeAccepted_quiet ..).keeps (tierFails_kept ..))

theorem setModeTimeout_kept (s : State) (k : Fin 4) : KeptBy .sound s (execSetModeTimeout k s) :=
  .ite (.event (tierFails_kept ..)) (.stay s)

theorem statusResponse_kept (s : State) (k : Fin 4) (bytes : List Byte) : KeptBy .sound s (execStatusResponse k bytes s) := by
  refine .ite ?_ (.stay s)
  split
  · exact .stay s
  · split
    · rename_i trying
      exact .event (.ite (tierConfirmed_kept trying) (tierFails_kept ..))
    · exact .ite (.event (checkingOutcome_kept ..)) (.stay s)

theorem statusTimeout_kept (s : State) (k : Fin 4) : KeptBy .sound s (execStatusTimeout k s) :=
  .ite (.ite (.event (tierFails_kept ..)) (.ite (.event (checkingOutcome_kept ..)) (.stay s))) (.stay s)

theorem readBlocksResponse_kept (s : State) (k : Fin 4) (bytes : List Byte) : KeptBy .sound s (execReadBlocksResponse k bytes s) := by
  refine .ite ?_ (.stay s)
  split
  · exact .stay s
  · exact .event (.ite (goReceiving_kept ..) (goChecking_quiet ..).keeps)

theorem readBlocksTimeout_kept (s : State) (k : Fin 4) : KeptBy .sound s (execReadBlocksTimeout k s) :=
  .ite (.event (goChecking_quiet ..).keeps) (.stay s)

theorem blockReceived_kept (s : State) (k : Fin 4) (data : List Byte) (crcs : List Half) :
    KeptBy .sound s (execBlockReceived k data crcs s) :=
  .ite (.event (.ite (blockArrives_quiet ..).keeps (attemptFails_kept ..))) (.stay s)

theorem dataTimeout_kept (s : State) (k : Fin 4) : KeptBy .sound s (execDataTimeout k s) := by
  refine .ite (.event ?_) (.stay s)
  exact ((setSlot_quiet (countWindow_quiet _ true false)).trans ((sendCard_quiet ..).trans (goChecking_quiet ..))).keeps

theorem ledBlinkToggle_kept (s : State) (k : Fin 4) : KeptBy .sound s (execLedBlinkToggle k s) :=
  .ite (.event (setSlot_quiet {}).keeps) (.stay s)

/-! ## Orders (R81 to R94) -/

theorem freeOrder_spec {s : State} {n : Fin 48} (h : s.freeOrder = some n) : (s.orders[n]'n.isLt).order = none := by
  have free := List.find?_some h
  simpa [-Fin.getElem_fin] using free

theorem openPriced_kept (s : State) (tag : Word) (cls : OrderClass) (items : List Item) :
    Keeps μ s (openPriced s tag cls items).1 := by
  unfold openPriced
  dsimp only
  split
  · exact .refl s
  · split
    · exact .refl s
    · split
      · exact .refl s
      · rename_i n free _ _
        have orders : (s.claim (List.map (fun it => it.raster) (priced s.settings items))).orders = s.orders := by rw [claim_keeps]
        refine (claim_kept ..).trans (setOrder_moves _ (fun _ => ?_) fun _ o same => ?_)
        · rw [orders, freeOrder_spec free]
          exact .refl _
        · rw [← Option.some.inj same]
          exact fun held => nomatch held

theorem orderOpen_kept (s : State) (c : Fin 64) : Keeps μ s (orderOpen s c).1 := by
  unfold orderOpen
  dsimp only
  split
  · exact .refl s
  · split
    · exact .refl s
    · split
      · exact .refl s
      · split
        · exact .refl s
        · split
          · exact {}
          · exact openPriced_kept ..

theorem onOrder_kept {s : State} {c : Fin 64} {f : Handle → Fin 48 → Order → State × Answer}
    (h : ∀ hd n o, s.orderAt hd = some (n, o) → Keeps μ s (f hd n o).1) : Keeps μ s (onOrder s c f).1 := by
  unfold onOrder
  dsimp only
  split
  · exact .refl s
  · rename_i found
    exact h _ _ _ found

theorem dropCancelled_kept (s : State) (items : List Item) : Keeps μ s (dropCancelled s items).1 := dropRefs_kept _ s

theorem amended_kept {s : State} {n : Fin 48} {o : Order} (found : (s.orders[n]'n.isLt).order = some o)
    (other : o.state ≠ .authorizing) (items : List Item) : Keeps μ s (amended s n o items) := by
  unfold amended
  refine (dropCancelled_kept s items).trans ?_
  have still : (((dropCancelled s items).1).orders[n]'n.isLt).order = some o := by
    rw [show (dropCancelled s items).1.orders = s.orders from dropRefs_orders ..]
    exact found
  generalize dropCancelled s items = q at still
  exact .ite (voidOrClose_kept still other) (.ite (putOrder_kept (.of_other still other)) (putOrder_kept (.of_other still other)))

theorem orderAmend_kept (s : State) (c : Fin 64) : Keeps μ s (orderAmend s c).1 := by
  refine onOrder_kept fun h n o at_ => ?_
  dsimp only
  split
  · rename_i open_
    split
    · exact .refl s
    · split
      · exact .refl s
      · split
        · exact .refl s
        · refine amended_kept (orderAt_some at_).2.1 ?_ _
          obtain open_ | short := open_
          · rw [open_]
            decide
          · rw [short]
            decide
  · exact .refl s

/-- An OPEN order without a pay cell holds the one that was taken for it. -/
theorem holdPay_moves {s : State} {n : Fin 48} {o : Order} (found : (s.orders[n]'n.isLt).order = some o) (open_ : o.state = .opened)
    (c : Fin 64) : Moves μ [c] [] s (s.putOrder n { o with state := .authorizing, payCell := some c }) := by
  refine setOrder_moves s (fun sound => ?_) fun _ p same => ?_
  · have none_ : o.payCell = none := by
      cases held : o.payCell with
      | none => rfl
      | some d => exact nomatch open_.symm.trans (sound o found (by rw [held]; rfl))
    rw [found, Option.bind_some]
    show ([] ++ [c]).Perm ([c] ++ o.payCell.toList)
    rw [none_]
    exact .refl _
  · rw [← Option.some.inj same]
    exact fun _ => rfl

theorem orderPay_moves (s : State) (c : Fin 64) : Moves μ [c] [] s (orderPay s c) := by
  unfold orderPay
  dsimp only
  split
  · exact answer_moves ..
  · rename_i n o at_
    have found := (orderAt_some at_).2.1
    split
    · rename_i open_
      have other : o.state ≠ .authorizing := by
        rw [open_]
        decide
      split
      · exact ((putOrder_kept (.of_other found other)).beside [c]).trans (answer_moves ..)
      · exact (holdPay_moves found open_ c).trans (queueAction_kept ..)
    · exact answer_moves ..

theorem releaseWhere_state {s : State} {p : Reservation → Bool} {n : Fin 48} {o q : Order}
    (found : (s.orders[n]'n.isLt).order = some o) (left : ((releaseWhere s p).orders[n]'n.isLt).order = some q) :
    q.state = o.state := by
  have bare := congrArg OrderEntry.order (releaseWhere_bare s p n)
  unfold OrderEntry.bare at bare
  dsimp only at bare
  rw [found, left, Option.map_some, Option.map_some] at bare
  exact (congrArg Order.state (Option.some.inj bare) :)

/-- The orders of a handle are cancelled where they print. -/
theorem cancelPrinting_kept {s : State} {h : Handle} {n : Fin 48} {o : Order} (at_ : s.orderAt h = some (n, o))
    (other : o.state ≠ .authorizing) (f : Order → Order) (cell : ∀ o, (f o).payCell = o.payCell) : Keeps μ s (s.modOrder h f) := by
  unfold State.modOrder
  rw [at_]
  exact putOrder_kept (.of_other (orderAt_some at_).2.1 other (cell o))

theorem orderCancel_kept (s : State) (c : Fin 64) : Keeps μ s (orderCancel s c).1 := by
  refine onOrder_kept fun h n o at_ => ?_
  have found := (orderAt_some at_).2.1
  have released := releaseWhere_kept (μ := μ) s fun r => r.order == h
  have ends (other : o.state ≠ .authorizing) : Keeps μ s (match ((releaseWhere s fun r => r.order == h).orders[n]'n.isLt).order with
      | some o => (voidOrClose (releaseWhere s fun r => r.order == h) n o, doneWith [])
      | none => (releaseWhere s fun r => r.order == h, doneWith [])).1 := by
    split
    · rename_i q left
      exact released.trans (voidOrClose_kept left (by rw [releaseWhere_state found left]; exact other))
    · exact released
  dsimp only
  split
  · rename_i open_
    exact releaseReferences_kept (.of_other found (by rw [open_]; decide))
  · exact putOrder_kept (.of_same found)
  · exact putOrder_kept (.of_same found)
  · rename_i short
    exact ends (by rw [short]; decide)
  · rename_i paid
    exact ends (by rw [paid]; decide)
  · rename_i printing
    obtain ⟨q, still, bare⟩ := releaseWhere_orderAt at_ fun r => r.order == h
    have state : q.state = .printing := (congrArg Order.state bare :).trans printing
    have cancels : Keeps μ _ ((releaseWhere s fun r => r.order == h).modOrder h Order.cancelled) :=
      cancelPrinting_kept still (by rw [state]; decide) _ fun _ => rfl
    exact released.trans (cancels.trans (checkSettle_kept ..))
  · exact .refl s
  · exact .refl s
  · exact .refl s

theorem orderRetire_kept (s : State) (c : Fin 64) : Keeps μ s (orderRetire s c).1 := by
  refine onOrder_kept fun h n o at_ => ?_
  have found := (orderAt_some at_).2.1
  dsimp only
  split
  · rename_i closed
    refine setOrder_moves s (fun sound => ?_) fun _ _ same => nomatch same
    rw [found, Option.bind_some]
    cases held : o.payCell with
    | none => exact .refl _
    | some d => exact nomatch closed.symm.trans (sound o found (by rw [held]; rfl))
  · exact .refl s

theorem execOrderPay_kept (s : State) : KeptBy μ s (execOrderPay s) := by
  unfold execOrderPay
  split
  · exact .stay s
  · rename_i head
    exact .work ((take_moves s (mem_listed_of_head head)).trans (orderPay_moves ..))

/-! ## The Payment Line (R98 to R113) -/

theorem rxStartEdge_kept (s : State) : KeptBy μ s (execRxStartEdge s) := by
  refine .ite (.pay (PayKeeps.keeps (.mod (fun h => ?_) ?_))) (.stay s)
  · unfold Pay.sawStart
    split
    · exact ⟨h.txFifo, h.rxFifo, h.number, h.doubts⟩
    · exact h
  · unfold Pay.sawStart
    split <;> rfl

theorem rxFalseStart_kept (s : State) : KeptBy μ s (execRxFalseStart s) := by
  unfold execRxFalseStart
  split
  · exact .ite (.pay (PayKeeps.keeps .rest)) (.stay s)
  · exact .stay s

theorem execRxCharacter_kept (s : State) (data : Byte) (parity stop : Bool) : KeptBy μ s (execRxCharacter data parity stop s) := by
  unfold execRxCharacter
  split
  · exact .ite (.pay (rxCharacter_kept ..).keeps) (.stay s)
  · exact .stay s

theorem allSpace_kept (s : State) : KeptBy μ s (execAllSpaceFramingError s) := by
  unfold execAllSpaceFramingError
  split
  · exact .ite (.pay ((storeEntry_kept ..).trans .rest).keeps) (.stay s)
  · exact .stay s

theorem breakDetected_kept (s : State) : KeptBy μ s (execBreakDetected s) := by
  unfold execBreakDetected
  split
  · exact .ite (.pay ((storeEntry_kept ..).trans .rest).keeps) (.stay s)
  · exact .stay s

theorem breakHoldEnd_kept (s : State) : KeptBy μ s (execBreakHoldEnd s) := .ite (.pay (PayKeeps.keeps .rest)) (.stay s)

theorem txCharacterDone_kept (s : State) : KeptBy μ s (execTxCharacterDone s) := by
  unfold execTxCharacterDone
  split
  · rename_i b _
    refine .ite (.pay ?_) (.stay s)
    exact ((loopDelivered_kept s b).trans ((characterSent_kept (loopDelivered s b) s.clock b).trans (pumpTx_kept _))).keeps
  · exact .stay s

theorem terminalReady_kept (s : State) (level : Bool) : KeptBy μ s (execTerminalReadyChange level s) := by
  refine .pay (PayKeeps.keeps (.mod (fun h => ?_) ?_))
  · dsimp only
    split
    · exact takeReady_bounded _ _ ⟨h.txFifo, h.rxFifo, h.number, h.doubts⟩
    · exact ⟨h.txFifo, h.rxFifo, h.number, h.doubts⟩
  · unfold Pay.loopCell
    dsimp only
    split
    · rw [takeReady_loop]
    · rfl

theorem alert_kept (s : State) (level : Bool) : KeptBy μ s (execAlertChange level s) := by
  refine .pay (Keeps.trans (t := s.modPay fun p => { p with alertPin := level }) (PayKeeps.keeps .rest) ?_)
  exact .ite (takeAlert_kept ..).keeps (.refl _)

/-- A loopback holds the cell that was taken for it. -/
theorem takeLoopback_moves {s : State} (free : s.pay.loop = none) (c : Fin 64) : Moves μ [c] [] s (takeLoopback s c) := by
  refine .ite (answer_moves ..) (.ite (answer_moves ..) (modPay_moves s (fun h => ⟨h.txFifo, h.rxFifo, h.number, h.doubts⟩) ?_))
  rw [free]
  exact .refl _

theorem takesCells_free {p : Pay} (h : p.takesCells = true) : p.loop = none := by
  obtain ⟨-, free⟩ : p.line = .connected ∧ p.loop = none := by simpa [Pay.takesCells] using h
  exact free

theorem paymentLoopback_kept (s : State) : KeptBy μ s (execPaymentLoopback s) := by
  unfold execPaymentLoopback
  split
  · rename_i head
    split
    · rename_i free
      exact .pay ((take_moves s (mem_listed_of_head head)).trans (takeLoopback_moves (s := s.take _) (takesCells_free free) _))
    · exact .stay s
  · exact .stay s

/-- A loopback that ends gives up its cell and answers it. -/
theorem loopbackEnd_kept {s : State} {l : Loopback} (held : s.pay.loop.map Loopback.cell = some l.cell) :
    Keeps μ s (loopbackEnd s l) := by
  refine Moves.trans (modPay_moves s (fun h => ?_) ?_) (answer_moves ..)
  · have ready := takeReady_bounded s.clock s.pay.readyPin h
    exact ⟨Nat.zero_le _, Nat.zero_le _, ready.number, ready.doubts⟩
  · rw [held]
    exact .refl _

theorem check_cell (l : Loopback) (e : RxEntry) : (l.check e).cell = l.cell := rfl

theorem loopbackEntryTake_kept (s : State) : KeptBy μ s (execLoopbackEntryTake s) := by
  unfold execLoopbackEntryTake
  split
  · rename_i l e rest loop fifo
    have taken : Keeps μ s (s.modPay fun p => { p with rxFifo := rest, loop := some (l.check e) }) := by
      refine modPay_kept s (fun h => ⟨h.txFifo, ?_, h.number, h.doubts⟩) (by rw [loop]; exact congrArg some (check_cell l e))
      have fits := h.rxFifo
      rw [fifo] at fits
      exact Nat.le_of_succ_le fits
    exact .ite (.pay (.ite (taken.trans (loopbackEnd_kept rfl)) taken)) (.stay s)
  · exact .stay s

theorem loopbackTimeout_kept (s : State) : KeptBy μ s (execLoopbackTimeout s) := by
  unfold execLoopbackTimeout
  split
  · rename_i loop
    exact .ite (.pay (loopbackEnd_kept (by rw [loop]; rfl))) (.stay s)
  · exact .stay s

theorem resetCurrent_kept (s : State) : Keeps μ s (resetCurrent s).1 := by
  unfold resetCurrent
  split
  · exact .refl s
  · rename_i t current
    split
    · exact (endCurrent_kept s).keeps
    · rename_i origin _
      exact goToDoubt_kept current origin
    · dsimp only
      refine modPay_kept s fun h => ?_
      exact h.ends rfl

theorem resetLine_kept (s : State) : Keeps μ s (resetLine s).1 :=
  Keeps.trans (modPay_kept s fun h => ⟨Nat.zero_le _, Nat.zero_le _, h.number, h.doubts⟩) (resetCurrent_kept _)

theorem paymentReset_kept (s : State) : KeptBy μ s (execPaymentReset s) := by
  unfold execPaymentReset
  split
  · rename_i head
    exact .ite (.pay (served_kept s (mem_listed_of_head head) (resetLine_kept _) _)) (.stay s)
  · exact .stay s

/-! ## The Payment Engine (R114 to R130) -/

theorem popTo_bounded {p : Pay} (a : Assembly) (h : p.Bounded) : (p.popTo a).Bounded :=
  ⟨h.txFifo, by
    show (p.rxFifo.drop 1).length ≤ 16
    rw [List.length_drop]
    exact (Nat.sub_le ..).trans h.rxFifo, h.number, h.doubts⟩

theorem popTo_kept (s : State) (a : Assembly) : PayKeeps s (s.modPay fun p => p.popTo a) := .mod (popTo_bounded a) rfl

theorem assemblyEntryTake_kept (s : State) : KeptBy μ s (execAssemblyEntryTake s) := by
  unfold execAssemblyEntryTake
  split
  · exact .pay (popTo_kept ..).keeps
  · exact .stay s

theorem frameDropped_kept (s : State) : PayKeeps s (s.modPay Pay.frameDropped) := .rest

theorem frameDrop_kept (s : State) : KeptBy μ s (execFrameDrop s) := by
  unfold execFrameDrop
  split
  · exact .pay ((popTo_kept s asmHunt).trans (frameDropped_kept _)).keeps
  · exact .stay s

theorem interByteTimeout_kept (s : State) : KeptBy μ s (execInterByteTimeout s) :=
  .ite (.pay (frameDropped_kept s).keeps) (.stay s)

theorem takeBreak_kept (s : State) : Keeps μ s (takeBreak s) := by
  unfold takeBreak
  dsimp only
  generalize dropped : s.modPay _ = t
  have kept : Keeps μ s t := by
    rw [← dropped]
    refine modPay_kept s (fun h => ?_) (by split <;> rfl)
    have popped := popTo_bounded asmHunt h
    split
    · exact popped
    · exact ⟨popped.txFifo, popped.rxFifo, popped.number, popped.doubts⟩
  refine kept.trans ?_
  split
  · exact .refl t
  · rename_i c current
    split
    · refine modPay_kept t fun h => ?_
      exact h.ends rfl
    · rename_i origin
      exact .ite (goToDoubt_kept current origin) (.refl t)

theorem breakEntry_kept (s : State) : KeptBy μ s (execBreakEntry s) := by
  unfold execBreakEntry
  split
  · exact .pay (takeBreak_kept s)
  · exact .stay s

theorem takeMessage_kept (s : State) (n : Nat) (m : TermMsg) : KeptBy μ s (takeMessage s n m) :=
  .payWork ((popTo_kept s asmHunt).keeps.trans (handleMessage_kept ..))

theorem accepted_kept (s : State) : KeptBy μ s (execAccepted s) := by
  unfold execAccepted
  split
  · exact takeMessage_kept _ _ _
  · exact .stay s

theorem approved_kept (s : State) : KeptBy μ s (execApproved s) := by
  unfold execApproved
  split
  · exact takeMessage_kept _ _ _
  · exact .stay s

theorem declined_kept (s : State) : KeptBy μ s (execDeclined s) := by
  unfold execDeclined
  split
  · exact takeMessage_kept _ _ _
  · exact .stay s

theorem unknown_kept (s : State) : KeptBy μ s (execUnknown s) := by
  unfold execUnknown
  split
  · exact takeMessage_kept _ _ _
  · exact .stay s

theorem completed_kept (s : State) : KeptBy μ s (execCompleted s) := by
  unfold execCompleted
  split
  · exact takeMessage_kept _ _ _
  · exact .stay s

theorem refused_kept (s : State) : KeptBy μ s (execRefused s) := by
  unfold execRefused
  split
  · exact takeMessage_kept _ _ _
  · exact .stay s

theorem pong_kept (s : State) : KeptBy μ s (execPong s) := by
  unfold execPong
  split
  · exact takeMessage_kept _ _ _
  · exact .stay s

theorem actionStart_kept (s : State) : KeptBy μ s (execActionStart s) := by
  unfold execActionStart
  split
  · split
    · rename_i able
      have room : s.pay.doubts.length < 4 := by
        have acts := able.1
        simp only [State.mayAct, Bool.and_eq_true, decide_eq_true_eq] at acts
        exact acts.2
      exact .pay (.ite (doubtQuery_kept ..).keeps (startAction_kept room _ _).keeps)
    · exact .stay s
  · exact .stay s

theorem authorizeNoTerminal_kept (s : State) : KeptBy μ s (execAuthorizeNoTerminal s) := by
  unfold execAuthorizeNoTerminal
  split
  · rename_i a rest _
    have taken : PayKeeps s (s.modPay fun p => { p with queue := rest }) := .rest
    exact .ite (.pay (taken.keeps.trans (authOutcome_kept ..))) (.stay s)
  · exact .stay s

theorem answerTimeout_kept (s : State) : KeptBy μ s (execAnswerTimeout s) := by
  unfold execAnswerTimeout
  split
  · rename_i t current
    split
    · rename_i due
      exact .pay (queryOrDoubt_kept current due.1)
    · exact .stay s
  · exact .stay s

theorem customerLimit_kept (s : State) : KeptBy μ s (execCustomerLimitExpiry s) := by
  unfold execCustomerLimitExpiry
  split
  · rename_i t current
    split
    · rename_i due
      exact .pay (queryOrDoubt_kept current due.1)
    · exact .stay s
  · exact .stay s

theorem doubtQueryTimeout_kept (s : State) : KeptBy μ s (execDoubtQueryTimeout s) := by
  unfold execDoubtQueryTimeout
  split
  · refine .ite (.pay (modPay_kept s fun h => ?_)) (.stay s)
    exact h.ends rfl
  · exact .stay s

theorem pingTimer_kept (s : State) : KeptBy μ s (execPingTimerExpiry s) := by
  have again : PayKeeps s (s.modPay fun p => { p with pingTimer := some ⟨s.clock, p.values.pingInterval⟩ }) := .rest
  exact .ite (.pay (.ite (again.trans (sendFrame_kept ..)).keeps again.keeps)) (.stay s)

/-! ## The stations (R133 to R151, R178) -/

theorem abilityWord_kept (s : State) (n : Fin 3) (w : List Byte) : KeptBy μ s (execAbilityWord n w s) := by
  unfold execAbilityWord
  split
  · exact .work ((noteWord_kept s n).trans
      (.ite (linkDown_kept ..) (wordDown_kept fun t => abilityInExchange_kept t n _)))
  · exact .stay s

theorem linkIdleWord_kept (s : State) (n : Fin 3) (w : List Byte) : KeptBy μ s (execLinkIdleWord n w s) := by
  unfold execLinkIdleWord
  split
  · exact .event ((noteWord_kept s n).trans (.ite (modStation_kept _) (wordDown_kept fun t => unsettle_kept t n)))
  · exact .stay s

theorem damagedWord_kept (s : State) (n : Fin 3) (w : List Byte) : KeptBy μ s (execDamagedWord n w s) := by
  unfold execDamagedWord
  split
  · exact .work ((noteWord_kept s n).trans (.ite (damagedUp_kept ..) (wordDown_kept fun t => unsettle_kept t n)))
  · exact .stay s

theorem linkMessageWord_kept (s : State) (n : Fin 3) (w : List Byte) : KeptBy μ s (execLinkMessageWord n w s) := by
  unfold execLinkMessageWord
  split
  · exact .event ((noteWord_kept s n).trans (.ite (modStation_kept _) (wordDown_kept fun t => unsettle_kept t n)))
  · exact .stay s

theorem messageDrop_kept (s : State) (n : Fin 3) (w : List Byte) : KeptBy μ s (execMessageDrop n w s) := by
  unfold execMessageDrop
  split
  · exact .work ((noteWord_kept s n).trans (.ite (damagedUp_kept ..) (wordDown_kept fun t => unsettle_kept t n)))
  · exact .stay s

theorem messageArrives_kept {s : State} {n : Fin 3} {stale : Bool} {up : State} (h : Keeps μ s up) :
    KeptBy μ s (messageArrives s n stale up) :=
  .work (.ite h ((noteWord_kept s n).trans (wordDown_kept fun t => unsettle_kept t n)))

theorem page_kept (s : State) (n : Fin 3) (w : List Byte) : KeptBy μ s (execPage n w s) := by
  unfold execPage
  split
  · exact messageArrives_kept ((messageTaken_kept s n).trans (pageArrives_kept ..))
  · exact .stay s

theorem engineStatusWord_kept (s : State) (n : Fin 3) (w : List Byte) : KeptBy μ s (execEngineStatusWord n w s) := by
  unfold execEngineStatusWord
  split
  · exact messageArrives_kept ((messageTaken_kept s n).trans (statusArrives_kept ..))
  · exact .stay s

theorem lineRequest_kept (s : State) (n : Fin 3) (w : List Byte) : KeptBy μ s (execLineRequest n w s) := by
  unfold execLineRequest
  split
  · exact messageArrives_kept ((messageTaken_kept s n).trans (withCopy_kept fun c => lineRequested_kept ..))
  · exact .stay s

theorem lineAck_kept (s : State) (n : Fin 3) (w : List Byte) : KeptBy μ s (execLineAck n w s) := by
  unfold execLineAck
  split
  · exact messageArrives_kept ((messageTaken_kept s n).trans (withCopy_kept fun c => lineAcked_kept ..))
  · exact .stay s

theorem lineNak_kept (s : State) (n : Fin 3) (w : List Byte) : KeptBy μ s (execLineNak n w s) := by
  unfold execLineNak
  split
  · exact messageArrives_kept ((messageTaken_kept s n).trans (withCopy_kept fun c => lineNaked_kept ..))
  · exact .stay s

theorem panelDone_kept (s : State) (n : Fin 3) (w : List Byte) : KeptBy μ s (execPanelDone n w s) := by
  unfold execPanelDone
  split
  · exact messageArrives_kept ((messageTaken_kept s n).trans (withCopy_kept fun c => panelEnds_kept ..))
  · exact .stay s

theorem execCopyOk_kept (s : State) (n : Fin 3) (w : List Byte) : KeptBy μ s (execCopyOk n w s) := by
  unfold execCopyOk
  split
  · exact messageArrives_kept ((messageTaken_kept s n).trans (withCopy_kept fun c => copyOk_kept ..))
  · exact .stay s

theorem execCopyFault_kept (s : State) (n : Fin 3) (w : List Byte) : KeptBy μ s (execCopyFault n w s) := by
  unfold execCopyFault
  split
  · exact messageArrives_kept ((messageTaken_kept s n).trans (withCopy_kept fun c => copyFault_kept ..))
  · exact .stay s

theorem energyLoss_kept (s : State) (n : Fin 3) : KeptBy μ s (execEnergyLoss n s) :=
  .ite (.stay s) (.ite (.work (linkDown_kept ..)) (.ite (.event (modStation_kept s)) (.stay s)))

theorem abilitySendTimer_kept (s : State) (n : Fin 3) : KeptBy μ s (execAbilitySendTimer n s) :=
  .ite (.event (.ite (sendIdle_kept ..) (sendAbility_kept ..))) (.stay s)

theorem exchangeTimer_kept (s : State) (n : Fin 3) : KeptBy μ s (execExchangeTimerExpiry n s) :=
  .ite (.event (startExchange_kept ..)) (.stay s)

theorem restExpiry_kept (s : State) (n : Fin 3) : KeptBy μ s (execRestExpiry n s) := by
  unfold execRestExpiry
  dsimp only
  generalize rested : s.modStation n _ = t
  have kept : Keeps μ s t := rested ▸ modStation_kept s
  refine .ite (.event (kept.trans (.ite ((startExchange_kept ..).trans (sendAbility_kept ..)) ?_))) (.stay s)
  exact (modStation_kept t).trans ((sendAbility_kept ..).trans (answerStation_kept ..))

theorem pageTimeout_kept (s : State) (n : Fin 3) : KeptBy μ s (execPageTimeout n s) := by
  unfold execPageTimeout
  split
  · exact .ite (.work (pageMismatch_kept ..)) (.stay s)
  · exact .stay s

theorem lineAnswerTimeout_kept (s : State) (n : Fin 3) : KeptBy μ s (execLineAnswerTimeout n s) := by
  unfold execLineAnswerTimeout
  split
  · exact .ite (.work (failedAnswer_kept ..)) (.stay s)
  · exact .stay s

theorem lineHoldExpiry_kept (s : State) (n : Fin 3) : KeptBy μ s (execLineHoldExpiry n s) := by
  unfold execLineHoldExpiry
  split
  · exact .ite (.work (abortCopy_kept ..)) (.stay s)
  · exact .stay s

/-- A station that holds no cell holds the one that was taken for it. -/
theorem holdStation_moves {s : State} {n : Fin 3} (free : (s.stations[n]'n.isLt).takenCell = none) {c : Fin 64} {f : Station → Station}
    (taken : (f (s.stations[n]'n.isLt)).takenCell = some c := by exact rfl)
    (sequence : (f (s.stations[n]'n.isLt)).nextSeq = (s.stations[n]'n.isLt).nextSeq := by exact rfl)
    (reservation : (f (s.stations[n]'n.isLt)).account.reservation = (s.stations[n]'n.isLt).account.reservation := by exact rfl) :
    Moves μ [c] [] s (s.modStation n f) := by
  refine setStation_moves s (fun h => ?_) reservation ?_
  · unfold Station.InSequence
    rw [sequence]
    exact h
  · rw [taken, free]
    exact .refl _

theorem stationPower_moves {s : State} {n : Fin 3} (free : (s.stations[n]'n.isLt).takenCell = none) (c : Fin 64) :
    Moves μ [c] [] s (stationPower s n c) := by
  unfold stationPower
  dsimp only
  split
  · refine .ite ?_ (answer_moves ..)
    have sent : Keeps μ s (s.sendLink n 0x26 []) := sendLink_kept ..
    have holds : Moves μ [c] [] (s.sendLink n 0x26 []) ((s.sendLink n 0x26 []).modStation n fun x =>
        { x with takenCell := some c, wake := some .wake }) := holdStation_moves (s := s.sendLink n 0x26 []) free
    exact (sent.beside [c]).trans holds
  · split
    · exact answer_moves ..
    · exact answer_moves ..
    · have sent : Keeps μ s (s.sendLink n 0x25 []) := sendLink_kept ..
      exact ((sent.trans (modStation_kept _)).beside [c]).trans (answer_moves ..)
  · exact answer_moves ..

theorem stationHead_some {s : State} {n : Fin 3} {k : Kind} {c : Fin 64} (head : s.stationHead n k = some c) :
    (s.stations[n]'n.isLt).takenCell = none ∧ s.headOf (stationList n) k = some c := by
  unfold State.stationHead at head
  split at head
  · exact ⟨‹_›, head⟩
  · exact nomatch head

theorem execStationPower_kept (s : State) (n : Fin 3) : KeptBy μ s (execStationPower n s) := by
  unfold execStationPower
  split
  · rename_i head
    obtain ⟨free, head⟩ := stationHead_some head
    exact .event ((take_moves s (mem_listed_of_head head)).trans (stationPower_moves (s := s.take _) free _))
  · exact .stay s

theorem stationRelink_moves {s : State} {n : Fin 3} (free : (s.stations[n]'n.isLt).takenCell = none) (c : Fin 64) :
    Moves μ [c] [] s (stationRelink s n c) := by
  unfold stationRelink
  dsimp only
  have holds : Moves μ [c] [] s (s.modStation n fun x => { x with takenCell := some c }) := holdStation_moves free
  generalize s.modStation n _ = t at holds
  exact .ite (answer_moves ..)
    (holds.trans (Keeps.ite ((sendLink_kept ..).trans (modStation_kept _)) (linkDown_kept ..)))

theorem execStationRelink_kept (s : State) (n : Fin 3) : KeptBy μ s (execStationRelink n s) := by
  unfold execStationRelink
  split
  · rename_i head
    obtain ⟨free, head⟩ := stationHead_some head
    exact .work ((take_moves s (mem_listed_of_head head)).trans (stationRelink_moves (s := s.take _) free _))
  · exact .stay s

theorem wakeSent_kept (s : State) (n : Fin 3) : KeptBy μ s (execWakeSent n s) := by
  unfold execWakeSent
  split
  · exact .work (linkDown_kept ..)
  · exact .stay s

theorem profileRead_kept (n : Fin 3) (s : State) (c : Fin 64) : Keeps μ s (profileRead n s c).1 := by
  unfold profileRead
  dsimp only
  split
  · exact .refl s
  · split <;> exact .refl s

/-! ## The Dispatcher, the Render Engine and SETTINGS_READ -/

theorem copySelection_kept (s : State) (n : Fin 3) : KeptBy μ s (execCopySelection n s) :=
  .ite (.work (selectCopy_kept ..)) (.stay s)

theorem execCopyStart_kept (s : State) (n : Fin 3) : KeptBy μ s (execCopyStart n s) := by
  unfold execCopyStart
  split
  · exact .work (startCopy_kept ..)
  · exact .stay s

theorem execRenderGrant_kept (s : State) : KeptBy μ s (execRenderGrant s) := .ite (.event (renderGrant_kept s)) (.stay s)

theorem overcoat_kept (s : State) : KeptBy μ s (execOvercoatLineCompletion s) := by
  unfold execOvercoatLineCompletion
  split
  · exact .ite (.event (completeLine_kept ..)) (.stay s)
  · exact .stay s

theorem settingsRead_kept (s : State) (c : Fin 64) : Keeps μ s (settingsRead s c).1 := by
  unfold settingsRead
  split <;> exact .refl s

end Sys2Proof.Machine
end

