-- ==== Sys2Proof/Proofs/Steps.lean ====
section
/-! The steps: which commands change what the whole machine shares, and how; every other command keeps it with the
invariants of the memories, of staging, of the bounds, the reservations, the slots' power and the work cells. -/

namespace Sys2Proof.Machine

-- Checked one after another, as in the tests: a theorem checked alongside others holds its memory.
set_option Elab.async false

/-! ## The commands that keep what is shared -/

/-- The commands of time, CONTROL, resets, autoload, SETTINGS_WRITE and the store. -/
def changesShared : Instr → Bool
  | .clockTick | .controlReset _ | .controlIrqEnable _ | .partReset _ | .autoloadEnd _ | .autoloadTimerExpiry _
  | .settingsWrite | .settingsStore | .storePageAck | .storePollTimeout _ => true
  | .exchangeWrite offset _ _ => offset / 4 == 1
  | _ => false

/-- The commands of the slots, and the port's grants to the card channels, change slots; no other of those that keep what
is shared does. -/
def slotChange : Instr → SlotChange
  | .cardRead _ | .cardRelease _ | .slotReset _ | .detectClose _ | .detectOpen _ | .removal _ | .writeProtectChange _ _
  | .settleTimerExpiry _ | .offIntervalExpiry _ | .rampTimerExpiry _ | .identifyResponse _ _ | .identifyTimeout _
  | .setModeResponse _ _ | .setModeTimeout _ | .statusResponse _ _ | .statusTimeout _ | .readBlocksResponse _ _
  | .readBlocksTimeout _ | .blockReceived _ _ _ | .dataTimeout _ | .ledBlinkToggle _ | .portGrant => .sound
  | _ => .still

theorem still_of_changesShared {c : Instr} (h : changesShared c = true) : slotChange c = .still := by
  cases c <;> simp [changesShared] at h <;> rfl

theorem writesControl_of_resets {c : Instr} (h : resets c = true) : writesControl c = true := by
  cases c with
  | partReset powerOn => rfl
  | controlReset e => rfl
  | exchangeWrite offset v en =>
    obtain ⟨control, _⟩ : (offset / 4 = 1 ∧ en.getLsbD 0 = true) ∧ v.getLsbD 0 = true := by simpa [resets] using h
    simpa [writesControl] using control
  | _ => exact nomatch h

section words
variable {μ : SlotChange} (s : State)

theorem attentionRead_kept : KeptBy μ s (execAttentionRead s) :=
  .next (Keeps.after (t := { s.emit (.attention s.attention) with stray := false, started := false }) (notified_kept _ _))

theorem execStagingWrite_kept (offset : Nat) (words : List StagingWord) : KeptBy μ s (execStagingWrite offset words s) :=
  .ite (.event (stagingWrite_kept ..)) (.fault s _)

theorem execStagingRead_kept (offset count : Nat) : KeptBy μ s (execStagingRead offset count s) :=
  .ite (.event (stagingRead_kept ..)) (.fault s _)

theorem execRasterOpen_kept : KeptBy μ s (execRasterOpen s) := .ite (.stay s) (serve_kept rasterOpen_kept)

theorem execRasterSeal_kept : KeptBy μ s (execRasterSeal s) := .ite (.stay s) (serve_kept rasterSeal_kept)

theorem execPictureFree_kept : KeptBy μ s (execPictureFree s) := .ite (.stay s) (serve_kept pictureFree_kept)

theorem execPictureInfo_kept : KeptBy μ s (execPictureInfo s) := .ite (.stay s) (serve_kept pictureInfo_kept)

theorem execOrderOpen_kept : KeptBy μ s (execOrderOpen s) := serve_kept orderOpen_kept

theorem execOrderAmend_kept : KeptBy μ s (execOrderAmend s) := serveWork_kept orderAmend_kept

theorem execOrderCancel_kept : KeptBy μ s (execOrderCancel s) := serveWork_kept orderCancel_kept

theorem execOrderRetire_kept : KeptBy μ s (execOrderRetire s) := serve_kept orderRetire_kept

theorem execSettingsRead_kept : KeptBy μ s (execSettingsRead s) := serve_kept settingsRead_kept

theorem execProfileRead_kept (n : Fin 3) : KeptBy μ s (execProfileRead n s) :=
  .ite (serve_kept (profileRead_kept n)) (.stay s)

end words

/-- Every command but those of `changesShared` keeps what is shared and the invariants. -/
theorem exec_kept {c : Instr} (h : changesShared c = false) (s : State) : KeptBy (slotChange c) s (exec c s) := by
  cases c with
  | clockTick => exact nomatch h
  | controlReset e => exact nomatch h
  | controlIrqEnable e => exact nomatch h
  | partReset powerOn => exact nomatch h
  | autoloadEnd acked => exact nomatch h
  | autoloadTimerExpiry acked => exact nomatch h
  | settingsWrite => exact nomatch h
  | settingsStore => exact nomatch h
  | storePageAck => exact nomatch h
  | storePollTimeout acked => exact nomatch h
  | exchangeWrite offset v en => exact exchangeWrite_kept (by simpa [changesShared] using h) v en
  | attentionRead => exact attentionRead_kept s
  | attentionMaskWrite v en => exact .unmarked (t := attentionMaskWrite s v en) {}
  | post c => exact .unmarked (handWrite_kept ..)
  | withdraw c => exact .unmarked (handWrite_kept ..)
  | returnCell c => exact .unmarked (handWrite_kept ..)
  | changeMaskClear r v en => exact .unmarked (maskClear_kept ..)
  | orderChangeMapClear high v en => exact .unmarked (mapClear_kept ..)
  | stagingWrite offset words => exact execStagingWrite_kept s offset words
  | stagingRead offset count => exact execStagingRead_kept s offset count
  | portGrant => exact portGrant_kept s
  | pixelRunReturn => exact pixelRunReturn_kept s
  | cardRead k => exact cardRead_kept s k
  | cardRelease k => exact cardRelease_kept s k
  | slotReset k => exact slotReset_kept s k
  | rasterOpen => exact execRasterOpen_kept s
  | rasterSeal => exact execRasterSeal_kept s
  | pictureFree => exact execPictureFree_kept s
  | pictureInfo => exact execPictureInfo_kept s
  | orderOpen => exact execOrderOpen_kept s
  | orderAmend => exact execOrderAmend_kept s
  | orderPay => exact execOrderPay_kept s
  | orderCancel => exact execOrderCancel_kept s
  | orderRetire => exact execOrderRetire_kept s
  | stationPower n => exact execStationPower_kept s n
  | stationRelink n => exact execStationRelink_kept s n
  | profileRead n => exact execProfileRead_kept s n
  | paymentReset => exact paymentReset_kept s
  | paymentLoopback => exact paymentLoopback_kept s
  | settingsRead => exact execSettingsRead_kept s
  | detectClose k => exact detectClose_kept s k
  | detectOpen k => exact detectOpen_kept s k
  | removal k => exact removal_kept s k
  | writeProtectChange k level => exact writeProtect_kept s k level
  | settleTimerExpiry k => exact settleTimer_kept s k
  | offIntervalExpiry k => exact offInterval_kept s k
  | rampTimerExpiry k => exact rampTimer_kept s k
  | identifyResponse k bytes => exact identifyResponse_kept s k bytes
  | identifyTimeout k => exact identifyTimeout_kept s k
  | setModeResponse k bytes => exact setModeResponse_kept s k bytes
  | setModeTimeout k => exact setModeTimeout_kept s k
  | statusResponse k bytes => exact statusResponse_kept s k bytes
  | statusTimeout k => exact statusTimeout_kept s k
  | readBlocksResponse k bytes => exact readBlocksResponse_kept s k bytes
  | readBlocksTimeout k => exact readBlocksTimeout_kept s k
  | blockReceived k data crcs => exact blockReceived_kept s k data crcs
  | dataTimeout k => exact dataTimeout_kept s k
  | ledBlinkToggle k => exact ledBlinkToggle_kept s k
  | rxCharacter data parity stop => exact execRxCharacter_kept s data parity stop
  | breakDetected => exact breakDetected_kept s
  | breakHoldEnd => exact breakHoldEnd_kept s
  | txCharacterDone => exact txCharacterDone_kept s
  | terminalReadyChange level => exact terminalReady_kept s level
  | alertChange level => exact alert_kept s level
  | loopbackEntryTake => exact loopbackEntryTake_kept s
  | loopbackTimeout => exact loopbackTimeout_kept s
  | breakEntry => exact breakEntry_kept s
  | frameDrop => exact frameDrop_kept s
  | interByteTimeout => exact interByteTimeout_kept s
  | accepted => exact accepted_kept s
  | approved => exact approved_kept s
  | declined => exact declined_kept s
  | unknown => exact unknown_kept s
  | completed => exact completed_kept s
  | refused => exact refused_kept s
  | pong => exact pong_kept s
  | actionStart => exact actionStart_kept s
  | authorizeNoTerminal => exact authorizeNoTerminal_kept s
  | answerTimeout => exact answerTimeout_kept s
  | customerLimitExpiry => exact customerLimit_kept s
  | doubtQueryTimeout => exact doubtQueryTimeout_kept s
  | pingTimerExpiry => exact pingTimer_kept s
  | abilityWord n w => exact abilityWord_kept s n w
  | linkIdleWord n w => exact linkIdleWord_kept s n w
  | damagedWord n w => exact damagedWord_kept s n w
  | messageDrop n w => exact messageDrop_kept s n w
  | energyLoss n => exact energyLoss_kept s n
  | abilitySendTimer n => exact abilitySendTimer_kept s n
  | exchangeTimerExpiry n => exact exchangeTimer_kept s n
  | restExpiry n => exact restExpiry_kept s n
  | wakeSent n => exact wakeSent_kept s n
  | page n w => exact page_kept s n w
  | pageTimeout n => exact pageTimeout_kept s n
  | engineStatusWord n w => exact engineStatusWord_kept s n w
  | lineRequest n w => exact lineRequest_kept s n w
  | lineAck n w => exact lineAck_kept s n w
  | lineNak n w => exact lineNak_kept s n w
  | lineAnswerTimeout n => exact lineAnswerTimeout_kept s n
  | panelDone n w => exact panelDone_kept s n w
  | copyOk n w => exact execCopyOk_kept s n w
  | copyFault n w => exact execCopyFault_kept s n w
  | lineHoldExpiry n => exact lineHoldExpiry_kept s n
  | copyStart n => exact execCopyStart_kept s n
  | copySelection n => exact copySelection_kept s n
  | renderGrant => exact execRenderGrant_kept s
  | rxStartEdge => exact rxStartEdge_kept s
  | rxFalseStart => exact rxFalseStart_kept s
  | allSpaceFramingError => exact allSpace_kept s
  | assemblyEntryTake => exact assemblyEntryTake_kept s
  | linkMessageWord n w => exact linkMessageWord_kept s n w
  | overcoatLineCompletion => exact overcoat_kept s

/-! ## The other commands -/

/-- What a command of `changesShared` does with what is shared, and with the slots where start-up ends, before it goes on
with what keeps them. The cells of the list are left loose by it: that of a store that ends. -/
inductive SharedStep (s : State) : Instr → List (Fin 64) → State → Prop
  | idle (c) : SharedStep s c [] s
  | tick : SharedStep s .clockTick [] { s with clock := s.clock + 1 }
  | control {c} (e) (writes : writesControl c = true) : SharedStep s c [] { s with irqEnable := e }
  | wrote {p vals} (range : PartInRange p vals) : SharedStep s .settingsWrite [] { s with settings := s.settings.set p vals }
  | began {st} (image : st.image = s.settings) (free : s.store = none) (mem : st.cell ∈ s.listed) :
      SharedStep s .settingsStore [] { s.take st.cell with store := some st }
  | stored {c st store m M} (steps : stepsStore c = true) (running : s.store = some st)
      (image : ∀ st', store = some st' → st'.image = st.image) (canonical : s.eeprom.wf = true → m.wf = true)
      (cell : M ++ (store.map Store.cell).toList = [st.cell]) : SharedStep s c M { s with store := store, eeprom := m }
  | started {c settings source} (ends : endsAutoload c = true) (loading : s.autoload.isSome)
      (range : ∀ p : Fin 11, PartInRange p settings[p]) :
      SharedStep s c [] (slotsBegin { s with
        settings := settings, source := source, autoload := none, running := true, started := true })

/-- The command does its change of what is shared, and then keeps it. -/
def StepsBy (μ : SlotChange) (s : State) (c : Instr) (t : State) : Prop := ∃ M u, SharedStep s c M u ∧ Moves μ M [] u t

theorem StepsBy.trans {μ : SlotChange} {s t u : State} {c : Instr} (h : StepsBy μ s c t) (k : Keeps μ t u) : StepsBy μ s c u := by
  obtain ⟨M, v, step, moves⟩ := h
  exact ⟨M, v, step, moves.trans k⟩

theorem StepsBy.idle {μ : SlotChange} {s t : State} {c : Instr} (h : Keeps μ s t) : StepsBy μ s c t := ⟨[], s, .idle c, h⟩

section special
variable (s : State)

theorem putSettings_kept {c : Fin 64} (mem : c ∈ s.listed) (p : Fin 11) (v : Settings) (a : Answer) :
    Keeps .still { s with settings := v }
      ((if p = 1 then handLine { s.take c with settings := v } else { s.take c with settings := v }).answer c a) :=
  have put : Keeps .still ({ s with settings := v }.take c)
      (if p = 1 then handLine { s.take c with settings := v } else { s.take c with settings := v }) :=
    .ite (handLine_kept _).keeps (.refl _)
  served_kept { s with settings := v } mem put a

theorem settingsWrite_step {c : Fin 64} (mem : c ∈ s.listed) :
    StepsBy .still s .settingsWrite ((settingsWrite (s.take c) c).1.answer c (settingsWrite (s.take c) c).2) := by
  cases asked : requestedPart ((s.take c).cells[c]'c.isLt) with
  | error a =>
    rw [settingsWrite_error asked]
    exact .idle (takeAnswer_kept s mem _)
  | ok p =>
    cases listed : firstBadEnum (partSpec p) (writtenValues (s.take c) c p) with
    | some i =>
      rw [settingsWrite_unlisted asked listed]
      exact .idle (takeAnswer_kept s mem _)
    | none =>
      rw [settingsWrite_listed asked rfl listed rfl]
      have range := clampFields_inRange p (readFields_length ..) listed
      exact ⟨_, _, .wrote range, putSettings_kept s mem ..⟩

theorem settingsStore_step {c : Fin 64} (mem : c ∈ s.listed) : StepsBy .still s .settingsStore (settingsStore (s.take c) c) := by
  unfold settingsStore
  split
  · exact .idle (takeAnswer_kept s mem _)
  · rename_i free
    have none : s.store = none := Option.not_isSome_iff_eq_none.mp free
    exact ⟨_, _, .began (st := ⟨c, s.settings, 4, false, ⟨s.clock, 10⟩⟩) rfl none mem, emit_kept ..⟩

theorem startPage_step {c : Instr} (steps : stepsStore c = true) {st next : Store} (running : s.store = some st)
    (image : next.image = st.image) (cell : next.cell = st.cell) {m : Mem} (canonical : s.eeprom.wf = true → m.wf = true) :
    StepsBy .still s c (startPage { s with eeprom := m } next) :=
  have begun : SharedStep s c [] { s with store := some { next with poll := ⟨s.clock, 10⟩ }, eeprom := m } :=
    .stored steps running (fun _ same => Option.some.inj same ▸ image) canonical (by rw [← cell]; rfl)
  ⟨_, _, begun, {}⟩

theorem pageAcked_step {st : Store} (running : s.store = some st) : StepsBy .still s .storePageAck (pageAcked s st) := by
  have canonical (w : s.eeprom.wf = true) := Mem.writeBytes_wf w st.page st.pageBytes
  unfold pageAcked
  dsimp only
  split
  · exact ⟨_, _, .stored (store := none) rfl running (fun _ same => nomatch same) canonical rfl, answer_moves ..⟩
  · split
    · exact startPage_step s (c := .storePageAck) (next := { st with page := 0, header := true }) rfl running rfl rfl canonical
    · exact startPage_step s (c := .storePageAck) (next := { st with page := st.pageEnd }) rfl running rfl rfl canonical

theorem storeStops_step {st : Store} (running : s.store = some st) (acked : Nat) :
    StepsBy .still s (.storePollTimeout acked) (storeStops s st acked) :=
  ⟨_, _, .stored (store := none) rfl running (fun _ same => nomatch same) (fun w => Mem.writeBytes_wf w _ _) rfl,
    answer_moves ..⟩

theorem controlWrite_step {c : Instr} (writes : writesControl c = true) (e : Bool) : StepsBy .still s c (controlWrite s false e) :=
  ⟨_, _, .control e writes, notified_kept ..⟩

/-! ### The end of start-up (R184, R189) -/

theorem readParts_length {ps : List (Fin 11)} {bytes : List Byte} : ∀ q ∈ readParts ps bytes, q.2.length = (partSpec q.1).length := by
  induction ps generalizing bytes with
  | nil => exact fun q mem => nomatch mem
  | cons p ps ih => exact List.forall_mem_cons.mpr ⟨readFields_length .., ih⟩

theorem loadSection_inRange {m : Mem} {acked off : Nat} {sec : Fin 5} {parts : List (Fin 11 × List Int)}
    (h : loadSection m acked off sec = some parts) : ∀ q ∈ parts, PartInRange q.1 q.2 := by
  unfold loadSection at h
  dsimp only at h
  split at h
  · rename_i good
    obtain ⟨_, _, _, listed⟩ := good
    rw [← Option.some.inj h]
    intro q mem
    obtain ⟨p, read, rfl⟩ := List.mem_map.mp mem
    refine clampFields_inRange p.1 ?_ (by simpa using List.all_eq_true.mp listed p read)
    exact readParts_length p read
  · exact nomatch h

theorem foldl_set_inRange {parts : List (Fin 11 × List Int)} (h : ∀ q ∈ parts, PartInRange q.1 q.2) {v : Settings}
    (range : ∀ p : Fin 11, PartInRange p (v[p]'p.isLt)) (p : Fin 11) :
    PartInRange p ((parts.foldl (fun st q => st.set q.1 q.2) v)[p]'p.isLt) := by
  induction parts generalizing v with
  | nil => exact range p
  | cons q parts ih =>
    refine ih (fun r mem => h r (List.mem_cons_of_mem _ mem)) fun r => ?_
    rw [vector_set_get]
    split
    · rename_i same
      exact same ▸ h q (List.mem_cons_self ..)
    · exact range r

theorem loadSections_inRange (m : Mem) (acked : Nat) (secs : List (Fin 5)) (off : Nat) {r : Settings × Option (Fin 5)}
    (range : ∀ p : Fin 11, PartInRange p (r.1[p]'p.isLt)) (p : Fin 11) :
    PartInRange p ((loadSections m acked secs off r).1[p]'p.isLt) := by
  induction secs generalizing off r with
  | nil => exact range p
  | cons sec secs ih =>
    rw [loadSections]
    cases loaded : loadSection m acked off sec with
    | some parts => exact ih _ (foldl_set_inRange (loadSection_inRange loaded) range)
    | none => exact range p

theorem autoloaded_inRange (m : Mem) (acked : Nat) (p : Fin 11) : PartInRange p ((autoloaded m acked).1[p]'p.isLt) := by
  unfold autoloaded
  dsimp only
  split
  · exact loadSections_inRange _ _ _ _ defaultSettings_inRange p
  · exact defaultSettings_inRange p

theorem lineBegins_kept : Keeps .still s (lineBegins s) := modPay_kept s fun h => ⟨h.txFifo, h.rxFifo, h.number, h.doubts⟩

theorem autoloadEnd_step {c : Instr} (ends : endsAutoload c = true) (loading : s.autoload.isSome) (acked : Nat) :
    StepsBy .still s c (autoloadEnd s acked) :=
  ⟨_, _, .started ends loading (autoloaded_inRange s.eeprom acked),
    (lineBegins_kept _).trans (foldl_kept (fun u n => sendAbility_kept u n) _ _)⟩

/-! ### The commands -/

theorem event_step {c : Instr} {t u : State} (h : StepsBy .still s c t) (next : event s t = .next u) : StepsBy .still s c u := by
  cases next
  exact h.trans (finish_kept s t)

theorem idle_step {c : Instr} {u : State} (next : (.next s : Host.Outcome State Fault Refusal) = .next u) : StepsBy .still s c u := by
  cases next
  exact .idle (.refl s)

/-- A command of `changesShared` that does not reset the part is its change of what is shared, and then keeps it. -/
theorem exec_sharedStep {c : Instr} (shared : changesShared c = true) (on : resets c = false) {t : State}
    (next : exec c s = .next t) : StepsBy .still s c t := by
  cases c with
  | clockTick =>
    cases next
    exact ⟨_, _, .tick, Keeps.refl _⟩
  | controlReset e => exact nomatch on
  | partReset powerOn => exact nomatch on
  | controlIrqEnable e =>
    cases next
    exact controlWrite_step s rfl e
  | exchangeWrite offset v en =>
    have control : offset / 4 * 4 = 4 := by
      have word : offset / 4 = 1 := by simpa [changesShared] using shared
      omega
    have write : exec (.exchangeWrite offset v en) s = .next (if en.getLsbD 0 then controlWrite s (v.getLsbD 0) (v.getLsbD 1) else s) := by
      show execExchangeWrite offset v en s = _
      unfold execExchangeWrite wordWrite
      rw [if_pos (by omega), if_pos control, if_pos control]
    rw [write] at next
    cases next
    split
    · rename_i enabled
      have clear : v.getLsbD 0 = false := by simpa [resets, enabled, show offset / 4 = 1 by omega] using on
      rw [clear]
      exact controlWrite_step s (by simp [writesControl, enabled, show offset / 4 = 1 by omega]) _
    · exact .idle (.refl s)
  | autoloadEnd acked =>
    replace next : execAutoloadEnd acked s = .next t := next
    unfold execAutoloadEnd at next
    split at next
    · rename_i loading
      exact event_step s (autoloadEnd_step s rfl (by rw [loading]; rfl) acked) next
    · exact idle_step s next
  | autoloadTimerExpiry acked =>
    replace next : execAutoloadTimerExpiry acked s = .next t := next
    unfold execAutoloadTimerExpiry at next
    split at next
    · rename_i loading
      split at next
      · exact event_step s (autoloadEnd_step s rfl (by rw [loading]; rfl) acked) next
      · exact idle_step s next
    · exact idle_step s next
  | settingsWrite =>
    replace next : serve s 10 .settingsWrite settingsWrite = .next t := next
    unfold serve at next
    split at next
    · exact idle_step s next
    · rename_i head
      exact event_step s (settingsWrite_step s (mem_listed_of_head head)) next
  | settingsStore =>
    replace next : execSettingsStore s = .next t := next
    unfold execSettingsStore at next
    split at next
    · rename_i head
      exact event_step s (settingsStore_step s (mem_listed_of_head head)) next
    · exact idle_step s next
  | storePageAck =>
    replace next : execStorePageAck s = .next t := next
    unfold execStorePageAck at next
    split at next
    · rename_i running
      exact event_step s (pageAcked_step s running) next
    · exact idle_step s next
  | storePollTimeout acked =>
    replace next : execStorePollTimeout acked s = .next t := next
    unfold execStorePollTimeout at next
    split at next
    · rename_i running
      split at next
      · exact event_step s (storeStops_step s running acked) next
      · exact idle_step s next
    · exact idle_step s next
  | _ => exact nomatch shared

/-- A reset leaves the part as `partReset` says, with what was put out before it. -/
theorem exec_resets {c : Instr} (reset : resets c = true) {t : State} (next : exec c s = .next t) :
    ∃ powerOn sent, t = { partReset s powerOn with sent := sent } := by
  cases c with
  | partReset powerOn =>
    cases next
    exact ⟨powerOn, s.sent, rfl⟩
  | controlReset e =>
    cases next
    exact ⟨false, _, controlWrite_reset s e⟩
  | exchangeWrite offset v en =>
    obtain ⟨⟨word, enabled⟩, bit⟩ : (offset / 4 = 1 ∧ en.getLsbD 0 = true) ∧ v.getLsbD 0 = true := by
      simpa [resets] using reset
    have write : exec (.exchangeWrite offset v en) s = .next (controlWrite s true (v.getLsbD 1)) := by
      show execExchangeWrite offset v en s = _
      unfold execExchangeWrite wordWrite
      rw [if_pos (by omega), if_pos (by omega), if_pos (by omega), if_pos enabled, bit]
    rw [write] at next
    cases next
    exact ⟨false, _, controlWrite_reset s _⟩
  | _ => exact nomatch reset

/-- Every command resets the part, or changes what is shared in its own way and then keeps it. -/
theorem exec_cases {c : Instr} {t : State} (next : exec c s = .next t) :
    (resets c = true ∧ ∃ powerOn sent, t = { partReset s powerOn with sent := sent }) ∨
    (resets c = false ∧ StepsBy (slotChange c) s c t) := by
  cases reset : resets c with
  | true => exact .inl ⟨rfl, exec_resets s reset next⟩
  | false =>
    refine .inr ⟨rfl, ?_⟩
    cases shared : changesShared c with
    | false => exact .idle (exec_kept shared s t next)
    | true => exact still_of_changesShared shared ▸ exec_sharedStep s shared reset next

end special

/-! ## What the whole machine shares (O3) -/

/-- Settles O3: each change of what is shared belongs to its commands. -/
theorem whichCommandsChangeSharedState : Obligations.WhichCommandsChangeSharedState := by
  unfold Obligations.WhichCommandsChangeSharedState
  intro c s t next
  obtain ⟨reset, powerOn, sent, rfl⟩ | ⟨_, _, u, step, kept⟩ := exec_cases s next
  · have not_kept {p : Prop} (h : resets c = false) : p := by simp [reset] at h
    refine ⟨rfl, rfl, fun _ => not_kept, fun h => ?_, fun _ _ => not_kept, fun _ idle => ?_, fun _ => not_kept⟩
    · simp [writesControl_of_resets reset] at h
    · exact partReset_eeprom_idle s powerOn (idle.resolve_left fun h => not_kept h)
  · have shared := kept.shared
    rw [shared.pending, shared.msiAllowed, shared.clock, shared.irqEnable, shared.settings, shared.eeprom, shared.source]
    cases step with
    | idle => exact ⟨rfl, rfl, fun _ _ => rfl, fun _ => rfl, fun _ _ _ => rfl, fun _ _ => rfl, fun _ _ => rfl⟩
    | tick =>
      exact ⟨rfl, rfl, fun other => absurd rfl other, fun _ => rfl, fun _ _ _ => rfl, fun _ _ => rfl, fun _ _ => rfl⟩
    | control e writes =>
      refine ⟨rfl, rfl, fun _ _ => rfl, fun other => ?_, fun _ _ _ => rfl, fun _ _ => rfl, fun _ _ => rfl⟩
      exact absurd writes (by simp [other])
    | wrote =>
      exact ⟨rfl, rfl, fun _ _ => rfl, fun _ => rfl, fun other => absurd rfl other, fun _ _ => rfl, fun _ _ => rfl⟩
    | began => exact ⟨rfl, rfl, fun _ _ => rfl, fun _ => rfl, fun _ _ _ => rfl, fun _ _ => rfl, fun _ _ => rfl⟩
    | stored steps =>
      refine ⟨rfl, rfl, fun _ _ => rfl, fun _ => rfl, fun _ _ _ => rfl, fun other => ?_, fun _ _ => rfl⟩
      exact absurd steps (by simp [other])
    | started ends =>
      rw [slotsBegin_eq]
      have not_other {p : Prop} (other : endsAutoload c = false) : p := absurd ends (by simp [other])
      exact ⟨rfl, rfl, fun _ _ => rfl, fun _ => rfl, fun _ other _ => not_other other, fun _ _ => rfl,
        fun other _ => not_other other⟩

/-! ## The memories, staging and the bounds (O4, O5, O7) -/

theorem SharedStep.carries {s u : State} {c : Instr} {M : List (Fin 64)} (h : SharedStep s c M u) : Carries s u := by
  cases h with
  | began _ _ mem =>
    have taken := (take_moves (μ := .still) s mem).toCarries
    exact ⟨taken.dram, taken.cells, fun h => ⟨h.rising, h.pages, h.owned⟩, taken.pay, taken.sequence, taken.counts, taken.agree⟩
  | started =>
    rw [slotsBegin_eq]
    exact {}
  | _ => exact {}

/-- The parts of an invariant that a part reset meets whatever stood before it. -/
theorem partReset_carries (s : State) (powerOn : Bool) (sent : List Output) : Carries s { partReset s powerOn with sent := sent } where
  dram w := by
    show Mem.wf (if powerOn then [] else s.dram) = true
    split
    · rfl
    · exact w
  cells c _ := reset_memoriesCanonical.cells c
  staging _ := ⟨reset_stagingSound.rising, reset_stagingSound.pages, reset_stagingSound.owned⟩
  pay _ := ⟨Nat.zero_le _, Nat.zero_le _, reset_withinBounds.number, Nat.zero_le _⟩
  sequence n _ := reset_withinBounds.sequence n
  counts _ := reset_withinBounds.counts
  agree _ := reset_reservationsAgree

theorem exec_carries {c : Instr} {s t : State} (next : exec c s = .next t) : Carries s t := by
  obtain ⟨_, powerOn, sent, rfl⟩ | ⟨_, _, u, step, kept⟩ := exec_cases s next
  · exact partReset_carries ..
  · exact step.carries.trans kept.toCarries

theorem eepromAtReset_wf {s : State} (w : s.eeprom.wf = true) : s.eepromAtReset.wf = true := by
  unfold State.eepromAtReset
  split
  · exact Mem.writeBytes_wf w _ _
  · exact w

theorem exec_eeprom_wf {c : Instr} {s t : State} (next : exec c s = .next t) (w : s.eeprom.wf = true) : t.eeprom.wf = true := by
  obtain ⟨_, powerOn, sent, rfl⟩ | ⟨_, _, u, step, kept⟩ := exec_cases s next
  · exact eepromAtReset_wf w
  · rw [kept.shared.eeprom]
    cases step with
    | stored _ _ _ canonical => exact canonical w
    | started => rwa [slotsBegin_eq]
    | _ => exact w

/-- A step is idle, or its command with the rest of the queue waiting. -/
theorem step_cases {s t : State} (next : step s = .next t) :
    t = s ∨ ∃ c rest, exec c { s with pending := rest } = .next t := by
  unfold step at next
  split at next
  · exact .inl (Host.Outcome.next.inj next).symm
  · exact .inr ⟨_, _, next⟩

/-- A property that every command keeps, and that does not speak of the queue, is kept by every step. -/
theorem step_keeps {P : State → Prop} (queue : ∀ s rest, P s → P { s with pending := rest })
    (kept : ∀ c s t, exec c s = .next t → P s → P t) {s t : State} (next : step s = .next t) (h : P s) : P t := by
  obtain rfl | ⟨c, rest, next⟩ := step_cases next
  · exact h
  · exact kept c _ t next (queue s rest h)

/-- Settles O4: the cells and the DRAM as every command carries them, the EEPROM by the store. -/
theorem everyStepKeepsTheMemoriesCanonical : Obligations.EveryStepKeepsTheMemoriesCanonical := by
  unfold Obligations.EveryStepKeepsTheMemoriesCanonical
  intro s t canonical next
  refine step_keeps (fun s _ h => ⟨h.dram, h.eeprom, h.cells⟩) (fun c s t next h => ?_) next canonical
  have carried := exec_carries next
  exact ⟨carried.dram h.dram, exec_eeprom_wf next h.eeprom, fun c => carried.cells c (h.cells c)⟩

/-- Settles O5. -/
theorem everyStepKeepsTheStagingSound : Obligations.EveryStepKeepsTheStagingSound := by
  unfold Obligations.EveryStepKeepsTheStagingSound
  intro s t sound next
  exact step_keeps (fun s _ h => ⟨h.rising, h.pages, h.owned⟩) (fun c s t next => (exec_carries next).staging) next sound

/-! ### The settings (R183, R186) -/

theorem exec_settingsInRange {c : Instr} {s t : State} (next : exec c s = .next t) (h : SettingsInRange s) : SettingsInRange t := by
  obtain ⟨_, powerOn, sent, rfl⟩ | ⟨_, _, u, step, kept⟩ := exec_cases s next
  · exact ⟨reset_settingsInRange.inForce, fun _ same => nomatch same⟩
  · suffices SettingsInRange u by
      refine ⟨fun p => ?_, fun st => ?_⟩
      · rw [kept.shared.settings]
        exact this.inForce p
      · rw [kept.shared.store]
        exact this.stored st
    cases step with
    | idle => exact h
    | tick => exact ⟨h.inForce, h.stored⟩
    | control => exact ⟨h.inForce, h.stored⟩
    | wrote range => exact ⟨fun p => by
        rw [vector_set_get]
        split
        · rename_i same
          exact same ▸ range
        · exact h.inForce p, h.stored⟩
    | began image =>
      refine ⟨h.inForce, fun st same p => ?_⟩
      rw [← Option.some.inj same, image]
      exact h.inForce p
    | stored _ running image =>
      refine ⟨h.inForce, fun st same p => ?_⟩
      rw [image st same]
      exact h.stored _ running p
    | started _ _ range =>
      rw [slotsBegin_eq]
      exact ⟨range, h.stored⟩

/-! ### The slots' power (R43, R45, R53, R57) -/

theorem resetSlot_sound (closed protect : Bool) : (resetSlot closed protect).Sound :=
  ⟨fun _ => ⟨rfl, rfl, rfl⟩, fun reading => nomatch reading⟩

theorem partReset_slot_sound (s : State) (powerOn : Bool) (k : Fin 4) : ((partReset s powerOn).slots[k]'k.isLt).Sound := by
  rw [partReset_slot]
  exact resetSlot_sound ..

theorem partReset_slot_empty (s : State) (powerOn : Bool) (k : Fin 4) : ((partReset s powerOn).slots[k]'k.isLt).state = .empty := by
  rw [partReset_slot]
  rfl

/-- The start-up's end takes an EMPTY slot to SETTLING, or leaves it. -/
theorem begins_sound {x : Slot} (sound : x.Sound) (empty : x.state = .empty) (now : Word) : (x.begins now).Sound := by
  unfold Slot.begins
  split
  · have settling := enter_sound (st := .settling) (now := now) (fun _ => sound.off (.inl empty)) fun reading => by
      obtain h | h := sound.reads reading
      · exact nomatch empty.symm.trans h
      · exact nomatch empty.symm.trans h
    exact ⟨settling.off, settling.reads⟩
  · exact sound

theorem exec_slots_sound {c : Instr} {s t : State} (next : exec c s = .next t)
    (sound : ∀ k : Fin 4, (s.slots[k]'k.isLt).Sound)
    (resting : s.autoload.isSome → ∀ k : Fin 4, (s.slots[k]'k.isLt).state = .empty) (k : Fin 4) : (t.slots[k]'k.isLt).Sound := by
  obtain ⟨_, powerOn, sent, rfl⟩ | ⟨_, _, u, step, kept⟩ := exec_cases s next
  · exact partReset_slot_sound s powerOn k
  · refine kept.sound.slots k ?_
    cases step with
    | started _ loading =>
      rw [slotsBegin_eq, tab_get]
      exact begins_sound (sound k) (resting loading k) _
    | _ => exact sound k

/-! ### Slots while the part is STARTING (R57) -/

/-- The part is STARTING, with every slot EMPTY and reading nothing. -/
structure Resting (s : State) : Prop where
  starting : s.running = false
  empty (k : Fin 4) : (s.slots[k]'k.isLt).state = .empty
  idle (k : Fin 4) : (s.slots[k]'k.isLt).read = none

/-- Where the command is carried out, every slot is EMPTY after it. -/
def RestsBy (o : Host.Outcome State Fault Refusal) : Prop := ∀ t, o = .next t → ∀ k : Fin 4, (t.slots[k]'k.isLt).state = .empty

theorem RestsBy.event {s t : State} (empty : ∀ k : Fin 4, (t.slots[k]'k.isLt).state = .empty) : RestsBy (event s t) := by
  intro u same k
  cases same
  rw [finish_slots]
  exact empty k

theorem RestsBy.ite {p : Prop} [Decidable p] {a b : Host.Outcome State Fault Refusal} (h : RestsBy a) (k : RestsBy b) :
    RestsBy (if p then a else b) := by
  split
  · exact h
  · exact k

theorem headOf_starting {s : State} (h : s.running = false) (l : Fin 11) (k : Kind) : s.headOf l k = none := by
  unfold State.headOf
  split
  · rw [h]
    exact if_neg (by simp)
  · rfl

theorem CardQuiet.empty {s t : State} (quiet : CardQuiet s t) (empty : ∀ k : Fin 4, (s.slots[k]'k.isLt).state = .empty)
    (k : Fin 4) : (t.slots[k]'k.isLt).state = .empty := (quiet.slots k).state.trans (empty k)

theorem CardQuiet.idle {s t : State} (quiet : CardQuiet s t) {k : Fin 4} (idle : (s.slots[k]'k.isLt).read = none) :
    (t.slots[k]'k.isLt).read = none := by
  have reads := (quiet.slots k).reads
  rw [idle] at reads
  exact Option.isSome_eq_false_iff.mp reads |> Option.isNone_iff_eq_none.mp

theorem pump_idle {s : State} {k : Fin 4} (idle : (s.slots[k]'k.isLt).read = none) : pump s k = s := by
  unfold pump
  rw [idle]

theorem pumpIfEmpty_idle {s : State} {k : Fin 4} (idle : (s.slots[k]'k.isLt).read = none) : pumpIfEmpty s k = s := by
  unfold pumpIfEmpty
  rw [idle]

theorem goReceiving_idle {s : State} {k : Fin 4} (idle : (s.slots[k]'k.isLt).read = none) : CardQuiet s (goReceiving s k) := by
  have quiet : CardQuiet s ((s.slotNoWait k).modRead k fun r => { r with phase := .receiving }) :=
    (slotNoWait_quiet s k).trans (modRead_quiet _ k)
  unfold goReceiving
  rw [pumpIfEmpty_idle (quiet.idle idle)]
  exact quiet

theorem attemptFails_idle {s : State} {k : Fin 4} (idle : (s.slots[k]'k.isLt).read = none) (transfer crc : Bool) :
    CardQuiet s (attemptFails s k transfer crc) := by
  have quiet := attemptCounted_quiet s k transfer crc
  rw [attemptFails_acts]
  unfold attemptActs
  rw [quiet.idle idle]
  exact quiet

theorem grantBlock_slots {s : State} (idle : ∀ k : Fin 4, (s.slots[k]'k.isLt).read = none)
    (empty : ∀ k : Fin 4, (s.slots[k]'k.isLt).state = .empty) (c : Fin 2) (j : Fin 4) :
    ((grantBlock s c).slots[j]'j.isLt).state = .empty := by
  unfold grantBlock
  split
  · rename_i b k _ _
    have slots : (s.writeBlock b).1.slots = s.slots := (writeBlock_kept (μ := .still) s b).slots
    generalize s.writeBlock b = q at slots ⊢
    dsimp only
    generalize emptied : q.1.setChannel c _ = t
    have same : t.slots = s.slots := emptied ▸ slots
    have quiet : CardQuiet t (if q.2 then countPlaced t k b else t) := .ite (countPlaced_quiet ..) (.refl t)
    rw [pump_idle (quiet.idle (by rw [same]; exact idle k))]
    exact quiet.empty (fun k => by rw [same]; exact empty k) j
  · exact empty j

theorem grantChannelWrite_slots {s : State} (idle : ∀ k : Fin 4, (s.slots[k]'k.isLt).read = none)
    (empty : ∀ k : Fin 4, (s.slots[k]'k.isLt).state = .empty) (c : Fin 2) (j : Fin 4) :
    ((grantChannelWrite s c).slots[j]'j.isLt).state = .empty := by
  unfold grantChannelWrite
  dsimp only
  generalize counted : ({ s.countHostWait with port := _ } : State) = t
  have slots : t.slots = s.slots := by rw [← counted]; rfl
  exact grantBlock_slots (fun k => by rw [slots]; exact idle k) (fun k => by rw [slots]; exact empty k) c j

section resting
variable {s : State} (rest : Resting s)
include rest

theorem Resting.stay : RestsBy (.next s) := by
  intro t same
  cases same
  exact rest.empty

theorem Resting.quiet {t : State} (quiet : CardQuiet s t) : RestsBy (event s t) := .event (quiet.empty rest.empty)

theorem Resting.unless {p : Prop} [Decidable p] {o : Host.Outcome State Fault Refusal} (never : ¬ p) :
    RestsBy (if p then o else .next s) := by
  rw [if_neg never]
  exact rest.stay

theorem Resting.trying (k : Fin 4) : (s.slots[k]'k.isLt).trying = false := by
  unfold Slot.trying Slot.phaseIs
  rw [rest.empty k, rest.idle k]
  rfl

theorem Resting.phaseIs (k : Fin 4) (p : ReadPhase) : (s.slots[k]'k.isLt).phaseIs p = false := by
  unfold Slot.phaseIs
  rw [rest.idle k]

theorem Resting.detectClose (k : Fin 4) : RestsBy (execDetectClose k s) := by
  unfold execDetectClose
  dsimp only
  split
  · exact rest.stay
  · rw [if_neg fun h => Bool.false_ne_true (rest.starting.symm.trans h.1)]
    exact rest.quiet (modSlot_quiet {})

theorem Resting.detectOpen (k : Fin 4) : RestsBy (execDetectOpen k s) := by
  refine .ite (rest.quiet (modSlot_quiet ?_)) rest.stay
  have empty := rest.empty k
  dsimp only
  split
  · exact {}
  · rename_i settling
    exact nomatch empty.symm.trans settling
  · exact {}

theorem Resting.statusResponse (k : Fin 4) (bytes : List Byte) : RestsBy (execStatusResponse k bytes s) := by
  refine .ite ?_ rest.stay
  split
  · exact rest.stay
  · rw [rest.trying, rest.phaseIs]
    exact rest.stay

theorem Resting.statusTimeout (k : Fin 4) : RestsBy (execStatusTimeout k s) := by
  refine .ite ?_ rest.stay
  rw [rest.trying, rest.phaseIs]
  exact rest.stay

theorem Resting.readBlocksResponse (k : Fin 4) (bytes : List Byte) : RestsBy (execReadBlocksResponse k bytes s) := by
  refine .ite ?_ rest.stay
  split
  · exact rest.stay
  · exact rest.quiet (.ite (goReceiving_idle (rest.idle k)) (goChecking_quiet ..))

theorem Resting.portGrant : RestsBy (execPortGrant s) := by
  refine .ite ?_ rest.stay
  split
  · exact .event fun k => by rw [(grantHost_kept (μ := .still) s).slots]; exact rest.empty k
  · exact .event fun k => by rw [(grantRun_kept (μ := .still) s).slots]; exact rest.empty k
  · exact .event (grantChannelWrite_slots rest.idle rest.empty _)
  · exact rest.stay

/-- While the part is STARTING the commands of the slots and the port's grants leave every slot EMPTY. -/
theorem Resting.exec_sound {c : Instr} (sound : slotChange c = .sound) : RestsBy (exec c s) := by
  have noHead := headOf_starting rest.starting
  cases c with
  | cardRead k =>
    show RestsBy (execCardRead k s)
    unfold execCardRead
    rw [noHead]
    exact rest.stay
  | cardRelease k =>
    show RestsBy (execCardRelease k s)
    unfold execCardRelease
    rw [noHead]
    exact rest.stay
  | slotReset k =>
    show RestsBy (execSlotReset k s)
    unfold execSlotReset
    rw [noHead]
    exact rest.stay
  | detectClose k => exact rest.detectClose k
  | detectOpen k => exact rest.detectOpen k
  | removal k => exact rest.unless fun h => h.1 (rest.empty k)
  | writeProtectChange k level => exact rest.quiet (modSlot_quiet {})
  | settleTimerExpiry k => exact rest.unless fun h => nomatch (rest.empty k).symm.trans h.1
  | offIntervalExpiry k => exact rest.unless fun h => nomatch (rest.empty k).symm.trans h.1
  | rampTimerExpiry k => exact rest.unless fun h => nomatch (rest.empty k).symm.trans h.1
  | identifyResponse k bytes => exact rest.unless fun h => nomatch (rest.empty k).symm.trans h.1
  | identifyTimeout k => exact rest.unless fun h => nomatch (rest.empty k).symm.trans h.1
  | setModeResponse k bytes => exact rest.unless fun h => nomatch (rest.trying k).symm.trans h.1
  | setModeTimeout k => exact rest.unless fun h => nomatch (rest.trying k).symm.trans h.1
  | statusResponse k bytes => exact rest.statusResponse k bytes
  | statusTimeout k => exact rest.statusTimeout k
  | readBlocksResponse k bytes => exact rest.readBlocksResponse k bytes
  | readBlocksTimeout k => exact .ite (rest.quiet (goChecking_quiet ..)) rest.stay
  | blockReceived k data crcs =>
    exact .ite (rest.quiet (.ite (blockArrives_quiet ..) (attemptFails_idle (rest.idle k) ..))) rest.stay
  | dataTimeout k =>
    exact .ite (rest.quiet ((setSlot_quiet (countWindow_quiet _ true false)).trans ((sendCard_quiet ..).trans
      (goChecking_quiet ..)))) rest.stay
  | ledBlinkToggle k => exact .ite (rest.quiet (setSlot_quiet {})) rest.stay
  | portGrant => exact rest.portGrant
  | _ => exact nomatch sound

end resting

/-- While the part stays STARTING every slot stays EMPTY. -/
theorem exec_resting {c : Instr} {s t : State} (next : exec c s = .next t)
    (idle : ∀ k : Fin 4, (s.slots[k]'k.isLt).read.isSome →
      (s.slots[k]'k.isLt).state = .reading ∨ (s.slots[k]'k.isLt).state = .releasing)
    (resting : s.running = false → ∀ k : Fin 4, (s.slots[k]'k.isLt).state = .empty)
    (starting : t.running = false) (k : Fin 4) : (t.slots[k]'k.isLt).state = .empty := by
  cases reset : resets c with
  | true =>
    obtain ⟨powerOn, sent, rfl⟩ := exec_resets s reset next
    exact partReset_slot_empty s powerOn k
  | false =>
    cases shared : changesShared c with
    | true =>
      obtain ⟨_, u, step, kept⟩ := exec_sharedStep s shared reset next
      rw [kept.shared.running] at starting
      rw [kept.slots]
      cases step with
      | started =>
        rw [slotsBegin_eq] at starting
        exact nomatch starting
      | _ => exact resting starting k
    | false =>
      have kept := exec_kept shared s t next
      rw [kept.shared.running] at starting
      cases change : slotChange c with
      | still =>
        rw [change] at kept
        rw [kept.slots]
        exact resting starting k
      | sound =>
        refine Resting.exec_sound ⟨starting, resting starting, fun j => ?_⟩ change t next k
        have empty := resting starting j
        by_contra reading
        obtain h | h := idle j (Option.isSome_iff_ne_none.mpr reading)
        · exact nomatch empty.symm.trans h
        · exact nomatch empty.symm.trans h

theorem exec_powerFollowsState {c : Instr} {s t : State} (next : exec c s = .next t) (h : PowerFollowsState s) :
    PowerFollowsState t := by
  have sound := exec_slots_sound next (fun k => ⟨h.off k, h.reads k⟩) fun loading => h.resting (h.starting loading)
  refine ⟨fun k => (sound k).off, fun k => (sound k).reads, ?_, exec_resting next h.reads h.resting⟩
  obtain ⟨_, powerOn, sent, rfl⟩ | ⟨_, _, u, step, kept⟩ := exec_cases s next
  · exact fun _ => rfl
  · rw [kept.shared.autoload, kept.shared.running]
    cases step with
    | started =>
      rw [slotsBegin_eq]
      exact fun loading => nomatch loading
    | _ => exact h.starting

/-- Settles O7: the bounds and the reservations as every command carries them, the slots' power with the rest of the slots
before start-up ends, and the settings by the commands that put them in place. -/
theorem everyStepKeepsBoundsAndReservations : Obligations.EveryStepKeepsBoundsAndReservations := by
  unfold Obligations.EveryStepKeepsBoundsAndReservations
  intro s t next
  refine ⟨fun h => step_keeps (P := WithinBounds) ?_ ?_ next h, fun h => step_keeps (P := ReservationsAgree) ?_ ?_ next h,
    fun h => step_keeps (P := PowerFollowsState) ?_ ?_ next h, fun h => step_keeps (P := SettingsInRange) ?_ ?_ next h⟩
  · exact fun s _ h => ⟨h.txFifo, h.rxFifo, h.number, h.doubts, h.sequence, h.counts⟩
  · intro c s t next h
    have carried := exec_carries next
    obtain ⟨pay, sequence, counts⟩ := withinBounds_iff.mp h
    exact withinBounds_iff.mpr ⟨carried.pay pay, fun n => carried.sequence n (sequence n), carried.counts counts⟩
  · exact fun _ _ h => h
  · exact fun c s t next => (exec_carries next).agree
  · exact fun s _ h => ⟨h.off, h.reads, h.starting, h.resting⟩
  · exact fun c s t => exec_powerFollowsState
  · exact fun s _ h => ⟨h.inForce, h.stored⟩
  · exact fun c s t => exec_settingsInRange

/-! ## The work cells (R9) -/

theorem begins_held (x : Slot) (now : Word) : (x.begins now).held = x.held := by
  unfold Slot.begins Slot.held
  split
  · rw [show ({ x.enter now .settling with timer := some ⟨.settle, ⟨now, 50⟩⟩ } : Slot).read = x.read from enter_read ..,
      show ({ x.enter now .settling with timer := some ⟨.settle, ⟨now, 50⟩⟩ } : Slot).otherCell = x.otherCell from
        enter_otherCell ..]
  · rfl

/-- An EMPTY slot holds no cell, so that it may begin to settle. -/
theorem begins_holdsByState {x : Slot} (holds : x.holdsByState) (empty : x.state = .empty) (now : Word) :
    (x.begins now).holdsByState := by
  unfold Slot.begins
  split
  · have idle : x.read = none := Slot.Reads.idle holds.1 (by rw [empty]; decide)
    refine holdsByState_of_none ((enter_otherCell ..).trans (holds.noOther (by rw [empty]; decide))) fun reading => ?_
    rw [show ({ x.enter now .settling with timer := some ⟨.settle, ⟨now, 50⟩⟩ } : Slot).read = x.read from enter_read ..,
      idle] at reading
    exact nomatch reading
  · exact holds

/-- A change of what is shared leaves the cells accounted for, but for that of a store that ends. -/
theorem SharedStep.accounts {s u : State} {c : Instr} {M : List (Fin 64)} (h : SharedStep s c M u) (accounts : Accounts [] s)
    (resting : s.autoload.isSome → ∀ k : Fin 4, (s.slots[k]'k.isLt).state = .empty) : Accounts M u := by
  cases h with
  | idle => exact accounts
  | tick => exact accounts.same rfl rfl rfl rfl rfl rfl rfl
  | control => exact accounts.same rfl rfl rfl rfl rfl rfl rfl
  | wrote => exact accounts.same rfl rfl rfl rfl rfl rfl rfl
  | began _ free mem =>
    refine (accounts.take mem).setStore fun d => ?_
    rw [show (s.take _).store = none from free]
    exact Nat.add_comm ..
  | @stored c st store m M _ running _ _ cell =>
    have stored : Accounts M { s with store := store } := accounts.setStore fun d => by
      have count := congrArg (List.count d) cell
      rw [List.count_append] at count
      rw [count, running, List.count_nil, Nat.zero_add]
      rfl
    exact stored.same rfl rfl rfl rfl rfl rfl rfl
  | started _ loading =>
    rw [slotsBegin_eq]
    refine accounts.move rfl rfl (fun d => ?_) (fun k => ?_) accounts.orders
    · rw [held_count, held_count, flatMap_vector_congr (v := s.slots) fun k => ?_]
      rw [tab_get]
      exact begins_held ..
    · rw [tab_get]
      exact begins_holdsByState (accounts.slots k) (resting loading k) _

theorem partReset_accounts (s : State) (powerOn : Bool) (sent : List Output) :
    Accounts [] { partReset s powerOn with sent := sent } := by
  refine (accounts_iff.mp reset_cellsAccounted).1.move rfl rfl (fun d => ?_) (fun k => ?_) fun n o found => ?_
  · rw [held_count, held_count]
    show (([] : List (Fin 64)).count d + (((partReset s powerOn).slots.toList.flatMap Slot.held).count d + _ + _ + _ + _)) = _
    rw [flatMap_vector_congr (v := State.reset.slots) fun k => ?_]
    · rfl
    · rw [partReset_slot, show (State.reset.slots[k]'k.isLt) = resetSlot false false from replicate_get _ k]
      rfl
  · show ((partReset s powerOn).slots[k]'k.isLt).holdsByState
    rw [partReset_slot]
    exact ⟨(fun reading => nomatch reading), trivial⟩
  · replace found : ((partReset s powerOn).orders[n]'n.isLt).order = some o := found
    rw [partReset_order] at found
    exact nomatch found

/-- The part is RUNNING exactly while autoload has ended. -/
theorem exec_running {c : Instr} {s t : State} (next : exec c s = .next t) (h : s.running = !s.autoload.isSome) :
    t.running = !t.autoload.isSome := by
  obtain ⟨_, powerOn, sent, rfl⟩ | ⟨_, _, u, step, kept⟩ := exec_cases s next
  · rfl
  · rw [kept.shared.autoload, kept.shared.running]
    cases step with
    | started =>
      rw [slotsBegin_eq]
      rfl
    | _ => exact h

theorem exec_cellsAccounted {c : Instr} {s t : State} (next : exec c s = .next t) (h : CellsAccounted s) : CellsAccounted t := by
  obtain ⟨accounts, starting, resting⟩ := accounts_iff.mp h
  refine accounts_iff.mpr ⟨?_, exec_running next starting, exec_resting next (fun k => (h.slots k).1) resting⟩
  obtain ⟨_, powerOn, sent, rfl⟩ | ⟨_, _, u, step, kept⟩ := exec_cases s next
  · exact partReset_accounts ..
  · have loose := step.accounts accounts fun loading => resting (by rw [starting, loading]; rfl)
    exact kept.accounts [] (by rwa [List.append_nil])

/-- Settles O6: every command carries the accounts of the cells, from its change of what is shared on. -/
theorem everyStepKeepsTheCellsAccounted : Obligations.EveryStepKeepsTheCellsAccounted := by
  unfold Obligations.EveryStepKeepsTheCellsAccounted
  intro s t accounted next
  refine step_keeps (fun s _ h => ?_) (fun c s t => exec_cellsAccounted) next accounted
  exact ⟨h.once, h.filled, h.taken, h.slots, h.orders, h.starting, h.resting⟩

end Sys2Proof.Machine
end

