-- ==== Sys2Proof/Proofs/Served.lean ====
section
/-! The requests that a block answers at the take: none touches the cells or the lists, so that the take and the answer are
all that happens to them (R9, R10, R12); and the answers of PROFILE_READ (R151). -/

namespace Sys2Proof.Machine

-- Checked one after another, as in the tests: a theorem checked alongside others holds its memory.
set_option Elab.async false

/-! ## Changes that leave the cells and the lists -/

/-- The work cells and the intake lists stay as they are. -/
structure CellsStay (s t : State) : Prop where
  cells : t.cells = s.cells := by exact rfl
  intake : t.intake = s.intake := by exact rfl

theorem CellsStay.refl (s : State) : CellsStay s s := {}

theorem CellsStay.trans {s t u : State} (h : CellsStay s t) (k : CellsStay t u) : CellsStay s u :=
  ⟨k.cells.trans h.cells, k.intake.trans h.intake⟩

theorem CellsStay.ite {s t u : State} {p : Prop} [Decidable p] (h : CellsStay s t) (k : CellsStay s u) :
    CellsStay s (if p then t else u) := by
  split
  · exact h
  · exact k

theorem EventFrame.cellsStay {s t : State} (h : EventFrame s t) : CellsStay s t :=
  ⟨(congrArg State.cells h :), (congrArg State.intake h :)⟩

theorem PayFrame.cellsStay {s t : State} (h : PayFrame s t) : CellsStay s t :=
  ⟨(congrArg State.cells h :), (congrArg State.intake h :)⟩

section stays
variable (s : State)

theorem finish_cellsStay (t : State) : CellsStay t (finish s t) := ⟨finish_cells .., finish_intake ..⟩

/-! ### Pictures (R29 to R32) -/

theorem rasterOpen_cellsStay (c : Fin 64) : CellsStay s (rasterOpen s c).1 := by
  unfold rasterOpen
  dsimp only
  split
  · exact .refl s
  · split
    · exact .refl s
    · split
      · exact .refl s
      · split
        · exact .refl s
        · rename_i allocated
          obtain ⟨i, -, -, rfl, -⟩ := allocate_cases allocated
          exact {}

theorem rasterSeal_cellsStay (c : Fin 64) : CellsStay s (rasterSeal s c).1 := by
  unfold rasterSeal
  split
  · exact .refl s
  · split <;> exact {}

theorem pictureFree_cellsStay (c : Fin 64) : CellsStay s (pictureFree s c).1 := by
  unfold pictureFree
  split
  · exact .refl s
  · split
    · exact .refl s
    · split <;> exact {}

theorem pictureInfo_cellsStay (c : Fin 64) : CellsStay s (pictureInfo s c).1 := by
  unfold pictureInfo
  dsimp only
  split <;> exact .refl s

/-! ### Orders (R81 to R94) -/

theorem releaseReferences_cellsStay (n : Fin 48) (o : Order) : CellsStay s (releaseReferences s n o) := by
  rw [releaseReferences_keeps]
  exact {}

theorem voidOrClose_cellsStay (n : Fin 48) (o : Order) : CellsStay s (voidOrClose s n o) := by
  rw [voidOrClose_keeps]
  exact {}

theorem releaseWhere_cellsStay (p : Reservation → Bool) : CellsStay s (releaseWhere s p) := by
  rw [releaseWhere_keeps]
  exact {}

theorem modOrder_cellsStay (h : Handle) (f : Order → Order) : CellsStay s (s.modOrder h f) := by
  rw [modOrder_keeps]
  exact {}

theorem checkSettle_cellsStay (h : Handle) : CellsStay s (checkSettle s h) := by
  rw [checkSettle_keeps]
  exact {}

theorem openPriced_cellsStay (tag : Word) (cls : OrderClass) (items : List Item) : CellsStay s (openPriced s tag cls items).1 := by
  unfold openPriced
  dsimp only
  split
  · exact .refl s
  · split
    · exact .refl s
    · split
      · exact .refl s
      · have claimed : CellsStay s (s.claim (List.map (fun it => it.raster) (priced s.settings items))) := by
          rw [claim_keeps]
          exact {}
        exact claimed.trans {}

theorem orderOpen_cellsStay (c : Fin 64) : CellsStay s (orderOpen s c).1 := by
  unfold orderOpen
  dsimp only
  split
  · exact .refl s
  · split
    · exact .refl s
    · split
      · exact .refl s
      · split
        · exact .refl s
        · split
          · exact {}
          · exact openPriced_cellsStay ..

theorem onOrder_cellsStay {s : State} {c : Fin 64} {f : Handle → Fin 48 → Order → State × Answer}
    (h : ∀ hd n o, CellsStay s (f hd n o).1) : CellsStay s (onOrder s c f).1 := by
  unfold onOrder
  dsimp only
  split
  · exact .refl s
  · exact h ..

theorem amended_cellsStay (n : Fin 48) (o : Order) (items : List Item) : CellsStay s (amended s n o items) := by
  have dropped : CellsStay s (dropCancelled s items).1 := by
    rw [show (dropCancelled s items).1 = List.foldl State.dropRef s _ from rfl, dropRefs_keeps]
    exact {}
  unfold amended
  refine dropped.trans ?_
  generalize dropCancelled s items = q
  exact .ite (voidOrClose_cellsStay ..) (.ite {} {})

theorem orderAmend_cellsStay (c : Fin 64) : CellsStay s (orderAmend s c).1 := by
  refine onOrder_cellsStay fun h n o => ?_
  dsimp only
  split
  · split
    · exact .refl s
    · split
      · exact .refl s
      · split
        · exact .refl s
        · exact amended_cellsStay ..
  · exact .refl s

theorem orderCancel_cellsStay (c : Fin 64) : CellsStay s (orderCancel s c).1 := by
  refine onOrder_cellsStay fun h n o => ?_
  have released := releaseWhere_cellsStay s fun r => r.order == h
  dsimp only
  split
  case h_1 => exact releaseReferences_cellsStay ..
  case h_2 | h_3 => exact {}
  case h_4 | h_5 =>
    split
    · exact released.trans (voidOrClose_cellsStay ..)
    · exact released
  case h_6 => exact released.trans ((modOrder_cellsStay ..).trans (checkSettle_cellsStay ..))
  all_goals exact .refl s

theorem orderRetire_cellsStay (c : Fin 64) : CellsStay s (orderRetire s c).1 := by
  refine onOrder_cellsStay fun h n o => ?_
  dsimp only
  split
  · exact {}
  · exact .refl s

/-! ### Profiles and settings (R151, R185, R186) -/

theorem profileRead_cellsStay (n : Fin 3) (c : Fin 64) : CellsStay s (profileRead n s c).1 := by
  unfold profileRead
  dsimp only
  split
  · exact .refl s
  · split <;> exact .refl s

theorem settingsRead_cellsStay (c : Fin 64) : CellsStay s (settingsRead s c).1 := by
  unfold settingsRead
  split <;> exact .refl s

theorem settingsWrite_cellsStay (c : Fin 64) : CellsStay s (settingsWrite s c).1 := by
  unfold settingsWrite
  split
  · exact .refl s
  · dsimp only
    split
    · exact .refl s
    · have put (v : Settings) : CellsStay s { s with settings := v } := {}
      have handed (t : State) : CellsStay t (handLine t) := CellsStay.trans {} (payIdle_frame _).cellsStay
      exact .ite ((put _).trans (handed _)) (put _)

end stays

/-- A station that holds no cell serves PROFILE_READ. -/
theorem execProfileRead_free {s : State} {n : Fin 3} (free : (s.stations[n]'n.isLt).takenCell = none) :
    execProfileRead n s = serve s (stationList n) .profileRead (profileRead n) := if_pos free

/-! ## What a served request does to the cells -/

/-- The command completes, the cell leaves its list and is ANSWERED, and every other cell stays as it was. -/
def ServesCell (s : State) (c : Fin 64) (o : Host.Outcome State Fault Refusal) : Prop :=
  ∃ t, o = .next t ∧ (t.cells[c]'c.isLt).hand = .answered ∧
    (∀ m : Fin 11, (t.intake[m]'m.isLt) = (s.intake[m]'m.isLt).filter (· != c)) ∧
    ∀ d : Fin 64, d ≠ c → (t.cells[d]'d.isLt) = s.cells[d]'d.isLt

/-- A take, a change that leaves the cells, an answer, and what follows an event. -/
theorem servesCell_of_stays {s t u : State} {c : Fin 64} {a : Answer} (effect : CellsStay (s.take c) t)
    (follows : CellsStay (t.answer c a) u) : ServesCell s c (.next u) := by
  refine ⟨u, rfl, ?_, fun m => ?_, fun d other => ?_⟩
  · rw [follows.cells, answer_cell_self]
    rfl
  · rw [follows.intake]
    show (t.intake[m]'m.isLt) = _
    rw [effect.intake, take_intake]
  · rw [follows.cells, answer_cell_other t a other, effect.cells, take_cell_other s other]

section serve
variable {s : State} {l : Fin 11} {k : Kind} {f : State → Fin 64 → State × Answer} {c : Fin 64}

theorem serve_servesCell (asks : s.asks l k c) (stays : ∀ s c, CellsStay s (f s c).1) : ServesCell s c (serve s l k f) := by
  rw [serve_some (headOf_of_asks asks)]
  exact servesCell_of_stays (stays ..) (finish_cellsStay ..)

theorem serveWork_servesCell (asks : s.asks l k c) (stays : ∀ s c, CellsStay s (f s c).1) :
    ServesCell s c (serveWork s l k f) := by
  rw [serveWork_some (headOf_of_asks asks)]
  exact servesCell_of_stays (stays ..) (afterWork_frame ..).cellsStay

/-- The staging requests wait while the host's writes do. -/
theorem unless_hostWritesWait {o : Host.Outcome State Fault Refusal} (able : s.hostWritesWait = false) (h : ServesCell s c o) :
    ServesCell s c (if s.hostWritesWait then .next s else o) := by
  rw [able]
  exact h

end serve

/-- Every request of `servedAt` is served, by the request's own change. -/
theorem exec_servesCell {i : Instr} {l : Fin 11} {k : Kind} {s : State} {c : Fin 64} (served : servedAt i = some (l, k))
    (able : ableToServe s i) (asks : s.asks l k c) : ServesCell s c (exec i s) := by
  cases i with
  | rasterOpen =>
    cases served
    exact unless_hostWritesWait able (serve_servesCell asks rasterOpen_cellsStay)
  | rasterSeal =>
    cases served
    exact unless_hostWritesWait able (serve_servesCell asks rasterSeal_cellsStay)
  | pictureFree =>
    cases served
    exact unless_hostWritesWait able (serve_servesCell asks pictureFree_cellsStay)
  | pictureInfo =>
    cases served
    exact unless_hostWritesWait able (serve_servesCell asks pictureInfo_cellsStay)
  | orderOpen =>
    cases served
    show ServesCell s c (execOrderOpen s)
    exact serve_servesCell asks orderOpen_cellsStay
  | orderAmend =>
    cases served
    show ServesCell s c (execOrderAmend s)
    exact serveWork_servesCell asks orderAmend_cellsStay
  | orderCancel =>
    cases served
    show ServesCell s c (execOrderCancel s)
    exact serveWork_servesCell asks orderCancel_cellsStay
  | orderRetire =>
    cases served
    show ServesCell s c (execOrderRetire s)
    exact serve_servesCell asks orderRetire_cellsStay
  | profileRead n =>
    cases served
    show ServesCell s c (execProfileRead n s)
    rw [execProfileRead_free able]
    exact serve_servesCell asks fun s => profileRead_cellsStay s n
  | settingsRead =>
    cases served
    show ServesCell s c (execSettingsRead s)
    exact serve_servesCell asks settingsRead_cellsStay
  | settingsWrite =>
    cases served
    show ServesCell s c (execSettingsWrite s)
    exact serve_servesCell asks settingsWrite_cellsStay
  | _ => exact nomatch served

/-! ## PROFILE_READ (R151, R192) -/

section profile
variable {s : State} {n : Fin 3} {c : Fin 64}

theorem profileRead_badRegion (bad : 3 < (s.cells[c]'c.isLt).req 0 1) : profileRead n s c = (s, refuse .badField (plainField 0)) :=
  if_pos bad

theorem profileRead_none (region : (s.cells[c]'c.isLt).req 0 1 ≤ 3) (none : (s.stations[n]'n.isLt).profile = none) :
    profileRead n s c = (s, refuse .wrongState (s.stations[n]'n.isLt).state.code) := by
  unfold profileRead
  dsimp only
  rw [if_neg (by omega), none]

theorem profileRead_some {p : Profile} (region : (s.cells[c]'c.isLt).req 0 1 ≤ 3) (loaded : (s.stations[n]'n.isLt).profile = some p) :
    profileRead n s c = (s, profileAnswer p ((s.cells[c]'c.isLt).req 0 1)) := by
  unfold profileRead
  dsimp only
  rw [if_neg (by omega), loaded]

theorem sourceCodes_eq (p : Profile) : p.sourceCodes = p.fromEngine.map fun engine => if engine then 0 else 1 := by
  refine List.map_congr_left fun engine _ => ?_
  cases engine <;> rfl

/-- The answer's body by the region asked for. -/
theorem profileAnswer_eq (p : Profile) {region : Nat} (known : region ≤ 3) : profileAnswer p region =
    ⟨.done, p.sourceCodes.getD region 0,
      if region = 0 then le 4 p.ident ++ p.sourceCodes.map (BitVec.ofNat 8) ++ partBytes 4 p.scalars
      else (if region = 1 then p.toneY else if region = 2 then p.toneM else p.toneC).flatMap (leInt 2)⟩ := by
  obtain rfl | rfl | rfl | rfl : region = 0 ∨ region = 1 ∨ region = 2 ∨ region = 3 := by omega
  all_goals rfl

/-- PROFILE_READ of a station that holds no cell is answered as its checks say, at the take. -/
theorem exec_profileRead (free : (s.stations[n]'n.isLt).takenCell = none) (asks : s.asks (stationList n) .profileRead c)
    {a : Answer} (answer : profileRead n (s.take c) c = (s.take c, a)) :
    exec (.profileRead n) s = .next (finish s ((s.take c).answer c a)) := by
  show execProfileRead n s = _
  rw [execProfileRead_free free, serve_some (headOf_of_asks asks), answer]

end profile

/-- Settles O15: each request leaves the cells but for its take and its answer; PROFILE_READ by its checks. -/
theorem servedRequestsAreTakenAndAnswered : Obligations.ServedRequestsAreTakenAndAnswered := by
  unfold Obligations.ServedRequestsAreTakenAndAnswered
  refine ⟨fun i l k s c => exec_servesCell, fun s n c free asks => ?_⟩
  refine ⟨fun bad => ?_, fun region none => ?_, fun p region loaded => ?_⟩
  · exact exec_profileRead free asks (profileRead_badRegion bad)
  · exact exec_profileRead free asks (profileRead_none region none)
  · rw [← sourceCodes_eq]
    exact exec_profileRead free asks ((profileRead_some region loaded).trans (congrArg _ (profileAnswer_eq p region)))

end Sys2Proof.Machine
end
